-- ==== Sys2Proof/Word.lean ====
section
/-!
DEFINITION. The word types of the model: registers and effective addresses (rule R20), bytes (rule R60), instruction
words (rule R123) and register numbers.
-/

namespace Sys2Proof

/-- A register or an effective address. 64 bits wide: on a 32-bit hart (`Config.xlen = .rv32`) the upper half of every
register reads as zero (rule R20, `XLEN` in 32 or 64; log entry 1). -/
abbrev Word := BitVec 64

/-- "memory is organized as an array of bytes" (rule R60). -/
abbrev Byte := BitVec 8

/-- An instruction word of the reference encoding: 32 bits (rules R123, R128). -/
abbrev InstrWord := BitVec 32

/-- The number of an integer register, 0 to 31 (rule R20). -/
abbrev RegIdx := Fin 32

end Sys2Proof
end

