-- ==== Sys2Proof/Config.lean ====
section
/-!
DEFINITION. What the implementation or the platform fixes (the parameter table of spec/00_scope.md section 4), as plain
data, and the free values of the model. Every parameter the spec leaves OPEN is a field of `Config`; a state carries its
`Config` and no step changes it, so a statement about every state holds for every value of every parameter.
`Config.ref` is the spec's reference configuration `REF`, `Config.refOp` its reference operational model `REF-OP` (D19).
-/

namespace Sys2Proof

/-- `XLEN` (D1). -/
inductive XLen where
  | rv32
  | rv64
  deriving DecidableEq, Repr

/-- The `level` operand of write and hint instructions (rules R171, R181). -/
inductive Level where
  | default
  | l1
  | l2
  | l3
  deriving DecidableEq, Repr

/-- `POC_SET`, the points of convergence an instruction can name: PoC-memory alone (rule R85, D7). -/
inductive Poc where
  | memory
  deriving DecidableEq, Repr

/-- The type of an access; it selects the permissions an access needs (rule R222) and may influence its path
(rule R76). `fetch`, `load` and `store` are the accesses of the imported base ISA. -/
inductive AccessKind where
  | fetch
  | load
  | store
  | management
  | zero
  | hint
  deriving DecidableEq, Repr

/-- What a path is a function of beside the address (rules R76, R78): the agent, the type of the access, and the memory
type its page gives it, the attributes that come with the access and not with the address (0 where none comes; log entry
46). -/
structure Access where
  agent : Nat
  kind : AccessKind
  memType : Nat
  deriving DecidableEq, Repr

/-- The three operations of a management instruction (rules R71, R72, R73). -/
inductive CacheOp where
  | invalidate
  | clean
  | flush
  deriving DecidableEq, Repr

/-- How a parameter settles a point where the spec allows two behaviours: never, always, or anew each time by a free
value. -/
inductive Choice where
  | no
  | yes
  | drawn
  deriving DecidableEq, Repr

/-- The kinds of region a memory location belongs to, vacant apart: an address no region lists is vacant (rule R60). -/
inductive RegionKind where
  | mainMemory
  | ioDevice
  deriving DecidableEq, Repr

/-- One region of the physical address map with its attributes, `MEM_ATTRS` (rules R60, R77, R234; I15). -/
structure Region where
  base : Nat
  size : Nat
  kind : RegionKind
  cacheable : Bool
  /-- The coherence PMA: hardware enforces coherence (rule R151). -/
  hardwareCoherent : Bool
  r : Bool
  w : Bool
  x : Bool
  deriving DecidableEq, Repr

/-- One cache. `tracksModified` is `TRACKS_MODIFIED` (rule R43). A cache is named by its place in `Config.caches`. -/
structure CacheDesc where
  tracksModified : Bool
  deriving DecidableEq, Repr

/-- One coherence domain on a path (rules R79, R81): its name, the caches an access reaches directly, on the way to
memory, and those it reaches indirectly, through the coherence mechanism. -/
structure Hop where
  domain : Nat
  direct : List Nat
  indirect : List Nat
  deriving DecidableEq, Repr

/-- The path of the accesses of one agent to one range of physical addresses (rules R76, R78). `kinds = []` is every
kind of access, `memTypes = []` every memory type. The domains are listed from the agent outward: `toPoc` up to and
including PoC-memory, `beyondPoc` between PoC-memory and the memory location (rules R84, R85, R86). So PoC-memory lies
between two domains, and no domain has caches on both sides of it: how PoCs and domains relate is undefined (rule R7, N7),
and that is the model's choice (DESIGN CHOICE, log entry 50). `passesPoc` is false for an agent that reaches memory without
passing through PoC-memory (rule R86). -/
structure PathRule where
  agent : Nat
  base : Nat
  size : Nat
  kinds : List AccessKind
  memTypes : List Nat
  toPoc : List Hop
  beyondPoc : List Hop
  passesPoc : Bool
  deriving DecidableEq, Repr

/-- `HINT_TRIGGER_CLASS` (rule R249). -/
inductive HintTriggerClass where
  | loadAndStore
  | neither
  deriving DecidableEq, Repr

/-- `TVAL_RULE`, what lands in the trap value register after a CMO fault (rule R252, D15). -/
inductive TvalRule where
  | info
  | inBlock
  | zero
  | drawn
  deriving DecidableEq, Repr

/-- `CMO_AD`, what a CMO instruction does with the PTE bits `A` and `D` (rule R229, D33). -/
inductive AdPolicy where
  | ignored
  | required
  | updated
  deriving DecidableEq, Repr

/-- The parameters of one `xcmocontrol` register: its number, `CSR_ADDR` (D4), and `WARL_LEGAL` (rule R36, D9): the map
from the six fields written to the six fields held, as the list of the written values it does not leave as they are. The
six fields in bit order from 0: `CBME`, `CBWE`, `INVW0I`, `INVW0E`, `INVW1I`, `INVW1E`. -/
structure CmoCsrParam where
  number : BitVec 12
  legalize : List (BitVec 6 × BitVec 6)
  deriving DecidableEq, Repr

/-- The eight abstract instructions an encoding has words for (rule R121). -/
inductive CmoOp where
  | inval
  | clean
  | flush
  | zero
  | prefetchR
  | prefetchW
  | prefetchI
  | demote
  deriving DecidableEq, Repr

/-- Where the value of an operand stands in an instruction word: from bit `lo` on, or nowhere, every word of the row
having the same value. -/
inductive EncField where
  | bits (lo : Nat)
  | const (value : Nat)
  deriving DecidableEq, Repr

/-- One row of an encoding: a word `w` with `w & mask = value` is an instruction of `op`, with its register number in
`rs1` and its PoC or level, by number, in `sel`. -/
structure EncRow where
  op : CmoOp
  mask : Nat
  value : Nat
  rs1 : EncField
  sel : EncField
  deriving DecidableEq, Repr

/-- `ENC` and `ILEN_CMO` (rules R122, R128; D5, D30): the rows of a decoder, and the bytes of every CMO instruction. A
row whose mask covers the whole word gives one word its meaning, so rows can state any function on words (log entry 47).
-/
structure Encoding where
  ilen : Nat
  rows : List EncRow
  deriving DecidableEq, Repr

/-- A row of `ENC_REF` for an instruction with a PoC: `sel` is zero (rules R123, R124, R126). -/
def EncRow.refPoc (op : CmoOp) (number : Nat) : EncRow :=
  { op := op, mask := 0xFFF07FFF, value := number * 0x100000 + 0x0B, rs1 := .bits 15, sel := .const 0 }

/-- A row of `ENC_REF` for an instruction with a level (rules R123, R124, R125). -/
def EncRow.refLevel (op : CmoOp) (number : Nat) : EncRow :=
  { op := op, mask := 0xF9F07FFF, value := number * 0x100000 + 0x0B, rs1 := .bits 15, sel := .bits 25 }

/-- `ENC_REF` (rule R124): four bytes, the eight values of the field `op`. -/
def Encoding.ref : Encoding :=
  { ilen := 4,
    rows := [.refPoc .inval 0b00000, .refPoc .clean 0b00001, .refPoc .flush 0b00010, .refLevel .zero 0b00100,
             .refLevel .prefetchR 0b01000, .refLevel .prefetchW 0b01001, .refLevel .prefetchI 0b01010,
             .refLevel .demote 0b01011] }

/-- The parameters of the machine (spec/00_scope.md section 4). -/
structure Config where
  xlen : XLen
  /-- `ENC` with `ILEN_CMO`. -/
  enc : Encoding
  /-- `log2(B)`, `B` the cache block size in bytes (rule R41, D2). -/
  logB : Nat
  /-- `HAS_H` (rule R27, D3). -/
  hasH : Bool
  /-- `TOPOLOGY`: the caches and the paths of every system agent (D19). The hart is agent 0. -/
  caches : List CacheDesc
  paths : List PathRule
  /-- `MEM_ATTRS`, as they hang on the address. -/
  regions : List Region
  /-- `MEM_ATTRS`, as they come with the access (rule R78, I15): the memory types a page can have beside type 0, and
  whether each makes main memory cacheable; type 0 leaves that to the region (log entry 46). -/
  memTypes : List (Nat × Bool)
  resetVector : Word
  mcmo : CmoCsrParam
  scmo : CmoCsrParam
  hcmo : CmoCsrParam
  vscmo : CmoCsrParam
  /-- `VS_REDIRECT` (rule R39). -/
  vsRedirect : Bool
  /-- `LEVEL_HONOURED` (rules R172, R182). -/
  levelHonoured : Bool
  /-- The place on the path of the cache the level `default` designates (rule R171, I11). -/
  defaultLevel : Nat
  /-- `PREFETCH_I_SAME_CACHE` (rule R186). -/
  prefetchISameCache : Bool
  /-- `HINT_ACTION` (rules R75, R183, D17): whether a hint moves a cache block. -/
  hintAction : Choice
  hintTrigger : HintTriggerClass
  tval : TvalRule
  cmoAd : AdPolicy
  /-- Whether a management instruction counts as a write for the `D` bit (D33). -/
  managementDirties : Bool
  /-- `LOADVAL_AFTER_INVAL` (rule R95): true when the byte is a draw, false when it comes from a copy (D18). -/
  loadAfterInvalDrawn : Bool
  /-- Whether an invalidate transfers a modified block (rule R71, I19). -/
  invalTransfers : Choice
  /-- Whether a clean leaves a valid block invalid (rule R72, I20). -/
  cleanInvalidates : Choice
  /-- Whether an operation transfers a block it may transfer to a cache outside its set (rules R71, R72, R73; I19,
  I20). -/
  cacheTransfers : Choice
  /-- Whether a load allocates the block (rule R65). -/
  loadAllocates : Choice
  /-- Whether a store or `CBO.ZERO` allocates the block (rule R173, I22). -/
  writeAllocates : Choice
  /-- Whether a data write updates a copy in a cache that does not track the modified state, or makes it invalid
  (rule R70). -/
  writeThroughUpdates : Choice
  /-- Whether a CMO instruction breaks a reservation on its block (rules R102, R185, N12). -/
  breaksReservation : Choice
  /-- Whether a `type=2` trigger fires on a CMO address (rule R248, I8). -/
  mcontrolFires : Choice
  /-- Whether a data-match trigger fires on a CMO instruction (rule R250, I9). -/
  dataMatchFires : Choice
  deriving DecidableEq, Repr

/-- The places where a step draws a free value. -/
inductive DrawSite where
  | invalTransfers (cache : Nat)
  | cleanInvalidates (cache : Nat)
  | cacheTransfers (cache : Nat)
  | transferTarget (cache : Nat)
  | survivor
  | loadAllocates
  | writeAllocates (address : Nat)
  | writeThroughUpdates (cache address : Nat)
  | hintActs
  | hintDestination
  | breaksReservation
  | triggerFires (index : Nat) (fetch : Bool)
  | tvalRule
  | tvalOffset
  | loadByte (address : Nat)
  deriving DecidableEq, Repr

/-- A free truth value: the model knows nothing of it. The first argument is the counter `State.tick`. -/
opaque Config.freeBool : Nat → DrawSite → Bool

/-- A free number. -/
opaque Config.freeNat : Nat → DrawSite → Nat

/-- A free byte: what a load returns after an invalidate (rule R95). -/
opaque Config.freeByte : Nat → DrawSite → Byte

/-- The range of `REF`'s main memory, `0x8000_0000` to `0x8FFF_FFFF` (D19). -/
def Config.refMemory : Region :=
  { base := 0x80000000, size := 0x10000000, kind := .mainMemory, cacheable := true, hardwareCoherent := false,
    r := true, w := true, x := true }

/-- The path of the hart in `REF`: its private cache, cache 0, alone in its domain (D19). -/
def Config.refHartPath : PathRule :=
  { agent := 0, base := 0, size := 2 ^ 64, kinds := [], memTypes := [],
    toPoc := [{ domain := 0, direct := [0], indirect := [] }], beyondPoc := [], passesPoc := true }

/-- The path of the device in `REF`: straight to memory (D19). -/
def Config.refDevicePath : PathRule :=
  { agent := 1, base := 0, size := 2 ^ 64, kinds := [], memTypes := [], toPoc := [], beyondPoc := [],
    passesPoc := true }

/-- The reference configuration `REF` (spec/00_scope.md section 4, D19), the points it leaves to a draw drawn. The CSR
numbers and the reset vector are the model's (log entries 2 and 3). Section 4 gives `CMO_AD` no value in `REF` either
("not exercised"): that `REF` ignores the PTE bits `A` and `D`, and that a management instruction is then no write for
`D`, is the model's (`cmoAd`, `managementDirties`; DESIGN CHOICE, log entry 31). So are the place `defaultLevel` and
`vsRedirect`: no rule's outcome depends on the first (I11), and `REF`, without the hypervisor extension, does not use the
second. -/
def Config.ref : Config :=
  { xlen := .rv64, enc := Encoding.ref, logB := 6, hasH := false,
    caches := [{ tracksModified := true }],
    paths := [Config.refHartPath, Config.refDevicePath],
    regions := [Config.refMemory], memTypes := [],
    resetVector := 0x80000000#64,
    mcmo := { number := 0x7C0#12, legalize := [] },
    scmo := { number := 0x5C0#12, legalize := [] },
    hcmo := { number := 0x6C0#12, legalize := [] },
    vscmo := { number := 0x6C1#12, legalize := [] },
    vsRedirect := false, levelHonoured := false, defaultLevel := 0, prefetchISameCache := true,
    hintAction := .no, hintTrigger := .neither, tval := .info, cmoAd := .ignored, managementDirties := false,
    loadAfterInvalDrawn := true, invalTransfers := .drawn, cleanInvalidates := .drawn,
    cacheTransfers := .drawn, loadAllocates := .drawn, writeAllocates := .drawn, writeThroughUpdates := .drawn,
    breaksReservation := .drawn, mcontrolFires := .drawn, dataMatchFires := .drawn }

/-- The reference operational model `REF-OP`: one admissible execution of `REF` (D19). -/
def Config.refOp : Config :=
  { Config.ref with
    loadAfterInvalDrawn := false, invalTransfers := .no, cleanInvalidates := .no, cacheTransfers := .no,
    loadAllocates := .yes, writeAllocates := .yes, writeThroughUpdates := .yes, breaksReservation := .no }

end Sys2Proof
end

