-- ==== Sys2Proof/Syntax.lean ====
section
/-!
DEFINITION. The instructions: one constructor per row of spec/opcode_table.json, with the operands of rule R121. There
is no destination register, no second source register and no immediate.
-/

namespace Sys2Proof

/-- The nine mnemonics (rules R2, R121). -/
inductive Instr where
  | cboInval (rs1 : RegIdx) (poc : Poc)
  | cboClean (rs1 : RegIdx) (poc : Poc)
  | cboFlush (rs1 : RegIdx) (poc : Poc)
  | cboZero (rs1 : RegIdx) (level : Level)
  | prefetchR (rs1 : RegIdx) (level : Level)
  | prefetchW (rs1 : RegIdx) (level : Level)
  | prefetchI (rs1 : RegIdx) (level : Level)
  | demote (rs1 : RegIdx) (level : Level)
  /-- Named by the source, its operands never defined (rule R200). -/
  | cboSize
  deriving DecidableEq, Repr

end Sys2Proof
end

