-- ==== Sys2Proof/WellFormed.lean ====
section
/-!
DEFINITION. Which instructions can stand in a program: those the reference encoding has a word for. The types of the
operands leave no other check: a register number is below 32, a PoC is PoC-memory (rule R126), a level is one of four.
-/

namespace Sys2Proof

/-- `CBO.SIZE` has no encoding (rules R134, R200); every other instruction has one word (rule R122 (b)). -/
def Instr.wf : Instr → Bool
  | .cboInval _ _ => true
  | .cboClean _ _ => true
  | .cboFlush _ _ => true
  | .cboZero _ _ => true
  | .prefetchR _ _ => true
  | .prefetchW _ _ => true
  | .prefetchI _ _ => true
  | .demote _ _ => true
  | .cboSize => false

end Sys2Proof
end

