-- ==== Sys2Proof/Decode.lean ====
section
/-!
DEFINITION. The reference encoding `ENC_REF` (rules R123 to R127; the spec's own, D5): the decoder, total on any bytes
and rejecting by name, and the encoder; then the decoder and the encoder of any encoding the machine may be configured
with (rule R122), which is what a step runs, and the length of an instruction.
-/

namespace Sys2Proof

/-- The bytes of a value, least significant first: an instruction word is little-endian (rule R128). -/
def toBytesLE (value : Nat) : Nat → List Byte
  | 0 => []
  | n + 1 => BitVec.ofNat 8 value :: toBytesLE (value / 256) n

/-- The value of a little-endian list of bytes. -/
def ofBytesLE : List Byte → Nat
  | [] => 0
  | b :: bs => b.toNat + 256 * ofBytesLE bs

/-- `v[lo+n-1:lo]` as a number of `n` bits. -/
def field (w : InstrWord) (lo n : Nat) : BitVec n := w.extractLsb' lo n

/-- Why bytes are no CMO instruction (rule R127; a word of another major opcode is the base ISA's). -/
inductive DecodeError where
  | tooShort
  | otherOpcode
  | reservedHigh
  | reservedFunct
  | reservedRd
  | reservedOp
  | reservedPoc
  deriving DecidableEq, Repr

/-- `sel` as a level (rule R125). -/
def decodeLevel (sel : BitVec 2) : Level :=
  if sel = 0#2 then .default else if sel = 1#2 then .l1 else if sel = 2#2 then .l2 else .l3

/-- `sel` as a PoC: `00` is PoC-memory, the others are reserved (rule R126). -/
def decodePoc (sel : BitVec 2) : Except DecodeError Poc :=
  if sel = 0#2 then .ok .memory else .error .reservedPoc

/-- The instruction a value of `op` selects (rule R124). -/
def decodeOp (op : BitVec 5) (rs1 : RegIdx) (sel : BitVec 2) : Except DecodeError Instr :=
  if op = 0b00000#5 then (decodePoc sel).map (.cboInval rs1)
  else if op = 0b00001#5 then (decodePoc sel).map (.cboClean rs1)
  else if op = 0b00010#5 then (decodePoc sel).map (.cboFlush rs1)
  else if op = 0b00100#5 then .ok (.cboZero rs1 (decodeLevel sel))
  else if op = 0b01000#5 then .ok (.prefetchR rs1 (decodeLevel sel))
  else if op = 0b01001#5 then .ok (.prefetchW rs1 (decodeLevel sel))
  else if op = 0b01010#5 then .ok (.prefetchI rs1 (decodeLevel sel))
  else if op = 0b01011#5 then .ok (.demote rs1 (decodeLevel sel))
  else .error .reservedOp

/-- One word (rules R123, R127). -/
def decodeWord (w : InstrWord) : Except DecodeError Instr :=
  if field w 0 7 ≠ 0b0001011#7 then .error .otherOpcode
  else if field w 27 5 ≠ 0#5 then .error .reservedHigh
  else if field w 12 3 ≠ 0#3 then .error .reservedFunct
  else if field w 7 5 ≠ 0#5 then .error .reservedRd
  else decodeOp (field w 20 5) (field w 15 5).toFin (field w 25 2)

/-- The instruction at the head of a list of bytes, and the bytes after it (rule R128: four bytes, little-endian). -/
def decode : List Byte → Except DecodeError (Instr × List Byte)
  | b0 :: b1 :: b2 :: b3 :: rest =>
    (decodeWord (BitVec.ofNat 32 (ofBytesLE [b0, b1, b2, b3]))).map fun i => (i, rest)
  | _ => .error .tooShort

/-- `word = (sel << 25) | (op << 20) | (rs1 << 15) | 0x0B` (spec/95_test_vectors.md section 2.1, D5). -/
def assemble (sel : BitVec 2) (op : BitVec 5) (rs1 : RegIdx) : InstrWord :=
  0#5 ++ sel ++ op ++ (BitVec.ofFin rs1 : BitVec 5) ++ 0#3 ++ 0#5 ++ 0b0001011#7

/-- The `sel` of a level (rule R125). -/
def encodeLevel : Level → BitVec 2
  | .default => 0#2
  | .l1 => 1#2
  | .l2 => 2#2
  | .l3 => 3#2

/-- The `sel` of a PoC (rule R126). -/
def encodePoc : Poc → BitVec 2
  | .memory => 0#2

/-- The word of an instruction (rule R124); `CBO.SIZE` has none (rule R134). -/
def encodeWord : Instr → Option InstrWord
  | .cboInval rs1 poc => some (assemble (encodePoc poc) 0b00000#5 rs1)
  | .cboClean rs1 poc => some (assemble (encodePoc poc) 0b00001#5 rs1)
  | .cboFlush rs1 poc => some (assemble (encodePoc poc) 0b00010#5 rs1)
  | .cboZero rs1 level => some (assemble (encodeLevel level) 0b00100#5 rs1)
  | .prefetchR rs1 level => some (assemble (encodeLevel level) 0b01000#5 rs1)
  | .prefetchW rs1 level => some (assemble (encodeLevel level) 0b01001#5 rs1)
  | .prefetchI rs1 level => some (assemble (encodeLevel level) 0b01010#5 rs1)
  | .demote rs1 level => some (assemble (encodeLevel level) 0b01011#5 rs1)
  | .cboSize => none

/-- The bytes of an instruction as they lie in memory. -/
def encode (i : Instr) : Option (List Byte) := (encodeWord i).map fun w => toBytesLE w.toNat 4

/-! ### Any encoding (rule R122) -/

/-- The value an operand has in a word, `width` bits wide. -/
def EncField.read (f : EncField) (width w : Nat) : Nat :=
  match f with
  | .bits lo => (w >>> lo) % 2 ^ width
  | .const n => n % 2 ^ width

/-- The bits of a word that give an operand the value `n`. -/
def EncField.put (f : EncField) (n : Nat) : Nat :=
  match f with
  | .bits lo => n <<< lo
  | .const _ => 0

/-- Some word of the row gives the operand the value `n`. -/
def EncField.admits (f : EncField) (width n : Nat) : Bool :=
  match f with
  | .bits _ => decide (n < 2 ^ width)
  | .const m => decide (n < 2 ^ width) && m % 2 ^ width == n

/-- The word is one of the row's. -/
def EncRow.matches (r : EncRow) (w : Nat) : Bool := w &&& r.mask == r.value

/-- The PoC of a number (rule R126). -/
def pocOfNumber (n : Nat) : Option Poc := if n = 0 then some .memory else none

/-- The level of a number below four (rule R125). -/
def levelOfNumber (n : Nat) : Level :=
  match n with
  | 0 => .default
  | 1 => .l1
  | 2 => .l2
  | _ => .l3

/-- The number of a level (rule R125). -/
def Level.number : Level → Nat
  | .default => 0
  | .l1 => 1
  | .l2 => 2
  | .l3 => 3

/-- An abstract instruction with its operands by number; none where the PoC is no PoC. -/
def CmoOp.instr (op : CmoOp) (rs1 : RegIdx) (sel : Nat) : Option Instr :=
  match op with
  | .inval => (pocOfNumber sel).map (.cboInval rs1)
  | .clean => (pocOfNumber sel).map (.cboClean rs1)
  | .flush => (pocOfNumber sel).map (.cboFlush rs1)
  | .zero => some (.cboZero rs1 (levelOfNumber sel))
  | .prefetchR => some (.prefetchR rs1 (levelOfNumber sel))
  | .prefetchW => some (.prefetchW rs1 (levelOfNumber sel))
  | .prefetchI => some (.prefetchI rs1 (levelOfNumber sel))
  | .demote => some (.demote rs1 (levelOfNumber sel))

/-- An instruction as an abstract one with its operands by number; `CBO.SIZE` is none (rule R134). -/
def Instr.parts : Instr → Option (CmoOp × RegIdx × Nat)
  | .cboInval rs1 _ => some (.inval, rs1, 0)
  | .cboClean rs1 _ => some (.clean, rs1, 0)
  | .cboFlush rs1 _ => some (.flush, rs1, 0)
  | .cboZero rs1 level => some (.zero, rs1, level.number)
  | .prefetchR rs1 level => some (.prefetchR, rs1, level.number)
  | .prefetchW rs1 level => some (.prefetchW, rs1, level.number)
  | .prefetchI rs1 level => some (.prefetchI, rs1, level.number)
  | .demote rs1 level => some (.demote, rs1, level.number)
  | .cboSize => none

/-- The instruction of a row's word. -/
def EncRow.instr (r : EncRow) (w : Nat) : Option Instr :=
  r.op.instr (Fin.ofNat 32 (r.rs1.read 5 w)) (r.sel.read 2 w)

/-- `decode` of rule R122: the CMO instruction of a word of `len` bytes, none where the word is no CMO instruction. -/
def Encoding.decode (e : Encoding) (len w : Nat) : Option Instr :=
  if len = e.ilen then (e.rows.find? (·.matches w)).bind (·.instr w) else none

/-- A word of an instruction in an encoding. -/
def Encoding.encode (e : Encoding) (i : Instr) : Option Nat :=
  match i.parts with
  | none => none
  | some (op, rs1, sel) =>
    (e.rows.find? fun r => r.op == op && r.rs1.admits 5 rs1.val && r.sel.admits 2 sel).map fun r =>
      r.value ||| r.rs1.put rs1.val ||| r.sel.put sel

/-- The bytes of an instruction by its first byte: the base ISA's length rule; longer ones than eight bytes count as
eight (rule R128; log entry 47). -/
def instrLength (first : Byte) : Nat :=
  if first.extractLsb' 0 2 ≠ 3#2 then 2
  else if first.extractLsb' 2 3 ≠ 7#3 then 4
  else if first.getLsbD 5 = false then 6
  else 8

/-! ### Words numbered as the table numbers them -/

/-- The bytes of the table's word: bit 0 is the least significant bit of the first byte, and every bit above `nbits` is
zero, up to the four bytes an instruction has. -/
def tableBytes (nbits w : Nat) : List Byte := toBytesLE (w % 2 ^ nbits) 4

/-- The instruction the decoder reads from a word numbered as spec/opcode_table.json numbers it. -/
def decodeTableWord (nbits w : Nat) : Option Instr :=
  match decode (tableBytes nbits w) with
  | .ok (i, _) => some i
  | .error _ => none

end Sys2Proof
end

