-- ==== Sys2Proof/Machine/State.lean ====
section
/-!
DEFINITION. The state of the machine as plain data, the reasons a step can stop, and the state after reset. INVENTORY.md
lists every piece of state with the rule of the spec that names it.
-/

namespace Sys2Proof.Machine

/-- The privilege modes of rule R213: `s` is the source's "S/HS-mode" (90_conflicts.md C5); `vs` and `vu` exist only
with the H-extension. -/
inductive Mode where
  | m
  | s
  | u
  | vs
  | vu
  deriving DecidableEq, Repr

/-- The control and status registers of one hart: the four `xcmocontrol` registers the extension adds (rule R26) and the
imported registers the spec names (rules R24, R252, R253, R254, R256, R247). On a 32-bit hart `mstatus` holds `mstatush`
in its upper half (log entry 5). -/
structure Csrs where
  mcmocontrol : Word
  scmocontrol : Word
  hcmocontrol : Word
  vscmocontrol : Word
  mstatus : Word
  vsstatus : Word
  hstatus : Word
  satp : Word
  vsatp : Word
  hgatp : Word
  medeleg : Word
  hedeleg : Word
  mtvec : Word
  stvec : Word
  vstvec : Word
  mepc : Word
  sepc : Word
  vsepc : Word
  mcause : Word
  scause : Word
  vscause : Word
  mtval : Word
  stval : Word
  vstval : Word
  mtval2 : Word
  htval : Word
  tselect : Word
  deriving DecidableEq, Repr

/-- One PMP entry: its configuration fields and its address register (rules R24, R233; the layout is the privileged
architecture's, log entry 6). -/
structure PmpEntry where
  r : Bool
  w : Bool
  x : Bool
  /-- Address matching: 0 off, 1 top of range, 2 four bytes, 3 NAPOT. -/
  a : BitVec 2
  l : Bool
  addr : Word
  deriving DecidableEq, Repr

/-- One trigger of the trigger module (rules R24, R247; the layout is the debug architecture's, log entry 7). -/
structure Trigger where
  tdata1 : Word
  tdata2 : Word
  deriving DecidableEq, Repr

/-- A valid copy of a cache block in a cache (rules R40, R42): its address, whether this copy has been written
(Modified) or not (Unmodified), and its `B` bytes. A block with no copy in a cache is Invalid there. -/
structure Copy where
  block : Nat
  modified : Bool
  data : List Byte
  deriving DecidableEq, Repr

/-- Memory and the caches between it and the system agents (rules R60, R62). `mem` lists the bytes that differ from what
an unlisted address reads as, by rising address; `caches` lists the copies each cache holds, by rising block address, in
the order of `Config.caches`. -/
structure MemSys where
  mem : List Host.Cell
  caches : List (List Copy)
  deriving DecidableEq, Repr

/-- Where a deallocated block goes (rule R66): nowhere, to memory, to another cache, or along the domains between the
cache and memory, into the caches there that hold it and to memory unless one of them tracks the modified state. -/
inductive Destination where
  | dropped
  | memory
  | cache (number : Nat)
  | outward
  deriving DecidableEq, Repr

/-- One move of the system: the hart runs one instruction, or something else happens between two instructions. A cache
may allocate or deallocate a block at any time (rules R45, R65, R66); another system agent may write memory (rule R61)
or, being a hart, execute a CMO instruction (rules R185, R257). -/
inductive Move where
  | hart
  /-- `cache` allocates `block` from another cache that holds it, or from memory (no source); `asModified`: a modified
  block is transferred as modified. -/
  | allocate (cache block : Nat) (source : Option Nat) (asModified : Bool)
  /-- `cache` deallocates `block`. -/
  | deallocate (cache block : Nat) (destination : Destination)
  | agentWrite (agent address : Nat) (value : Byte)
  | agentManage (agent : Nat) (op : CacheOp) (address : Nat)
  | agentZero (agent address : Nat)
  /-- A hint of another hart, a `PREFETCH.W` say, as a reservation sees it; what it moves between caches is an `allocate`
  or a `deallocate`. -/
  | agentHint (agent address : Nat)
  deriving DecidableEq, Repr

/-- A byte whose latest store the accesses of one kind and one memory type of the hart must return (rule R99): its
loads, or after a `FENCE.I` its fetches (rule R103). `values` is what they may return: the byte of that store, and those
that came since from outside its order, another domain's writes (rules R80, R100), or for the fetches the hart's own
stores since its `FENCE.I` (log entry 45). -/
structure LatestByte where
  address : Nat
  kind : AccessKind
  memType : Nat
  values : List Byte
  deriving DecidableEq, Repr

/-- The state of the machine: one hart, the memory system it shares with other agents, and what the model itself keeps
(the configuration, the moves to come, the counter of the free values). -/
structure State where
  /-- The parameters of the machine; no step changes them. -/
  cfg : Config
  /-- `x[0..31]` (rule R20). `x[0]` reads as zero through `readX`, whatever stands here. -/
  x : Vector Word 32
  pc : Word
  /-- The current privilege mode (rule R213). -/
  mode : Mode
  csr : Csrs
  pmp : List PmpEntry
  triggers : List Trigger
  ms : MemSys
  /-- The bytes an invalidate of this hart operated on with no store to them since, by rising address (rule R95). -/
  unspecified : List Nat
  /-- The block address of the reservation a load-reserved holds (rule R102). -/
  reservation : Option Nat
  /-- The model's own: the instruction word that is being executed, which an illegal instruction exception records (rule
  R252; log entry 47). -/
  word : Nat
  /-- The model's own: the bytes whose latest store, the hart's own or one by an agent of its coherence domain, its loads
  must return (rules R99, R100, the Load Value Axiom), or its fetches (rule R103); log entries 22 and 45. -/
  latest : List LatestByte
  /-- The model's own: which moves come next. When the list is empty the hart moves. -/
  moves : List Move
  /-- The model's own: the counter the free values are drawn with. -/
  tick : Nat
  deriving DecidableEq, Repr

/-- Why the machine stops. -/
inductive Fault where
  /-- Raised by `step` when the move that comes next is one no cache or agent may make: an allocation of a block that is
  not Invalid or not cacheable, a deallocation of an Invalid block, an unmodified block sent to memory or a modified one
  dropped (rules R65, R66, R67), copies of one coherence domain made to differ (rule R79), a byte of `State.latest`
  hidden from the hart's own accesses by another block than one another agent modified off their path (rules R99, R103),
  a move of another agent in the hart's name or its `CBO.ZERO` on a block no rule gives that a meaning (rule R175).
  Safe: the machine stops. -/
  | moveNotAllowed
  /-- Raised by `step` when another agent writes to a vacant address, which no memory agent serves (rules R60, R61).
  Safe: the machine stops. -/
  | vacantAccess
  deriving DecidableEq, Repr

/-- What the model gives no meaning to. -/
inductive Refusal where
  /-- Raised by `exec` for an instruction that has no meaning yet. Safe. -/
  | notModelled (mnemonic : String)
  /-- Raised by `CBO.SIZE`, which the spec names, leaves undefined and has refused by name (rules R200, R134; D22).
  Safe. -/
  | cboSizeUndefined
  /-- Raised by `CBO.ZERO` on a block of an I/O region or of memory that is not cacheable (rule R175, D25). Safe. -/
  | zeroOnDeviceOrUncacheable
  /-- Raised by a management or write instruction on a block whose PMAs differ inside the block or grant write without
  read: "the behavior of CMO instruction is UNSPECIFIED" (rules R234, R235; I6). Safe. -/
  | pmaConstraintViolated
  /-- Raised when a trigger fires whose action is not the breakpoint exception: the debug architecture's, which the spec
  does not describe (rule R247, I26). Safe. -/
  | debugAction
  /-- Raised by an access of the base ISA to an I/O device region, whose behaviour the spec does not give (rule R91,
  N9). Safe. -/
  | deviceAccess
  /-- Raised by a CSR instruction that names a register the spec does not (rule R8). Safe. -/
  | csrOutOfScope
  /-- Raised by `step` on a word that is neither a CMO instruction nor one of the base instructions the model imports
  (rules R8, R127). Safe. -/
  | baseInstruction
  deriving DecidableEq, Repr

/-- The CSRs after reset: `MIE` and `MPRV` are 0 (rule R261); the four `xcmocontrol` registers hold `REF`'s 0 (rule R46,
log entry 4); the length fields of `mstatus` hold the family's 64-bit values (log entry 5); the rest is 0 (log entry
4). -/
def Csrs.reset : Csrs :=
  { mcmocontrol := 0#64, scmocontrol := 0#64, hcmocontrol := 0#64, vscmocontrol := 0#64,
    mstatus := 0xA00000000#64, vsstatus := 0#64, hstatus := 0#64,
    satp := 0#64, vsatp := 0#64, hgatp := 0#64, medeleg := 0#64, hedeleg := 0#64,
    mtvec := 0#64, stvec := 0#64, vstvec := 0#64, mepc := 0#64, sepc := 0#64, vsepc := 0#64,
    mcause := 0#64, scause := 0#64, vscause := 0#64, mtval := 0#64, stval := 0#64, vstval := 0#64,
    mtval2 := 0#64, htval := 0#64, tselect := 0#64 }

/-- A PMP entry after reset: off and not locked, the family's reset value (log entry 6, PRESUMED); that `R`, `W`, `X` and
the address are 0 is the model's choice, since rule R261 leaves them unspecified (log entry 4, DESIGN CHOICE). -/
def PmpEntry.reset : PmpEntry :=
  { r := false, w := false, x := false, a := 0#2, l := false, addr := 0#64 }

/-- The machine right after reset, in the configuration `REF`: M-mode, at the reset vector (rules R47, R261), nothing
listed in memory, no block in any cache (log entry 4). -/
def State.reset : State :=
  { cfg := Config.ref, x := Vector.replicate 32 0#64, pc := Config.ref.resetVector, mode := .m,
    csr := Csrs.reset, pmp := List.replicate 16 PmpEntry.reset,
    triggers := List.replicate 4 { tdata1 := 0#64, tdata2 := 0#64 },
    ms := { mem := [], caches := [[]] },
    unspecified := [], reservation := none, word := 0, latest := [], moves := [], tick := 0 }

end Sys2Proof.Machine
end

