-- ==== Sys2Proof/Machine/Flags.lean ====
section
/-!
DEFINITION. The fields of the control and status registers, and how a written value becomes a held one. The extension
has no flags and no condition codes (rule R23); what decides the outcome of a CMO instruction are these fields. The places
of the `xcmocontrol` fields are rule R28's; those of the imported registers are the privileged architecture's (log entry
5).
-/

namespace Sys2Proof.Machine

/-- `w` with bit `i` set to `b`. -/
def setBit (w : Word) (i : Nat) (b : Bool) : Word :=
  if b then w ||| (1#64 <<< i) else w &&& ~~~(1#64 <<< i)

/-- `v[lo+n-1:lo]` as a number. -/
def bitField (v : Word) (lo n : Nat) : Nat := (v.toNat >>> lo) % 2 ^ n

/-- `w` with the bits of `mask` taken from `v`. -/
def mergeBits (mask v w : Word) : Word := (v &&& mask) ||| (w &&& ~~~mask)

/-! ### The `xcmocontrol` registers (rules R28 to R36) -/

/-- `CBME`, bit 0 (rule R29). -/
def cbme (r : Word) : Bool := r.getLsbD 0
/-- `CBWE`, bit 1 (rule R30). -/
def cbwe (r : Word) : Bool := r.getLsbD 1
/-- `INVW0I`, bit 8 (rule R31). -/
def invw0i (r : Word) : Bool := r.getLsbD 8
/-- `INVW0E`, bit 9 (rule R32). -/
def invw0e (r : Word) : Bool := r.getLsbD 9
/-- `INVW1I`, bit 10 (rule R33). -/
def invw1i (r : Word) : Bool := r.getLsbD 10
/-- `INVW1E`, bit 11 (rule R34). -/
def invw1e (r : Word) : Bool := r.getLsbD 11

/-- The six defined fields of a value, in bit order (rule R28). -/
def cmoFields (v : Word) : BitVec 6 := v.extractLsb' 8 4 ++ v.extractLsb' 0 2

/-- The register value with given fields; the reserved bits read as zero (rule R35). -/
def cmoOfFields (f : BitVec 6) : Word := (f.extractLsb' 2 4).setWidth 64 <<< 8 ||| (f.extractLsb' 0 2).setWidth 64

/-- The held fields for written fields: `WARL_LEGAL` (rule R36). -/
def legalizeFields (p : CmoCsrParam) (f : BitVec 6) : BitVec 6 :=
  match p.legalize.find? (fun e => e.1 == f) with
  | some e => e.2
  | none => f

/-- The value an `xcmocontrol` register holds after a write of `v` (rules R35, R36). -/
def legalizeCmo (p : CmoCsrParam) (v : Word) : Word := cmoOfFields (legalizeFields p (cmoFields v))

/-- `v` is a value the register can hold. -/
def cmoLegal (p : CmoCsrParam) (v : Word) : Bool := legalizeCmo p v == v

/-! ### `mstatus`, `vsstatus`, `hstatus` (rules R24, R214, R230, R231, R253, R254) -/

/-- `MIE`. -/
def mieBit : Nat := 3
/-- `MPIE`. -/
def mpieBit : Nat := 7
/-- `SIE`, in `mstatus` and `vsstatus`. -/
def sieBit : Nat := 1
/-- `SPIE`, in `mstatus` and `vsstatus`. -/
def spieBit : Nat := 5
/-- `SPP`, in `mstatus` and `vsstatus`. -/
def sppBit : Nat := 8
/-- `MPRV`. -/
def mprvBit : Nat := 17
/-- `SUM`, in `mstatus` and `vsstatus`. -/
def sumBit : Nat := 18
/-- `MXR`, in `mstatus` and `vsstatus`. -/
def mxrBit : Nat := 19
/-- `GVA` of `mstatus`. -/
def gvaBit : Nat := 38
/-- `MPV`. -/
def mpvBit : Nat := 39
/-- `GVA` of `hstatus`. -/
def hgvaBit : Nat := 6
/-- `SPV` of `hstatus`. -/
def spvBit : Nat := 7
/-- `SPVP` of `hstatus`. -/
def spvpBit : Nat := 8

/-- `MPP`: 0 is U, 1 is S, 3 is M; 2 is reserved. -/
def mpp (mstatus : Word) : BitVec 2 := mstatus.extractLsb' 11 2

/-- `mstatus` with `MPP` replaced. -/
def setMpp (mstatus : Word) (v : BitVec 2) : Word := mergeBits 0x1800#64 (v.setWidth 64 <<< 11) mstatus

/-- The bits of `mstatus` that `sstatus` shows and writes: `SIE`, `SPIE`, `SPP`, `SUM`, `MXR` (rule R24). -/
def sstatusMask : Word := 0xC0122#64

/-- The bits of `mstatus` a write can change: those of `sstatus`, `MIE`, `MPIE`, `MPP`, `MPRV`, and with the H-extension
`GVA` and `MPV`. -/
def mstatusMask (hasH : Bool) : Word := if hasH then 0xC0000E19AA#64 else 0xE19AA#64

/-- The bits of `hstatus` a write can change: `GVA`, `SPV`, `SPVP`. -/
def hstatusMask : Word := 0x1C0#64

/-- `mstatus` after a write of `v`; a reserved value of `MPP` leaves `MPP` as it was. -/
def writeMstatus (hasH : Bool) (v old : Word) : Word :=
  let w := mergeBits (mstatusMask hasH) v old
  if mpp v = 2#2 then setMpp w (mpp old) else w

/-! ### `satp`, `vsatp`, `hgatp` (rules R24, R38, R222) -/

/-- The `MODE` field of a page-table register. -/
def atpMode (xlen : XLen) (v : Word) : Nat :=
  match xlen with
  | .rv32 => bitField v 31 1
  | .rv64 => bitField v 60 4

/-- `MODE == Bare`: the page-table mechanism is disabled (rule R38). -/
def atpBare (xlen : XLen) (v : Word) : Bool := atpMode xlen v == 0

/-- The address of the root page table: the page number as the register holds it. `hgatp`, whose x4 formats have a root of
16 KiB, holds zero in the low two bits of that number after any write (`csrWrite`); the spec has no layout of it and does
not say so (DESIGN CHOICE, log entry 51). -/
def atpRoot (xlen : XLen) (v : Word) : Nat :=
  match xlen with
  | .rv32 => bitField v 0 22 * 4096
  | .rv64 => bitField v 0 44 * 4096

/-- A value of `MODE` the model has a page-table format for. -/
def atpModeLegal (xlen : XLen) (v : Word) : Bool :=
  match xlen with
  | .rv32 => true
  | .rv64 => [0, 8, 9, 10].contains (atpMode xlen v)

/-- A page-table register after a write of `v`: a write with an unsupported `MODE` has no effect (log entry 5; for `vsatp`
and `hgatp` a DESIGN CHOICE, log entry 51). -/
def writeAtp (xlen : XLen) (v old : Word) : Word := if atpModeLegal xlen v then v else old

/-! ### Trap vectors and saved program counters (rules R253, R254) -/

/-- The base address a trap vector register holds; synchronous exceptions go to it (rule R253). -/
def vectorBase (tvec : Word) : Word := tvec &&& ~~~3#64

/-- The alignment of instructions in bytes, `IALIGN`: 4, or 2 where the CMO words of the encoding are not a multiple of
four bytes long (rule R128; log entry 47). -/
def instrAlign (cfg : Config) : Nat := if cfg.enc.ilen % 4 = 0 then 4 else 2

/-- A saved program counter: a multiple of the alignment of instructions (rule R128). -/
def alignPc (cfg : Config) (v : Word) : Word := if instrAlign cfg = 4 then v &&& ~~~3#64 else v &&& ~~~1#64

end Sys2Proof.Machine
end

