-- ==== Sys2Proof/Machine/Operands.lean ====
section
/-!
DEFINITION. The operand forms: integer registers, the effective address, the program counter, the effective privilege
mode, and how an open point is settled. A CMO instruction has one register operand, `rs1`, and a PoC or a level (rule
R121).
-/

namespace Sys2Proof.Machine

/-- A value as a register of `XLEN` bits holds it. -/
def truncX (cfg : Config) (v : Word) : Word :=
  match cfg.xlen with
  | .rv64 => v
  | .rv32 => v &&& 0xFFFFFFFF#64

/-- `x[i]`; `x[0]` reads 0 (rule R20). -/
def readX (s : State) (r : RegIdx) : Word := if r = 0 then 0#64 else truncX s.cfg (s.x.get r)

/-- `x[i] <- v`; a write of `x[0]` is discarded (rule R20). No CMO instruction writes a register (rule R21). -/
def writeX (s : State) (r : RegIdx) (v : Word) : State :=
  if r = 0 then s else { s with x := s.x.set r (truncX s.cfg v) }

/-- The effective address: `x[rs1]`, no offset, any alignment (rules R89, R129, R150). -/
def effectiveAddress (s : State) (rs1 : RegIdx) : Word := readX s rs1

/-- The address of the instruction after one of `n` bytes, modulo `2^XLEN` (rule R22). -/
def pcAfter (s : State) (n : Nat) : Word := truncX s.cfg (s.pc + BitVec.ofNat 64 n)

/-- The address of the instruction after a CMO instruction: `pc + ILEN_CMO` (rules R22, R128). -/
def nextPc (s : State) : Word := pcAfter s s.cfg.enc.ilen

/-- How a point with two allowed behaviours comes out. -/
def resolve (c : Choice) (tick : Nat) (site : DrawSite) : Bool :=
  match c with
  | .no => false
  | .yes => true
  | .drawn => Config.freeBool tick site

/-- A mode with virtualisation. -/
def Mode.isVirtual : Mode → Bool
  | .vs => true
  | .vu => true
  | .m => false
  | .s => false
  | .u => false

/-- The nominal privilege of a mode, as `MPP` holds it. -/
def Mode.level : Mode → BitVec 2
  | .m => 3#2
  | .s => 1#2
  | .vs => 1#2
  | .u => 0#2
  | .vu => 0#2

/-- The mode of a nominal privilege (the reserved value 2 read as U) and a virtualisation mode (rules R214, R254). -/
def modeOf (level : BitVec 2) (virt : Bool) : Mode :=
  if level = 3#2 then .m
  else if level = 1#2 then (if virt then .vs else .s)
  else (if virt then .vu else .u)

/-- The effective privilege mode of a data access (rule R214). -/
def effMode (s : State) : Mode :=
  if s.mode = .m ∧ s.csr.mstatus.getLsbD mprvBit = true then
    modeOf (mpp s.csr.mstatus) (s.cfg.hasH && s.csr.mstatus.getLsbD mpvBit)
  else s.mode

end Sys2Proof.Machine
end

