-- ==== Sys2Proof/Machine/Memory.lean ====
section
/-!
DEFINITION. Lists in canonical form: the bytes of memory by rising address, the copies a cache holds by rising block
address, a set of addresses by rising address. Equal contents are equal lists.
-/

namespace Sys2Proof.Machine

/-- What a byte of memory that nothing has written reads as (log entry 8). -/
def Memory.unwritten : Byte := 0#8

/-- The byte at `a`. -/
def Memory.read : List Host.Cell → Nat → Byte
  | [], _ => Memory.unwritten
  | (b, v) :: rest, a => if a = b then v else Memory.read rest a

/-- Memory with the byte `v` at `a`. -/
def Memory.write : List Host.Cell → Nat → Byte → List Host.Cell
  | [], a, v => if v = Memory.unwritten then [] else [(a, v)]
  | (b, w) :: rest, a, v =>
    if a < b then (if v = Memory.unwritten then (b, w) :: rest else (a, v) :: (b, w) :: rest)
    else if a = b then (if v = Memory.unwritten then rest else (a, v) :: rest)
    else (b, w) :: Memory.write rest a v

/-- The canonical form from address `lo` on. -/
def Memory.wfFrom (lo : Nat) : List Host.Cell → Bool
  | [] => true
  | (a, v) :: rest => decide (lo ≤ a) && v != Memory.unwritten && Memory.wfFrom (a + 1) rest

/-- The canonical form: rising addresses, no entry equal to what an unlisted address reads as. -/
def Memory.wf (m : List Host.Cell) : Bool := Memory.wfFrom 0 m

/-- The `n` bytes at `a`. -/
def Memory.readBytes (m : List Host.Cell) (a n : Nat) : List Byte := (List.range n).map fun i => Memory.read m (a + i)

/-- Memory with the bytes `bs` at `a`. -/
def Memory.writeBytes (m : List Host.Cell) (a : Nat) : List Byte → List Host.Cell
  | [] => m
  | b :: bs => Memory.writeBytes (Memory.write m a b) (a + 1) bs

/-- The copy of block `b`. -/
def Copies.find : List Copy → Nat → Option Copy
  | [], _ => none
  | c :: rest, b => if c.block = b then some c else Copies.find rest b

/-- The copies with that of `c.block` replaced by `c`, or `c` added. -/
def Copies.put : List Copy → Copy → List Copy
  | [], c => [c]
  | d :: rest, c =>
    if c.block < d.block then c :: d :: rest
    else if c.block = d.block then c :: rest
    else d :: Copies.put rest c

/-- The copies without that of block `b`. -/
def Copies.drop : List Copy → Nat → List Copy
  | [], _ => []
  | d :: rest, b => if d.block = b then rest else d :: Copies.drop rest b

/-- All copies of a list hold the same bytes. -/
def Copies.agree : List Copy → Bool
  | [] => true
  | c :: rest => rest.all fun d => d.data == c.data

/-- Rising block addresses from `lo` on; every block aligned to `size` bytes with `size` bytes of data; no Modified copy
where the cache does not track that state (rules R40, R42, R43). -/
def Copies.wfFrom (size : Nat) (tracks : Bool) (lo : Nat) : List Copy → Bool
  | [] => true
  | c :: rest =>
    decide (lo ≤ c.block) && c.block % size == 0 && c.data.length == size && (tracks || !c.modified)
      && Copies.wfFrom size tracks (c.block + 1) rest

/-- The set with `a` added. -/
def Addresses.insert : List Nat → Nat → List Nat
  | [], a => [a]
  | b :: rest, a => if a < b then a :: b :: rest else if a = b then b :: rest else b :: Addresses.insert rest a

/-- The set without `a`. -/
def Addresses.erase : List Nat → Nat → List Nat
  | [], _ => []
  | b :: rest, a => if a = b then rest else b :: Addresses.erase rest a

/-- Rising from `lo` on. -/
def Addresses.wfFrom (lo : Nat) : List Nat → Bool
  | [] => true
  | a :: rest => decide (lo ≤ a) && Addresses.wfFrom (a + 1) rest

end Sys2Proof.Machine
end

