-- ==== Sys2Proof/Machine/Topology.lean ====
section
/-!
DEFINITION. Block arithmetic (rule R90), the physical address map (rule R60), the paths of system agents, and the cache
set of a management instruction (rule R151), all read from the configuration.
-/

namespace Sys2Proof.Machine

/-- The hart is agent 0 of the topology. -/
def hartAgent : Nat := 0

/-- `B` (rule R41). -/
def blockSize (cfg : Config) : Nat := 2 ^ cfg.logB

/-- `BlockBase(a) = a - (a mod B)` (rule R90). -/
def blockBase (cfg : Config) (a : Nat) : Nat := a - a % blockSize cfg

/-- `Block(a)`: the `B` addresses from `BlockBase(a)` (rule R90). -/
def blockAddresses (cfg : Config) (a : Nat) : List Nat :=
  (List.range (blockSize cfg)).map fun i => blockBase cfg a + i

/-- `a` lies in the `size` addresses from `base`. -/
def inRange (base size a : Nat) : Bool := decide (base ≤ a) && decide (a < base + size)

/-- The region of a physical address; none where it is vacant (rule R60). -/
def regionOf (cfg : Config) (pa : Nat) : Option Region := cfg.regions.find? fun r => inRange r.base r.size pa

/-- The cacheability PMA. -/
def cacheable (cfg : Config) (pa : Nat) : Bool :=
  match regionOf cfg pa with
  | some r => r.cacheable
  | none => false

/-- The coherence PMA: hardware enforces coherence on the address (rule R151). -/
def hardwareCoherent (cfg : Config) (pa : Nat) : Bool :=
  match regionOf cfg pa with
  | some r => r.hardwareCoherent
  | none => false

/-- Main memory that some access could cache: by its region's attribute or by the memory type of a page. No block of an
I/O device region may be cached, which the spec leaves open (rules R77, R104, I15; DESIGN CHOICE, log entry 48). -/
def mayBeCached (cfg : Config) (pa : Nat) : Bool :=
  match regionOf cfg pa with
  | some r => r.kind == .mainMemory && (r.cacheable || cfg.memTypes.any (·.2))
  | none => false

/-- Main memory that an access treats as cacheable: as the memory type of its page says, which type 0 leaves to the
region (rule R78, I15). That no memory type makes an I/O device region cacheable is log entry 48's (DESIGN CHOICE). -/
def accessCacheable (cfg : Config) (acc : Access) (pa : Nat) : Bool :=
  match regionOf cfg pa with
  | some r =>
    r.kind == .mainMemory &&
      (match cfg.memTypes.find? (·.1 == acc.memType) with
       | some e => e.2
       | none => r.cacheable)
  | none => false

/-- The memory types an access can have. -/
def memTypesOf (cfg : Config) : List Nat := 0 :: cfg.memTypes.map (·.1)

/-- What lies between PoC-memory and a memory location, the same on every path through PoC-memory (rules R84, R85). -/
def beyondPocOf (cfg : Config) (pa : Nat) : List Hop :=
  match cfg.paths.find? (fun p => p.passesPoc && inRange p.base p.size pa) with
  | some p => p.beyondPoc
  | none => []

/-- A rule of the topology is about an access to an address (rules R76, R78). -/
def pathCovers (p : PathRule) (acc : Access) (pa : Nat) : Bool :=
  p.agent == acc.agent && inRange p.base p.size pa && (p.kinds.isEmpty || p.kinds.contains acc.kind)
    && (p.memTypes.isEmpty || p.memTypes.contains acc.memType)

/-- `path(agent, pa, attrs, op_kind)` (rules R76, R78); where the topology lists none, straight to PoC-memory and on from
there as every path goes (rule R85). The accesses of the model use the path of the block's base address: a block and its
attributes are whole (rules R40, R234; log entry 17). -/
def pathOf (cfg : Config) (acc : Access) (pa : Nat) : PathRule :=
  match cfg.paths.find? (pathCovers · acc pa) with
  | some p => p
  | none =>
    { agent := acc.agent, base := pa, size := 1, kinds := [], memTypes := [], toPoc := [],
      beyondPoc := beyondPocOf cfg pa, passesPoc := true }

/-- The caches an access reaches in one domain: directly, and indirectly where hardware enforces coherence
(rules R81, R151). -/
def hopCaches (coherent : Bool) (h : Hop) : List Nat := h.direct ++ (if coherent then h.indirect else [])

/-- Every cache of a domain, as one path has it. -/
def hopMembers (h : Hop) : List Nat := h.direct ++ h.indirect

/-- The domains of a path, in the order an access meets them (rule R81). -/
def hopsOf (cfg : Config) (acc : Access) (pa : Nat) : List Hop := (pathOf cfg acc pa).toPoc ++ (pathOf cfg acc pa).beyondPoc

/-- The caches an access reaches, in order. -/
def pathCaches (cfg : Config) (acc : Access) (pa : Nat) : List Nat :=
  (hopsOf cfg acc pa).flatMap (hopCaches (hardwareCoherent cfg pa))

/-- The domains of every path the topology lists to an address. -/
def hopsCovering (cfg : Config) (pa : Nat) : List Hop :=
  (cfg.paths.filter fun p => inRange p.base p.size pa).flatMap fun p => p.toPoc ++ p.beyondPoc

/-- `CacheSet(h, pa, poc)` (rule R151): the caches of the domains up to and including PoC-memory, those accessed directly
and, where hardware enforces coherence, those accessed indirectly. -/
def cacheSet (cfg : Config) (acc : Access) (pa : Nat) : Poc → List Nat
  | .memory =>
    (pathOf cfg acc (blockBase cfg pa)).toPoc.flatMap (hopCaches (hardwareCoherent cfg (blockBase cfg pa)))

/-- The hart's access of a kind and a memory type. -/
def hartAccess (kind : AccessKind) (memType : Nat) : Access := { agent := hartAgent, kind := kind, memType := memType }

/-- The access of another system agent. -/
def agentAccess (agent : Nat) (kind : AccessKind) : Access := { agent := agent, kind := kind, memType := 0 }

/-- The caches some load or fetch of the hart to an address reaches, those of its loads of type 0 first. -/
def hartCaches (cfg : Config) (pa : Nat) : List Nat :=
  ((memTypesOf cfg).flatMap fun t =>
    pathCaches cfg (hartAccess .load t) pa ++ pathCaches cfg (hartAccess .fetch t) pa).eraseDups

/-- One cache is on the path of the loads of the hart to an address through a page of some memory type, and another is
not. -/
def leavesLoads (cfg : Config) (pa source target : Nat) : Bool :=
  (memTypesOf cfg).any fun t =>
    (pathCaches cfg (hartAccess .load t) pa).contains source && !(pathCaches cfg (hartAccess .load t) pa).contains target

/-- Two accesses to one physical address are symmetric when they access the same set of caches (rule R83). -/
def symmetric (cfg : Config) (pa : Nat) (acc₁ acc₂ : Access) : Bool :=
  (pathCaches cfg acc₁ pa).all (pathCaches cfg acc₂ pa).contains
    && (pathCaches cfg acc₂ pa).all (pathCaches cfg acc₁ pa).contains

/-- The agents that access a cache directly, as a cache on the way to memory. An access that reaches a cache only
indirectly, through the coherence mechanism of its domain, is not counted: rule R63 does not say whether it makes the
cache a shared one (DESIGN CHOICE, log entry 34). -/
def agentsOf (cfg : Config) (cache : Nat) : List Nat :=
  ((cfg.paths.filter fun p => (p.toPoc ++ p.beyondPoc).any fun h => h.direct.contains cache).map (·.agent)).eraseDups

/-- A private cache is accessed by a single system agent (rule R63). -/
def isPrivateCache (cfg : Config) (cache : Nat) : Bool := (agentsOf cfg cache).length == 1

/-- A shared cache is accessed by more than one system agent (rule R63). -/
def isSharedCache (cfg : Config) (cache : Nat) : Bool := decide (1 < (agentsOf cfg cache).length)

/-- The domains of a list from the one that holds `cache` on. -/
def hopsFrom (cache : Nat) : List Hop → List Hop
  | [] => []
  | h :: hs => if h.direct.contains cache || h.indirect.contains cache then h :: hs else hopsFrom cache hs

/-- The domains between a cache and memory: those after the domain of the cache on the paths to an address that pass
through it, which are the same from there on (rule R82); none for a cache on no path. -/
def outwardHops (cfg : Config) (cache pa : Nat) : List Hop :=
  match cfg.paths.find? fun p =>
      inRange p.base p.size pa && (p.toPoc ++ p.beyondPoc).any fun h => (hopMembers h).contains cache with
  | some p => (hopsFrom cache (p.toPoc ++ p.beyondPoc)).tail
  | none => []

/-- The caches on a path an access may allocate in: those it accesses directly, in order (rules R65, R171). -/
def directCaches (hops : List Hop) : List Nat := hops.flatMap (·.direct)

/-- No number occurs twice. -/
def distinct : List Nat → Bool
  | [] => true
  | c :: cs => !cs.contains c && distinct cs

/-- The place on the path of the cache a level designates (rule R171): `L1`, `L2`, `L3` are the first, second and third
cache; an implementation may read every level as `default` (rules R172, R182). -/
def levelIndex (cfg : Config) (level : Level) : Nat :=
  match level with
  | .default => cfg.defaultLevel
  | .l1 => if cfg.levelHonoured then 0 else cfg.defaultLevel
  | .l2 => if cfg.levelHonoured then 1 else cfg.defaultLevel
  | .l3 => if cfg.levelHonoured then 2 else cfg.defaultLevel

/-- The cache a level designates on a path, if the path is that long. -/
def levelCache (cfg : Config) (hops : List Hop) (level : Level) : Option Nat :=
  (directCaches hops)[levelIndex cfg level]?

/-- Whether a cache tracks the modified state (rule R43). -/
def tracks (cfg : Config) (cache : Nat) : Bool :=
  match cfg.caches[cache]? with
  | some d => d.tracksModified
  | none => false

end Sys2Proof.Machine
end

