-- ==== Sys2Proof/Machine/Caches.lean ====
section
/-!
DEFINITION. Memory and caches: reads and data writes along a path, allocation and deallocation (rules R65 to R70), and the
operations of management instructions on a set of caches (rules R71 to R73, R152). Every operation is a function of the
configuration and of `MemSys` alone, so nothing else of the state can change by it.
-/

namespace Sys2Proof.Machine

/-- The copy of block `b` in a cache; none when the block is Invalid there (rule R42). -/
def MemSys.copyAt (ms : MemSys) (cache b : Nat) : Option Copy :=
  match ms.caches[cache]? with
  | some l => Copies.find l b
  | none => none

/-- Puts a copy in a cache. -/
def MemSys.putCopy (ms : MemSys) (cache : Nat) (c : Copy) : MemSys :=
  { ms with caches := ms.caches.modify cache (fun l => Copies.put l c) }

/-- Makes a block Invalid in a cache. -/
def MemSys.dropCopy (ms : MemSys) (cache b : Nat) : MemSys :=
  { ms with caches := ms.caches.modify cache (fun l => Copies.drop l b) }

/-- The block is Modified in the cache (rule R42). -/
def MemSys.isModified (ms : MemSys) (cache b : Nat) : Bool :=
  match ms.copyAt cache b with
  | some c => c.modified
  | none => false

/-- The first valid copy of a block among caches in the order an access meets them (rules R79, R81). -/
def MemSys.firstCopy (ms : MemSys) (caches : List Nat) (b : Nat) : Option Copy :=
  caches.findSome? fun c => ms.copyAt c b

/-- The bytes of a block as an access sees them: those of the first valid copy, else memory's. -/
def MemSys.blockData (cfg : Config) (ms : MemSys) (caches : List Nat) (b : Nat) : List Byte :=
  match ms.firstCopy caches b with
  | some c => c.data
  | none => Memory.readBytes ms.mem b (blockSize cfg)

/-- The byte an access reads. -/
def MemSys.readByte (cfg : Config) (ms : MemSys) (acc : Access) (pa : Nat) : Byte :=
  match ms.firstCopy (pathCaches cfg acc (blockBase cfg pa)) (blockBase cfg pa) with
  | some c => c.data.getD (pa % blockSize cfg) Memory.unwritten
  | none => Memory.read ms.mem pa

/-- A data write of one byte in one cache (rules R68, R69, R70): a valid copy becomes Modified where the cache tracks
that state, whether or not the byte changes; elsewhere the copy is updated or becomes Invalid. -/
def MemSys.writeCopy (cfg : Config) (tick pa : Nat) (v : Byte) (ms : MemSys) (cache : Nat) : MemSys :=
  match ms.copyAt cache (blockBase cfg pa) with
  | none => ms
  | some c =>
    if tracks cfg cache then
      ms.putCopy cache { c with modified := true, data := c.data.set (pa % blockSize cfg) v }
    else if resolve cfg.writeThroughUpdates tick (.writeThroughUpdates cache pa) then
      ms.putCopy cache { c with data := c.data.set (pa % blockSize cfg) v }
    else ms.dropCopy cache (blockBase cfg pa)

/-- Some cache of the list holds the block and tracks the modified state: a data write goes no further (rule R70). -/
def MemSys.absorbs (cfg : Config) (ms : MemSys) (caches : List Nat) (b : Nat) : Bool :=
  caches.any fun c => tracks cfg c && (ms.copyAt c b).isSome

/-- A data write of one byte along the domains of a path, in order (rules R68 to R70, R81): every copy of a domain is
written, and the write goes on to the next domain, at last to memory, until a cache that tracks the modified state holds
it. -/
def MemSys.writeAlong (cfg : Config) (tick pa : Nat) (v : Byte) : List Hop → MemSys → MemSys
  | [], ms => { ms with mem := Memory.write ms.mem pa v }
  | h :: hs, ms =>
    let caches := hopCaches (hardwareCoherent cfg (blockBase cfg pa)) h
    let ms' := caches.foldl (MemSys.writeCopy cfg tick pa v) ms
    if ms.absorbs cfg caches (blockBase cfg pa) then ms' else MemSys.writeAlong cfg tick pa v hs ms'

/-- `PWriteByte`: a data write of one byte by an agent. -/
def MemSys.writeByte (cfg : Config) (tick : Nat) (acc : Access) (pa : Nat) (v : Byte) (ms : MemSys) : MemSys :=
  MemSys.writeAlong cfg tick pa v (hopsOf cfg acc (blockBase cfg pa)) ms

/-- The bytes `bs` written at `pa` and on, one after the other. -/
def MemSys.writeBytes (cfg : Config) (tick : Nat) (acc : Access) : Nat → List Byte → MemSys → MemSys
  | _, [], ms => ms
  | pa, b :: bs, ms => MemSys.writeBytes cfg tick acc (pa + 1) bs (MemSys.writeByte cfg tick acc pa b ms)

/-- A write along some domains reaches the first domain of another access's path, or memory where that path has none,
before a cache that tracks the modified state takes it: from there on the two paths are the same, so the other access
sees the write (rules R82, R100). Where hardware enforces no coherence, the two must access that domain's caches alike.
-/
def MemSys.arrives (cfg : Config) (ms : MemSys) (b : Nat) (seen : List Hop) : List Hop → Bool
  | [] => seen.isEmpty
  | h :: hs =>
    seen.head?.any (fun k => k.domain == h.domain && (hardwareCoherent cfg b || k.direct == h.direct))
      || (!ms.absorbs cfg (hopCaches (hardwareCoherent cfg b) h) b && MemSys.arrives cfg ms b seen hs)

/-- A byte is one of `vs` wherever an access along the domains of a path may find it, whatever unmodified copies leave:
in every copy up to the first domain with a Modified one, and where there is none in memory too (rules R66, R81). -/
def MemSys.heldAlong (cfg : Config) (ms : MemSys) (pa : Nat) (vs : List Byte) : List Hop → Bool
  | [] => vs.contains (Memory.read ms.mem pa)
  | h :: hs =>
    let caches := hopCaches (hardwareCoherent cfg (blockBase cfg pa)) h
    caches.all (fun c => (ms.copyAt c (blockBase cfg pa)).all fun copy =>
        vs.contains (copy.data.getD (pa % blockSize cfg) Memory.unwritten))
      && (caches.any (ms.isModified · (blockBase cfg pa)) || MemSys.heldAlong cfg ms pa vs hs)

/-! ### Latest stores (rules R99, R100, R103; log entry 45) -/

/-- The access that must return a latest store. -/
def LatestByte.access (e : LatestByte) : Access := hartAccess e.kind e.memType

/-- A latest store stands on the path of its access: what the access may find there is what it may return. -/
def LatestByte.held (cfg : Config) (ms : MemSys) (e : LatestByte) : Bool :=
  ms.heldAlong cfg e.address e.values (hopsOf cfg e.access (blockBase cfg e.address))

/-- A latest store where its access may return a further byte, if any. -/
def LatestByte.bring (e : LatestByte) : Option Byte → LatestByte
  | none => e
  | some v => if e.values.contains v then e else { e with values := v :: e.values }

/-- The latest stores where each access may return a further byte, the one `brought` gives it. -/
def bringAll (brought : LatestByte → Option Byte) (l : List LatestByte) : List LatestByte :=
  l.map fun e => e.bring (brought e)

/-- What comes is brought to an access only where its latest store would not stand otherwise: what lies beyond a newer
store on the path stays hidden by it. -/
def whereNeeded (cfg : Config) (ms : MemSys) (brought : LatestByte → Option Byte) (e : LatestByte) : Option Byte :=
  if e.held cfg ms then none else brought e

/-- What the bytes of a block, where there are any, bring the accesses to it. -/
def blockBrings (cfg : Config) (b : Nat) (data : Option (List Byte)) (e : LatestByte) : Option Byte :=
  if blockBase cfg e.address = b then data.map (·.getD (e.address % blockSize cfg) Memory.unwritten) else none

/-- What bytes written at `pa` and on bring the accesses to them. -/
def bytesBring (pa : Nat) (bs : List Byte) (e : LatestByte) : Option Byte :=
  if pa ≤ e.address then bs[e.address - pa]? else none

/-! ### Allocation and deallocation -/

/-- The copies of a block in each domain of the paths to it hold the same bytes, where hardware enforces coherence on the
block (rule R79). -/
def MemSys.agrees (cfg : Config) (ms : MemSys) (b : Nat) : Bool :=
  !hardwareCoherent cfg b || (hopsCovering cfg b).all fun h => Copies.agree ((hopMembers h).filterMap (ms.copyAt · b))

/-- A cache may allocate the block from a source (rule R65): the cache exists and does not hold the block, which is a
block of memory that can be cached; the source is memory or a cache that holds it. -/
def MemSys.mayAllocate (cfg : Config) (ms : MemSys) (cache b : Nat) (source : Option Nat) : Bool :=
  decide (cache < cfg.caches.length) && (ms.copyAt cache b).isNone && mayBeCached cfg b && b % blockSize cfg == 0 &&
    (match source with
     | none => true
     | some c => (ms.copyAt c b).isSome)

/-- The copy an allocation makes: Modified only where the cache tracks that state and a modified block is transferred as
such (rule R65). -/
def MemSys.allocated (cfg : Config) (cache b : Nat) (source : Option Nat) (asModified : Bool) (ms : MemSys) : Copy :=
  match source.bind (ms.copyAt · b) with
  | none => { block := b, modified := false, data := Memory.readBytes ms.mem b (blockSize cfg) }
  | some c => { block := b, modified := asModified && tracks cfg cache && c.modified, data := c.data }

/-- Allocation (rule R65); nothing where the cache may not allocate the block. -/
def MemSys.allocate (cfg : Config) (cache b : Nat) (source : Option Nat) (asModified : Bool) (ms : MemSys) : MemSys :=
  if ms.mayAllocate cfg cache b source then ms.putCopy cache (ms.allocated cfg cache b source asModified) else ms

/-- The first cache that holds the block, from the domain of `cache` on along a path. -/
def MemSys.holderBeyond (cfg : Config) (ms : MemSys) (acc : Access) (cache b : Nat) : Option Nat :=
  ((hopsFrom cache (hopsOf cfg acc b)).flatMap (hopCaches (hardwareCoherent cfg b))).find? fun c =>
    (ms.copyAt c b).isSome

/-- The allocation an access makes in a cache it reaches directly: from what lies beyond the cache on its path, as
Unmodified, where the access treats the block as cacheable (rule R65). -/
def MemSys.allocateOnPath (cfg : Config) (acc : Access) (cache b : Nat) (ms : MemSys) : MemSys :=
  if accessCacheable cfg acc b && (directCaches (hopsOf cfg acc b)).contains cache then
    MemSys.allocate cfg cache b (ms.holderBeyond cfg acc cache b) false ms
  else ms

/-- A whole block written to one cache that holds it. -/
def MemSys.updateCopy (cfg : Config) (b : Nat) (data : List Byte) (ms : MemSys) (cache : Nat) : MemSys :=
  match ms.copyAt cache b with
  | none => ms
  | some _ => ms.putCopy cache { block := b, modified := tracks cfg cache, data := data }

/-- The transfer of a modified block along the domains that remain to memory (rule R66): to the caches that hold it,
and to memory unless one of them tracks the modified state. -/
def MemSys.transfer (cfg : Config) (b : Nat) (data : List Byte) : List Hop → MemSys → MemSys
  | [], ms => { ms with mem := Memory.writeBytes ms.mem b data }
  | h :: hs, ms =>
    let caches := hopCaches (hardwareCoherent cfg b) h
    let ms' := caches.foldl (MemSys.updateCopy cfg b data) ms
    if ms.absorbs cfg caches b then ms' else MemSys.transfer cfg b data hs ms'

/-- A cache may deallocate the block to a destination (rule R66): an unmodified block is dropped or goes to a cache that
does not hold it, never to memory; a modified one goes to memory or to another cache. -/
def MemSys.mayDeallocate (cfg : Config) (ms : MemSys) (cache b : Nat) (destination : Destination) : Bool :=
  match ms.copyAt cache b with
  | none => false
  | some c =>
    match destination with
    | .dropped => !c.modified
    | .memory => c.modified
    | .outward => c.modified
    | .cache d =>
      d != cache && decide (d < cfg.caches.length) && mayBeCached cfg b && (c.modified || (ms.copyAt d b).isNone)

/-- The cache a deallocation gives the block to, if any. -/
def Destination.cache? : Destination → Option Nat
  | .dropped => none
  | .memory => none
  | .outward => none
  | .cache d => some d

/-- The transfer of a block as Modified between two caches takes it off the path of some load of the hart. The cache that
takes it could write the block back at any time (rule R66), over what the hart or an agent of its domain stores
meanwhile, although no other domain wrote the block (rules R99, R100): no such transfer is made (log entry 45). -/
def MemSys.takesOut (cfg : Config) (ms : MemSys) (b : Nat) (source target : Option Nat) : Bool :=
  match source, target with
  | some c, some d => ms.isModified c b && tracks cfg d && leavesLoads cfg b c d
  | some _, none => false
  | none, _ => false

/-- Deallocation (rule R66); nothing where the cache may not deallocate the block so. A cache that does not track the
modified state takes a modified block as Unmodified (rule R65), and its bytes go to memory besides, as a data write in
such a cache does (rule R70; DEDUCED, log entry 16). -/
def MemSys.deallocate (cfg : Config) (cache b : Nat) (destination : Destination) (ms : MemSys) : MemSys :=
  match ms.copyAt cache b with
  | none => ms
  | some c =>
    if ms.mayDeallocate cfg cache b destination then
      match destination with
      | .dropped => ms.dropCopy cache b
      | .memory => { ms.dropCopy cache b with mem := Memory.writeBytes ms.mem b c.data }
      | .outward => MemSys.transfer cfg b c.data (outwardHops cfg cache b) (ms.dropCopy cache b)
      | .cache d =>
        let given := (ms.dropCopy cache b).putCopy d { c with modified := c.modified && tracks cfg d }
        if c.modified && !tracks cfg d then { given with mem := Memory.writeBytes ms.mem b c.data } else given
    else ms

/-! ### Operations of management instructions -/

/-- One of several caches, by a free value where there is a choice. -/
def pickCache (tick : Nat) : List Nat → Option Nat
  | [] => none
  | [c] => some c
  | c :: d :: rest => (c :: d :: rest)[Config.freeNat tick .survivor % (rest.length + 2)]?

/-- The caches of a set whose modified copy an operation transfers: every one for a clean or a flush, a free choice of
them for an invalidate (rules R71, R152 (a), (c)). -/
def MemSys.transferring (cfg : Config) (tick : Nat) (op : CacheOp) (set : List Nat) (b : Nat) (ms : MemSys) : List Nat :=
  match op with
  | .invalidate =>
    (set.filter (ms.isModified · b)).filter fun c => resolve cfg.invalTransfers tick (.invalTransfers c)
  | .clean => set.filter (ms.isModified · b)
  | .flush => set.filter (ms.isModified · b)

/-- The caches of the first domain on a path in which the block is Modified: an access along the path meets no Modified
copy before them. -/
def MemSys.firstModifiedDomain (cfg : Config) (b : Nat) (ms : MemSys) (hops : List Hop) : List Nat :=
  match hops.find? fun h => (hopCaches (hardwareCoherent cfg b) h).any (ms.isModified · b) with
  | none => []
  | some h => hopCaches (hardwareCoherent cfg b) h

/-- A copy of a cache of the set is older than a latest store: the access that must return the store goes through the
cache, may not return what the copy holds, and meets a Modified copy of the set first. -/
def MemSys.outdated (cfg : Config) (b : Nat) (set : List Nat) (bound : List LatestByte) (ms : MemSys) (cache : Nat) : Bool :=
  bound.any fun e =>
    blockBase cfg e.address == b && (pathCaches cfg e.access b).contains cache &&
      (ms.copyAt cache b).any (fun c => !e.values.contains (c.data.getD (e.address % blockSize cfg) Memory.unwritten)) &&
      (ms.firstModifiedDomain cfg b (hopsOf cfg e.access b)).any fun x => set.contains x && ms.isModified x b

/-- Of several caches of the set, those whose copies are not outdated, where any are not: no older Modified copy wins over
the one that an access of the hart must return (rules R99, R152 (a): "not satisfied by a newer write"). -/
def MemSys.newest (cfg : Config) (b : Nat) (set : List Nat) (bound : List LatestByte) (ms : MemSys) (caches : List Nat) :
    List Nat :=
  let current := caches.filter fun c => !ms.outdated cfg b set bound c
  if current.isEmpty then caches else current

/-- The bytes an operation makes visible at the PoC, if any: of one Modified copy, drawn among those that the Load Value
Axiom of the hart allows, for the spec gives no other rule which wins (rules R99, R152 (a), (c); log entry 45). -/
def MemSys.transferred (cfg : Config) (tick : Nat) (op : CacheOp) (set : List Nat) (b : Nat) (bound : List LatestByte)
    (ms : MemSys) : Option (List Byte) :=
  match pickCache tick (ms.newest cfg b set bound (ms.transferring cfg tick op set b)) with
  | none => none
  | some c =>
    match ms.copyAt c b with
    | none => none
    | some copy => some copy.data

/-- What an operation leaves in one cache of the set (rules R71, R72, R73, R152 (b)): nothing, or after a clean an
Unmodified copy, which holds the bytes made visible at the PoC where there are any. -/
def MemSys.settle (cfg : Config) (tick : Nat) (op : CacheOp) (b : Nat) (data : Option (List Byte)) (ms : MemSys)
    (cache : Nat) : MemSys :=
  match ms.copyAt cache b with
  | none => ms
  | some c =>
    match op with
    | .clean =>
      if resolve cfg.cleanInvalidates tick (.cleanInvalidates cache) then ms.dropCopy cache b
      else ms.putCopy cache { c with modified := false, data := data.getD c.data }
    | .invalidate => ms.dropCopy cache b
    | .flush => ms.dropCopy cache b

/-- Whether an operation may give the copy of a cache to another cache: an invalidate any copy, a clean or a flush an
Unmodified one (rules R71, R72, R73; the transfer of a Modified one is theirs to make visible), and never bytes other
than those made visible at the PoC (rule R152 (a)). -/
def mayGive (op : CacheOp) (data : Option (List Byte)) (c : Copy) : Bool :=
  (op == .invalidate || !c.modified) &&
    (match data with
     | none => true
     | some d => d == c.data)

/-- The optional transfer of a block to another cache by an operation, a draw per cache (rules R71, R72, R73; I19, I20):
to a cache outside the set, which allocates the block as it may at any time (rule R65), so that the copies of a domain
agree (rule R79), no Modified block leaves the path of the hart's loads, and none of the latest stores `bound` is hidden
(rule R99). -/
def MemSys.give (cfg : Config) (tick : Nat) (op : CacheOp) (set : List Nat) (b : Nat) (data : Option (List Byte))
    (bound : List LatestByte) (ms : MemSys) (cache : Nat) : MemSys :=
  match ms.copyAt cache b with
  | none => ms
  | some c =>
    let target := Config.freeNat tick (.transferTarget cache) % cfg.caches.length
    let given := MemSys.allocate cfg target b (some cache) true ms
    if resolve cfg.cacheTransfers tick (.cacheTransfers cache) && mayGive op data c && !set.contains target
        && !ms.takesOut cfg b (some cache) (some target) && given.agrees cfg b && bound.all (·.held cfg given) then given
    else ms

/-- Invalidate, clean or flush block `b` in every cache of a set (rule R152); `beyond` are the domains between the PoC
and memory, `bound` the latest stores, which no optional transfer may hide and no older copy may win over. -/
def MemSys.manage (cfg : Config) (tick : Nat) (op : CacheOp) (set : List Nat) (beyond : List Hop) (b : Nat)
    (bound : List LatestByte) (ms : MemSys) : MemSys :=
  let data := ms.transferred cfg tick op set b bound
  let given := set.foldl (MemSys.give cfg tick op set b data bound) ms
  let visible :=
    match data with
    | none => given
    | some d => MemSys.transfer cfg b d beyond given
  set.foldl (MemSys.settle cfg tick op b data) visible

/-- A management operation of an agent on the block of an address, in `CacheSet(agent, pa, poc)` (rules R151, R159 step
8). -/
def MemSys.manageAt (cfg : Config) (tick : Nat) (op : CacheOp) (acc : Access) (pa : Nat) (poc : Poc)
    (bound : List LatestByte) (ms : MemSys) : MemSys :=
  MemSys.manage cfg tick op (cacheSet cfg acc pa poc) (pathOf cfg acc (blockBase cfg pa)).beyondPoc (blockBase cfg pa)
    bound ms

/-- The bytes that operation makes visible at the PoC, if any. -/
def MemSys.transferredAt (cfg : Config) (tick : Nat) (op : CacheOp) (acc : Access) (pa : Nat) (poc : Poc)
    (bound : List LatestByte) (ms : MemSys) : Option (List Byte) :=
  ms.transferred cfg tick op (cacheSet cfg acc pa poc) (blockBase cfg pa) bound

/-! ### The views of the hart -/

/-- The bytes of a block as an access reads them. -/
def MemSys.view (cfg : Config) (ms : MemSys) (acc : Access) (b : Nat) : List Byte :=
  ms.blockData cfg (pathCaches cfg acc b) b

/-- The hart's loads of a block read the same before and after. -/
def loadsKept (cfg : Config) (before after : MemSys) (b : Nat) : Bool :=
  (memTypesOf cfg).all fun t => after.view cfg (hartAccess .load t) b == before.view cfg (hartAccess .load t) b

/-- Every block some cache holds. -/
def MemSys.blocksHeld (ms : MemSys) : List Nat := (ms.caches.flatMap fun l => l.map (·.block)).eraseDups

/-- The hart's fetches of a block read what its loads read. -/
def MemSys.fetchesAgree (cfg : Config) (ms : MemSys) (b : Nat) : Bool :=
  (memTypesOf cfg).all fun t => ms.view cfg (hartAccess .fetch t) b == ms.view cfg (hartAccess .load t) b

/-- The bytes of the first Modified copy of a block among caches. -/
def MemSys.firstModified (ms : MemSys) (caches : List Nat) (b : Nat) : Option (List Byte) :=
  caches.findSome? fun c => (ms.copyAt c b).bind fun copy => if copy.modified then some copy.data else none

/-- A block leaves every cache the loads and fetches of the hart reach, the bytes of a Modified copy going to memory, of
that which the hart's loads meet first (rule R66). -/
def MemSys.emptyBlock (cfg : Config) (ms : MemSys) (b : Nat) : MemSys :=
  let without := (hartCaches cfg b).foldl (fun ms c => ms.dropCopy c b) ms
  match ms.firstModified (hartCaches cfg b) b with
  | none => without
  | some d => { without with mem := Memory.writeBytes ms.mem b d }

/-- A copy of a block becomes Unmodified with bytes that memory holds. -/
def MemSys.cleanCopy (b : Nat) (data : List Byte) (ms : MemSys) (cache : Nat) : MemSys :=
  match ms.copyAt cache b with
  | none => ms
  | some _ => ms.putCopy cache { block := b, modified := false, data := data }

/-- The first Modified copy of a block among caches goes to memory and to the others that hold it (rule R66); nothing
where there is none, so no unmodified block goes to memory (rule R67). -/
def MemSys.writeBack (ms : MemSys) (caches : List Nat) (b : Nat) : MemSys :=
  match ms.firstModified caches b with
  | none => ms
  | some d =>
    let cleaned := caches.foldl (MemSys.cleanCopy b d) ms
    { cleaned with mem := Memory.writeBytes cleaned.mem b d }

/-- A copy that does not hold a byte leaves its cache if it is Unmodified, and takes the byte if it is Modified. -/
def MemSys.syncCopy (cfg : Config) (pa : Nat) (v : Byte) (ms : MemSys) (cache : Nat) : MemSys :=
  match ms.copyAt cache (blockBase cfg pa) with
  | none => ms
  | some c =>
    if c.data.getD (pa % blockSize cfg) Memory.unwritten = v then ms
    else if c.modified then ms.putCopy cache { c with data := c.data.set (pa % blockSize cfg) v }
    else ms.dropCopy cache (blockBase cfg pa)

/-- The hart's fetches of a memory type hold a byte as its loads read it. -/
def MemSys.fetchesHold (cfg : Config) (ms : MemSys) (memType pa : Nat) : Bool :=
  MemSys.heldAlong cfg ms pa [MemSys.readByte cfg ms (hartAccess .load memType) pa]
    (hopsOf cfg (hartAccess .fetch memType) (blockBase cfg pa))

/-- A byte the hart's loads of a memory type hold is shown to its fetches: the block is written back along the path of the
loads, and no copy on the path of the fetches keeps another byte than the loads then read (rule R103; log entry 22). -/
def MemSys.showToFetches (cfg : Config) (memType pa : Nat) (ms : MemSys) : MemSys :=
  let b := blockBase cfg pa
  let back := ms.writeBack (pathCaches cfg (hartAccess .load memType) b) b
  (pathCaches cfg (hartAccess .fetch memType) b).foldl
    (MemSys.syncCopy cfg pa (MemSys.readByte cfg back (hartAccess .load memType) pa)) back

/-- Every block a cache holds agrees in each domain (rule R79). -/
def MemSys.domainsAgree (cfg : Config) (ms : MemSys) : Bool := ms.blocksHeld.all (ms.agrees cfg)

/-- The form the model keeps the caches in: one list of copies per cache, each canonical. -/
def cachesWf (size : Nat) : List CacheDesc → List (List Copy) → Bool
  | [], [] => true
  | d :: ds, l :: ls => Copies.wfFrom size d.tracksModified 0 l && cachesWf size ds ls
  | _, _ => false

/-- The canonical form of the memory system. -/
def MemSys.wf (cfg : Config) (ms : MemSys) : Bool :=
  Memory.wf ms.mem && cachesWf (blockSize cfg) cfg.caches ms.caches

end Sys2Proof.Machine
end

