-- ==== Sys2Proof/Machine/Protection.lean ====
section
/-!
DEFINITION. Permission of a physical address: the PMP and the PMAs (rules R233 to R242), and the `xcmocontrol` bits that
permit, forbid or turn a CMO instruction (rules R154, R155, R216, R217, R243, R244).
-/

namespace Sys2Proof.Machine

/-- One of the three access types a protection unit grants (rule R233). -/
inductive Permission where
  | read
  | write
  | execute
  deriving DecidableEq, Repr

/-- A PMP entry matches the byte at `pa`; `before` is the address register of the entry before it (log entry 6). -/
def pmpMatches (e : PmpEntry) (before : Word) (pa : Nat) : Bool :=
  if e.a = 0#2 then false
  else if e.a = 1#2 then decide (before.toNat * 4 ≤ pa) && decide (pa < e.addr.toNat * 4)
  else if e.a = 2#2 then decide (pa / 4 = e.addr.toNat)
  else
    let ones := e.addr ^^^ (e.addr + 1#64)
    (BitVec.ofNat 64 (pa / 4) ||| ones) == (e.addr ||| ones)

/-- What a PMP entry grants. -/
def pmpGrants (e : PmpEntry) : Permission → Bool
  | .read => e.r
  | .write => e.w
  | .execute => e.x

/-- `PMP_R`, `PMP_W`, `PMP_X` of a byte: the first entry that matches decides; an entry that is not locked does not bind
M-mode; with no match M-mode has access, a lower mode only where there is no PMP (rules R233, R236; log entry 6). -/
def pmpAllows (machine : Bool) (perm : Permission) (pa : Nat) : Word → List PmpEntry → Bool → Bool
  | _, [], implemented => machine || !implemented
  | before, e :: rest, _ =>
    if pmpMatches e before pa then (machine && !e.l) || pmpGrants e perm
    else pmpAllows machine perm pa e.addr rest true

/-- `PMA_R`, `PMA_W`, `PMA_X` of a byte; a vacant address has none (rules R60, R233). -/
def pmaAllows (cfg : Config) (perm : Permission) (pa : Nat) : Bool :=
  match regionOf cfg pa with
  | none => false
  | some r =>
    match perm with
    | .read => r.r
    | .write => r.w
    | .execute => r.x

/-- Joint permission: the PMP and the PMAs both allow the access (rule R236), for an access in mode `eff`. -/
def joint (s : State) (eff : Mode) (perm : Permission) (pa : Nat) : Bool :=
  pmpAllows (decide (eff = .m)) perm pa 0#64 s.pmp false && pmaAllows s.cfg perm pa

/-- `FullJointW(b)`: every byte of the block has joint write permission (rules R237, R241). -/
def fullJointW (s : State) (eff : Mode) (pa : Nat) : Bool := (blockAddresses s.cfg pa).all (joint s eff .write)

/-- `SomeJointW(b)`: some byte of the block has joint write permission (rules R237, R238). -/
def someJointW (s : State) (eff : Mode) (pa : Nat) : Bool := (blockAddresses s.cfg pa).any (joint s eff .write)

/-- Every byte of the block has joint read or joint execute permission (rules R239, R242). -/
def allJointRorX (s : State) (eff : Mode) (pa : Nat) : Bool :=
  (blockAddresses s.cfg pa).all fun a => joint s eff .read a || joint s eff .execute a

/-- The PMAs of a block: the same for all its addresses, and read granted where write is (rule R234). -/
def pmaConstraint (cfg : Config) (pa : Nat) : Bool :=
  (blockAddresses cfg pa).all (fun a => regionOf cfg a == regionOf cfg (blockBase cfg pa))
    && (match regionOf cfg (blockBase cfg pa) with
        | none => true
        | some r => r.r || !r.w)

/-! ### Illegal instruction exceptions (rules R216, R217, R218): the current privilege mode decides -/

/-- The registers that govern a mode all have the bit (rules R37, R215, R216, R217). -/
def enabledIn (c : Csrs) (bit : Word → Bool) : Mode → Bool
  | .m => true
  | .s => bit c.mcmocontrol
  | .u => bit c.mcmocontrol && bit c.scmocontrol
  | .vs => bit c.mcmocontrol && bit c.hcmocontrol
  | .vu => bit c.mcmocontrol && bit c.hcmocontrol && bit c.vscmocontrol

/-- `Illegal_CBME(mode)` (rule R216). -/
def illegalCbme (c : Csrs) (mode : Mode) : Bool := !enabledIn c cbme mode

/-- `Illegal_CBWE(mode)` (rule R217). -/
def illegalCbwe (c : Csrs) (mode : Mode) : Bool := !enabledIn c cbwe mode

/-! ### `CBO.INVAL` and the `INVW` bits. `w` is `Wx` of the register's mechanism: `some true` is W1, `some false` is W0,
`none` a mechanism that is disabled (rule R38). -/

/-- `pass(c)`: the register lets a `CBO.INVAL` on (rule R243). -/
def invalPass (r : Word) : Option Bool → Bool
  | none => true
  | some true => invw1e r
  | some false => invw0e r

/-- `I(c)`: the register has a `CBO.INVAL` invalidate (rule R154). -/
def invalKeeps (r : Word) : Option Bool → Bool
  | none => invw0i r && invw1i r
  | some true => invw1i r
  | some false => invw0i r

/-- `Inval_is_invalidate(eff_mode)` (rule R155); the four `w` are those of `mcmocontrol`, `scmocontrol`, `hcmocontrol`
and `vscmocontrol`. -/
def invalIsInvalidate (c : Csrs) (wM wS wH wVS : Option Bool) : Mode → Bool
  | .m => true
  | .s => invalKeeps c.mcmocontrol wM
  | .u => invalKeeps c.scmocontrol wS && invalKeeps c.mcmocontrol wM
  | .vs => invalKeeps c.hcmocontrol wH && invalKeeps c.mcmocontrol wM
  | .vu => invalKeeps c.vscmocontrol wVS && invalKeeps c.hcmocontrol wH && invalKeeps c.mcmocontrol wM

end Sys2Proof.Machine
end

