-- ==== Sys2Proof/Machine/Translation.lean ====
section
/-!
DEFINITION. `Translate(ea, kind, eff_mode)` (rules R221 to R232). The spec fixes which stages a mode uses, the check of a
leaf PTE for each kind of access, the U-rule, and what `CBO.INVAL` adds at each stage; the walk and the page-table formats
are the privileged architecture's (Sv32, Sv39, Sv48, Sv57 and their x4 forms; log entry 9).
-/

namespace Sys2Proof.Machine

/-- Why a translation ends without a physical address. `guest` carries the guest physical address that faulted. -/
inductive XlateError where
  | page
  | guest (gpa : Nat)
  | access
  deriving DecidableEq, Repr

/-- `Ok(pa, w_vs, w_s, w_g)` (rule R222): the physical address, the `W` bit of the leaf PTE of each stage that mapped
the access (none where the stage is Bare or not used), the memory type its pages give the access (rule R78; log entry
46), and the PTE writes an implementation that updates `A` and `D` makes (rule R229). -/
structure Xlate where
  pa : Nat
  wVS : Option Bool
  wS : Option Bool
  wG : Option Bool
  memType : Nat
  pteWrites : List (Nat × List Byte)
  deriving DecidableEq, Repr

/-- One page-table format: the levels below the root's own, the bytes of a PTE, the index bits of a level, and the bits
the root level has more (two in an x4 format). -/
structure PageFormat where
  levels : Nat
  pteBytes : Nat
  indexBits : Nat
  rootExtra : Nat
  deriving DecidableEq, Repr

/-- The format a `MODE` selects; `guest` is the G-stage. -/
def pageFormat (xlen : XLen) (mode : Nat) (guest : Bool) : Option PageFormat :=
  let extra := if guest then 2 else 0
  match xlen with
  | .rv32 => if mode = 1 then some { levels := 2, pteBytes := 4, indexBits := 10, rootExtra := extra } else none
  | .rv64 =>
    if mode = 8 then some { levels := 3, pteBytes := 8, indexBits := 9, rootExtra := extra }
    else if mode = 9 then some { levels := 4, pteBytes := 8, indexBits := 9, rootExtra := extra }
    else if mode = 10 then some { levels := 5, pteBytes := 8, indexBits := 9, rootExtra := extra }
    else none

/-- The number of address bits a format translates. -/
def PageFormat.addressBits (p : PageFormat) : Nat := 12 + p.indexBits * p.levels + p.rootExtra

/-- The address is one the format can translate: on the first stage of a 64-bit hart the bits above are copies of the
highest translated bit, on the G-stage they are zero. -/
def canonical (xlen : XLen) (p : PageFormat) (guest : Bool) (va : Nat) : Bool :=
  if guest then va >>> p.addressBits == 0
  else
    match xlen with
    | .rv32 => true
    | .rv64 =>
      let high := va >>> (p.addressBits - 1)
      high == 0 || high == 2 ^ (64 - (p.addressBits - 1)) - 1

/-- The bits of a PTE, by number. -/
def pteBit (pte i : Nat) : Bool := pte.testBit i

/-- The physical page number of a PTE: that of a physical address of 56 bits, or 34 in the 32-bit format, where the spec
leaves the width open (DESIGN CHOICE, log entry 49). -/
def ptePpn (p : PageFormat) (pte : Nat) : Nat :=
  if p.pteBytes = 4 then (pte >>> 10) % 2 ^ 22 else (pte >>> 10) % 2 ^ 44

/-- The memory type of a 64-bit PTE, its bits 62:61; a 32-bit PTE has none (log entry 46). -/
def pteMemType (p : PageFormat) (pte : Nat) : Nat := if p.pteBytes = 8 then (pte >>> 61) % 4 else 0

/-- The PTE has a reserved bit set, a memory type the machine does not have, or grants write without read (rule R225). -/
def pteReserved (cfg : Config) (p : PageFormat) (pte : Nat) : Bool :=
  (p.pteBytes == 8 && ((pte >>> 54) % 2 ^ 7 != 0 || pte >>> 63 != 0 || !(memTypesOf cfg).contains (pteMemType p pte)))
    || (pteBit pte 2 && !pteBit pte 1)

/-- The PTE is a leaf: `R` or `X`. -/
def pteLeaf (pte : Nat) : Bool := pteBit pte 1 || pteBit pte 3

/-- The permission a leaf PTE must grant (rules R222, R223, R225, R227): read or execute for a management or hint
instruction, write for `CBO.ZERO`; `MXR` counts for the loads of the base ISA alone (rule R230). -/
def leafPermits (kind : AccessKind) (mxr : Bool) (pte : Nat) : Bool :=
  match kind with
  | .fetch => pteBit pte 3
  | .load => pteBit pte 1 || (mxr && pteBit pte 3)
  | .store => pteBit pte 2
  | .management => pteBit pte 1 || pteBit pte 3
  | .zero => pteBit pte 2
  | .hint => pteBit pte 1 || pteBit pte 3

/-- The U-rule (rules R222, R231): a user-mode access needs `U`, a supervisor access to a `U` page needs `SUM` and is no
fetch. -/
def userRule (kind : AccessKind) (user sum : Bool) (pte : Nat) : Bool :=
  if user then pteBit pte 4 else !pteBit pte 4 || (sum && kind != .fetch)

/-- Whether an access counts as a write for the `D` bit (rule R229). -/
def needsDirty (cfg : Config) : AccessKind → Bool
  | .fetch => false
  | .load => false
  | .store => true
  | .management => cfg.managementDirties
  | .zero => true
  | .hint => false

/-- The accesses whose `A` and `D` handling is `CMO_AD` (rule R229). -/
def isCmoAccess : AccessKind → Bool
  | .fetch => false
  | .load => false
  | .store => false
  | .management => true
  | .zero => true
  | .hint => true

/-- The leaf PTE has the `A` and `D` bits the access wants. -/
def adReady (cfg : Config) (kind : AccessKind) (pte : Nat) : Bool :=
  pteBit pte 6 && (pteBit pte 7 || !needsDirty cfg kind)

/-- The leaf PTE's `A` and `D` bits let the access on: a base access needs them set, a CMO access as `CMO_AD` says. -/
def adPermits (cfg : Config) (kind : AccessKind) (pte : Nat) : Bool :=
  if isCmoAccess kind then
    match cfg.cmoAd with
    | .ignored => true
    | .required => adReady cfg kind pte
    | .updated => true
  else adReady cfg kind pte

/-- The PTE write a CMO access makes where the hart updates `A` and `D`; a hint writes no memory (rule R183). -/
def adWrites (cfg : Config) (p : PageFormat) (kind : AccessKind) (pteAddr pte : Nat) : List (Nat × List Byte) :=
  if isCmoAccess kind && kind != .hint && cfg.cmoAd == .updated && !adReady cfg kind pte then
    [(pteAddr, toBytesLE (pte ||| 64 ||| (if needsDirty cfg kind then 128 else 0)) p.pteBytes)]
  else []

/-- What a walk finds: the address the leaf maps to, the leaf, and where the leaf lies. -/
structure Leaf where
  address : Nat
  pte : Nat
  pteAddr : Nat
  deriving DecidableEq, Repr

/-- A walk, from level `n - 1` down: `fetchPte` reads the PTE at an address of the table's address space and says where
it lies; `permits` is the check of a leaf. Errors of the walk itself are `fault`. -/
def walk (cfg : Config) (p : PageFormat) (fetchPte : Nat → Except XlateError (Nat × Nat)) (permits : Nat → Bool) (fault : XlateError)
    (va : Nat) : Nat → Nat → Except XlateError Leaf
  | 0, _ => .error fault
  | n + 1, table =>
    let shift := 12 + p.indexBits * n
    let bits := if n + 1 = p.levels then p.indexBits + p.rootExtra else p.indexBits
    match fetchPte (table + (va >>> shift) % 2 ^ bits * p.pteBytes) with
    | .error e => .error e
    | .ok (pte, pteAddr) =>
      if !pteBit pte 0 || pteReserved cfg p pte then .error fault
      else if pteLeaf pte then
        if ptePpn p pte % 2 ^ (p.indexBits * n) != 0 || !permits pte then .error fault
        else .ok { address := ptePpn p pte * 4096 + va % 2 ^ shift, pte := pte, pteAddr := pteAddr }
      else if pteBit pte 4 || pteBit pte 6 || pteBit pte 7 || pteMemType p pte != 0 then .error fault
      else walk cfg p fetchPte permits fault va n (ptePpn p pte * 4096)

/-- An implicit read of a PTE at a physical address: denied by the PMP or the PMAs, an access fault during the walk
(rule R232); else the bytes as the hart's loads see them. That one in an I/O device region, whose behaviour the spec does
not give (N9), reads the bytes the model holds there is the model's choice (DESIGN CHOICE, log entry 40), and so is its
memory type, always 0 (DESIGN CHOICE, log entry 46). -/
def readPte (s : State) (p : PageFormat) (pa : Nat) : Except XlateError (Nat × Nat) :=
  if (List.range p.pteBytes).all (fun i => joint s .s .read (pa + i)) then
    .ok (ofBytesLE ((List.range p.pteBytes).map fun i => MemSys.readByte s.cfg s.ms (hartAccess .load 0) (pa + i)), pa)
  else .error .access

/-- What a stage maps an access to: the address, the `W` bit of its leaf (none where the stage is Bare), the memory type
of its leaf (0 where it is Bare), and its PTE writes. -/
structure Mapped where
  address : Nat
  w : Option Bool
  memType : Nat
  writes : List (Nat × List Byte)
  deriving DecidableEq, Repr

/-- A stage that is Bare. -/
def Mapped.bare (address : Nat) : Mapped := { address := address, w := none, memType := 0, writes := [] }

/-- A stage that found a leaf. -/
def Mapped.ofLeaf (cfg : Config) (p : PageFormat) (kind : AccessKind) (leaf : Leaf) : Mapped :=
  { address := leaf.address, w := some (pteBit leaf.pte 2), memType := pteMemType p leaf.pte,
    writes := adWrites cfg p kind leaf.pteAddr leaf.pte }

/-- The check of a leaf of the G-stage (rule R226): it needs `U`. -/
def guestPermits (cfg : Config) (kind : AccessKind) (mxr : Bool) (pte : Nat) : Bool :=
  pteBit pte 4 && leafPermits kind mxr pte && adPermits cfg kind pte

/-- The G-stage (rule R226): guest physical address to physical address; `mxr` is whether `MXR` counts for the access. -/
def guestStage (s : State) (kind : AccessKind) (mxr : Bool) (gpa : Nat) : Except XlateError Mapped :=
  if atpBare s.cfg.xlen s.csr.hgatp then .ok (Mapped.bare gpa)
  else
    match pageFormat s.cfg.xlen (atpMode s.cfg.xlen s.csr.hgatp) true with
    | none => .error (.guest gpa)
    | some p =>
      if !canonical s.cfg.xlen p true gpa then .error (.guest gpa)
      else
        match walk s.cfg p (readPte s p) (guestPermits s.cfg kind mxr) (.guest gpa) gpa p.levels
            (atpRoot s.cfg.xlen s.csr.hgatp) with
        | .error e => .error e
        | .ok leaf => .ok (Mapped.ofLeaf s.cfg p kind leaf)

/-- The VS-stage read of a PTE: its guest physical address goes through the G-stage as an implicit load (rule R222:
these are not the access `w_g` speaks of), whatever `MXR` says. Two points the spec leaves open are the model's: the read
has memory type 0, whatever the G-stage leaf gives (DESIGN CHOICE, log entry 46), and that leaf needs its `A` bit set as
for a base load, also for a CMO instruction, so `CMO_AD` does not govern it (rule R229; DESIGN CHOICE, log entry 31). -/
def readGuestPte (s : State) (p : PageFormat) (gpa : Nat) : Except XlateError (Nat × Nat) :=
  match guestStage s .load false gpa with
  | .error e => .error e
  | .ok m => readPte s p m.address

/-- The check of a leaf of a first stage (rules R222, R225, R231). -/
def firstPermits (cfg : Config) (kind : AccessKind) (user sum mxr : Bool) (pte : Nat) : Bool :=
  userRule kind user sum pte && leafPermits kind mxr pte && adPermits cfg kind pte

/-- A first stage, `satp` or `vsatp` (rule R222). -/
def firstStage (s : State) (atp : Word) (fetchPte : PageFormat → Nat → Except XlateError (Nat × Nat)) (kind : AccessKind)
    (user sum mxr : Bool) (ea : Word) : Except XlateError Mapped :=
  if atpBare s.cfg.xlen atp then .ok (Mapped.bare ea.toNat)
  else
    match pageFormat s.cfg.xlen (atpMode s.cfg.xlen atp) false with
    | none => .error .page
    | some p =>
      if !canonical s.cfg.xlen p false ea.toNat then .error .page
      else
        match walk s.cfg p (fetchPte p) (firstPermits s.cfg kind user sum mxr) .page ea.toNat p.levels
            (atpRoot s.cfg.xlen atp) with
        | .error e => .error e
        | .ok leaf => .ok (Mapped.ofLeaf s.cfg p kind leaf)

/-- The `satp` stage of an S- or U-mode access. -/
def hostTranslate (s : State) (kind : AccessKind) (user : Bool) (inval : Bool) (ea : Word) : Except XlateError Xlate :=
  match firstStage s s.csr.satp (readPte s) kind user (s.csr.mstatus.getLsbD sumBit) (s.csr.mstatus.getLsbD mxrBit) ea with
  | .error e => .error e
  | .ok m =>
    if inval && user && !invalPass s.csr.scmocontrol m.w then .error .page
    else
      .ok { pa := m.address, wVS := none, wS := m.w, wG := none, memType := m.memType, pteWrites := m.writes }

/-- The two stages of a VS- or VU-mode access; the memory type is the first stage's, where that gives one. -/
def guestTranslate (s : State) (kind : AccessKind) (user : Bool) (inval : Bool) (ea : Word) : Except XlateError Xlate :=
  match firstStage s s.csr.vsatp (readGuestPte s) kind user (s.csr.vsstatus.getLsbD sumBit)
      (s.csr.vsstatus.getLsbD mxrBit || s.csr.mstatus.getLsbD mxrBit) ea with
  | .error e => .error e
  | .ok m =>
    if inval && user && !invalPass s.csr.vscmocontrol m.w then .error .page
    else
      match guestStage s kind (s.csr.mstatus.getLsbD mxrBit) m.address with
      | .error e => .error e
      | .ok g =>
        if inval && !invalPass s.csr.hcmocontrol g.w then .error (.guest m.address)
        else
          .ok { pa := g.address, wVS := m.w, wS := none, wG := g.w,
                memType := if m.memType = 0 then g.memType else m.memType, pteWrites := m.writes ++ g.writes }

/-- `Translate(ea, kind, eff_mode)` (rule R222); `inval` adds the checks `CBO.INVAL` makes stage by stage (rules R159
step 4, R224, R226, R244). -/
def translate (s : State) (kind : AccessKind) (inval : Bool) (eff : Mode) (ea : Word) : Except XlateError Xlate :=
  match eff with
  | .m => .ok { pa := ea.toNat, wVS := none, wS := none, wG := none, memType := 0, pteWrites := [] }
  | .s => hostTranslate s kind false inval ea
  | .u => hostTranslate s kind true inval ea
  | .vs => guestTranslate s kind false inval ea
  | .vu => guestTranslate s kind true inval ea

/-- The bytes a list of PTE writes covers. -/
def pteWriteAddresses (writes : List (Nat × List Byte)) : List Nat :=
  writes.flatMap fun w => (List.range w.2.length).map (w.1 + ·)

end Sys2Proof.Machine
end

