-- ==== Sys2Proof/Machine/Triggers.lean ====
section
/-!
DEFINITION. The trigger module (rules R247 to R251): how a CMO instruction is classified for a load, store or execute
match. The spec fixes the classification and what is UNSPECIFIED; the layout of `tdata1` is the debug architecture's (log
entry 7).
-/

namespace Sys2Proof.Machine

/-- What an instruction is to a trigger. -/
structure TriggerClass where
  load : Bool
  store : Bool
  execute : Bool
  /-- The access is a CMO instruction's, and load and store matches are applicable to it (rule R251). -/
  cmo : Bool
  deriving DecidableEq, Repr

/-- A cache block management instruction is both a load and a store (rule R249). -/
def TriggerClass.management : TriggerClass := { load := true, store := true, execute := false, cmo := true }

/-- A cache block write instruction is a store (rule R249). -/
def TriggerClass.zero : TriggerClass := { load := false, store := true, execute := false, cmo := true }

/-- A hint is both or neither (rule R249). Where it is neither and never acts, hints are converted to NOPs, and no match
of a load or store is applicable to them, whatever is UNSPECIFIED for other CMO instructions (rules R210, R251; I23). -/
def TriggerClass.hint (cfg : Config) : TriggerClass :=
  match cfg.hintTrigger with
  | .loadAndStore => { load := true, store := true, execute := false, cmo := true }
  | .neither => { load := false, store := false, execute := false, cmo := cfg.hintAction != .no }

/-- An instruction fetch. -/
def TriggerClass.fetch : TriggerClass := { load := false, store := false, execute := true, cmo := false }

/-- What a trigger that fires does (rule R247). -/
inductive TriggerAction where
  | breakpoint
  | debug
  deriving DecidableEq, Repr

/-- The `type` field of `tdata1`: 2 is `mcontrol`, 6 is `mcontrol6` (rule R24). -/
def triggerType (xlen : XLen) (t : Trigger) : Nat :=
  match xlen with
  | .rv32 => bitField t.tdata1 28 4
  | .rv64 => bitField t.tdata1 60 4

/-- The trigger is enabled in a mode. -/
def triggerInMode (xlen : XLen) (t : Trigger) : Mode → Bool
  | .m => t.tdata1.getLsbD 6
  | .s => t.tdata1.getLsbD 4
  | .u => t.tdata1.getLsbD 3
  | .vs => triggerType xlen t == 6 && t.tdata1.getLsbD 24
  | .vu => triggerType xlen t == 6 && t.tdata1.getLsbD 23

/-- A data match, not an address match. -/
def triggerOnData (xlen : XLen) (t : Trigger) : Bool :=
  if triggerType xlen t = 6 then t.tdata1.getLsbD 21 else t.tdata1.getLsbD 19

/-- The address matches `tdata2`: equal, in a NAPOT range (rule R251), at least, or below. -/
def triggerMatches (t : Trigger) (address : Word) : Bool :=
  let ones := t.tdata2 ^^^ (t.tdata2 + 1#64)
  match bitField t.tdata1 7 4 with
  | 0 => address == t.tdata2
  | 1 => (address ||| ones) == (t.tdata2 ||| ones)
  | 2 => decide (t.tdata2.toNat ≤ address.toNat)
  | 3 => decide (address.toNat < t.tdata2.toNat)
  | _ => false

/-- The trigger looks at accesses of the class (rule R249). -/
def triggerSelects (t : Trigger) (c : TriggerClass) : Bool :=
  (c.load && t.tdata1.getLsbD 0) || (c.store && t.tdata1.getLsbD 1) || (c.execute && t.tdata1.getLsbD 2)

/-- A trigger on loads or stores. -/
def triggerOnAccess (t : Trigger) : Bool := t.tdata1.getLsbD 0 || t.tdata1.getLsbD 1

/-- What a trigger does about a CMO instruction that is no NOP is UNSPECIFIED, whatever its class: a data match of
either type (rule R250), and an address match of `type=2` (rule R248). -/
def triggerUnspecified (xlen : XLen) (t : Trigger) (c : TriggerClass) : Bool :=
  c.cmo && (triggerOnData xlen t || triggerType xlen t == 2)

/-- The free choice whether a trigger fires. -/
def triggerDraw (s : State) (index : Nat) (t : Trigger) (c : TriggerClass) : Bool :=
  resolve (if triggerOnData s.cfg.xlen t then s.cfg.dataMatchFires else s.cfg.mcontrolFires) s.tick
    (.triggerFires index c.execute)

/-- One trigger fires: by its address match (rule R249), or as is drawn where its behaviour is UNSPECIFIED (rules R248,
R250; a data match of a base access is drawn too, the model having no data of the access here). The mode-enable bits are
compared with the current privilege mode, also where `MPRV` makes the effective mode of the access another: the spec does
not say which (DESIGN CHOICE, log entry 7). -/
def triggerFires (s : State) (index : Nat) (t : Trigger) (c : TriggerClass) (address : Word) : Bool :=
  let type := triggerType s.cfg.xlen t
  (type == 2 || type == 6) && triggerInMode s.cfg.xlen t s.mode &&
    (if triggerUnspecified s.cfg.xlen t c then triggerOnAccess t && triggerDraw s index t c
     else triggerSelects t c &&
      (if triggerOnData s.cfg.xlen t then triggerDraw s index t c else triggerMatches t address))

/-- The action of a trigger: 0 is the breakpoint exception. -/
def triggerAction (t : Trigger) : TriggerAction := if bitField t.tdata1 12 4 = 0 then .breakpoint else .debug

/-- The action of the first trigger of a list that fires; the first of the list has number `index`. -/
def firstTrigger (s : State) (c : TriggerClass) (address : Word) : Nat → List Trigger → Option TriggerAction
  | _, [] => none
  | index, t :: rest =>
    if triggerFires s index t c address then some (triggerAction t) else firstTrigger s c address (index + 1) rest

/-- What the trigger module does about an access (rules R159 step 3, R174 step 3, R183 step 2). -/
def triggerHit (s : State) (c : TriggerClass) (address : Word) : Option TriggerAction :=
  firstTrigger s c address 0 s.triggers

end Sys2Proof.Machine
end

