-- ==== Sys2Proof/Machine/Ops.lean ====
section
/-!
DEFINITION. The named operations every instruction is written with: retiring, taking an exception (rules R211, R252, R253,
R256) and returning from one (rule R254), the accesses of the hart to memory and caches, and the reservation.
-/

namespace Sys2Proof.Machine

/-- A step's outcome in this machine. -/
abbrev Result := Host.Outcome State Fault Refusal

/-! ### Retiring -/

/-- An instruction of `n` bytes retires; the counter of the free values goes on. -/
def retireBy (s : State) (n : Nat) : State := { s with pc := pcAfter s n, tick := s.tick + 1 }

/-- `retire`: `pc <- pc + ILEN_CMO` (rule R22). -/
def retire (s : State) : State := retireBy s s.cfg.enc.ilen

/-! ### Taking an exception -/

/-- The synchronous exceptions (rule R211; those a CMO instruction never raises are the base ISA's). -/
inductive Exception where
  | instrMisaligned
  | instrAccess
  | illegalInstruction
  | breakpoint
  | loadMisaligned
  | loadAccess
  | storeMisaligned
  | storeAccess
  | callFromU
  | callFromS
  | callFromVS
  | callFromM
  | instrPage
  | loadPage
  | storePage
  | instrGuestPage
  | loadGuestPage
  | virtualInstruction
  | storeGuestPage
  deriving DecidableEq, Repr

/-- The cause codes (rule R211). -/
def Exception.code : Exception → Nat
  | .instrMisaligned => 0
  | .instrAccess => 1
  | .illegalInstruction => 2
  | .breakpoint => 3
  | .loadMisaligned => 4
  | .loadAccess => 5
  | .storeMisaligned => 6
  | .storeAccess => 7
  | .callFromU => 8
  | .callFromS => 9
  | .callFromVS => 10
  | .callFromM => 11
  | .instrPage => 12
  | .loadPage => 13
  | .storePage => 15
  | .instrGuestPage => 20
  | .loadGuestPage => 21
  | .virtualInstruction => 22
  | .storeGuestPage => 23

/-- What a trap records: the exception, the trap value, the guest physical address of a guest-page fault (0 for the
others), and whether the trap value is a guest virtual address. -/
structure Trap where
  cause : Exception
  tval : Word
  gpa : Nat
  gva : Bool
  deriving DecidableEq, Repr

/-- An exception `hedeleg` can delegate to VS-mode: calls from above U, guest-page faults and virtual instruction
exceptions never are (log entry 10). -/
def guestDelegable (e : Exception) : Bool := !([9, 10, 11, 20, 21, 22, 23].contains e.code)

/-- The modes that handle exceptions. -/
inductive Handler where
  | m
  | s
  | vs
  deriving DecidableEq, Repr

/-- The mode that handles an exception: M, unless `medeleg` gives it to S/HS and then `hedeleg` to VS (rule R256). -/
def trapTarget (s : State) (e : Exception) : Handler :=
  if s.mode = .m then .m
  else if !s.csr.medeleg.getLsbD e.code then .m
  else if s.mode.isVirtual && s.csr.hedeleg.getLsbD e.code && guestDelegable e then .vs
  else .s

/-- The guest physical address as `mtval2` and `htval` record it: shifted right by 2 (rule R252). -/
def recordedGpa (t : Trap) : Word := BitVec.ofNat 64 (t.gpa >>> 2)

/-- The CSRs after a trap to M-mode (rule R253). -/
def Csrs.trapToM (c : Csrs) (hasH : Bool) (pc : Word) (mode : Mode) (t : Trap) : Csrs :=
  let base := setBit (setBit (setMpp c.mstatus mode.level) mpieBit (c.mstatus.getLsbD mieBit)) mieBit false
  { c with
    mepc := pc, mcause := BitVec.ofNat 64 t.cause.code, mtval := t.tval,
    mtval2 := if hasH then recordedGpa t else c.mtval2,
    mstatus := if hasH then setBit (setBit base mpvBit mode.isVirtual) gvaBit t.gva else base }

/-- The CSRs after a trap to S/HS-mode (rule R253). -/
def Csrs.trapToS (c : Csrs) (hasH : Bool) (pc : Word) (mode : Mode) (t : Trap) : Csrs :=
  let supervisor := mode.level == 1#2
  let hs := setBit (setBit c.hstatus spvBit mode.isVirtual) hgvaBit t.gva
  { c with
    sepc := pc, scause := BitVec.ofNat 64 t.cause.code, stval := t.tval,
    htval := if hasH then recordedGpa t else c.htval,
    mstatus :=
      setBit (setBit (setBit c.mstatus sppBit supervisor) spieBit (c.mstatus.getLsbD sieBit)) sieBit false,
    hstatus := if hasH then (if mode.isVirtual then setBit hs spvpBit supervisor else hs) else c.hstatus }

/-- The CSRs after a trap to VS-mode (rule R253). -/
def Csrs.trapToVS (c : Csrs) (pc : Word) (mode : Mode) (t : Trap) : Csrs :=
  { c with
    vsepc := pc, vscause := BitVec.ofNat 64 t.cause.code, vstval := t.tval,
    vsstatus :=
      setBit (setBit (setBit c.vsstatus sppBit (mode.level == 1#2)) spieBit (c.vsstatus.getLsbD sieBit)) sieBit false }

/-- Taking an exception: the one entry to every handler (rules R211, R253, R256). `pc` still holds the instruction's
address; nothing of memory or the caches changes. A reservation stands, which the spec does not say (DESIGN CHOICE, log
entry 32). -/
def takeTrap (s : State) (t : Trap) : State :=
  match trapTarget s t.cause with
  | .m =>
    { s with csr := s.csr.trapToM s.cfg.hasH s.pc s.mode t, mode := .m, pc := truncX s.cfg (vectorBase s.csr.mtvec),
             tick := s.tick + 1 }
  | .vs =>
    { s with csr := s.csr.trapToVS s.pc s.mode t, mode := .vs, pc := truncX s.cfg (vectorBase s.csr.vstvec),
             tick := s.tick + 1 }
  | .s =>
    { s with csr := s.csr.trapToS s.cfg.hasH s.pc s.mode t, mode := .s, pc := truncX s.cfg (vectorBase s.csr.stvec),
             tick := s.tick + 1 }

/-! ### Returning from an exception (rule R254). A reservation stands over each return, which the spec does not say (DESIGN
CHOICE, log entry 32). -/

/-- The mode `MRET` returns to. -/
def mretMode (s : State) : Mode := modeOf (mpp s.csr.mstatus) (s.cfg.hasH && s.csr.mstatus.getLsbD mpvBit)

/-- `MRET`: the mode of `MPP` and `MPV`, `MIE` from `MPIE`, the program counter from `mepc`; `MPRV` is cleared on a
return to a mode below M. A reservation stands (DESIGN CHOICE, log entry 32). -/
def returnFromM (s : State) : State :=
  let ms := setBit (setBit (setMpp s.csr.mstatus 0#2) mieBit (s.csr.mstatus.getLsbD mpieBit)) mpieBit true
  let ms := if s.cfg.hasH then setBit ms mpvBit false else ms
  let ms := if mretMode s = .m then ms else setBit ms mprvBit false
  { s with csr := { s.csr with mstatus := ms }, mode := mretMode s, pc := truncX s.cfg (alignPc s.cfg s.csr.mepc),
           tick := s.tick + 1 }

/-- `SRET` in M- or S/HS-mode: the mode of `SPP` and `SPV`, `SIE` from `SPIE`, the program counter from `sepc`. A
reservation stands (DESIGN CHOICE, log entry 32). -/
def returnFromS (s : State) : State :=
  let ms := setBit (setBit (setBit s.csr.mstatus sppBit false) sieBit (s.csr.mstatus.getLsbD spieBit)) spieBit true
  let virt := s.cfg.hasH && s.csr.hstatus.getLsbD spvBit
  { s with
    csr := { s.csr with
      mstatus := setBit ms mprvBit false,
      hstatus := if s.cfg.hasH then setBit s.csr.hstatus spvBit false else s.csr.hstatus },
    mode := modeOf (if s.csr.mstatus.getLsbD sppBit then 1#2 else 0#2) virt,
    pc := truncX s.cfg (alignPc s.cfg s.csr.sepc), tick := s.tick + 1 }

/-- `SRET` in VS-mode: the same with the VS registers. A reservation stands (DESIGN CHOICE, log entry 32). -/
def returnFromVS (s : State) : State :=
  let vs := setBit (setBit (setBit s.csr.vsstatus sppBit false) sieBit (s.csr.vsstatus.getLsbD spieBit)) spieBit true
  { s with csr := { s.csr with vsstatus := vs },
           mode := modeOf (if s.csr.vsstatus.getLsbD sppBit then 1#2 else 0#2) true,
           pc := truncX s.cfg (alignPc s.cfg s.csr.vsepc), tick := s.tick + 1 }

/-! ### Exceptions of CMO instructions (rules R210, R252) -/

/-- What lands in the trap value register for an address `ea` (rule R252, `TVAL_RULE`): `ea`, an address of its block, or
zero. -/
def addressTval (s : State) (ea : Word) : Word :=
  let offset := Config.freeNat s.tick .tvalOffset % blockSize s.cfg
  let inBlock := BitVec.ofNat 64 (blockBase s.cfg ea.toNat + offset)
  match s.cfg.tval with
  | .info => ea
  | .inBlock => inBlock
  | .zero => 0#64
  | .drawn =>
    if Config.freeBool s.tick .tvalRule then ea
    else if Config.freeBool s.tick .tvalOffset then inBlock else 0#64

/-- The instruction word as a trap value. -/
def wordTval (s : State) : Word := truncX s.cfg (BitVec.ofNat 64 s.word)

/-- What lands in the trap value register for an illegal instruction: the instruction word, or zero (rule R252). -/
def illegalTval (s : State) : Word :=
  match s.cfg.tval with
  | .info => wordTval s
  | .inBlock => wordTval s
  | .zero => 0#64
  | .drawn => if Config.freeBool s.tick .tvalRule then wordTval s else 0#64

/-- `raise IllegalInstruction(word)` (rule R211). -/
def raiseIllegal (s : State) : State :=
  takeTrap s { cause := .illegalInstruction, tval := illegalTval s, gpa := 0, gva := false }

/-- `raise E(ea)` for an exception on an effective address of an access in mode `eff` (rules R211, R252). -/
def raiseAddress (s : State) (e : Exception) (eff : Mode) (ea : Word) (gpa : Nat) : State :=
  takeTrap s { cause := e, tval := addressTval s ea, gpa := gpa, gva := s.cfg.hasH && eff.isVirtual }

/-- The exception of a translation that fails: of the store/AMO kind for every CMO instruction (rules R210, R223, R225,
R226, R232). -/
def raiseXlate (s : State) (eff : Mode) (ea : Word) : XlateError → State
  | .page => raiseAddress s .storePage eff ea 0
  | .guest gpa => raiseAddress s .storeGuestPage eff ea gpa
  | .access => raiseAddress s .storeAccess eff ea 0

/-! ### Accesses of the hart -/

/-- The latest stores that still stand (rules R99, R103). -/
def standing (cfg : Config) (ms : MemSys) (l : List LatestByte) : List LatestByte := l.filter (·.held cfg ms)

/-- The state with another memory system, into which the bytes `brought` came. -/
def bringMs (s : State) (brought : LatestByte → Option Byte) (ms : MemSys) : State :=
  { s with ms := ms, latest := standing s.cfg ms (bringAll brought s.latest) }

/-- The state with another memory system. -/
def setMs (s : State) (ms : MemSys) : State := { s with ms := ms, latest := standing s.cfg ms s.latest }

/-- Every latest store stands on the path of its access (rules R99, R103). -/
def latestKept (s : State) (ms : MemSys) : Bool := s.latest.all (·.held s.cfg ms)

/-- A write of an access to the block of `pa` has its place in the order of the hart's loads of a memory type: they meet
it in a coherence domain (rules R82, R100). -/
def ordered (s : State) (acc : Access) (pa memType : Nat) : Bool :=
  s.ms.arrives s.cfg (blockBase s.cfg pa) (hopsOf s.cfg (hartAccess .load memType) (blockBase s.cfg pa))
    (hopsOf s.cfg acc (blockBase s.cfg pa))

/-- A write of `n` bytes at `pa` is a later store to a byte in the order of the loads that must return it. -/
def supersedes (s : State) (acc : Access) (pa n : Nat) (e : LatestByte) : Bool :=
  e.kind == .load && inRange pa n e.address && ordered s acc e.address e.memType

/-- The latest stores of a write to the loads in whose order it is. -/
def latestOfWrite (s : State) (acc : Access) (pa : Nat) (bs : List Byte) : List LatestByte :=
  (memTypesOf s.cfg).flatMap fun m =>
    (List.range bs.length).filterMap fun i =>
      if ordered s acc (pa + i) m then
        some { address := pa + i, kind := .load, memType := m, values := [bs.getD i 0#8] }
      else none

/-- The latest stores after a write by an access: of a byte written, for the loads in whose order the write is, that
store and no earlier one, while other accesses may return it beside what they may return already (rules R80, R99, R100,
R103; log entry 45). -/
def latestAfterWrite (s : State) (ms : MemSys) (acc : Access) (pa : Nat) (bs : List Byte) : List LatestByte :=
  standing s.cfg ms
    (latestOfWrite s acc pa bs
      ++ bringAll (bytesBring pa bs) (s.latest.filter fun e => !supersedes s acc pa bs.length e))

/-- A store of the hart through a page of a memory type: data writes of `bs` at `pa` and on (rules R68 to R70). A byte
stored to holds what was stored (rule R95), and the hart's loads of it return that (rule R99). -/
def hartWrite (s : State) (kind : AccessKind) (memType pa : Nat) (bs : List Byte) : State :=
  let ms := MemSys.writeBytes s.cfg s.tick (hartAccess kind memType) pa bs s.ms
  { s with
    ms := ms,
    unspecified := ((List.range bs.length).map (pa + ·)).foldl Addresses.erase s.unspecified,
    latest := latestAfterWrite s ms (hartAccess kind memType) pa bs }

/-- The PTE writes of a hart that updates `A` and `D` (rule R229): data writes (rule R68). They are checked against no
PMP, PMA or G-stage write permission of the PTE's own address: the spec says nothing of that (DESIGN CHOICE, log entry
31); in an I/O device region they write the bytes the model holds there (DESIGN CHOICE, log entry 40); and their memory
type is 0 (DESIGN CHOICE, log entry 46). -/
def writePtes (s : State) (writes : List (Nat × List Byte)) : State :=
  writes.foldl (fun s w => hartWrite s .store 0 w.1 w.2) s

/-- An access of the hart allocates the block of `pa` in a cache on its path (rule R65), if it is to and no latest store
is hidden by it (rule R99, log entry 45). -/
def allocateAt (s : State) (acc : Access) (wanted : Bool) (pa cache : Nat) : State :=
  if wanted && latestKept s (MemSys.allocateOnPath s.cfg acc cache (blockBase s.cfg pa) s.ms) then
    setMs s (MemSys.allocateOnPath s.cfg acc cache (blockBase s.cfg pa) s.ms)
  else s

/-- A write may allocate its block in a cache (rules R65, R173). -/
def allocateForWrite (s : State) (kind : AccessKind) (memType pa : Nat) (cache : Option Nat) : State :=
  match cache with
  | none => s
  | some c => allocateAt s (hartAccess kind memType) (resolve s.cfg.writeAllocates s.tick (.writeAllocates pa)) pa c

/-- The byte a load of the hart returns, through a page of a memory type (rule R95): UNSPECIFIED where an invalidate of
this hart operated on it with no store since, else what the caches and memory hold. -/
def hartLoadByte (s : State) (memType pa : Nat) : Byte :=
  if s.cfg.loadAfterInvalDrawn && s.unspecified.contains pa then Config.freeByte s.tick (.loadByte pa)
  else MemSys.readByte s.cfg s.ms (hartAccess .load memType) pa

/-- What another system agent reads (rule R61). -/
def agentReadByte (s : State) (agent pa : Nat) : Byte := MemSys.readByte s.cfg s.ms (agentAccess agent .load) pa

/-- A management operation of an agent on the block of `pa`: the bytes it makes visible at the PoC are such as every
access to the block may return from then on, if it is "not satisfied by a newer write" (rule R152 (a), (c)). -/
def manageBlock (s : State) (op : CacheOp) (acc : Access) (pa : Nat) (poc : Poc) : State :=
  let ms := MemSys.manageAt s.cfg s.tick op acc pa poc s.latest s.ms
  bringMs s
    (whereNeeded s.cfg ms
      (blockBrings s.cfg (blockBase s.cfg pa) (s.ms.transferredAt s.cfg s.tick op acc pa poc s.latest))) ms

/-- A CMO instruction on the block of a reservation may break it: not stated, so a free choice (rules R102, R185). -/
def disturbReservation (s : State) (pa : Nat) : State :=
  if s.reservation = some (blockBase s.cfg pa) ∧ resolve s.cfg.breaksReservation s.tick .breaksReservation = true then
    { s with reservation := none }
  else s

end Sys2Proof.Machine
end

