-- ==== Sys2Proof/Machine/Discovery.lean ====
section
/-!
DEFINITION. The cache block size discovery instruction `CBO.SIZE` (spec/43_cbo_discovery.md).
-/

namespace Sys2Proof.Machine

/-- `CBO.SIZE`: the source gives it no operands, no encoding and no effect; the spec has it refused by name (rule R200,
D22). -/
def execCboSize (_ : State) : Result := .refused .cboSizeUndefined

end Sys2Proof.Machine
end

