-- ==== Sys2Proof/Machine/Hints.lean ====
section
/-!
DEFINITION. The cache block hint instructions `PREFETCH.R`, `PREFETCH.W`, `PREFETCH.I`, `DEMOTE` (spec/42_cbo_hint.md).
-/

namespace Sys2Proof.Machine

/-- The four hints. -/
inductive HintKind where
  | prefetchR
  | prefetchW
  | prefetchI
  | demote
  deriving DecidableEq, Repr

/-- The accesses a hint speaks of: reads, writes, or instruction fetches, whose caches may be others (rule R186). Where
`PREFETCH_I_SAME_CACHE` says that the cache of a `PREFETCH.I` is that of a `PREFETCH.R` or a `PREFETCH.W`, it is that of
a `PREFETCH.R`: the rule does not say which where the two differ (DESIGN CHOICE, log entry 39). -/
def hintPath (cfg : Config) : HintKind → AccessKind
  | .prefetchR => .load
  | .prefetchW => .store
  | .prefetchI => if cfg.prefetchISameCache then .load else .fetch
  | .demote => .load

/-- The access a hint speaks of, through a page of a memory type. -/
def hintAccessOf (cfg : Config) (kind : HintKind) (memType : Nat) : Access := hartAccess (hintPath cfg kind) memType

/-- The cache the level designates for a hint (rules R181, R182). -/
def hintCache (s : State) (kind : HintKind) (level : Level) (memType pa : Nat) : Option Nat :=
  levelCache s.cfg (hopsOf s.cfg (hintAccessOf s.cfg kind memType) (blockBase s.cfg pa)) level

/-- Where a block that `DEMOTE` deallocates goes: a free choice among what rule R66 allows. -/
def demoteDestination (s : State) (cache pa : Nat) : Destination :=
  let n := Config.freeNat s.tick .hintDestination % (s.cfg.caches.length + 2)
  if n < s.cfg.caches.length then .cache n
  else if !s.ms.isModified cache (blockBase s.cfg pa) then .dropped
  else if n = s.cfg.caches.length then .memory
  else .outward

/-- What a hint would do to the caches: an allocation for a prefetch, never as Modified (rules R184, R185, R186); a
deallocation for `DEMOTE` (rule R187). Both are steps a cache may take anyway (rule R75, D17). -/
def hintMove (s : State) (kind : HintKind) (cache memType pa : Nat) : MemSys :=
  let b := blockBase s.cfg pa
  match kind with
  | .demote => MemSys.deallocate s.cfg cache b (demoteDestination s cache pa) s.ms
  | .prefetchR => MemSys.allocateOnPath s.cfg (hintAccessOf s.cfg kind memType) cache b s.ms
  | .prefetchW => MemSys.allocateOnPath s.cfg (hintAccessOf s.cfg kind memType) cache b s.ms
  | .prefetchI => MemSys.allocateOnPath s.cfg (hintAccessOf s.cfg kind memType) cache b s.ms

/-- The cache a hint sends the block to as it leaves another, if any. -/
def hintTarget (s : State) (kind : HintKind) (cache pa : Nat) : Option Nat :=
  match kind with
  | .demote => (demoteDestination s cache pa).cache?
  | .prefetchR => none
  | .prefetchW => none
  | .prefetchI => none

/-- A hint that would break the agreement of a coherence domain (rule R79), or hide a byte from the hart's loads, does
nothing: no load of the block changes by a hint (rules R183, R187), but where `DEMOTE` drops an unmodified copy and a
load then sees what lies beyond it, as it could anyway (D17), a latest store of the hart never hidden, nor a Modified
block taken off the path of its loads (rule R99). -/
def hintAllowed (s : State) (kind : HintKind) (cache pa : Nat) (ms : MemSys) : Bool :=
  ms.agrees s.cfg (blockBase s.cfg pa) && latestKept s ms &&
    !s.ms.takesOut s.cfg (blockBase s.cfg pa) (some cache) (hintTarget s kind cache pa) &&
    ((kind == .demote && !s.ms.isModified cache (blockBase s.cfg pa)) || loadsKept s.cfg s.ms ms (blockBase s.cfg pa))

/-- Step 5 of rule R183: nothing, or the action `HINT_ACTION` on the block. -/
def performHint (s : State) (kind : HintKind) (level : Level) (memType pa : Nat) : State :=
  let acted :=
    match hintCache s kind level memType pa with
    | none => s
    | some cache =>
      if resolve s.cfg.hintAction s.tick .hintActs && hintAllowed s kind cache pa (hintMove s kind cache memType pa) then
        setMs s (hintMove s kind cache memType pa)
      else s
  disturbReservation acted pa

/-- Steps 3 to 6 of rule R183: a hint that lacks a permission "retires without accessing memory" (rules R227, R242). -/
def hintAccess (s : State) (kind : HintKind) (level : Level) (ea : Word) : State :=
  match translate s .hint false (effMode s) ea with
  | .error _ => retire s
  | .ok t =>
    if !allJointRorX s (effMode s) t.pa then retire s
    else retire (performHint s kind level t.memType t.pa)

/-- `Exec_hint(kind, rs1, level)` (rule R183): no illegal instruction, page, guest-page, access or misaligned exception;
a breakpoint where hints are classified as loads and stores (rule R249), or where what a trigger does is UNSPECIFIED
(rules R248, R250; log entry 7). -/
def execHint (kind : HintKind) (rs1 : RegIdx) (level : Level) (s : State) : Result :=
  match triggerHit s (TriggerClass.hint s.cfg) (effectiveAddress s rs1) with
  | some .debug => .refused .debugAction
  | some .breakpoint => .next (raiseAddress s .breakpoint (effMode s) (effectiveAddress s rs1) 0)
  | none => .next (hintAccess s kind level (effectiveAddress s rs1))

/-- `PREFETCH.R rs1, level` (rule R184). -/
def execPrefetchR (rs1 : RegIdx) (level : Level) (s : State) : Result := execHint .prefetchR rs1 level s

/-- `PREFETCH.W rs1, level` (rule R185). -/
def execPrefetchW (rs1 : RegIdx) (level : Level) (s : State) : Result := execHint .prefetchW rs1 level s

/-- `PREFETCH.I rs1, level` (rule R186). -/
def execPrefetchI (rs1 : RegIdx) (level : Level) (s : State) : Result := execHint .prefetchI rs1 level s

/-- `DEMOTE rs1, level` (rule R187). -/
def execDemote (rs1 : RegIdx) (level : Level) (s : State) : Result := execHint .demote rs1 level s

end Sys2Proof.Machine
end

