-- ==== Sys2Proof/Machine/Management.lean ====
section
/-!
DEFINITION. The cache block management instructions `CBO.INVAL`, `CBO.CLEAN`, `CBO.FLUSH` (spec/40_cbo_management.md).
-/

namespace Sys2Proof.Machine

/-- The three instructions (rule R159's `kind`). -/
inductive ManagementKind where
  | inval
  | clean
  | flush
  deriving DecidableEq, Repr

/-- `Wx` of `mcmocontrol`: whether some byte of the block has joint write permission (rule R238). -/
def machineW (s : State) (eff : Mode) (pa : Nat) : Option Bool := some (someJointW s eff pa)

/-- The operation an instruction performs: `CBO.INVAL` an invalidate or a flush (rules R153, R155). -/
def managementOp (s : State) (kind : ManagementKind) (eff : Mode) (t : Xlate) : CacheOp :=
  match kind with
  | .clean => .clean
  | .flush => .flush
  | .inval =>
    if invalIsInvalidate s.csr (machineW s eff t.pa) t.wS t.wG t.wVS eff then .invalidate else .flush

/-- The bytes whose loads are UNSPECIFIED after an operation of this hart on the block of `pa`: an invalidate adds the
block's, a clean or a flush none (rule R95). -/
def unspecifiedAfter (s : State) (op : CacheOp) (pa : Nat) : List Nat :=
  match op with
  | .invalidate => (blockAddresses s.cfg pa).foldl Addresses.insert s.unspecified
  | .clean => s.unspecified
  | .flush => s.unspecified

/-- The latest stores after an operation of this hart: an invalidate leaves none that the loads of its block must return
(rule R95). -/
def latestAfter (s : State) (op : CacheOp) (pa : Nat) (l : List LatestByte) : List LatestByte :=
  match op with
  | .invalidate => l.filter fun e => !(e.kind == .load && blockBase s.cfg e.address == blockBase s.cfg pa)
  | .clean => l
  | .flush => l

/-- Step 8 of rule R159: the operation on the block in `CacheSet(this hart, pa, poc)`. -/
def performManagement (s : State) (op : CacheOp) (memType pa : Nat) (poc : Poc) : State :=
  let t := manageBlock s op (hartAccess .management memType) pa poc
  disturbReservation
    { t with unspecified := unspecifiedAfter s op pa, latest := latestAfter s op pa t.latest } pa

/-- `CBO.INVAL` below effective M-mode is denied by `mcmocontrol` (rules R240, R244). -/
def invalDenied (s : State) (kind : ManagementKind) (eff : Mode) (pa : Nat) : Bool :=
  kind == .inval && eff != .m && !invalPass s.csr.mcmocontrol (machineW s eff pa)

/-- Steps 5 to 9 of rule R159, the translation done. -/
def managementAccess (s : State) (kind : ManagementKind) (eff : Mode) (ea : Word) (poc : Poc) (t : Xlate) : Result :=
  if !pmaConstraint s.cfg t.pa then .refused .pmaConstraintViolated
  else if !allJointRorX s eff t.pa || invalDenied s kind eff t.pa then .next (raiseAddress s .storeAccess eff ea 0)
  else .next (retire (performManagement (writePtes s t.pteWrites) (managementOp s kind eff t) t.memType t.pa poc))

/-- Steps 2 to 9 of rule R159, the instruction legal: the trigger module, then the translation. -/
def managementChecks (s : State) (kind : ManagementKind) (ea : Word) (poc : Poc) : Result :=
  match triggerHit s TriggerClass.management ea with
  | some .debug => .refused .debugAction
  | some .breakpoint => .next (raiseAddress s .breakpoint (effMode s) ea 0)
  | none =>
    match translate s .management (kind == .inval) (effMode s) ea with
    | .error e => .next (raiseXlate s (effMode s) ea e)
    | .ok t => managementAccess s kind (effMode s) ea poc t

/-- `Exec_mgmt(kind, rs1, poc)` (rule R159). -/
def execManagement (kind : ManagementKind) (rs1 : RegIdx) (poc : Poc) (s : State) : Result :=
  if illegalCbme s.csr s.mode then .next (raiseIllegal s)
  else managementChecks s kind (effectiveAddress s rs1) poc

/-- `CBO.INVAL rs1, poc` (rule R153). -/
def execCboInval (rs1 : RegIdx) (poc : Poc) (s : State) : Result := execManagement .inval rs1 poc s

/-- `CBO.CLEAN rs1, poc` (rule R157). -/
def execCboClean (rs1 : RegIdx) (poc : Poc) (s : State) : Result := execManagement .clean rs1 poc s

/-- `CBO.FLUSH rs1, poc` (rule R158). -/
def execCboFlush (rs1 : RegIdx) (poc : Poc) (s : State) : Result := execManagement .flush rs1 poc s

end Sys2Proof.Machine
end

