-- ==== Sys2Proof/Machine/Zero.lean ====
section
/-!
DEFINITION. The cache block write instruction `CBO.ZERO` (spec/41_cbo_write.md).
-/

namespace Sys2Proof.Machine

/-- The block lies in main memory that the access treats as cacheable: elsewhere the model gives `CBO.ZERO` no meaning
(rule R175, D25). -/
def zeroable (cfg : Config) (memType pa : Nat) : Bool :=
  accessCacheable cfg (hartAccess .zero memType) (blockBase cfg pa)

/-- The cache the level designates on the hart's path for the write (rules R171, R172). -/
def zeroCache (s : State) (level : Level) (memType pa : Nat) : Option Nat :=
  levelCache s.cfg (hopsOf s.cfg (hartAccess .zero memType) (blockBase s.cfg pa)) level

/-- Step 7 of rule R174: a byte write of zero to each of the `B` bytes of the block, the block perhaps allocated first
(rule R173). The rule draws the order and the grouping of the writes (I21); the model makes all of them in this one step,
with no cache move (rules R65, R66) and no move of another agent between them, so that memory, right after the
instruction, holds the old bytes of the whole block or zeros in all of it, never the mixture by bytes that test vector
V-Z1 allows (DESIGN CHOICE, log entry 21). -/
def zeroBlock (s : State) (level : Level) (memType pa : Nat) : State :=
  disturbReservation
    (hartWrite (allocateForWrite s .zero memType pa (zeroCache s level memType pa)) .zero memType (blockBase s.cfg pa)
      (List.replicate (blockSize s.cfg) 0#8))
    pa

/-- Steps 5 to 8 of rule R174, the translation done. -/
def zeroAccess (s : State) (eff : Mode) (ea : Word) (level : Level) (t : Xlate) : Result :=
  if !pmaConstraint s.cfg t.pa then .refused .pmaConstraintViolated
  else if !fullJointW s eff t.pa then .next (raiseAddress s .storeAccess eff ea 0)
  else if !zeroable s.cfg t.memType t.pa then .refused .zeroOnDeviceOrUncacheable
  else .next (retire (zeroBlock (writePtes s t.pteWrites) level t.memType t.pa))

/-- Steps 2 to 8 of rule R174, the instruction legal. -/
def zeroChecks (s : State) (ea : Word) (level : Level) : Result :=
  match triggerHit s TriggerClass.zero ea with
  | some .debug => .refused .debugAction
  | some .breakpoint => .next (raiseAddress s .breakpoint (effMode s) ea 0)
  | none =>
    match translate s .zero false (effMode s) ea with
    | .error e => .next (raiseXlate s (effMode s) ea e)
    | .ok t => zeroAccess s (effMode s) ea level t

/-- `CBO.ZERO rs1, level` (rules R173, R174). -/
def execCboZero (rs1 : RegIdx) (level : Level) (s : State) : Result :=
  if illegalCbwe s.csr s.mode then
    .next (raiseIllegal s)
  else zeroChecks s (effectiveAddress s rs1) level

end Sys2Proof.Machine
end

