-- ==== Sys2Proof/Machine/Dispatch.lean ====
section
/-!
DEFINITION. The meaning of each instruction, one arm per constructor.
-/

namespace Sys2Proof.Machine

def exec (i : Instr) (s : State) : Host.Outcome State Fault Refusal :=
  match i with
  | .cboInval rs1 poc => Sys2Proof.Machine.execCboInval rs1 poc s
  | .cboClean rs1 poc => Sys2Proof.Machine.execCboClean rs1 poc s
  | .cboFlush rs1 poc => Sys2Proof.Machine.execCboFlush rs1 poc s
  | .cboZero rs1 level => Sys2Proof.Machine.execCboZero rs1 level s
  | .prefetchR rs1 level => Sys2Proof.Machine.execPrefetchR rs1 level s
  | .prefetchW rs1 level => Sys2Proof.Machine.execPrefetchW rs1 level s
  | .prefetchI rs1 level => Sys2Proof.Machine.execPrefetchI rs1 level s
  | .demote rs1 level => Sys2Proof.Machine.execDemote rs1 level s
  | .cboSize => Sys2Proof.Machine.execCboSize s

end Sys2Proof.Machine
end

