-- ==== Sys2Proof/Machine/Csr.lean ====
section
/-!
DEFINITION. Reading and writing the control and status registers by number (rules R35, R36, R39): the four `xcmocontrol`
registers, and of the imported registers those the spec names (rules R24, R247, R252 to R256). The numbers of the imported
registers are the privileged architecture's (log entry 11).
-/

namespace Sys2Proof.Machine

/-- The registers a CSR number can name in this model. -/
inductive CsrId where
  | mcmocontrol
  | scmocontrol
  | hcmocontrol
  | vscmocontrol
  | mstatus
  | mstatush
  | sstatus
  | vsstatus
  | hstatus
  | satp
  | vsatp
  | hgatp
  | medeleg
  | hedeleg
  | mtvec
  | stvec
  | vstvec
  | mepc
  | sepc
  | vsepc
  | mcause
  | scause
  | vscause
  | mtval
  | stval
  | vstval
  | mtval2
  | htval
  | tselect
  | tdata1
  | tdata2
  | pmpcfg (index : Nat)
  | pmpaddr (index : Nat)
  deriving DecidableEq, Repr

/-- The registers of the supervisor and of the guest's supervisor, by number. -/
def supervisorCsrs : List (Nat × CsrId) :=
  [(0x100, .sstatus), (0x105, .stvec), (0x141, .sepc), (0x142, .scause), (0x143, .stval), (0x180, .satp)]

/-- The registers of the H-extension, by number. -/
def hypervisorCsrs : List (Nat × CsrId) :=
  [(0x200, .vsstatus), (0x205, .vstvec), (0x241, .vsepc), (0x242, .vscause), (0x243, .vstval), (0x280, .vsatp),
   (0x600, .hstatus), (0x602, .hedeleg), (0x643, .htval), (0x680, .hgatp), (0x34B, .mtval2)]

/-- The registers of M-mode, by number. -/
def machineCsrs : List (Nat × CsrId) :=
  [(0x300, .mstatus), (0x302, .medeleg), (0x305, .mtvec), (0x341, .mepc), (0x342, .mcause), (0x343, .mtval),
   (0x7A0, .tselect), (0x7A1, .tdata1), (0x7A2, .tdata2)]

/-- The register a number names; the four `xcmocontrol` numbers are `CSR_ADDR` (rule R39). -/
def csrNamed (cfg : Config) (number : BitVec 12) : Option CsrId :=
  let n := number.toNat
  if number = cfg.mcmo.number then some .mcmocontrol
  else if number = cfg.scmo.number then some .scmocontrol
  else if number = cfg.hcmo.number then some .hcmocontrol
  else if number = cfg.vscmo.number then some .vscmocontrol
  else if 0x3A0 ≤ n ∧ n < 0x3A4 ∧ (cfg.xlen = .rv32 ∨ n % 2 = 0) then some (.pmpcfg (n - 0x3A0))
  else if 0x3B0 ≤ n ∧ n < 0x3C0 then some (.pmpaddr (n - 0x3B0))
  else if n = 0x310 ∧ cfg.xlen = .rv32 then some .mstatush
  else ((supervisorCsrs ++ hypervisorCsrs ++ machineCsrs).find? fun e => e.1 == n).map (·.2)

/-- One of the four registers the extension adds. -/
def CsrId.isCmo (id : CsrId) : Bool := [CsrId.mcmocontrol, .scmocontrol, .hcmocontrol, .vscmocontrol].contains id

/-- A register that is present only with the H-extension (rule R27). -/
def CsrId.needsH (id : CsrId) : Bool :=
  id == .hcmocontrol || id == .vscmocontrol || (hypervisorCsrs.map (·.2)).contains id

/-- The lowest mode that may access a register (rule R39): 1 is S/HS, 2 is HS, 3 is M. -/
def CsrId.lowestMode (number : BitVec 12) : CsrId → Nat
  | .mcmocontrol => 3
  | .scmocontrol => 1
  | .hcmocontrol => 2
  | .vscmocontrol => 2
  | _ => bitField (number.setWidth 64) 8 2

/-- The register an `s` number reaches in VS-mode (rule R39): its `vs` counterpart; for `scmocontrol` only with
`VS_REDIRECT`. -/
def redirect (cfg : Config) : CsrId → Option CsrId
  | .scmocontrol => if cfg.vsRedirect then some .vscmocontrol else none
  | .sstatus => some .vsstatus
  | .stvec => some .vstvec
  | .sepc => some .vsepc
  | .scause => some .vscause
  | .stval => some .vstval
  | .satp => some .vsatp
  | _ => none

/-- What an access to a CSR number gives. -/
inductive CsrAccess where
  | register (id : CsrId)
  | illegal
  | virtual
  | unknown
  deriving DecidableEq, Repr

/-- The register a number reaches from a mode, or the exception it raises: a mode below the lowest that may access an
`xcmocontrol` register gets an illegal instruction exception, never a virtual instruction one (rule R39). -/
def csrAccess (s : State) (number : BitVec 12) : CsrAccess :=
  match csrNamed s.cfg number with
  | none => .unknown
  | some id =>
    let denied := if id.isCmo then CsrAccess.illegal else .virtual
    if id.needsH && !s.cfg.hasH then .illegal
    else
      match s.mode with
      | .m => .register id
      | .s => if id.lowestMode number = 3 then .illegal else .register id
      | .u => .illegal
      | .vs =>
        if id.lowestMode number = 3 then .illegal
        else if id.lowestMode number = 2 then denied
        else
          match redirect s.cfg id with
          | some twin => .register twin
          | none => denied
      | .vu => if id.lowestMode number = 3 then .illegal else denied

/-- The configuration byte of a PMP entry. -/
def pmpByte (e : PmpEntry) : Byte :=
  BitVec.ofNat 8 ((if e.r then 1 else 0) + (if e.w then 2 else 0) + (if e.x then 4 else 0) + e.a.toNat * 8
    + (if e.l then 128 else 0))

/-- The entries a `pmpcfg` register covers, from the first: eight on a 64-bit hart, four on a 32-bit one. -/
def pmpCfgCount (xlen : XLen) : Nat :=
  match xlen with
  | .rv32 => 4
  | .rv64 => 8

/-- A PMP entry with its configuration byte written; a locked entry keeps its byte. Write without read is reserved: such a
byte loses `W` and is held else, and its bits 6:5 read as zero, which the spec, importing the PMP without text, does not
say (DESIGN CHOICE, log entry 51). -/
def writePmpByte (e : PmpEntry) (b : Byte) : PmpEntry :=
  if e.l then e
  else
    { e with r := b.getLsbD 0, w := b.getLsbD 1 && b.getLsbD 0, x := b.getLsbD 2, a := b.extractLsb' 3 2,
             l := b.getLsbD 7 }

/-- The entries with `count` configuration bytes of `v` written from entry `first` on. -/
def writePmpCfg (first count : Nat) (v : Word) (entries : List PmpEntry) : List PmpEntry :=
  entries.mapIdx fun i e =>
    if first ≤ i ∧ i < first + count then writePmpByte e (BitVec.ofNat 8 (bitField v (8 * (i - first)) 8)) else e

/-- The address register of an entry can be written: it is not locked, nor the base of a locked range. -/
def pmpAddrFree (entries : List PmpEntry) (i : Nat) : Bool :=
  (match entries[i]? with
    | some e => !e.l
    | none => false)
    && (match entries[i + 1]? with
        | some e => !(e.l && e.a == 1#2)
        | none => true)

/-- The bits of a PMP address register: those of a physical address of 56 bits, or 34 on a 32-bit hart, from bit 2 on. The
spec leaves the physical address width open (section 5 of its scope); these widths are the model's (DESIGN CHOICE, log
entry 49). -/
def pmpAddrMask (xlen : XLen) : Word :=
  match xlen with
  | .rv32 => 0xFFFFFFFF#64
  | .rv64 => 0x3FFFFFFFFFFFFF#64

/-- The selected trigger. -/
def selectedTrigger (s : State) : Trigger := s.triggers.getD s.csr.tselect.toNat { tdata1 := 0#64, tdata2 := 0#64 }

/-- The value a CSR read gives. -/
def csrRead (s : State) : CsrId → Word
  | .mcmocontrol => s.csr.mcmocontrol
  | .scmocontrol => s.csr.scmocontrol
  | .hcmocontrol => s.csr.hcmocontrol
  | .vscmocontrol => s.csr.vscmocontrol
  | .mstatus => truncX s.cfg s.csr.mstatus
  | .mstatush => s.csr.mstatus >>> 32
  | .sstatus => truncX s.cfg (s.csr.mstatus &&& (sstatusMask ||| 0x300000000#64))
  | .vsstatus => s.csr.vsstatus
  | .hstatus => s.csr.hstatus
  | .satp => s.csr.satp
  | .vsatp => s.csr.vsatp
  | .hgatp => s.csr.hgatp
  | .medeleg => s.csr.medeleg
  | .hedeleg => s.csr.hedeleg
  | .mtvec => s.csr.mtvec
  | .stvec => s.csr.stvec
  | .vstvec => s.csr.vstvec
  | .mepc => s.csr.mepc
  | .sepc => s.csr.sepc
  | .vsepc => s.csr.vsepc
  | .mcause => s.csr.mcause
  | .scause => s.csr.scause
  | .vscause => s.csr.vscause
  | .mtval => s.csr.mtval
  | .stval => s.csr.stval
  | .vstval => s.csr.vstval
  | .mtval2 => s.csr.mtval2
  | .htval => s.csr.htval
  | .tselect => s.csr.tselect
  | .tdata1 => (selectedTrigger s).tdata1
  | .tdata2 => (selectedTrigger s).tdata2
  | .pmpcfg i =>
    BitVec.ofNat 64 (ofBytesLE (((s.pmp.drop (4 * i)).take (pmpCfgCount s.cfg.xlen)).map pmpByte))
  | .pmpaddr i =>
    match s.pmp[i]? with
    | some e => e.addr
    | none => 0#64

/-- The state after a write of an imported register of `Csrs`. -/
def withCsr (s : State) (c : Csrs) : State := { s with csr := c }

/-- The bits of `medeleg` that can be set. -/
def medelegMask : Word := 0xF0B7FF#64

/-- The bits of `hedeleg` that can be set. -/
def hedelegMask : Word := 0xB1FF#64

/-- The state after a CSR write: the held value of an `xcmocontrol` register is the legal one for the value written, and
its reserved bits ignore the write (rules R35, R36). The other registers are imported without their text (rule R8), so
what a write they do not take leaves is the model's choice: a reserved `MODE`, 2 or 3, of a trap vector register loses
its bit 1, so 0 or 1 is held (DESIGN CHOICE, log entry 5), a `tselect` past the last trigger keeps the old index (DESIGN
CHOICE, log entry 7), `tdata1` holds every bit but the chain bit as written, an unsupported type or match value and `dmode`
among them, `hgatp` loses the low two bits of its root page number, and the cause, trap value and delegation registers hold
any value of their bits (DESIGN CHOICE, log entry 51). -/
def csrWrite (s : State) (v : Word) : CsrId → State
  | .mcmocontrol => withCsr s { s.csr with mcmocontrol := legalizeCmo s.cfg.mcmo v }
  | .scmocontrol => withCsr s { s.csr with scmocontrol := legalizeCmo s.cfg.scmo v }
  | .hcmocontrol => withCsr s { s.csr with hcmocontrol := legalizeCmo s.cfg.hcmo v }
  | .vscmocontrol => withCsr s { s.csr with vscmocontrol := legalizeCmo s.cfg.vscmo v }
  | .mstatus =>
    let v := match s.cfg.xlen with
      | .rv32 => mergeBits 0xFFFFFFFF#64 v s.csr.mstatus
      | .rv64 => v
    withCsr s { s.csr with mstatus := writeMstatus s.cfg.hasH v s.csr.mstatus }
  | .mstatush =>
    withCsr s { s.csr with
      mstatus := writeMstatus s.cfg.hasH (mergeBits 0xFFFFFFFF#64 s.csr.mstatus (v <<< 32)) s.csr.mstatus }
  | .sstatus => withCsr s { s.csr with mstatus := mergeBits sstatusMask v s.csr.mstatus }
  | .vsstatus => withCsr s { s.csr with vsstatus := mergeBits sstatusMask v s.csr.vsstatus }
  | .hstatus => withCsr s { s.csr with hstatus := mergeBits hstatusMask v s.csr.hstatus }
  | .satp => withCsr s { s.csr with satp := writeAtp s.cfg.xlen v s.csr.satp }
  | .vsatp => withCsr s { s.csr with vsatp := writeAtp s.cfg.xlen v s.csr.vsatp }
  | .hgatp => withCsr s { s.csr with hgatp := writeAtp s.cfg.xlen (v &&& ~~~3#64) s.csr.hgatp }
  | .medeleg => withCsr s { s.csr with medeleg := v &&& medelegMask }
  | .hedeleg => withCsr s { s.csr with hedeleg := v &&& hedelegMask }
  | .mtvec => withCsr s { s.csr with mtvec := v &&& ~~~2#64 }
  | .stvec => withCsr s { s.csr with stvec := v &&& ~~~2#64 }
  | .vstvec => withCsr s { s.csr with vstvec := v &&& ~~~2#64 }
  | .mepc => withCsr s { s.csr with mepc := alignPc s.cfg v }
  | .sepc => withCsr s { s.csr with sepc := alignPc s.cfg v }
  | .vsepc => withCsr s { s.csr with vsepc := alignPc s.cfg v }
  | .mcause => withCsr s { s.csr with mcause := v }
  | .scause => withCsr s { s.csr with scause := v }
  | .vscause => withCsr s { s.csr with vscause := v }
  | .mtval => withCsr s { s.csr with mtval := v }
  | .stval => withCsr s { s.csr with stval := v }
  | .vstval => withCsr s { s.csr with vstval := v }
  | .mtval2 => withCsr s { s.csr with mtval2 := v }
  | .htval => withCsr s { s.csr with htval := v }
  | .tselect => if v.toNat < s.triggers.length then withCsr s { s.csr with tselect := v } else s
  | .tdata1 =>
    { s with triggers := s.triggers.modify s.csr.tselect.toNat fun t => { t with tdata1 := v &&& ~~~0x800#64 } }
  | .tdata2 => { s with triggers := s.triggers.modify s.csr.tselect.toNat fun t => { t with tdata2 := v } }
  | .pmpcfg i => { s with pmp := writePmpCfg (4 * i) (pmpCfgCount s.cfg.xlen) v s.pmp }
  | .pmpaddr i =>
    if pmpAddrFree s.pmp i then
      { s with pmp := s.pmp.modify i fun e => { e with addr := v &&& pmpAddrMask s.cfg.xlen } }
    else s

end Sys2Proof.Machine
end

