-- ==== Sys2Proof/Machine/Base.lean ====
section
/-!
DEFINITION. The instructions of the base ISA the model imports, so that a program can set up, use and observe what the
extension adds (rules R8, R20, R39, R68, R95, R98, R102, R103, R254; spec/95_test_vectors.md Part 3): the integer
instructions, loads and stores, load-reserved and store-conditional, the fences, the CSR instructions, the environment
call and the breakpoint, and the returns. They are the RISC-V base and privileged architectures', from general knowledge
(log entry 12); no row of the opcode table is among them. A word that is none of them is refused by name.
-/

namespace Sys2Proof.Machine

/-! ### Fields of a base instruction word -/

/-- The destination register. -/
def rdOf (w : InstrWord) : RegIdx := (field w 7 5).toFin
/-- The first source register. -/
def rs1Of (w : InstrWord) : RegIdx := (field w 15 5).toFin
/-- The second source register. -/
def rs2Of (w : InstrWord) : RegIdx := (field w 20 5).toFin
/-- `funct3`. -/
def funct3Of (w : InstrWord) : Nat := (field w 12 3).toNat
/-- `funct7`. -/
def funct7Of (w : InstrWord) : Nat := (field w 25 7).toNat
/-- The immediate of an I-type word. -/
def immI (w : InstrWord) : Word := (field w 20 12).signExtend 64
/-- The immediate of an S-type word. -/
def immS (w : InstrWord) : Word := (field w 25 7 ++ field w 7 5).signExtend 64
/-- The immediate of a B-type word. -/
def immB (w : InstrWord) : Word :=
  (field w 31 1 ++ field w 7 1 ++ field w 25 6 ++ field w 8 4 ++ 0#1).signExtend 64
/-- The immediate of a U-type word. -/
def immU (w : InstrWord) : Word := (field w 12 20 ++ 0#12).signExtend 64
/-- The immediate of a J-type word. -/
def immJ (w : InstrWord) : Word :=
  (field w 31 1 ++ field w 12 8 ++ field w 20 1 ++ field w 21 10 ++ 0#1).signExtend 64

/-! ### Results -/

/-- A base instruction, four bytes long, retires. -/
def retireBase (s : State) : State := retireBy s 4

/-- A base instruction retires with a register result. -/
def retireWith (s : State) (rd : RegIdx) (v : Word) : Result := .next (retireBase (writeX s rd v))

/-- An address at which an instruction can stand (rule R128). -/
def instrAligned (cfg : Config) (target : Word) : Bool := target.toNat % instrAlign cfg == 0

/-- A base instruction goes to an address; one at which no instruction can stand is a misaligned fetch (rule R128). -/
def jumpTo (s : State) (target : Word) : Result :=
  if instrAligned s.cfg target then .next { s with pc := target, tick := s.tick + 1 }
  else .next (takeTrap s { cause := .instrMisaligned, tval := target, gpa := 0, gva := s.cfg.hasH && s.mode.isVirtual })

/-- An exception of the base ISA with an address as its trap value: the faulting address, or `pc` for `EBREAK` and for an
execute trigger. The imported architecture allows zero as well (rule R252); the model always writes the address (DESIGN
CHOICE, log entry 30). -/
def baseTrap (s : State) (e : Exception) (tval : Word) (eff : Mode) (gpa : Nat) : Result :=
  .next (takeTrap s { cause := e, tval := tval, gpa := gpa, gva := s.cfg.hasH && eff.isVirtual })

/-- An illegal or virtual instruction exception with the word as its trap value. The imported architecture allows zero as
well (rule R252); for a base word the model always writes the word (DESIGN CHOICE, log entry 30). -/
def baseIllegal (s : State) (w : InstrWord) (e : Exception) : Result :=
  .next (takeTrap s { cause := e, tval := w.setWidth 64, gpa := 0, gva := false })

/-! ### Integer instructions -/

/-- The arithmetic of `funct3`; `alt` turns an addition into a subtraction and a logical into an arithmetic right
shift. -/
def alu {n : Nat} (funct3 : Nat) (alt : Bool) (a b : BitVec n) : BitVec n :=
  match funct3 with
  | 0 => if alt then a - b else a + b
  | 1 => a <<< (b.toNat % n)
  | 2 => if a.slt b then 1#n else 0#n
  | 3 => if a.ult b then 1#n else 0#n
  | 4 => a ^^^ b
  | 5 => if alt then a.sshiftRight (b.toNat % n) else a >>> (b.toNat % n)
  | 6 => a ||| b
  | _ => a &&& b

/-- The arithmetic on registers of `XLEN` bits. -/
def aluX (cfg : Config) (funct3 : Nat) (alt : Bool) (a b : Word) : Word :=
  match cfg.xlen with
  | .rv64 => alu funct3 alt a b
  | .rv32 => (alu funct3 alt (a.setWidth 32) (b.setWidth 32)).setWidth 64

/-- The 32-bit arithmetic of a 64-bit hart, sign-extended. -/
def aluW (funct3 : Nat) (alt : Bool) (a b : Word) : Word :=
  (alu funct3 alt (a.setWidth 32) (b.setWidth 32)).signExtend 64

/-- The condition of a branch; none for a reserved `funct3`. -/
def branchTaken (cfg : Config) (funct3 : Nat) (a b : Word) : Option Bool :=
  let less := match cfg.xlen with
    | .rv64 => a.slt b
    | .rv32 => (a.setWidth 32).slt (b.setWidth 32)
  match funct3 with
  | 0 => some (a == b)
  | 1 => some (a != b)
  | 4 => some less
  | 5 => some (!less)
  | 6 => some (a.ult b)
  | 7 => some (!a.ult b)
  | _ => none

/-- The immediate forms of the integer arithmetic, on registers of `shiftBits` shift bits. -/
def immediateForm (w : InstrWord) (shiftBits : Nat) : Option Bool :=
  let high := (field w 20 12).toNat >>> shiftBits
  match funct3Of w with
  | 1 => if high = 0 then some false else none
  | 5 => if high = 0 then some false else if high = 0x400 >>> shiftBits then some true else none
  | _ => some false

/-- The register forms of the integer arithmetic. -/
def registerForm (w : InstrWord) : Option Bool :=
  if funct7Of w = 0 then some false
  else if funct7Of w = 0x20 ∧ (funct3Of w = 0 ∨ funct3Of w = 5) then some true
  else none

/-- `funct3` of an instruction the 32-bit arithmetic of a 64-bit hart has. -/
def wordForm (w : InstrWord) : Bool := [0, 1, 5].contains (funct3Of w)

/-- The shift bits of a register of `XLEN` bits. -/
def shiftBits (cfg : Config) : Nat :=
  match cfg.xlen with
  | .rv64 => 6
  | .rv32 => 5

/-- The integer instructions `OP` and `OP-IMM`, `OP-32` and `OP-IMM-32`; `second` is the second operand. -/
def execAlu (w : InstrWord) (form : Option Bool) (word : Bool) (second : Word) (s : State) : Result :=
  match form with
  | none => .refused .baseInstruction
  | some alt =>
    retireWith s (rdOf w)
      (if word then aluW (funct3Of w) alt (readX s (rs1Of w)) second
       else aluX s.cfg (funct3Of w) alt (readX s (rs1Of w)) second)

/-- A conditional branch. -/
def execBranch (w : InstrWord) (s : State) : Result :=
  match branchTaken s.cfg (funct3Of w) (readX s (rs1Of w)) (readX s (rs2Of w)) with
  | none => .refused .baseInstruction
  | some false => .next (retireBase s)
  | some true => jumpTo s (truncX s.cfg (s.pc + immB w))

/-- `JAL` and `JALR`: the jump, then the link register, which a misaligned target leaves as it was. -/
def execJump (w : InstrWord) (target : Word) (s : State) : Result :=
  if instrAligned s.cfg target then jumpTo (writeX s (rdOf w) (pcAfter s 4)) target else jumpTo s target

/-! ### Loads and stores -/

/-- The exceptions of an access by kind: misaligned, access, page, guest-page. -/
def accessExceptions : AccessKind → Exception × Exception × Exception × Exception
  | .fetch => (.instrMisaligned, .instrAccess, .instrPage, .instrGuestPage)
  | .load => (.loadMisaligned, .loadAccess, .loadPage, .loadGuestPage)
  | .store => (.storeMisaligned, .storeAccess, .storePage, .storeGuestPage)
  | .management => (.storeMisaligned, .storeAccess, .storePage, .storeGuestPage)
  | .zero => (.storeMisaligned, .storeAccess, .storePage, .storeGuestPage)
  | .hint => (.storeMisaligned, .storeAccess, .storePage, .storeGuestPage)

/-- The permission a base access needs of a physical address. -/
def accessPermission : AccessKind → Permission
  | .fetch => .execute
  | .load => .read
  | .store => .write
  | .management => .read
  | .zero => .write
  | .hint => .read

/-- The checks of a base load or store of `size` bytes, then what it does with the memory type and the physical address.
A misaligned access is that exception whatever its page or the PMP would say: the imported architecture lets it rank above
the page, guest-page and access faults or below them, and the spec says nothing (DESIGN CHOICE, log entry 51). -/
def baseAccess (s : State) (kind : AccessKind) (ea : Word) (size : Nat) (act : Nat → Nat → Result) : Result :=
  let eff := effMode s
  let (misaligned, access, page, guest) := accessExceptions kind
  let cls : TriggerClass := { load := kind == .load, store := kind == .store, execute := false, cmo := false }
  match triggerHit s cls ea with
  | some .debug => .refused .debugAction
  | some .breakpoint => baseTrap s .breakpoint ea eff 0
  | none =>
    if ea.toNat % size ≠ 0 then baseTrap s misaligned ea eff 0
    else
      match translate s kind false eff ea with
      | .error .page => baseTrap s page ea eff 0
      | .error (.guest gpa) => baseTrap s guest ea eff gpa
      | .error .access => baseTrap s access ea eff 0
      | .ok t =>
        if !(List.range size).all (fun i => joint s eff (accessPermission kind) (t.pa + i)) then
          baseTrap s access ea eff 0
        else if (regionOf s.cfg t.pa).any (fun r => r.kind == .ioDevice) then .refused .deviceAccess
        else act t.memType t.pa

/-- The bytes a load of the hart returns. -/
def hartLoad (s : State) (memType pa size : Nat) : List Byte :=
  (List.range size).map fun i => hartLoadByte s memType (pa + i)

/-- The cache an access of the hart reaches first, in which a base access allocates (rule R65; log entry 44). -/
def nearestCache (s : State) (kind : AccessKind) (memType pa : Nat) : Option Nat :=
  (directCaches (hopsOf s.cfg (hartAccess kind memType) (blockBase s.cfg pa))).head?

/-- A load may allocate its block (rule R65). -/
def allocateForLoad (s : State) (memType pa : Nat) : State :=
  match nearestCache s .load memType pa with
  | none => s
  | some c => allocateAt s (hartAccess .load memType) (resolve s.cfg.loadAllocates s.tick .loadAllocates) pa c

/-- The register value of loaded bytes, little-endian (rule R88), sign- or zero-extended. -/
def loadedValue (bytes : List Byte) (signed : Bool) : Word :=
  let v := ofBytesLE bytes
  if signed then (BitVec.ofNat (8 * bytes.length) v).signExtend 64 else BitVec.ofNat 64 v

/-- Size and signedness of a load by `funct3`; the doubleword and the unsigned word are a 64-bit hart's. -/
def loadForm (cfg : Config) (funct3 : Nat) : Option (Nat × Bool) :=
  match funct3 with
  | 0 => some (1, true)
  | 1 => some (2, true)
  | 2 => some (4, true)
  | 3 => if cfg.xlen = .rv64 then some (8, true) else none
  | 4 => some (1, false)
  | 5 => some (2, false)
  | 6 => if cfg.xlen = .rv64 then some (4, false) else none
  | _ => none

/-- A load. -/
def execLoad (w : InstrWord) (s : State) : Result :=
  match loadForm s.cfg (funct3Of w) with
  | none => .refused .baseInstruction
  | some (size, signed) =>
    baseAccess s .load (truncX s.cfg (readX s (rs1Of w) + immI w)) size fun memType pa =>
      retireWith (allocateForLoad s memType pa) (rdOf w) (loadedValue (hartLoad s memType pa size) signed)

/-- A store of `size` bytes of a register at a physical address. -/
def storeRegister (s : State) (r : RegIdx) (memType pa size : Nat) : State :=
  hartWrite (allocateForWrite s .store memType pa (nearestCache s .store memType pa)) .store memType pa
    (toBytesLE (readX s r).toNat size)

/-- The size of a store by `funct3`. -/
def storeForm (cfg : Config) (funct3 : Nat) : Option Nat :=
  match funct3 with
  | 0 => some 1
  | 1 => some 2
  | 2 => some 4
  | 3 => if cfg.xlen = .rv64 then some 8 else none
  | _ => none

/-- A store. -/
def execStore (w : InstrWord) (s : State) : Result :=
  match storeForm s.cfg (funct3Of w) with
  | none => .refused .baseInstruction
  | some size =>
    baseAccess s .store (truncX s.cfg (readX s (rs1Of w) + immS w)) size fun memType pa =>
      .next (retireBase (storeRegister s (rs2Of w) memType pa size))

/-- The size of a load-reserved or store-conditional by `funct3`. -/
def reservedForm (cfg : Config) (funct3 : Nat) : Option Nat :=
  match funct3 with
  | 2 => some 4
  | 3 => if cfg.xlen = .rv64 then some 8 else none
  | _ => none

/-- A load-reserved: the load, and a reservation on its block (rule R102; log entry 12). -/
def execLoadReserved (w : InstrWord) (size : Nat) (s : State) : Result :=
  baseAccess s .load (readX s (rs1Of w)) size fun memType pa =>
    retireWith { allocateForLoad s memType pa with reservation := some (blockBase s.cfg pa) } (rdOf w)
      (loadedValue (hartLoad s memType pa size) true)

/-- A store-conditional: it stores and gives 0 while the reservation on its block stands, else it gives 1. One that
fails still makes the checks of its access (DESIGN CHOICE, log entry 51) and no data write, so it makes no block Modified:
rule R69 counts a failed attempt as a write only where it is classified as one, and the spec does not say whether a
failing store-conditional is (DESIGN CHOICE, log entry 12). -/
def execStoreConditional (w : InstrWord) (size : Nat) (s : State) : Result :=
  baseAccess s .store (readX s (rs1Of w)) size fun memType pa =>
    if s.reservation = some (blockBase s.cfg pa) then
      retireWith { storeRegister s (rs2Of w) memType pa size with reservation := none } (rdOf w) 0#64
    else retireWith { s with reservation := none } (rdOf w) 1#64

/-- The two atomic instructions the model imports. -/
def execAtomic (w : InstrWord) (s : State) : Result :=
  match reservedForm s.cfg (funct3Of w) with
  | none => .refused .baseInstruction
  | some size =>
    if (field w 27 5).toNat = 2 ∧ rs2Of w = 0 then execLoadReserved w size s
    else if (field w 27 5).toNat = 3 then execStoreConditional w size s
    else .refused .baseInstruction

/-! ### Fences -/

/-- What showing a latest store of the loads to the fetches brings: the bytes written back, or where there are none the
one byte shown. -/
def showBrings (s : State) (shown e : LatestByte) : Option Byte :=
  let b := blockBase s.cfg shown.address
  let load := hartAccess .load shown.memType
  match s.ms.firstModified (pathCaches s.cfg load b) b with
  | some d => blockBrings s.cfg b (some d) e
  | none => bytesBring shown.address [MemSys.readByte s.cfg s.ms load shown.address] e

/-- The bytes of the block of a latest store that are Modified on the path of an access of its memory type. -/
def modifiedFor (s : State) (kind : AccessKind) (e : LatestByte) : Option (List Byte) :=
  s.ms.firstModified (pathCaches s.cfg (hartAccess kind e.memType) (blockBase s.cfg e.address)) (blockBase s.cfg e.address)

/-- A latest store of the hart's loads is shown to its fetches, where they do not hold it or its block is still Modified
on the path of the loads. -/
def showToFetches (s : State) (e : LatestByte) : State :=
  if (modifiedFor s .load e).isNone && s.ms.fetchesHold s.cfg e.memType e.address then s
  else bringMs s (showBrings s e) (s.ms.showToFetches s.cfg e.memType e.address)

/-- The block of a latest store is written back along the path of the hart's fetches (rule R66), so that no cache on it
keeps what they were shown as Modified. -/
def cleanFetches (s : State) (e : LatestByte) : State :=
  let b := blockBase s.cfg e.address
  bringMs s (blockBrings s.cfg b (modifiedFor s .fetch e))
    (s.ms.writeBack (pathCaches s.cfg (hartAccess .fetch e.memType) b) b)

/-- A block of which the hart's fetches would read other bytes than its loads leaves every cache they reach. -/
def syncFetches (s : State) (b : Nat) : State :=
  if s.ms.fetchesAgree s.cfg b then s
  else bringMs s (blockBrings s.cfg b (s.ms.firstModified (hartCaches s.cfg b) b)) (s.ms.emptyBlock s.cfg b)

/-- The latest stores of the loads that stand for the fetches too, for the fetches. -/
def fetchEntries (s : State) : List LatestByte :=
  standing s.cfg s.ms ((s.latest.filter (·.kind == .load)).map fun e => { e with kind := .fetch })

/-- An entry of a list is about the same accesses to the same byte. -/
def aboutSame (l : List LatestByte) (e : LatestByte) : Bool :=
  l.any fun f => f.address == e.address && f.kind == e.kind && f.memType == e.memType

/-- `FENCE.I` makes the hart's stores visible to its own fetches (rule R103, D28): each latest store its loads hold is
shown to its fetches and its block written back, every block of which they would still read other bytes leaves the caches
both reach, as caches may have it leave at any time (rule R66), and from then on the fetches must return what the loads
must (log entry 22). -/
def fenceInstructions (s : State) : State :=
  let stores := s.latest.filter (·.kind == .load)
  let clean := stores.foldl cleanFetches (stores.foldl showToFetches s)
  let t := clean.ms.blocksHeld.foldl syncFetches clean
  { t with latest := fetchEntries t ++ t.latest.filter fun e => !aboutSame (fetchEntries t) e }

/-- `FENCE` and `FENCE.I`. The model's hart performs its accesses in program order, so a `FENCE` only retires (rules R96,
R98). -/
def execMiscMem (w : InstrWord) (s : State) : Result :=
  if funct3Of w = 0 then .next (retireBase s)
  else if funct3Of w = 1 then .next (retireBase (fenceInstructions s))
  else .refused .baseInstruction

/-! ### System instructions -/

/-- A CSR instruction on the register `id`: the old value goes to `rd`, the new one to the register unless a set or clear
names no bit to change by its operand's number (rule R39). -/
def csrInstruction (w : InstrWord) (id : CsrId) (s : State) : Result :=
  let old := csrRead s id
  let operand := if 4 ≤ funct3Of w then (field w 15 5).setWidth 64 else readX s (rs1Of w)
  match funct3Of w % 4 with
  | 1 => retireWith (csrWrite s operand id) (rdOf w) old
  | 2 => retireWith (if rs1Of w = 0 then s else csrWrite s (old ||| operand) id) (rdOf w) old
  | _ => retireWith (if rs1Of w = 0 then s else csrWrite s (old &&& ~~~operand) id) (rdOf w) old

/-- `CSRRW`, `CSRRS`, `CSRRC` and their immediate forms (rule R39). -/
def execCsr (w : InstrWord) (s : State) : Result :=
  match csrAccess s (field w 20 12) with
  | .unknown => .refused .csrOutOfScope
  | .illegal => baseIllegal s w .illegalInstruction
  | .virtual => baseIllegal s w .virtualInstruction
  | .register id => csrInstruction w id s

/-- The environment call of each mode. -/
def callException : Mode → Exception
  | .m => .callFromM
  | .s => .callFromS
  | .u => .callFromU
  | .vs => .callFromVS
  | .vu => .callFromU

/-- `MRET` (rule R254), an instruction of M-mode. -/
def execMret (w : InstrWord) (s : State) : Result :=
  if s.mode = .m then .next (returnFromM s) else baseIllegal s w .illegalInstruction

/-- `SRET` (rule R254). -/
def execSret (w : InstrWord) (s : State) : Result :=
  match s.mode with
  | .m => .next (returnFromS s)
  | .s => .next (returnFromS s)
  | .u => baseIllegal s w .illegalInstruction
  | .vs => .next (returnFromVS s)
  | .vu => baseIllegal s w .virtualInstruction

/-- The system instructions. -/
def execSystem (w : InstrWord) (s : State) : Result :=
  if funct3Of w = 0 then
    if w = 0x00000073#32 then baseTrap s (callException s.mode) 0#64 .m 0
    else if w = 0x00100073#32 then baseTrap s .breakpoint s.pc s.mode 0
    else if w = 0x30200073#32 then execMret w s
    else if w = 0x10200073#32 then execSret w s
    else .refused .baseInstruction
  else if funct3Of w = 4 then .refused .baseInstruction
  else execCsr w s

/-! ### The base decoder -/

/-- The word of a base instruction, by its major opcode. A word that is not four bytes long (its low two bits are not
both set) is none this hart has: an illegal instruction (rules R127, R128). -/
def execBase (w : InstrWord) (s : State) : Result :=
  if field w 0 2 ≠ 3#2 then baseIllegal s w .illegalInstruction
  else match (field w 0 7).toNat with
  | 0x37 => retireWith s (rdOf w) (immU w)
  | 0x17 => retireWith s (rdOf w) (s.pc + immU w)
  | 0x6F => execJump w (truncX s.cfg (s.pc + immJ w)) s
  | 0x67 =>
    if funct3Of w = 0 then execJump w (truncX s.cfg ((readX s (rs1Of w) + immI w) &&& ~~~1#64)) s
    else .refused .baseInstruction
  | 0x63 => execBranch w s
  | 0x03 => execLoad w s
  | 0x23 => execStore w s
  | 0x13 => execAlu w (immediateForm w (shiftBits s.cfg)) false (immI w) s
  | 0x33 => execAlu w (registerForm w) false (readX s (rs2Of w)) s
  | 0x1B =>
    execAlu w (if s.cfg.xlen = .rv64 ∧ wordForm w = true then immediateForm w 5 else none) true (immI w) s
  | 0x3B =>
    execAlu w (if s.cfg.xlen = .rv64 ∧ wordForm w = true then registerForm w else none) true (readX s (rs2Of w)) s
  | 0x0F => execMiscMem w s
  | 0x2F => execAtomic w s
  | 0x73 => execSystem w s
  | _ => .refused .baseInstruction

end Sys2Proof.Machine
end

