-- ==== Sys2Proof/Machine/Fetch.lean ====
section
/-!
DEFINITION. Fetching an instruction, the moves of the other agents and of the caches, and placing a word where the next
fetch reads it.
-/

namespace Sys2Proof.Machine

/-- Why no instruction word is fetched; `address` is the part of the instruction whose fetch faults. -/
inductive FetchError where
  | exception (e : Exception) (address : Word) (gpa : Nat)
  | device
  deriving DecidableEq, Repr

/-- The address of the `k`-th pair of bytes of the instruction at `pc`. -/
def parcelAddress (s : State) (k : Nat) : Word := pcAfter s (2 * k)

/-- Where the hart fetches the `k`-th pair of bytes of the instruction at `pc` (rule R245 item 2): the translation of a
fetch in the current mode, with execute permission. -/
def fetchAddress (s : State) (k : Nat) : Except FetchError Xlate :=
  match translate s .fetch false s.mode (parcelAddress s k) with
  | .error .page => .error (.exception .instrPage (parcelAddress s k) 0)
  | .error (.guest gpa) => .error (.exception .instrGuestPage (parcelAddress s k) gpa)
  | .error .access => .error (.exception .instrAccess (parcelAddress s k) 0)
  | .ok t =>
    if !(List.range 2).all (fun i => joint s s.mode .execute (t.pa + i)) then
      .error (.exception .instrAccess (parcelAddress s k) 0)
    else if (regionOf s.cfg t.pa).any (fun r => r.kind == .ioDevice) then .error .device
    else .ok t

/-- `n` pairs of bytes of the instruction at `pc`, from the `k`-th on, as the hart's fetches see them (rule R103): what the
caches on the path of the fetch and memory hold at that step. What a fetch returns of a store before a `FENCE.I` is open,
and that no bytes are fetched ahead is the model's choice (DESIGN CHOICE, log entry 22). -/
def fetchParcels (s : State) : Nat → Nat → Except FetchError (List Byte)
  | 0, _ => .ok []
  | n + 1, k =>
    match fetchAddress s k with
    | .error e => .error e
    | .ok t =>
      match fetchParcels s n (k + 1) with
      | .error e => .error e
      | .ok bytes =>
        .ok (MemSys.readByte s.cfg s.ms (hartAccess .fetch t.memType) t.pa
          :: MemSys.readByte s.cfg s.ms (hartAccess .fetch t.memType) (t.pa + 1) :: bytes)

/-- The bytes of the instruction at `pc`: its first two give its length (rule R128). -/
def fetchInstruction (s : State) : Except FetchError (List Byte) :=
  if !instrAligned s.cfg s.pc then .error (.exception .instrMisaligned s.pc 0)
  else
    match fetchParcels s 1 0 with
    | .error e => .error e
    | .ok first =>
      match fetchParcels s (instrLength (first.headD 0#8) / 2 - 1) 1 with
      | .error e => .error e
      | .ok rest => .ok (first ++ rest)

/-- A major opcode the base architecture leaves to custom extensions. -/
def customOpcode (w : Nat) : Bool := [0x0B, 0x2B, 0x5B, 0x7B].contains (w % 128)

/-- A word of `len` bytes that is no CMO instruction: one of a custom opcode is an illegal instruction (rule R127, I29),
and so is one of two bytes, since the hart has no compressed instructions; any other of four bytes is the base ISA's. -/
def execOther (len w : Nat) (s : State) : Result :=
  if len = 2 then .next (raiseIllegal s)
  else if len = 4 then
    if customOpcode w then .next (raiseIllegal s) else execBase (BitVec.ofNat 32 w) s
  else .refused .baseInstruction

/-- What stands in the way of running the instruction at `pc` (rule R245 items 1 and 2): an execute trigger, then a fetch
fault; else the bytes of the instruction. -/
def beforeInstruction (s : State) : Except Result (List Byte) :=
  match triggerHit s TriggerClass.fetch s.pc with
  | some .debug => .error (.refused .debugAction)
  | some .breakpoint => .error (baseTrap s .breakpoint s.pc s.mode 0)
  | none =>
    match fetchInstruction s with
    | .error (.exception e address gpa) => .error (baseTrap s e address s.mode gpa)
    | .error .device => .error (.refused .deviceAccess)
    | .ok bytes => .ok bytes

/-- The state in which the instruction of the bytes fetched is executed. -/
def withWord (s : State) (bytes : List Byte) : State := { s with word := ofBytesLE bytes }

/-! ### Moves that are not the hart's -/

/-- Another agent may make moves of its own; the hart's are its instructions. -/
def otherAgent (agent : Nat) : Bool := agent != hartAgent

/-- The bytes whose loads stay UNSPECIFIED after writes by another agent: those written are such no longer where the
writes have their place in the global memory order (rules R95, R100). The spec does not say on which of the hart's paths
the two must meet: here on that of its loads through pages of every memory type (DESIGN CHOICE, log entry 33). -/
def unspecifiedAfterAgent (s : State) (acc : Access) (pa n : Nat) : List Nat :=
  if (memTypesOf s.cfg).all (ordered s acc pa) then ((List.range n).map (pa + ·)).foldl Addresses.erase s.unspecified
  else s.unspecified

/-- Writes of bytes of one block by another agent (rules R61, R68): they end a reservation on the block. -/
def agentStore (s : State) (acc : Access) (pa : Nat) (bs : List Byte) : State :=
  let ms := MemSys.writeBytes s.cfg s.tick acc pa bs s.ms
  { s with
    ms := ms,
    unspecified := unspecifiedAfterAgent s acc pa bs.length,
    latest := latestAfterWrite s ms acc pa bs,
    reservation := if s.reservation = some (blockBase s.cfg pa) then none else s.reservation,
    tick := s.tick + 1 }

/-- A move between two instructions is over. -/
def moved (s : State) : State := { s with tick := s.tick + 1 }

/-- The block is Modified in a cache that the access of a latest store does not reach. -/
def offPath (s : State) (cache b : Nat) (e : LatestByte) : Bool :=
  s.ms.isModified cache b && !(pathCaches s.cfg e.access b).contains cache

/-- What a move of a block from a cache brings the accesses to it: where the cache holds it Modified off their path, what
was written there, in another domain, whose copies are not coherent with those on the path (rules R80, R100). -/
def moveBrings (s : State) (b : Nat) (source : Option Nat) (e : LatestByte) : Option Byte :=
  match source with
  | none => none
  | some c => if offPath s c b e then blockBrings s.cfg b ((s.ms.copyAt c b).map (·.data)) e else none

/-- A cache moves a block from a source, at any time "to the extent allowed by the base and privileged architectures"
(rules R45, R65, R66): the copies of a coherence domain still agree (rule R79), no Modified block leaves the path of the
hart's loads, and every latest store still stands on the path of its access, or what the move brings there (rule R99; log
entry 45). -/
def cacheMove (s : State) (b : Nat) (source target : Option Nat) (ms : MemSys) : Result :=
  let brought := whereNeeded s.cfg ms (moveBrings s b source)
  if ms.agrees s.cfg b && !s.ms.takesOut s.cfg b source target && (bringAll brought s.latest).all (·.held s.cfg ms) then
    .next (moved (bringMs s brought ms))
  else .fault .moveNotAllowed

/-- A move that is not the hart's own; the hart's leaves the state as it is here. A CMO instruction of another hart on
the block of a reservation may break it (rules R102, R185, R267). No permission of another hart is checked: its PMP and
page tables are its own, and the spec does not say that the PMAs, which are a function of the address and the access
(I15), are those of this hart's region map, so neither its `W` nor the constraint of rule R234 binds another hart's
`CBO.ZERO` (DESIGN CHOICE, log entry 24). -/
def otherMove (s : State) : Move → Result
  | .hart => .next s
  | .allocate cache b source asModified =>
    if s.ms.mayAllocate s.cfg cache b source then
      cacheMove s b source (if asModified then some cache else none) (MemSys.allocate s.cfg cache b source asModified s.ms)
    else .fault .moveNotAllowed
  | .deallocate cache b destination =>
    if s.ms.mayDeallocate s.cfg cache b destination then
      cacheMove s b (some cache) destination.cache? (MemSys.deallocate s.cfg cache b destination s.ms)
    else .fault .moveNotAllowed
  | .agentWrite agent pa v =>
    if !otherAgent agent then .fault .moveNotAllowed
    else if (regionOf s.cfg pa).isNone then .fault .vacantAccess
    else .next (agentStore s (agentAccess agent .store) pa [v])
  | .agentManage agent op pa =>
    if !otherAgent agent then .fault .moveNotAllowed
    else
      .next (moved (disturbReservation (manageBlock s op (agentAccess agent .management) pa .memory) pa))
  | .agentZero agent pa =>
    if !otherAgent agent then .fault .moveNotAllowed
    else if !zeroable s.cfg 0 pa then .fault .moveNotAllowed
    else
      .next (agentStore s (agentAccess agent .zero) (blockBase s.cfg pa) (List.replicate (blockSize s.cfg) 0#8))
  | .agentHint agent pa =>
    if !otherAgent agent then .fault .moveNotAllowed else .next (moved (disturbReservation s pa))

/-! ### Placing a word -/

/-- A byte written into the first copy the hart's fetches read, or into memory where there is none. -/
def pokeByte (cfg : Config) (memType : Nat) (ms : MemSys) (pa : Nat) (v : Byte) : MemSys :=
  match (pathCaches cfg (hartAccess .fetch memType) (blockBase cfg pa)).find? fun c =>
      (ms.copyAt c (blockBase cfg pa)).isSome with
  | none => { ms with mem := Memory.write ms.mem pa v }
  | some cache =>
    match ms.copyAt cache (blockBase cfg pa) with
    | none => ms
    | some c => ms.putCopy cache { c with data := c.data.set (pa % blockSize cfg) v }

/-- Where the hart's next fetch reads the `k`-th pair of bytes, with the memory type: as it is translated, or at the
address itself where the fetch faults. -/
def placeAddress (s : State) (k : Nat) : Nat × Nat :=
  match fetchAddress s k with
  | .ok t => (t.memType, t.pa)
  | .error _ => (0, (parcelAddress s k).toNat)

/-- Bytes written where the hart's next fetch reads them, from the `k`-th pair on. -/
def placeBytes (s : State) : Nat → List Byte → MemSys → MemSys
  | k, b₀ :: b₁ :: rest, ms =>
    let (memType, pa) := placeAddress s k
    placeBytes s (k + 1) rest (pokeByte s.cfg memType (pokeByte s.cfg memType ms pa b₀) (pa + 1) b₁)
  | _, _, ms => ms

/-- The moves to come with the hart's first. -/
def hartFirst : List Move → List Move
  | [] => []
  | m :: rest => if m = .hart then m :: rest else .hart :: m :: rest

/-- The state with bytes placed where the next step fetches them, and the hart's move first. -/
def placeAtFetch (s : State) (bytes : List Byte) : State :=
  { s with ms := placeBytes s 0 bytes s.ms, moves := hartFirst s.moves }

end Sys2Proof.Machine
end

