-- ==== Sys2Proof/Machine/Step.lean ====
section
/-!
DEFINITION. One step: the next move of the system, and if it is the hart's, one instruction.
-/

namespace Sys2Proof.Machine

/-- The hart runs the instruction at `pc`: a CMO instruction, as the machine's encoding decodes it (rule R122), or a word
that is none. -/
def hartStep (s : State) : Host.Outcome State Fault Refusal :=
  match beforeInstruction s with
  | .error r => r
  | .ok bytes =>
    match s.cfg.enc.decode bytes.length (ofBytesLE bytes) with
    | some i => exec i (withWord s bytes)
    | none => execOther bytes.length (ofBytesLE bytes) (withWord s bytes)

/-- One step: the move the state says comes next, the hart's where the list is empty. -/
def step (s : State) : Host.Outcome State Fault Refusal :=
  match s.moves with
  | [] => hartStep s
  | m :: rest =>
    if m = .hart then hartStep { s with moves := rest } else otherMove { s with moves := rest } m

/-- The state with the instruction of a table word stored where `step` fetches its next instruction. -/
def State.withFetchWord (s : State) (nbits w : Nat) : State := placeAtFetch s (tableBytes nbits w)

end Sys2Proof.Machine
end

