-- ==== Sys2Proof/Safety.lean ====
section
/-!
DEFINITION. What the claims speak of: which configurations are well formed, which states are legal and which of them the
machine can come out of reset in.
-/

namespace Sys2Proof

open Machine

/-- `WARL_LEGAL` maps a held value to itself (rule R36: a register holds only legal values). -/
def CmoCsrParam.wf (p : CmoCsrParam) : Bool :=
  (List.range 64).all fun n =>
    legalizeFields p (legalizeFields p (BitVec.ofNat 6 n)) == legalizeFields p (BitVec.ofNat 6 n)

/-- A region holds whole blocks, grants read where it grants write (rule R234), and is cacheable only as main memory: the
spec leaves cacheability an open function of the address and the access (rule R77, I15), and that no I/O device region is
cacheable is the model's choice (DESIGN CHOICE, log entry 48). -/
def Region.wf (size : Nat) (r : Region) : Bool :=
  r.base % size == 0 && r.size % size == 0 && (r.r || !r.w) && (r.kind == .mainMemory || !r.cacheable)

/-- The caches of a path, those an access reaches indirectly among them. -/
def PathRule.caches (p : PathRule) : List Nat := (p.toPoc ++ p.beyondPoc).flatMap fun h => h.direct ++ h.indirect

/-- Two rules of the topology are about a common address. -/
def PathRule.meets (p q : PathRule) : Bool := decide (p.base < q.base + q.size) && decide (q.base < p.base + p.size)

/-- The kinds of access a rule of the topology is about hold all of load, store and zero, or none: a hart's loads take
the path its data writes take (rule R99, the Load Value Axiom). -/
def PathRule.kindsWf (p : PathRule) : Bool :=
  let about := [AccessKind.load, .store, .zero].map fun k => p.kinds.isEmpty || p.kinds.contains k
  about.all id || !about.any id

/-- Paths go through a domain once, name caches that exist, each once, and hold whole blocks. -/
def PathRule.wf (cfg : Config) (p : PathRule) : Bool :=
  distinct ((p.toPoc ++ p.beyondPoc).map (·.domain)) && p.base % blockSize cfg == 0 && p.size % blockSize cfg == 0
    && distinct p.caches && p.kindsWf && p.caches.all fun c => decide (c < cfg.caches.length)

/-- All paths that pass through PoC-memory share what lies beyond it (rules R84, R85). -/
def convergesAtPoc (cfg : Config) : Bool :=
  cfg.paths.all fun p => cfg.paths.all fun q => !(p.passesPoc && q.passesPoc && p.meets q) || p.beyondPoc == q.beyondPoc

/-- What lies on a path after a domain. -/
def afterDomain (name : Nat) : List Hop → List Hop
  | [] => []
  | h :: hs => if h.domain = name then hs else afterDomain name hs

/-- Paths to an address that converge within a domain are the same from there to memory (rule R82). -/
def convergesInDomains (cfg : Config) : Bool :=
  cfg.paths.all fun p => cfg.paths.all fun q => !p.meets q ||
    (p.toPoc ++ p.beyondPoc).all fun h => (q.toPoc ++ q.beyondPoc).all fun k => h.domain != k.domain ||
      afterDomain h.domain (p.toPoc ++ p.beyondPoc) == afterDomain h.domain (q.toPoc ++ q.beyondPoc)

/-- Two lists hold the same numbers. -/
def sameMembers (l l' : List Nat) : Bool := l.all l'.contains && l'.all l.contains

/-- Two lists hold no number in common. -/
def disjoint (l l' : List Nat) : Bool := l.all fun c => !l'.contains c

/-- A coherence domain is one set of caches, whichever path to an address reaches it, and no cache is in two domains of
an address (rule R79). -/
def domainsWf (cfg : Config) : Bool :=
  cfg.paths.all fun p => cfg.paths.all fun q => !p.meets q ||
    (p.toPoc ++ p.beyondPoc).all fun h => (q.toPoc ++ q.beyondPoc).all fun k =>
      if h.domain = k.domain then sameMembers (hopMembers h) (hopMembers k) else disjoint (hopMembers h) (hopMembers k)

/-- Two accesses to an address meet the same caches from their first domain on: the paths of both begin in one domain, from
which they are the same (rule R82), and reach the same caches in it (rules R79, R81), or both lead straight to memory. -/
def entersTogether (cfg : Config) (acc acc' : Access) (pa : Nat) : Prop :=
  match hopsOf cfg acc pa, hopsOf cfg acc' pa with
  | [], [] => True
  | h :: _, k :: _ => h.domain = k.domain ∧ (hardwareCoherent cfg pa = true ∨ h.direct = k.direct)
  | [], _ :: _ => False
  | _ :: _, [] => False

/-! ### Encodings (rule R122) -/

/-- The bits of an operand lie in the word, outside those the row fixes; a constant is one the operand can have. -/
def EncField.wf (f : EncField) (width ilen mask : Nat) : Bool :=
  match f with
  | .bits lo => decide (lo + width ≤ 8 * ilen) && (mask >>> lo) % 2 ^ width == 0
  | .const n => decide (n < 2 ^ width)

/-- The bits of the two operands are apart. -/
def EncField.apart (rs1 sel : EncField) : Bool :=
  match rs1, sel with
  | .bits a, .bits b => decide (a + 5 ≤ b) || decide (b + 2 ≤ a)
  | _, _ => true

/-- How many low bits of a word of `ilen` bytes say that it is that long. -/
def lengthBits (ilen : Nat) : Nat :=
  match ilen with
  | 2 => 2
  | 4 => 5
  | 6 => 6
  | _ => 7

/-- Sets of words, one for each `funct3` of a list. -/
def wordsBy (mask value : Nat) (functs : List Nat) : List (Nat × Nat) := functs.map fun f => (mask, f * 0x1000 + value)

/-- The words of the base integer instructions, those of 64-bit registers apart. -/
def integerWords : List (Nat × Nat) :=
  [(0x7F, 0x37), (0x7F, 0x17), (0x7F, 0x6F), (0x707F, 0x67)] ++ wordsBy 0x707F 0x63 [0, 1, 4, 5, 6, 7]
    ++ wordsBy 0x707F 0x03 [0, 1, 2, 4, 5] ++ wordsBy 0x707F 0x23 [0, 1, 2] ++ wordsBy 0x707F 0x13 [0, 2, 3, 4, 6, 7]
    ++ [(0xFE00007F, 0x33)] ++ wordsBy 0xFE00707F 0x40000033 [0, 5] ++ wordsBy 0x707F 0x0F [0, 1]

/-- The words of the shifts by an immediate and of the instructions on 64-bit registers. -/
def widthWords : XLen → List (Nat × Nat)
  | .rv32 => [(0xFE00707F, 0x1013), (0xFE00707F, 0x5013), (0xFE00707F, 0x40005013)]
  | .rv64 =>
    [(0xFC00707F, 0x1013), (0xFC00707F, 0x5013), (0xFC00707F, 0x40005013), (0x707F, 0x3003), (0x707F, 0x6003),
     (0x707F, 0x3023), (0x707F, 0x1B)]
      ++ wordsBy 0xFE00707F 0x1B [1, 5] ++ [(0xFE00707F, 0x4000501B)] ++ wordsBy 0xFE00707F 0x3B [0, 1, 5]
      ++ wordsBy 0xFE00707F 0x4000003B [0, 5] ++ [(0xF9F0707F, 0x1000302F), (0xF800707F, 0x1800302F)]

/-- The words of load-reserved and store-conditional on words, of the CSR instructions, and of the privileged
instructions (`ECALL`, `EBREAK`, `MRET`, `SRET`, `WFI`, `SFENCE.VMA`). -/
def systemWords : List (Nat × Nat) :=
  [(0xF9F0707F, 0x1000202F), (0xF800707F, 0x1800202F)] ++ wordsBy 0x707F 0x73 [1, 2, 3, 5, 6, 7]
    ++ [(0xFFFFFFFF, 0x73), (0xFFFFFFFF, 0x100073), (0xFFFFFFFF, 0x30200073), (0xFFFFFFFF, 0x10200073),
        (0xFFFFFFFF, 0x10500073), (0xFE007FFF, 0x12000073)]

/-- The words of the H-extension: the fences `HFENCE.VVMA` and `HFENCE.GVMA`, the loads `HLV` and `HLVX`, the stores
`HSV`. -/
def hypervisorWords (xlen : XLen) : List (Nat × Nat) :=
  [(0xFE007FFF, 0x22000073), (0xFE007FFF, 0x62000073), (0xFFF0707F, 0x60004073), (0xFFF0707F, 0x60104073),
   (0xFFF0707F, 0x64004073), (0xFFF0707F, 0x64104073), (0xFFF0707F, 0x64304073), (0xFFF0707F, 0x68004073),
   (0xFFF0707F, 0x68304073), (0xFE007FFF, 0x62004073), (0xFE007FFF, 0x66004073), (0xFE007FFF, 0x6A004073)]
    ++ (match xlen with
        | .rv32 => []
        | .rv64 => [(0xFFF0707F, 0x68104073), (0xFFF0707F, 0x6C004073), (0xFE007FFF, 0x6E004073)])

/-- The words of four bytes that are an instruction of the base ISA or of another extension the modelled hart has, as
sets: a word `w` is of the set `(mask, value)` where `w & mask = value` (rule R122 (c); from general knowledge, log
entry 47). -/
def baseWords (xlen : XLen) (hasH : Bool) : List (Nat × Nat) :=
  integerWords ++ widthWords xlen ++ systemWords ++ (if hasH then hypervisorWords xlen else [])

/-- No word of the row is of a set of words. -/
def EncRow.avoids (r : EncRow) (words : Nat × Nat) : Bool := (r.mask &&& words.1) &&& (r.value ^^^ words.2) != 0

/-- A row fixes the bits its mask covers, has its operands in others, gives the instruction its length, and where that
is four bytes has no word of the hart's other instructions (rule R122 (c)). -/
def EncRow.wf (xlen : XLen) (hasH : Bool) (ilen : Nat) (r : EncRow) : Bool :=
  decide (r.mask < 2 ^ (8 * ilen)) && r.value &&& r.mask == r.value && r.rs1.wf 5 ilen r.mask && r.sel.wf 2 ilen r.mask
    && r.rs1.apart r.sel
    && r.mask % 2 ^ lengthBits ilen == 2 ^ lengthBits ilen - 1 && instrLength (BitVec.ofNat 8 r.value) == ilen
    && (ilen != 4 || (baseWords xlen hasH).all r.avoids)

/-- No word belongs to two of the rows (rule R122 (a)). -/
def rowsDisjoint : List EncRow → Bool
  | [] => true
  | r :: rest => rest.all (fun r' => r.avoids (r'.mask, r'.value)) && rowsDisjoint rest

/-- The abstract instructions (rule R121), each with the numbers its PoC or level can be. -/
def cmoOps : List (CmoOp × List Nat) :=
  [(.inval, [0]), (.clean, [0]), (.flush, [0]), (.zero, [0, 1, 2, 3]), (.prefetchR, [0, 1, 2, 3]),
   (.prefetchW, [0, 1, 2, 3]), (.prefetchI, [0, 1, 2, 3]), (.demote, [0, 1, 2, 3])]

/-- Every abstract instruction has a word with every operand (rule R122 (b)). -/
def Encoding.complete (e : Encoding) : Bool :=
  cmoOps.all fun op =>
    let rows := e.rows.filter fun r => r.op == op.1
    (List.range 32).all fun rs1 => op.2.all fun sel => rows.any fun r => r.rs1.admits 5 rs1 && r.sel.admits 2 sel

/-- An encoding the spec allows on a hart (rule R122): a function, complete, of words of one length that are none of the
hart's other instructions. -/
def Encoding.wf (xlen : XLen) (hasH : Bool) (e : Encoding) : Bool :=
  [2, 4, 6, 8].contains e.ilen && e.rows.all (EncRow.wf xlen hasH e.ilen) && rowsDisjoint e.rows && e.complete

/-- The memory types a page can have beside type 0 (log entry 46). -/
def memTypesWf (cfg : Config) : Bool :=
  distinct (memTypesOf cfg) && (memTypesOf cfg).all fun t => decide (t < 4)

/-- The numbers of the unprivileged CSRs of the standard extensions, as ranges, the first and the last number of each. -/
def unprivilegedCsrNumbers : List (Nat × Nat) :=
  [(0x000, 0x005), (0x008, 0x00A), (0x00F, 0x00F), (0x011, 0x011), (0x015, 0x015), (0x017, 0x017), (0x040, 0x044),
   (0xC00, 0xC22), (0xC80, 0xC9F)]

/-- The numbers of the supervisor's CSRs, as ranges. -/
def supervisorCsrNumbers : List (Nat × Nat) :=
  [(0x100, 0x106), (0x10A, 0x10A), (0x10C, 0x10F), (0x114, 0x114), (0x120, 0x120), (0x140, 0x144), (0x14D, 0x157),
   (0x15C, 0x15D), (0x15F, 0x15F), (0x180, 0x181), (0x5A8, 0x5A8), (0xDA0, 0xDA0), (0xDB0, 0xDB0)]

/-- The numbers of the CSRs of the H-extension, the guest's supervisor's among them, as ranges. -/
def hypervisorCsrNumbers : List (Nat × Nat) :=
  [(0x200, 0x200), (0x204, 0x205), (0x214, 0x214), (0x240, 0x244), (0x24D, 0x257), (0x25C, 0x25D), (0x280, 0x280),
   (0x600, 0x600), (0x602, 0x60A), (0x60C, 0x60F), (0x612, 0x613), (0x615, 0x615), (0x618, 0x618), (0x61A, 0x61A),
   (0x61C, 0x61F), (0x643, 0x647), (0x64A, 0x64A), (0x655, 0x657), (0x680, 0x680), (0x6A8, 0x6A8), (0xE12, 0xE12),
   (0xEB0, 0xEB0)]

/-- The numbers of the CSRs of M-mode and of debug mode, as ranges. -/
def machineCsrNumbers : List (Nat × Nat) :=
  [(0x300, 0x306), (0x308, 0x30A), (0x30C, 0x310), (0x312, 0x314), (0x318, 0x31A), (0x31C, 0x344), (0x34A, 0x34B),
   (0x34E, 0x34E), (0x350, 0x357), (0x35C, 0x35C), (0x380, 0x385), (0x3A0, 0x3EF), (0x721, 0x742), (0x744, 0x744),
   (0x747, 0x747), (0x757, 0x757), (0x7A0, 0x7A5), (0x7A8, 0x7A8), (0x7AA, 0x7AA), (0x7B0, 0x7B3), (0xB00, 0xB1F),
   (0xB80, 0xB9F), (0xF11, 0xF15), (0xFB0, 0xFB0)]

/-- The number of a standard CSR. Which there are is the privileged and the debug architecture's and their ratified
extensions' (PRESUMED, log entry 11); a few numbers between two of them are counted among them. -/
def standardCsr (n : Nat) : Bool :=
  (unprivilegedCsrNumbers ++ supervisorCsrNumbers ++ hypervisorCsrNumbers ++ machineCsrNumbers).any fun r =>
    decide (r.1 ≤ n) && decide (n ≤ r.2)

/-- The numbers of the four registers are pairwise distinct and distinct from every standard CSR (D4). -/
def csrNumbersDistinct (cfg : Config) : Bool :=
  let own := [cfg.mcmo, cfg.scmo, cfg.hcmo, cfg.vscmo].map fun p => p.number.toNat
  distinct own && own.all fun n => !standardCsr n

/-- A configuration the spec allows: a block divides a page (D24), regions, paths and coherence domains are well formed,
paths converge at PoC-memory and where they share a domain, the encoding is one of rule R122, and each `xcmocontrol`
register holds what it is said to hold. -/
def Config.wf (cfg : Config) : Bool :=
  decide (cfg.logB ≤ 12) && cfg.regions.all (Region.wf (blockSize cfg)) && cfg.paths.all (PathRule.wf cfg)
    && convergesAtPoc cfg && convergesInDomains cfg && domainsWf cfg && memTypesWf cfg && cfg.enc.wf cfg.xlen cfg.hasH
    && csrNumbersDistinct cfg
    && cfg.mcmo.wf && cfg.scmo.wf && cfg.hcmo.wf && cfg.vscmo.wf

namespace Machine

/-! ### Translation and protection (rules R222, R233, R236) -/

/-- The walk of a page table from the root its register `atp` names meets a leaf, whatever that grants: the register
selects a format, which translates the address. -/
def WalkMeets (s : State) (atp : Word) (guest : Bool) (fetchPte : PageFormat → Nat → Except XlateError (Nat × Nat))
    (va : Nat) (leaf : Leaf) : Prop :=
  ∃ p, pageFormat s.cfg.xlen (atpMode s.cfg.xlen atp) guest = some p ∧ canonical s.cfg.xlen p guest va = true ∧
    walk s.cfg p (fetchPte p) (fun _ => true) (if guest then .guest va else .page) va p.levels
      (atpRoot s.cfg.xlen atp) = .ok leaf

/-- A first stage (`satp`, `vsatp`) maps the address `va` to `pa`, and `w` is the `W` bit of its leaf, none where it is
Bare. -/
def FirstStageMaps (s : State) (atp : Word) (fetchPte : PageFormat → Nat → Except XlateError (Nat × Nat))
    (kind : AccessKind) (user sum mxr : Bool) (va pa : Nat) (w : Option Bool) : Prop :=
  (atpBare s.cfg.xlen atp = true ∧ pa = va ∧ w = none) ∨
    (atpBare s.cfg.xlen atp = false ∧ ∃ leaf, WalkMeets s atp false fetchPte va leaf ∧
      firstPermits s.cfg kind user sum mxr leaf.pte = true ∧ pa = leaf.address ∧ w = some (pteBit leaf.pte 2))

/-- The G-stage (`hgatp`) maps the guest physical address `gpa` to `pa`. -/
def GuestStageMaps (s : State) (kind : AccessKind) (mxr : Bool) (gpa pa : Nat) (w : Option Bool) : Prop :=
  (atpBare s.cfg.xlen s.csr.hgatp = true ∧ pa = gpa ∧ w = none) ∨
    (atpBare s.cfg.xlen s.csr.hgatp = false ∧ ∃ leaf, WalkMeets s s.csr.hgatp true (readPte s) gpa leaf ∧
      guestPermits s.cfg kind mxr leaf.pte = true ∧ pa = leaf.address ∧ w = some (pteBit leaf.pte 2))

/-- What a region grants. -/
def Region.grants (r : Region) : Permission → Bool
  | .read => r.r
  | .write => r.w
  | .execute => r.x

/-- No joint permission of an address: the PMP denies the access, or the PMAs do, which a vacant address has none of (rules
R60, R236). -/
def JointDenied (s : State) (eff : Mode) (perm : Permission) (pa : Nat) : Prop :=
  pmpAllows (decide (eff = .m)) perm pa 0#64 s.pmp false = false ∨
    ∀ r, regionOf s.cfg pa = some r → Region.grants r perm = false

/-! ### The invariant -/

/-- The four `xcmocontrol` registers hold legal values (rules R35, R36). -/
def State.csrsLegal (s : State) : Bool :=
  cmoLegal s.cfg.mcmo s.csr.mcmocontrol && cmoLegal s.cfg.scmo s.csr.scmocontrol
    && cmoLegal s.cfg.hcmo s.csr.hcmocontrol && cmoLegal s.cfg.vscmo s.csr.vscmocontrol

/-- VS- and VU-mode exist only with the H-extension (rules R27, R213). -/
def State.modeLegal (s : State) : Bool := s.cfg.hasH || !s.mode.isVirtual

/-- The latest stores are bytes of the hart's loads and fetches through pages of memory types there are, and each stands
on the path of its access (rules R99, R103; log entry 45). -/
def State.latestWf (s : State) : Bool :=
  s.latest.all fun e => (e.kind == .load || e.kind == .fetch) && (memTypesOf s.cfg).contains e.memType && e.held s.cfg s.ms

/-- What every state of the machine satisfies: a well-formed configuration, memory and caches in canonical form with no
Modified block where a cache does not track that state (rule R43), the copies of each coherence domain in agreement where
hardware enforces coherence (rule R79), the set of unspecified bytes in canonical form, the latest stores standing on the
paths of the loads and fetches that must return them (rules R99, R103), legal `xcmocontrol` registers and a mode that
exists. -/
structure State.Inv (s : State) : Prop where
  cfg : s.cfg.wf = true
  ms : s.ms.wf s.cfg = true
  domains : s.ms.domainsAgree s.cfg = true
  unspecified : Addresses.wfFrom 0 s.unspecified = true
  latest : s.latestWf = true
  csrs : s.csrsLegal = true
  mode : s.modeLegal = true

/-- The states the machine can come out of reset in (rules R46, R47, R260, R261): M-mode at the reset vector with `MIE`
and `MPRV` clear; any legal value in each `xcmocontrol` register, any contents of memory and caches, any registers. -/
structure State.AfterReset (s : State) : Prop where
  cfg : s.cfg.wf = true
  ms : s.ms.wf s.cfg = true
  csrs : s.csrsLegal = true
  mode : s.mode = .m
  pc : s.pc = s.cfg.resetVector
  mie : s.csr.mstatus.getLsbD mieBit = false
  mprv : s.csr.mstatus.getLsbD mprvBit = false

/-- What the trap registers of `after` say of a trap `t` taken to M-mode from `before` (rule R253). -/
structure TrappedToM (before after : State) (t : Trap) : Prop where
  mode : after.mode = .m
  pc : after.pc = truncX before.cfg (vectorBase before.csr.mtvec)
  mepc : after.csr.mepc = before.pc
  mcause : after.csr.mcause = BitVec.ofNat 64 t.cause.code
  mtval : after.csr.mtval = t.tval
  mpp : mpp after.csr.mstatus = before.mode.level
  mpie : after.csr.mstatus.getLsbD mpieBit = before.csr.mstatus.getLsbD mieBit
  mie : after.csr.mstatus.getLsbD mieBit = false
  mpv : before.cfg.hasH = true → after.csr.mstatus.getLsbD mpvBit = before.mode.isVirtual

/-- What the trap registers of `after` say of a trap `t` taken to S/HS-mode from `before` (rules R253, R256). -/
structure TrappedToS (before after : State) (t : Trap) : Prop where
  mode : after.mode = .s
  pc : after.pc = truncX before.cfg (vectorBase before.csr.stvec)
  sepc : after.csr.sepc = before.pc
  scause : after.csr.scause = BitVec.ofNat 64 t.cause.code
  stval : after.csr.stval = t.tval
  spp : after.csr.mstatus.getLsbD sppBit = (before.mode.level == 1#2)
  spie : after.csr.mstatus.getLsbD spieBit = before.csr.mstatus.getLsbD sieBit
  sie : after.csr.mstatus.getLsbD sieBit = false
  spv : before.cfg.hasH = true → after.csr.hstatus.getLsbD spvBit = before.mode.isVirtual

/-- What the trap registers of `after` say of a trap `t` taken to VS-mode from `before` (rules R253, R256). -/
structure TrappedToVS (before after : State) (t : Trap) : Prop where
  mode : after.mode = .vs
  pc : after.pc = truncX before.cfg (vectorBase before.csr.vstvec)
  vsepc : after.csr.vsepc = before.pc
  vscause : after.csr.vscause = BitVec.ofNat 64 t.cause.code
  vstval : after.csr.vstval = t.tval
  spp : after.csr.vsstatus.getLsbD sppBit = (before.mode.level == 1#2)
  spie : after.csr.vsstatus.getLsbD spieBit = before.csr.vsstatus.getLsbD sieBit
  sie : after.csr.vsstatus.getLsbD sieBit = false

/-- The step ends in taking exception `e` from `s`, whatever the trap value (rules R211, R252). -/
def Takes (s : State) (e : Exception) (r : Result) : Prop :=
  ∃ tval gpa gva, r = .next (takeTrap s { cause := e, tval := tval, gpa := gpa, gva := gva })

/-- What a CMO instruction that completes leaves of its hart: every integer register, every control and status register,
the mode, the PMP, the triggers (rules R21, R23). -/
structure SameHart (s t : State) : Prop where
  cfg : t.cfg = s.cfg
  x : t.x = s.x
  mode : t.mode = s.mode
  csr : t.csr = s.csr
  pmp : t.pmp = s.pmp
  triggers : t.triggers = s.triggers
  word : t.word = s.word
  moves : t.moves = s.moves

/-- Memory and caches agree but at the addresses `changed`: every other byte of memory, every copy of a block that holds
none of them, and every byte an agent reads from such a block. -/
structure MemSys.AgreeBut (cfg : Config) (changed : List Nat) (before after : MemSys) : Prop where
  mem : ∀ a, a ∉ changed → Memory.read after.mem a = Memory.read before.mem a
  copies : ∀ cache b, (∀ a ∈ changed, blockBase cfg a ≠ b) → after.copyAt cache b = before.copyAt cache b
  reads : ∀ acc a, (∀ a' ∈ changed, blockBase cfg a' ≠ blockBase cfg a) →
    MemSys.readByte cfg after acc a = MemSys.readByte cfg before acc a

/-- The block is Modified in a cache off the path of the hart's loads through a page of a memory type: another domain's
copy (rules R79, R80). -/
def MemSys.ModifiedOffLoads (cfg : Config) (ms : MemSys) (memType b : Nat) : Prop :=
  ∃ c, c ∉ pathCaches cfg (hartAccess .load memType) b ∧ ms.isModified c b = true

/-- A reservation stays, or is lost where it lies on the block of `pa`. That it may be lost there is rules R102 and R185;
that one on another block stays is the model's choice (DESIGN CHOICE, log entry 32). -/
def ReservationKept (s t : State) (pa : Nat) : Prop :=
  t.reservation = s.reservation ∨ (s.reservation = some (blockBase s.cfg pa) ∧ t.reservation = none)

end Machine

end Sys2Proof
end

