-- ==== Sys2Proof/Certificates/Slice0/Obligations.lean ====
section
/-!
DEFINITION. The statements for the provers, from the numbered rules of the spec. The words used (`Takes`, `SameHart`,
`MemSys.AgreeBut`, `ReservationKept`, `State.Inv`) are those of `Safety.lean`. Where a statement rests on a choice of the
spec ([decision: D<n>]), on what the spec imports from general knowledge, or on a log entry of the model, its docstring
says so.
-/

open Sys2Proof Sys2Proof.Machine

/-! ### Encoding -/

/-- Every row of the table of spec/95_test_vectors.md section 2.1: the twelve words that are instructions decode to what
the table says, the six that are reserved to none, and the word `0x0015000B` lies in memory as the bytes `0B 00 15 00`
(rules R124 to R128). `ENC_REF` is the spec's own encoding (D5). -/
def Obligations.DecodesTheSpecsWords : Prop :=
  decodeWord 0x0005000B#32 = .ok (.cboInval 10 .memory) ∧ decodeWord 0x0015000B#32 = .ok (.cboClean 10 .memory) ∧
  decodeWord 0x0025000B#32 = .ok (.cboFlush 10 .memory) ∧ decodeWord 0x0045000B#32 = .ok (.cboZero 10 .default) ∧
  decodeWord 0x0245000B#32 = .ok (.cboZero 10 .l1) ∧ decodeWord 0x0285800B#32 = .ok (.prefetchR 11 .l1) ∧
  decodeWord 0x0495800B#32 = .ok (.prefetchW 11 .l2) ∧ decodeWord 0x06A5800B#32 = .ok (.prefetchI 11 .l3) ∧
  decodeWord 0x00B5800B#32 = .ok (.demote 11 .default) ∧ decodeWord 0x002F800B#32 = .ok (.cboFlush 31 .memory) ∧
  decodeWord 0x0010000B#32 = .ok (.cboClean 0 .memory) ∧ decodeWord 0x0016000B#32 = .ok (.cboClean 12 .memory) ∧
  (∀ w ∈ [0x0215000B#32, 0x0035000B#32, 0x00C5000B#32, 0x0805000B#32, 0x0005100B#32, 0x0005008B#32],
    (decodeWord w).toOption = none) ∧
  toBytesLE (0x0015000B#32).toNat 4 = [0x0B#8, 0x00#8, 0x15#8, 0x00#8] ∧
  decode [0x0B#8, 0x00#8, 0x15#8, 0x00#8] = .ok (.cboClean 10 .memory, [])

/-- Decoding the bytes of any well-formed instruction gives it back, with every operand, and leaves what follows (rule
R122 (b); D5). -/
def Obligations.DecodeEncodeAgree : Prop :=
  ∀ (i : Instr) (rest : List Byte), i.wf = true →
    ∃ bytes, encode i = some bytes ∧ bytes.length = 4 ∧ decode (bytes ++ rest) = .ok (i, rest)

/-- A word that decodes is the one word of its instruction (rule R122 (a), (b); D5). -/
def Obligations.EncodeDecodeAgree : Prop :=
  ∀ (w : InstrWord) (i : Instr), decodeWord w = .ok i → encodeWord i = some w

/-- The words of the CMO opcode that are instructions are those that match a row under its mask; all others are reserved
(rules R123, R124, R126, R127; D5, D7). -/
def Obligations.OnlyTableWordsDecode : Prop :=
  ∀ w : InstrWord, (∃ i, decodeWord w = .ok i) ↔
    (w &&& 0xFFF07FFF#32 = 0x0000000B#32 ∨ w &&& 0xFFF07FFF#32 = 0x0010000B#32 ∨ w &&& 0xFFF07FFF#32 = 0x0020000B#32 ∨
     w &&& 0xF9F07FFF#32 = 0x0040000B#32 ∨ w &&& 0xF9F07FFF#32 = 0x0080000B#32 ∨ w &&& 0xF9F07FFF#32 = 0x0090000B#32 ∨
     w &&& 0xF9F07FFF#32 = 0x00A0000B#32 ∨ w &&& 0xF9F07FFF#32 = 0x00B0000B#32)

/-- `CBO.SIZE` is refused by name in every state, and no word decodes to it (rules R134, R200; D22). -/
def Obligations.CboSizeIsRefused : Prop :=
  (∀ s : State, exec .cboSize s = .refused .cboSizeUndefined) ∧ ∀ w : InstrWord, decodeWord w ≠ .ok .cboSize

/-- The encoding the machine is configured with by default, four bytes and the eight rows of rule R124, is `ENC_REF`: it
decodes every word as `ENC_REF` does, and is one rule R122 allows on every hart. -/
def Obligations.ReferenceEncodingIsEncRef : Prop :=
  (∀ xlen hasH, Encoding.ref.wf xlen hasH = true) ∧
    ∀ w : InstrWord, Encoding.ref.decode 4 w.toNat = (decodeWord w).toOption

/-- Rule R122 (a), (b), (d): in every encoding a machine may be configured with (rows of mask, value and operand places,
`Encoding.wf`), every abstract instruction, with every value of its operands, has a word; the word has the length of every
CMO word and decodes to that instruction. That this length is two, four, six or eight bytes, and that the first byte of a
word tells it (the last clause), is the model's choice (DESIGN CHOICE, log entry 47; the scheme is general knowledge). -/
def Obligations.EveryEncodingHasEveryInstruction : Prop :=
  ∀ (xlen : XLen) (hasH : Bool) (e : Encoding) (i : Instr), e.wf xlen hasH = true → i.wf = true →
    ∃ w, e.encode i = some w ∧ w < 2 ^ (8 * e.ilen) ∧ e.decode e.ilen w = some i ∧
      (∀ len, len ≠ e.ilen → e.decode len w = none) ∧
      ofBytesLE (toBytesLE w e.ilen) = w ∧ instrLength ((toBytesLE w e.ilen).headD 0#8) = e.ilen

/-- Rule R122 (c): in every encoding a machine may be configured with (`Encoding.wf`, which has words of two, four, six or
eight bytes whose first byte tells the length: log entry 47, DESIGN CHOICE), a word that is a CMO instruction is none of
the base instructions the model has (log entry 12). -/
def Obligations.CmoWordsAreNoBaseInstructions : Prop :=
  ∀ (s : State) (w : InstrWord) (i : Instr), s.cfg.enc.wf s.cfg.xlen s.cfg.hasH = true →
    s.cfg.enc.decode 4 w.toNat = some i →
    execBase w s = .refused .baseInstruction

/-! ### The step -/

/-- Where the hart moves, nothing stands in the way of the fetch, and the bytes fetched decode to an instruction in the
machine's encoding, a step is that instruction's meaning in the same state (its move taken off the list, the word noted
for an illegal instruction exception to record). -/
def Obligations.StepRunsTheDecodedInstruction : Prop :=
  ∀ (s s' : State) (bytes : List Byte) (i : Instr),
    s.moves = [] ∨ s.moves.head? = some .hart →
    s' = { s with moves := s.moves.tail } →
    triggerHit s' TriggerClass.fetch s'.pc = none →
    fetchInstruction s' = .ok bytes →
    s'.cfg.enc.decode bytes.length (ofBytesLE bytes) = some i →
    step s = exec i { s' with word := ofBytesLE bytes }

/-- A word of four bytes of the CMO opcode that the machine's encoding does not decode is an illegal instruction
exception (rule R127; I29, D5). -/
def Obligations.ReservedWordIsIllegal : Prop :=
  ∀ (s s' : State) (bytes : List Byte),
    s.moves = [] ∨ s.moves.head? = some .hart →
    s' = { s with moves := s.moves.tail } →
    triggerHit s' TriggerClass.fetch s'.pc = none →
    fetchInstruction s' = .ok bytes → bytes.length = 4 → ofBytesLE bytes % 128 = 0b0001011 →
    s'.cfg.enc.decode 4 (ofBytesLE bytes) = none →
    Takes { s' with word := ofBytesLE bytes } .illegalInstruction (step s)

/-- A move that is not the hart's changes no register, no mode, no program counter, no PMP entry and no trigger of the
hart (rules R61, R65, R66, R257). -/
def Obligations.OtherMovesKeepTheHart : Prop :=
  ∀ (s t : State) (m : Move) (rest : List Move), s.moves = m :: rest → m ≠ .hart → step s = .next t →
    t.cfg = s.cfg ∧ t.x = s.x ∧ t.pc = s.pc ∧ t.mode = s.mode ∧ t.csr = s.csr ∧ t.pmp = s.pmp ∧
      t.triggers = s.triggers ∧ t.word = s.word ∧ t.moves = rest

/-- The integer register file: `x[0]` reads as zero and discards writes, a write of another register changes that
register alone, and the effective address of a CMO instruction is what `rs1` reads as, zero for `x[0]` (rules R20, R21;
the register file is the base ISA's). -/
def Obligations.IntegerRegisters : Prop :=
  ∀ (s : State) (r r' : RegIdx) (v : Word),
    readX s 0 = 0#64 ∧ writeX s 0 v = s ∧ effectiveAddress s r = readX s r ∧
    (r ≠ 0 → readX (writeX s r v) r = truncX s.cfg v) ∧
    (r' ≠ r → readX (writeX s r v) r' = readX s r') ∧
    (writeX s r v).csr = s.csr ∧ (writeX s r v).ms = s.ms ∧ (writeX s r v).pc = s.pc ∧ (writeX s r v).mode = s.mode

/-! ### The `xcmocontrol` registers -/

/-- What an `xcmocontrol` register holds after a write is a value it can hold: its reserved bits read as zero, writing
it back changes nothing, and nothing else of the machine changes: no other control and status register, integer
register, PMP entry or trigger, not the mode, `pc`, memory or a cache (rules R35, R36; D9, D10). -/
def Obligations.XcmocontrolHoldsLegalValues : Prop :=
  ∀ (s : State) (v : Word) (id : CsrId), s.Inv → id.isCmo = true →
    csrRead (csrWrite s v id) id &&& ~~~0xF03#64 = 0#64 ∧
    csrWrite (csrWrite s v id) (csrRead (csrWrite s v id) id) id = csrWrite s v id ∧
    (∀ id' : CsrId, id' ≠ id → csrRead (csrWrite s v id) id' = csrRead s id') ∧
    let t := csrWrite s v id
    t.x = s.x ∧ t.pc = s.pc ∧ t.mode = s.mode ∧ t.ms = s.ms ∧ t.pmp = s.pmp ∧ t.triggers = s.triggers ∧
      t.unspecified = s.unspecified ∧ t.reservation = s.reservation ∧ t.cfg = s.cfg

/-- Where every field is writable, each of the six fields of rule R28 holds the bit written at its place, and every other
bit reads as zero (rules R28 to R35; the writable fields are `REF`'s, D9). -/
def Obligations.XcmocontrolFieldsStandAtTheirBits : Prop :=
  ∀ (p : CmoCsrParam) (v : Word), p.legalize = [] →
    cbme (legalizeCmo p v) = v.getLsbD 0 ∧ cbwe (legalizeCmo p v) = v.getLsbD 1 ∧
    invw0i (legalizeCmo p v) = v.getLsbD 8 ∧ invw0e (legalizeCmo p v) = v.getLsbD 9 ∧
    invw1i (legalizeCmo p v) = v.getLsbD 10 ∧ invw1e (legalizeCmo p v) = v.getLsbD 11 ∧
    ∀ j, j ∉ [0, 1, 8, 9, 10, 11] → (legalizeCmo p v).getLsbD j = false

/-- Which `xcmocontrol` register a CSR number reaches from each mode, and where it is an illegal instruction (rules R27,
R39; D3, D4). Rule R27 says that `hcmocontrol` and `vscmocontrol` are absent without the H-extension, and rule R39 speaks
of lower modes: that an access to one of the two from M- or S-mode is then an illegal instruction is the model's (DEDUCED,
log entry 35). -/
def Obligations.XcmocontrolAccessByMode : Prop :=
  ∀ s : State, s.Inv →
    csrAccess s s.cfg.mcmo.number = (if s.mode = .m then .register .mcmocontrol else .illegal) ∧
    csrAccess s s.cfg.scmo.number =
      (match s.mode with
       | .m => .register .scmocontrol
       | .s => .register .scmocontrol
       | .u => .illegal
       | .vs => if s.cfg.vsRedirect then .register .vscmocontrol else .illegal
       | .vu => .illegal) ∧
    csrAccess s s.cfg.hcmo.number =
      (if s.cfg.hasH ∧ (s.mode = .m ∨ s.mode = .s) then .register .hcmocontrol else .illegal) ∧
    csrAccess s s.cfg.vscmo.number =
      (if s.cfg.hasH ∧ (s.mode = .m ∨ s.mode = .s) then .register .vscmocontrol else .illegal)

/-! ### Illegal instruction exceptions -/

/-- Rule R216: by the current mode and the `CBME` bits (bit 0), a cache block management instruction takes an illegal
instruction exception, or never does. -/
def Obligations.ManagementIllegalByCbme : Prop :=
  ∀ (s : State) (rs1 : RegIdx) (poc : Poc) (i : Instr),
    i = .cboInval rs1 poc ∨ i = .cboClean rs1 poc ∨ i = .cboFlush rs1 poc →
    let m := s.csr.mcmocontrol.getLsbD 0
    let sc := s.csr.scmocontrol.getLsbD 0
    let h := s.csr.hcmocontrol.getLsbD 0
    let vs := s.csr.vscmocontrol.getLsbD 0
    let illegal := match s.mode with
      | .m => false
      | .s => !m
      | .u => !m || !sc
      | .vs => !m || !h
      | .vu => !m || !h || !vs
    (illegal = true → Takes s .illegalInstruction (exec i s)) ∧
    (illegal = false → ∀ t, exec i s = .next t →
      (∃ s', SameHart s s' ∧ t = retire s') ∨
        ∃ e ∈ [Exception.breakpoint, .storePage, .storeGuestPage, .storeAccess], Takes s e (.next t))

/-- Rule R217: by the current mode and the `CBWE` bits (bit 1), a cache block write instruction takes an illegal
instruction exception, or never does. -/
def Obligations.ZeroIllegalByCbwe : Prop :=
  ∀ (s : State) (rs1 : RegIdx) (level : Level),
    let m := s.csr.mcmocontrol.getLsbD 1
    let sc := s.csr.scmocontrol.getLsbD 1
    let h := s.csr.hcmocontrol.getLsbD 1
    let vs := s.csr.vscmocontrol.getLsbD 1
    let illegal := match s.mode with
      | .m => false
      | .s => !m
      | .u => !m || !sc
      | .vs => !m || !h
      | .vu => !m || !h || !vs
    (illegal = true → Takes s .illegalInstruction (exec (.cboZero rs1 level) s)) ∧
    (illegal = false → ∀ t, exec (.cboZero rs1 level) s = .next t →
      (∃ s', SameHart s s' ∧ t = retire s') ∨
        ∃ e ∈ [Exception.breakpoint, .storePage, .storeGuestPage, .storeAccess], Takes s e (.next t))

/-- A CMO instruction that does not retire takes one of five exceptions, a hint only the breakpoint: no virtual
instruction and no misaligned exception (rules R210, R212, R220, R246). -/
def Obligations.OnlyTheExceptionsOfItsClass : Prop :=
  ∀ (s t : State) (i : Instr), exec i s = .next t →
    (∃ s', SameHart s s' ∧ t = retire s') ∨
    (match i with
     | .prefetchR _ _ => Takes s .breakpoint (.next t)
     | .prefetchW _ _ => Takes s .breakpoint (.next t)
     | .prefetchI _ _ => Takes s .breakpoint (.next t)
     | .demote _ _ => Takes s .breakpoint (.next t)
     | _ => ∃ e ∈ [Exception.illegalInstruction, .breakpoint, .storePage, .storeGuestPage, .storeAccess],
        Takes s e (.next t))

/-- A bit clear in a register binds every mode the register governs, whatever the registers below it hold (rules R215,
R265; derived in the spec): with `CBME` or `CBWE` (bits 0, 1) clear the instruction is illegal, with the selected
`INVWxE` bit (9 or 11) clear `CBO.INVAL` takes an exception, with the selected `INVWxI` bit (8 or 10; both where the
mechanism is disabled) clear it is a flush. `mcmocontrol` governs every mode but M, `scmocontrol` U, `hcmocontrol` VS
and VU, `vscmocontrol` VU. `Wx` of `mcmocontrol`, some byte of the block writable, is D8's reading of rule R238 (log
entry 36, DEDUCED). -/
def Obligations.HigherRegistersOnlyRestrict : Prop :=
  ∀ (s : State) (rs1 : RegIdx) (poc : Poc) (tr : Xlate),
    -- the registers that govern a mode, each with its `Wx`, none where its mechanism is disabled (rule R38)
    let governing : Mode → List (Word × Option Bool) := fun mode =>
      let m := (s.csr.mcmocontrol, some (someJointW s mode tr.pa))
      match mode with
      | .m => []
      | .s => [m]
      | .u => [m, (s.csr.scmocontrol, tr.wS)]
      | .vs => [m, (s.csr.hcmocontrol, tr.wG)]
      | .vu => [m, (s.csr.hcmocontrol, tr.wG), (s.csr.vscmocontrol, tr.wVS)]
    (∀ mode, ∀ g ∈ governing mode, (g.1.getLsbD 0 = false → illegalCbme s.csr mode = true) ∧
      (g.1.getLsbD 1 = false → illegalCbwe s.csr mode = true)) ∧
    (translate s .management false (effMode s) (effectiveAddress s rs1) = .ok tr → ∀ g ∈ governing (effMode s),
      ((g.2 = some true ∧ g.1.getLsbD 11 = false) ∨ (g.2 = some false ∧ g.1.getLsbD 9 = false) →
        ∀ t, exec (.cboInval rs1 poc) s = .next t → ∃ e, Takes s e (.next t)) ∧
      ((g.2 = some true ∧ g.1.getLsbD 10 = false) ∨ (g.2 = some false ∧ g.1.getLsbD 8 = false) ∨
          (g.2 = none ∧ (g.1.getLsbD 8 = false ∨ g.1.getLsbD 10 = false)) →
        managementOp s .inval (effMode s) tr = .flush))

/-! ### Translation, protection and the effective mode -/

/-- The effective privilege mode: `MPP` and `MPV` in M-mode with `MPRV`, else the current mode (rule R214; general
knowledge, D31). -/
def Obligations.EffectiveModeByMprv : Prop :=
  ∀ s : State,
    (s.mode ≠ .m → effMode s = s.mode) ∧
    (s.mode = .m → s.csr.mstatus.getLsbD 17 = false → effMode s = .m) ∧
    (s.mode = .m → s.csr.mstatus.getLsbD 17 = true → mpp s.csr.mstatus = 3#2 → effMode s = .m) ∧
    (s.mode = .m → s.csr.mstatus.getLsbD 17 = true → mpp s.csr.mstatus = 1#2 →
      effMode s = if s.cfg.hasH ∧ s.csr.mstatus.getLsbD 39 then .vs else .s) ∧
    (s.mode = .m → s.csr.mstatus.getLsbD 17 = true → mpp s.csr.mstatus = 0#2 →
      effMode s = if s.cfg.hasH ∧ s.csr.mstatus.getLsbD 39 then .vu else .u)

/-- `Translate` (rules R222, R223, R225, R226, R227, R231). M-mode translates nothing; S- and U-mode use `satp` with the
`SUM` of `mstatus`, VS- and VU-mode `vsatp` with that of `vsstatus` and then `hgatp`, and a Bare stage maps an address to
itself and gives no `W` bit. A stage that is not Bare maps an access exactly where the walk of its table meets a leaf that
permits it, to the address of that leaf and with its `W` bit: a leaf that a read of the table gave, with `V`, no reserved
encoding and `R` or `X`. A leaf permits a management or hint access only with `R` or `X`, `CBO.ZERO` only with `W`, each only
where the U-rule is met (on the G-stage, only with `U`), and all of them wherever that is so and the `A` and `D` bits are
ignored, updated or ready. A leaf that does not permit the access is a page fault, or on the G-stage a guest-page fault
with the guest physical address. What `CBO.INVAL` adds takes translations away and changes none. The G-stage check is the
spec's inference, the U-rule general knowledge, the formats, `MXR` and the place of `SUM` those of log entries 5 and 9. -/
def Obligations.LeafGrantsTheAccess : Prop :=
  ∀ (s : State) (kind : AccessKind) (ea : Word),
    let sum := s.csr.mstatus.getLsbD 18
    let mxr := s.csr.mstatus.getLsbD 19
    -- what a leaf permits
    let grants := fun (pte : Nat) =>
      (kind = .management ∨ kind = .hint → pteBit pte 1 = true ∨ pteBit pte 3 = true) ∧
      (kind = .zero → pteBit pte 2 = true)
    let userGrants := fun (user sum : Bool) (pte : Nat) =>
      (user = true → pteBit pte 4 = true) ∧ (user = false → pteBit pte 4 = true → sum = true)
    let ready := fun (pte : Nat) => s.cfg.cmoAd = .required → pteBit pte 6 = true ∧
      (kind = .zero ∨ (kind = .management ∧ s.cfg.managementDirties = true) → pteBit pte 7 = true)
    (∀ (user sum mxr : Bool) (pte : Nat),
      (firstPermits s.cfg kind user sum mxr pte = true → grants pte ∧ userGrants user sum pte) ∧
      (guestPermits s.cfg kind mxr pte = true → grants pte ∧ pteBit pte 4 = true) ∧
      (kind ∈ [AccessKind.management, .zero, .hint] → grants pte → ready pte →
        (userGrants user sum pte → firstPermits s.cfg kind user sum mxr pte = true) ∧
        (pteBit pte 4 = true → guestPermits s.cfg kind mxr pte = true))) ∧
    (∀ (atp : Word) (guest : Bool) (fetchPte : PageFormat → Nat → Except XlateError (Nat × Nat)) (va : Nat) (leaf : Leaf),
      WalkMeets s atp guest fetchPte va leaf →
        pteBit leaf.pte 0 = true ∧ (pteBit leaf.pte 1 = true ∨ pteBit leaf.pte 3 = true) ∧
        ∃ p a, fetchPte p a = .ok (leaf.pte, leaf.pteAddr) ∧ pteReserved s.cfg p leaf.pte = false) ∧
    -- the stages each mode uses
    translate s kind false .m ea =
      .ok { pa := ea.toNat, wVS := none, wS := none, wG := none, memType := 0, pteWrites := [] } ∧
    (∀ (eff : Mode) (user : Bool), (eff = .s ∧ user = false) ∨ (eff = .u ∧ user = true) →
      (∀ pa w, (∃ tr, translate s kind false eff ea = .ok tr ∧ tr.pa = pa ∧ tr.wS = w ∧ tr.wVS = none ∧ tr.wG = none) ↔
        FirstStageMaps s s.csr.satp (readPte s) kind user sum mxr ea.toNat pa w) ∧
      (∀ tr, translate s kind false eff ea = .ok tr → tr.wVS = none ∧ tr.wG = none) ∧
      (∀ leaf, atpBare s.cfg.xlen s.csr.satp = false → WalkMeets s s.csr.satp false (readPte s) ea.toNat leaf →
        firstPermits s.cfg kind user sum mxr leaf.pte = false → translate s kind false eff ea = .error .page)) ∧
    (∀ (eff : Mode) (user : Bool), (eff = .vs ∧ user = false) ∨ (eff = .vu ∧ user = true) →
      let vsSum := s.csr.vsstatus.getLsbD 18
      let vsMxr := s.csr.vsstatus.getLsbD 19 || mxr
      (∀ pa wVS wG, (∃ tr, translate s kind false eff ea = .ok tr ∧ tr.pa = pa ∧ tr.wVS = wVS ∧ tr.wG = wG ∧ tr.wS = none) ↔
        ∃ gpa, FirstStageMaps s s.csr.vsatp (readGuestPte s) kind user vsSum vsMxr ea.toNat gpa wVS ∧
          GuestStageMaps s kind mxr gpa pa wG) ∧
      (∀ tr, translate s kind false eff ea = .ok tr → tr.wS = none) ∧
      (∀ leaf, atpBare s.cfg.xlen s.csr.vsatp = false → WalkMeets s s.csr.vsatp false (readGuestPte s) ea.toNat leaf →
        firstPermits s.cfg kind user vsSum vsMxr leaf.pte = false → translate s kind false eff ea = .error .page) ∧
      (∀ gpa wVS leaf, FirstStageMaps s s.csr.vsatp (readGuestPte s) kind user vsSum vsMxr ea.toNat gpa wVS →
        atpBare s.cfg.xlen s.csr.hgatp = false → WalkMeets s s.csr.hgatp true (readPte s) gpa leaf →
        guestPermits s.cfg kind mxr leaf.pte = false → translate s kind false eff ea = .error (.guest gpa))) ∧
    -- what `CBO.INVAL` adds
    (∀ eff tr, translate s kind true eff ea = .ok tr → translate s kind false eff ea = .ok tr)

/-- A management or write instruction whose translation fails takes the store/AMO page fault, guest-page fault (with the
guest physical address) or access fault (rules R223, R225, R226, R232). -/
def Obligations.FailedTranslationFaults : Prop :=
  ∀ (s : State) (rs1 : RegIdx) (i : Instr) (kind : AccessKind) (inval : Bool) (e : XlateError),
    (∃ poc, illegalCbme s.csr s.mode = false ∧ kind = .management ∧
        triggerHit s TriggerClass.management (effectiveAddress s rs1) = none ∧
        ((i = .cboInval rs1 poc ∧ inval = true) ∨ (i = .cboClean rs1 poc ∧ inval = false) ∨
          (i = .cboFlush rs1 poc ∧ inval = false))) ∨
      (∃ level, illegalCbwe s.csr s.mode = false ∧ kind = .zero ∧
        triggerHit s TriggerClass.zero (effectiveAddress s rs1) = none ∧ i = .cboZero rs1 level ∧ inval = false) →
    translate s kind inval (effMode s) (effectiveAddress s rs1) = .error e →
    match e with
    | .page => Takes s .storePage (exec i s)
    | .guest gpa => ∃ tval gva,
        exec i s = .next (takeTrap s { cause := .storeGuestPage, tval := tval, gpa := gpa, gva := gva })
    | .access => Takes s .storeAccess (exec i s)

/-- A management instruction with an address of its block that has neither joint read nor joint execute permission, for
the PMP or the PMAs deny the access or the address is vacant (rules R60, R236), takes a store/AMO access fault, and memory
and caches stay as they are (rule R239; the addresses are the block's, D14). -/
def Obligations.ManagementNeedsJointReadOrExecute : Prop :=
  ∀ (s : State) (rs1 : RegIdx) (poc : Poc) (i : Instr) (tr : Xlate) (a : Nat),
    i = .cboInval rs1 poc ∨ i = .cboClean rs1 poc ∨ i = .cboFlush rs1 poc →
    illegalCbme s.csr s.mode = false →
    triggerHit s TriggerClass.management (effectiveAddress s rs1) = none →
    translate s .management (decide (i = .cboInval rs1 poc)) (effMode s) (effectiveAddress s rs1) = .ok tr →
    pmaConstraint s.cfg tr.pa = true →
    a ∈ blockAddresses s.cfg tr.pa → JointDenied s (effMode s) .read a → JointDenied s (effMode s) .execute a →
    ∃ t, exec i s = .next t ∧ Takes s .storeAccess (.next t) ∧ t.ms = s.ms

/-- Rule R241: `CBO.ZERO` with an address of its block that lacks joint write permission, for the PMP or the PMAs deny a
write or the address is vacant (rules R60, R236), takes a store/AMO access fault and writes nothing, no byte and no copy.
-/
def Obligations.ZeroNeedsFullJointWrite : Prop :=
  ∀ (s : State) (rs1 : RegIdx) (level : Level) (tr : Xlate) (a : Nat),
    illegalCbwe s.csr s.mode = false →
    triggerHit s TriggerClass.zero (effectiveAddress s rs1) = none →
    translate s .zero false (effMode s) (effectiveAddress s rs1) = .ok tr →
    pmaConstraint s.cfg tr.pa = true →
    a ∈ blockAddresses s.cfg tr.pa → JointDenied s (effMode s) .write a →
    ∃ t, exec (.cboZero rs1 level) s = .next t ∧ Takes s .storeAccess (.next t) ∧ t.ms = s.ms

/-- `MXR` in `mstatus` and in `vsstatus` changes nothing of a CMO instruction: with the two bits at any values, it ends
in the same state but for the bits themselves, or stops in the same way (rule R230). -/
def Obligations.MxrHasNoEffect : Prop :=
  ∀ (s : State) (i : Instr) (a b : Bool),
    let put := fun (u : State) =>
      { u with csr := { u.csr with mstatus := setBit u.csr.mstatus 19 a, vsstatus := setBit u.csr.vsstatus 19 b } }
    (∀ t, exec i s = .next t → exec i (put s) = .next (put t)) ∧
    (∀ r, exec i s = .refused r → exec i (put s) = .refused r)

/-! ### `CBO.INVAL` -/

/-- Rule R244's table: where the ordinary requirements are met, the `INVWxE` bits (9 and 11) that `Wx` selects deny a
`CBO.INVAL` first by a store/AMO page fault, then by a guest-page fault, then by an access fault; a mechanism that is
Bare denies nothing, and effective M-mode is never denied (rules R243, R244, R245; `Wx` of `mcmocontrol` is D8's
reading). -/
def Obligations.InvalDeniedByInvwe : Prop :=
  ∀ (s : State) (rs1 : RegIdx) (poc : Poc) (tr : Xlate),
    illegalCbme s.csr s.mode = false →
    triggerHit s TriggerClass.management (effectiveAddress s rs1) = none →
    translate s .management false (effMode s) (effectiveAddress s rs1) = .ok tr →
    pmaConstraint s.cfg tr.pa = true → allJointRorX s (effMode s) tr.pa = true →
    let pass := fun (r : Word) (w : Option Bool) =>
      match w with
      | none => true
      | some true => r.getLsbD 11
      | some false => r.getLsbD 9
    let m := pass s.csr.mcmocontrol (some (someJointW s (effMode s) tr.pa))
    let sc := pass s.csr.scmocontrol tr.wS
    let h := pass s.csr.hcmocontrol tr.wG
    let vs := pass s.csr.vscmocontrol tr.wVS
    let r := exec (.cboInval rs1 poc) s
    let completes := ∃ t, r = .next t ∧ t.pc = nextPc s ∧ SameHart s t
    match effMode s with
    | .m => completes
    | .s => (m = false → Takes s .storeAccess r) ∧ (m = true → completes)
    | .u =>
      (sc = false → Takes s .storePage r) ∧ (sc = true → m = false → Takes s .storeAccess r) ∧
        (sc = true → m = true → completes)
    | .vs =>
      (h = false → Takes s .storeGuestPage r) ∧ (h = true → m = false → Takes s .storeAccess r) ∧
        (h = true → m = true → completes)
    | .vu =>
      (vs = false → Takes s .storePage r) ∧ (vs = true → h = false → Takes s .storeGuestPage r) ∧
        (vs = true → h = true → m = false → Takes s .storeAccess r) ∧
        (vs = true → h = true → m = true → completes)

/-- Rules R154, R155: the operation a `CBO.INVAL` that meets its checks performs, by the effective mode and the `INVWxI`
bits (8 and 10). One that performs a flush is in every respect `CBO.FLUSH` (rule R153; `Wx` of `mcmocontrol` is D8's
reading). -/
def Obligations.InvalOperationByInvwi : Prop :=
  ∀ (s : State) (rs1 : RegIdx) (poc : Poc) (tr : Xlate),
    illegalCbme s.csr s.mode = false →
    triggerHit s TriggerClass.management (effectiveAddress s rs1) = none →
    translate s .management true (effMode s) (effectiveAddress s rs1) = .ok tr →
    pmaConstraint s.cfg tr.pa = true → allJointRorX s (effMode s) tr.pa = true →
    effMode s = .m ∨ invalPass s.csr.mcmocontrol (some (someJointW s (effMode s) tr.pa)) = true →
    let keep := fun (r : Word) (w : Option Bool) =>
      match w with
      | none => r.getLsbD 8 && r.getLsbD 10
      | some true => r.getLsbD 10
      | some false => r.getLsbD 8
    let m := keep s.csr.mcmocontrol (some (someJointW s (effMode s) tr.pa))
    let invalidates := match effMode s with
      | .m => true
      | .s => m
      | .u => keep s.csr.scmocontrol tr.wS && m
      | .vs => keep s.csr.hcmocontrol tr.wG && m
      | .vu => keep s.csr.vscmocontrol tr.wVS && keep s.csr.hcmocontrol tr.wG && m
    (invalidates = true → exec (.cboInval rs1 poc) s =
      .next (retire (performManagement (writePtes s tr.pteWrites) .invalidate tr.memType tr.pa poc))) ∧
    (invalidates = false → exec (.cboInval rs1 poc) s = exec (.cboFlush rs1 poc) s)

/-! ### Completion and frame of each instruction -/

/-- `CBO.CLEAN` and `CBO.FLUSH` complete where they are legal, translated and permitted (rules R157, R158, R159): the
clean or flush of the block in the caches of `CacheSet(hart, pa, poc)`, on the state left by the page-table writes of a
hart that updates `A` and `D`; every register, control register, PMP entry and trigger stays, and memory and caches
change at the block and at those page-table entries alone. Two clauses are the model's: the page-table writes are log
entry 31's (D33), and that a reservation on another block stands is log entry 32's (DESIGN CHOICE). -/
def Obligations.CleanAndFlushComplete : Prop :=
  ∀ (s : State) (rs1 : RegIdx) (poc : Poc) (i : Instr) (op : CacheOp) (tr : Xlate), s.Inv →
    (i = .cboClean rs1 poc ∧ op = .clean) ∨ (i = .cboFlush rs1 poc ∧ op = .flush) →
    illegalCbme s.csr s.mode = false →
    triggerHit s TriggerClass.management (effectiveAddress s rs1) = none →
    translate s .management false (effMode s) (effectiveAddress s rs1) = .ok tr →
    pmaConstraint s.cfg tr.pa = true → allJointRorX s (effMode s) tr.pa = true →
    ∃ t, exec i s = .next t ∧ t.pc = nextPc s ∧ SameHart s t ∧ ReservationKept s t tr.pa ∧
      t.ms = MemSys.manageAt s.cfg s.tick op (hartAccess .management tr.memType) tr.pa poc
        (writePtes s tr.pteWrites).latest (writePtes s tr.pteWrites).ms ∧
      t.unspecified = (writePtes s tr.pteWrites).unspecified ∧
      MemSys.AgreeBut s.cfg (pteWriteAddresses tr.pteWrites ++ blockAddresses s.cfg tr.pa) s.ms t.ms

/-- `CBO.INVAL` completes where it is legal, translated, permitted and let on by the `INVWxE` bits (rules R153, R159):
an invalidate or a flush of the block, with the same frame; after an invalidate the loads of every byte of the block are
UNSPECIFIED until a store (rule R95). `Wx` of `mcmocontrol`, some byte of the block writable, which lets it on and
selects its operation, is D8's reading of rule R238 (log entry 36, DEDUCED). Two clauses are the model's: the page-table
writes are log entry 31's (D33), and that a reservation on another block stands is log entry 32's (DESIGN CHOICE). -/
def Obligations.InvalCompletes : Prop :=
  ∀ (s : State) (rs1 : RegIdx) (poc : Poc) (tr : Xlate), s.Inv →
    illegalCbme s.csr s.mode = false →
    triggerHit s TriggerClass.management (effectiveAddress s rs1) = none →
    translate s .management true (effMode s) (effectiveAddress s rs1) = .ok tr →
    pmaConstraint s.cfg tr.pa = true → allJointRorX s (effMode s) tr.pa = true →
    effMode s = .m ∨ invalPass s.csr.mcmocontrol (some (someJointW s (effMode s) tr.pa)) = true →
    let op := managementOp s .inval (effMode s) tr
    ∃ t, exec (.cboInval rs1 poc) s = .next t ∧ t.pc = nextPc s ∧ SameHart s t ∧ ReservationKept s t tr.pa ∧
      t.ms = MemSys.manageAt s.cfg s.tick op (hartAccess .management tr.memType) tr.pa poc
        (writePtes s tr.pteWrites).latest (writePtes s tr.pteWrites).ms ∧
      (∀ a, a ∈ t.unspecified ↔
        (op = .invalidate ∧ a ∈ blockAddresses s.cfg tr.pa) ∨ a ∈ (writePtes s tr.pteWrites).unspecified) ∧
      MemSys.AgreeBut s.cfg (pteWriteAddresses tr.pteWrites ++ blockAddresses s.cfg tr.pa) s.ms t.ms

/-- `CBO.ZERO` completes where it is legal, translated and fully permitted, on a block of cacheable main memory (rules
R173, R174): the hart's loads of every byte of the block then return zero, and so does every access that reaches the
same domains; none of the bytes is UNSPECIFIED any more; the frame is that of rules R21 and R23. On other blocks it is
refused by name (rule R175, D25). Two clauses are the model's: the page-table writes are log entry 31's (D33), and that
a reservation on another block stands is log entry 32's (DESIGN CHOICE). -/
def Obligations.ZeroCompletes : Prop :=
  ∀ (s : State) (rs1 : RegIdx) (level : Level) (tr : Xlate), s.Inv →
    illegalCbwe s.csr s.mode = false →
    triggerHit s TriggerClass.zero (effectiveAddress s rs1) = none →
    translate s .zero false (effMode s) (effectiveAddress s rs1) = .ok tr →
    pmaConstraint s.cfg tr.pa = true → fullJointW s (effMode s) tr.pa = true →
    (zeroable s.cfg tr.memType tr.pa = true →
      ∃ t, exec (.cboZero rs1 level) s = .next t ∧ t.pc = nextPc s ∧ SameHart s t ∧ ReservationKept s t tr.pa ∧
        (∀ a ∈ blockAddresses s.cfg tr.pa, a ∉ t.unspecified ∧ hartLoadByte t tr.memType a = 0#8 ∧
          ∀ acc, hopsOf s.cfg acc (blockBase s.cfg tr.pa) =
              hopsOf s.cfg (hartAccess .zero tr.memType) (blockBase s.cfg tr.pa) →
            MemSys.readByte s.cfg t.ms acc a = 0#8) ∧
        MemSys.AgreeBut s.cfg (pteWriteAddresses tr.pteWrites ++ blockAddresses s.cfg tr.pa) s.ms t.ms) ∧
    (zeroable s.cfg tr.memType tr.pa = false → exec (.cboZero rs1 level) s = .refused .zeroOnDeviceOrUncacheable)

/-- Rule R219 with rules R183, R227, R242: a hint completes in every mode, with every translation, permission and value
of the `xcmocontrol` registers (nothing depends on those), where no trigger fires on it, as none does where hints are
neither loads nor stores to triggers and are converted to NOPs (rule R210, I23) or no trigger is one that rules R248 and
R250 leave UNSPECIFIED; it writes no register and no byte outside its block, and a prefetch no byte of memory at all.
The bound to one block is D17's with log entry 39; that a reservation on another block stands is log entry 32's (DESIGN
CHOICE). -/
def Obligations.HintsComplete : Prop :=
  ∀ (s : State) (rs1 : RegIdx) (level : Level) (i : Instr), s.Inv →
    i = .prefetchR rs1 level ∨ i = .prefetchW rs1 level ∨ i = .prefetchI rs1 level ∨ i = .demote rs1 level →
    (s.cfg.hintTrigger = .neither ∧ (s.cfg.hintAction = .no ∨
        ∀ t ∈ s.triggers, triggerUnspecified s.cfg.xlen t (TriggerClass.hint s.cfg) = false)) ∨
      triggerHit s (TriggerClass.hint s.cfg) (effectiveAddress s rs1) = none →
    ∃ t, exec i s = .next t ∧ t.pc = nextPc s ∧ SameHart s t ∧ t.unspecified = s.unspecified ∧
      (t.ms = s.ms ∧ t.reservation = s.reservation ∨
        ∃ tr, translate s .hint false (effMode s) (effectiveAddress s rs1) = .ok tr ∧
          ReservationKept s t tr.pa ∧ MemSys.AgreeBut s.cfg (blockAddresses s.cfg tr.pa) s.ms t.ms ∧
          (i ≠ .demote rs1 level → t.ms.mem = s.ms.mem)) ∧
      ∀ m sc h vs : Word,
        let put := fun (u : State) =>
          { u with csr := { u.csr with mcmocontrol := m, scmocontrol := sc, hcmocontrol := h, vscmocontrol := vs } }
        exec i (put s) = .next (put t)

/-- A hint that lacks a translation, or joint read and joint execute permission of an address of its block, which needs
both the PMP and the PMAs and which no vacant address has (rules R60, R236), "retires without accessing memory": nothing
changes but the program counter and the counter of the free values (rules R227, R242). -/
def Obligations.HintWithoutPermissionDoesNothing : Prop :=
  ∀ (s : State) (rs1 : RegIdx) (level : Level) (i : Instr),
    i = .prefetchR rs1 level ∨ i = .prefetchW rs1 level ∨ i = .prefetchI rs1 level ∨ i = .demote rs1 level →
    triggerHit s (TriggerClass.hint s.cfg) (effectiveAddress s rs1) = none →
    (∃ e, translate s .hint false (effMode s) (effectiveAddress s rs1) = .error e) ∨
      (∃ tr a, translate s .hint false (effMode s) (effectiveAddress s rs1) = .ok tr ∧
        a ∈ blockAddresses s.cfg tr.pa ∧ JointDenied s (effMode s) .read a ∧
        JointDenied s (effMode s) .execute a) →
    exec i s = .next { s with pc := nextPc s, tick := s.tick + 1 }

/-- A prefetch changes no byte a load of the hart returns, through a page of whatever memory type, and no byte of the
accesses it speaks of: an allocation brings the block from beyond the cache, or is not made (rules R65, R75, R94, R183 to
R186; the bound is D17's with log entry 39). -/
def Obligations.PrefetchKeepsReads : Prop :=
  ∀ (s t : State) (rs1 : RegIdx) (level : Level) (kind : AccessKind) (i : Instr) (a : Nat), s.Inv →
    (i = .prefetchR rs1 level ∧ kind = .load) ∨ (i = .prefetchW rs1 level ∧ kind = .store) ∨
      (i = .prefetchI rs1 level ∧ kind = (if s.cfg.prefetchISameCache then .load else .fetch)) →
    triggerHit s (TriggerClass.hint s.cfg) (effectiveAddress s rs1) = none →
    exec i s = .next t →
    (∀ memType ∈ memTypesOf s.cfg, MemSys.readByte s.cfg t.ms (hartAccess .load memType) a =
      MemSys.readByte s.cfg s.ms (hartAccess .load memType) a) ∧
    ∀ tr, translate s .hint false (effMode s) (effectiveAddress s rs1) = .ok tr →
      MemSys.readByte s.cfg t.ms (hartAccess kind tr.memType) a =
        MemSys.readByte s.cfg s.ms (hartAccess kind tr.memType) a

/-- `DEMOTE` never loses data: where one cache alone holds its block Modified, that copy is still where it was, or its
bytes are in memory, or a cache holds them Modified; and where it has left its cache, every load of the hart returns
what it did (rules R66, R183, R187). That a cache takes it as Modified only where it tracks that state, and its bytes go
to memory where not, is log entry 16's (DEDUCED), the bound on loads log entry 39's (DESIGN CHOICE). -/
def Obligations.DemoteLosesNoData : Prop :=
  ∀ (s t : State) (rs1 : RegIdx) (level : Level) (tr : Xlate) (cache : Nat) (c : Copy), s.Inv →
    triggerHit s (TriggerClass.hint s.cfg) (effectiveAddress s rs1) = none →
    translate s .hint false (effMode s) (effectiveAddress s rs1) = .ok tr →
    let b := blockBase s.cfg tr.pa
    s.ms.copyAt cache b = some c → c.modified = true → (∀ c', s.ms.isModified c' b = true → c' = cache) →
    exec (.demote rs1 level) s = .next t →
    t.ms.copyAt cache b = some c ∨
      ((Memory.readBytes t.ms.mem b (blockSize s.cfg) = c.data ∨
          ∃ cache', t.ms.copyAt cache' b = some { block := b, modified := true, data := c.data }) ∧
        ∀ memType ∈ memTypesOf s.cfg, ∀ a, MemSys.readByte s.cfg t.ms (hartAccess .load memType) a =
          MemSys.readByte s.cfg s.ms (hartAccess .load memType) a)

/-- `level` changes nothing where it is not honoured: a hint does the same at every level, and so does a legal `CBO.ZERO`
(rules R172, R182). -/
def Obligations.LevelIsIgnored : Prop :=
  ∀ (s : State) (rs1 : RegIdx) (l l' : Level), s.cfg.levelHonoured = false →
    exec (.prefetchR rs1 l) s = exec (.prefetchR rs1 l') s ∧ exec (.prefetchW rs1 l) s = exec (.prefetchW rs1 l') s ∧
    exec (.prefetchI rs1 l) s = exec (.prefetchI rs1 l') s ∧ exec (.demote rs1 l) s = exec (.demote rs1 l') s ∧
    (illegalCbwe s.csr s.mode = false → exec (.cboZero rs1 l) s = exec (.cboZero rs1 l') s)

/-! ### Cache blocks -/

/-- Rule R90: the block of an address is the `B` addresses from its base, and its base is a multiple of `B`; two
addresses have one block exactly when they have one base. -/
def Obligations.BlockArithmetic : Prop :=
  ∀ (cfg : Config) (a a' : Nat),
    blockBase cfg a % blockSize cfg = 0 ∧
    (a' ∈ blockAddresses cfg a ↔ blockBase cfg a ≤ a' ∧ a' < blockBase cfg a + blockSize cfg) ∧
    (a' ∈ blockAddresses cfg a ↔ blockBase cfg a' = blockBase cfg a) ∧ a ∈ blockAddresses cfg a

/-- The caches of a management instruction are those the access reaches directly in the domains up to and including
PoC-memory and, where hardware enforces coherence on the address, those it reaches indirectly there (rule R151). That the
path and the coherence PMA are those of the block's base address is log entry 17's. -/
def Obligations.CacheSetOfAnAgent : Prop :=
  ∀ (cfg : Config) (acc : Access) (pa c : Nat),
    c ∈ cacheSet cfg acc pa .memory ↔
      ∃ h ∈ (pathOf cfg acc (blockBase cfg pa)).toPoc,
        c ∈ h.direct ∨ (hardwareCoherent cfg (blockBase cfg pa) = true ∧ c ∈ h.indirect)

/-- Rule R71: an invalidate leaves the block Invalid in every cache of the set, changes nothing where none held it, and
may transfer a modified block or drop it (both are values of the parameter `invalTransfers`), or transfer the block to
another cache (`cacheTransfers`), which hides none of the latest stores `bound` (log entry 19); with nothing beyond
PoC-memory, memory then holds its old bytes or those of a Modified copy, and no other cache changes. Where a transferred
block ends up, and that one Modified copy is chosen, is rule R152 (c), the spec's own decision D20, with log entry 18
(DESIGN CHOICE). -/
def Obligations.InvalidateOperation : Prop :=
  ∀ (cfg : Config) (ms : MemSys) (tick : Nat) (acc : Access) (pa : Nat) (poc : Poc) (bound : List LatestByte),
    ms.wf cfg = true →
    let b := blockBase cfg pa
    let set := cacheSet cfg acc pa poc
    let ms' := MemSys.manageAt cfg tick .invalidate acc pa poc bound ms
    (∀ c ∈ set, ms'.copyAt c b = none) ∧
    ((∀ c ∈ set, ms.copyAt c b = none) → ms' = ms) ∧
    (cfg.invalTransfers = .no → ms'.mem = ms.mem) ∧
    ((pathOf cfg acc b).beyondPoc = [] →
      (∀ c ∉ set, ms'.copyAt c b = ms.copyAt c b ∨
        (cfg.cacheTransfers ≠ .no ∧ ms.copyAt c b = none ∧
          ∃ new, ms'.copyAt c b = some new ∧
            ∃ c' ∈ set, ∃ copy, ms.copyAt c' b = some copy ∧ new.data = copy.data)) ∧
      (ms'.mem = ms.mem ∨ ∃ c ∈ set, ∃ copy, ms.copyAt c b = some copy ∧ copy.modified = true ∧
        Memory.readBytes ms'.mem b (blockSize cfg) = copy.data) ∧
      (cfg.invalTransfers = .yes → (∃ c ∈ set, ms.isModified c b = true) →
        ∃ c ∈ set, ∃ copy, ms.copyAt c b = some copy ∧ copy.modified = true ∧
          Memory.readBytes ms'.mem b (blockSize cfg) = copy.data))

/-- Rule R72: a clean leaves the block Modified in no cache of the set, valid or Invalid where it was valid (the
parameter `cleanInvalidates` allows both), Invalid where it was Invalid, and changes nothing where none held it; a copy
left valid holds its own old bytes where none was Modified; a modified block is transferred, and an unmodified one may
be, to another cache (`cacheTransfers`, log entry 19). That it goes to memory, where nothing lies beyond PoC-memory,
that one Modified copy is chosen, and that the copies left valid then hold its bytes, which memory holds, is rule R152
(a), the spec's own decision D20, with log entry 18 (DESIGN CHOICE). -/
def Obligations.CleanOperation : Prop :=
  ∀ (cfg : Config) (ms : MemSys) (tick : Nat) (acc : Access) (pa : Nat) (poc : Poc) (bound : List LatestByte),
    ms.wf cfg = true →
    let b := blockBase cfg pa
    let set := cacheSet cfg acc pa poc
    let ms' := MemSys.manageAt cfg tick .clean acc pa poc bound ms
    (∀ c ∈ set, ms'.isModified c b = false) ∧
    (∀ c ∈ set, ms.copyAt c b = none → ms'.copyAt c b = none) ∧
    (∀ c ∈ set, ms.copyAt c b ≠ none → cfg.cleanInvalidates = .no → ms'.copyAt c b ≠ none) ∧
    (∀ c ∈ set, cfg.cleanInvalidates = .yes → ms'.copyAt c b = none) ∧
    ((∀ c ∈ set, ms.copyAt c b = none) → ms' = ms) ∧
    (∀ c ∈ set, ∀ kept, ms'.copyAt c b = some kept → ∃ old, ms.copyAt c b = some old ∧
      ((∀ c' ∈ set, ms.isModified c' b = false) → kept.data = old.data) ∧
      ((pathOf cfg acc b).beyondPoc = [] → (∃ c' ∈ set, ms.isModified c' b = true) →
        kept.data = Memory.readBytes ms'.mem b (blockSize cfg))) ∧
    ((pathOf cfg acc b).beyondPoc = [] →
      (∀ c ∉ set, ms'.copyAt c b = ms.copyAt c b ∨
        (cfg.cacheTransfers ≠ .no ∧ ms.copyAt c b = none ∧
          ∃ new, ms'.copyAt c b = some new ∧ new.modified = false ∧
            ∃ c' ∈ set, ∃ copy, ms.copyAt c' b = some copy ∧ new.data = copy.data)) ∧
      ((∃ c ∈ set, ms.isModified c b = true) →
        ∃ c ∈ set, ∃ copy, ms.copyAt c b = some copy ∧ copy.modified = true ∧
          Memory.readBytes ms'.mem b (blockSize cfg) = copy.data))

/-- Rule R73: a flush leaves the block Invalid in every cache of the set and changes nothing where none held it; a
modified block is transferred, and an unmodified one may be, to another cache (`cacheTransfers`, log entry 19). That it
goes to memory, where nothing lies beyond PoC-memory, and that one Modified copy is chosen, is rule R152 (a), the spec's
own decision D20, with log entry 18 (DESIGN CHOICE). -/
def Obligations.FlushOperation : Prop :=
  ∀ (cfg : Config) (ms : MemSys) (tick : Nat) (acc : Access) (pa : Nat) (poc : Poc) (bound : List LatestByte),
    ms.wf cfg = true →
    let b := blockBase cfg pa
    let set := cacheSet cfg acc pa poc
    let ms' := MemSys.manageAt cfg tick .flush acc pa poc bound ms
    (∀ c ∈ set, ms'.copyAt c b = none) ∧
    ((∀ c ∈ set, ms.copyAt c b = none) → ms' = ms) ∧
    ((pathOf cfg acc b).beyondPoc = [] →
      (∀ c ∉ set, ms'.copyAt c b = ms.copyAt c b ∨
        (cfg.cacheTransfers ≠ .no ∧ ms.copyAt c b = none ∧
          ∃ new, ms'.copyAt c b = some new ∧ new.modified = false ∧
            ∃ c' ∈ set, ∃ copy, ms.copyAt c' b = some copy ∧ new.data = copy.data)) ∧
      ((∃ c ∈ set, ms.isModified c b = true) →
        ∃ c ∈ set, ∃ copy, ms.copyAt c b = some copy ∧ copy.modified = true ∧
          Memory.readBytes ms'.mem b (blockSize cfg) = copy.data))

/-- No operation and no deallocation writes an unmodified block to memory, and a deallocated modified block is in memory
or in another cache, as Modified. An unmodified block may be dropped and may not go to memory, a modified one may go to
memory, to any other cache, or outward along the domains to memory, and may not be dropped (rules R66, R67;
`90_conflicts.md` C9). That a cache that does not track the modified state takes it as Unmodified while its bytes go to
memory too is log entry 16's (DEDUCED). -/
def Obligations.OnlyModifiedBlocksReachMemory : Prop :=
  ∀ (cfg : Config) (ms : MemSys) (tick : Nat) (acc : Access) (pa cache : Nat) (op : CacheOp) (poc : Poc)
      (bound : List LatestByte) (destination : Destination) (c : Copy), ms.wf cfg = true →
    let b := blockBase cfg pa
    let after := MemSys.deallocate cfg cache b destination ms
    ((∀ c ∈ cacheSet cfg acc pa poc, ms.isModified c b = false) →
      (MemSys.manageAt cfg tick op acc pa poc bound ms).mem = ms.mem) ∧
    (ms.copyAt cache b = some c →
      (c.modified = false → ms.mayDeallocate cfg cache b .dropped = true ∧
        ms.mayDeallocate cfg cache b .memory = false ∧ ms.mayDeallocate cfg cache b .outward = false) ∧
      (c.modified = true → ms.mayDeallocate cfg cache b .dropped = false ∧
        ms.mayDeallocate cfg cache b .memory = true ∧ ms.mayDeallocate cfg cache b .outward = true ∧
        ∀ d < cfg.caches.length, d ≠ cache → mayBeCached cfg b = true →
          ms.mayDeallocate cfg cache b (.cache d) = true) ∧
      (ms.mayDeallocate cfg cache b destination = true →
        after.copyAt cache b = none ∧
        (c.modified = false → after.mem = ms.mem) ∧
        (c.modified = true → Memory.readBytes after.mem b (blockSize cfg) = c.data ∨
          ∃ cache', after.copyAt cache' b = some { block := b, modified := true, data := c.data })))

/-- Rule R65: an allocation brings the block from the source named, memory or any cache that holds it; the copy is
Modified only where the cache tracks that state and a modified block is transferred as modified; memory and every other
copy stay. Any cache may allocate a block of memory that can be cached, where it does not hold it ("to the extent
allowed by the base and privileged architectures", which is log entry 45's). -/
def Obligations.AllocationBringsTheSource : Prop :=
  ∀ (cfg : Config) (ms : MemSys) (cache b : Nat) (source : Option Nat) (asModified : Bool), ms.wf cfg = true →
    let after := MemSys.allocate cfg cache b source asModified ms
    (cache < cfg.caches.length → ms.copyAt cache b = none → mayBeCached cfg b = true → b % blockSize cfg = 0 →
      ms.mayAllocate cfg cache b none = true ∧
        ∀ c copy, ms.copyAt c b = some copy → ms.mayAllocate cfg cache b (some c) = true) ∧
    (ms.mayAllocate cfg cache b source = true →
      ms.copyAt cache b = none ∧ after.mem = ms.mem ∧
      (∀ c b', c ≠ cache ∨ b' ≠ b → after.copyAt c b' = ms.copyAt c b') ∧
      ∃ new, after.copyAt cache b = some new ∧
        (source = none → new.modified = false ∧ new.data = Memory.readBytes ms.mem b (blockSize cfg)) ∧
        ∀ c, source = some c → ∃ copy, ms.copyAt c b = some copy ∧ new.data = copy.data ∧
          new.modified = (asModified && tracks cfg cache && copy.modified))

/-- A data write, whether or not it changes the byte, makes the block Modified in each cache that holds it, tracks the
modified state and is reached (rules R68, R69). That the copies an access reaches indirectly are written too and stay
valid, and that the write is done once a domain holds the block where that state is tracked, is log entry 20's
(DEDUCED). -/
def Obligations.DataWriteMakesModified : Prop :=
  ∀ (cfg : Config) (ms : MemSys) (tick : Nat) (acc : Access) (pa : Nat) (v : Byte) (before after : List Hop) (h : Hop)
      (cache : Nat) (c : Copy),
    ms.wf cfg = true →
    let b := blockBase cfg pa
    let coherent := hardwareCoherent cfg b
    hopsOf cfg acc b = before ++ h :: after →
    (∀ h' ∈ before, ms.absorbs cfg (hopCaches coherent h') b = false) →
    cache ∈ hopCaches coherent h → tracks cfg cache = true → ms.copyAt cache b = some c →
    (MemSys.writeByte cfg tick acc pa v ms).copyAt cache b =
      some { block := b, modified := true, data := c.data.set (pa % blockSize cfg) v }

/-- Rule R70: in a cache that does not track the modified state a data write updates the copy or makes it Invalid, and
the write reaches a cache that tracks it or memory. -/
def Obligations.UntrackedWriteGoesOn : Prop :=
  ∀ (cfg : Config) (ms : MemSys) (tick : Nat) (acc : Access) (pa : Nat) (v : Byte), ms.wf cfg = true →
    let b := blockBase cfg pa
    let coherent := hardwareCoherent cfg b
    let ms' := MemSys.writeByte cfg tick acc pa v ms
    (∀ (before after : List Hop) (h : Hop) (cache : Nat) (c : Copy),
      hopsOf cfg acc b = before ++ h :: after →
      (∀ h' ∈ before, ms.absorbs cfg (hopCaches coherent h') b = false) →
      cache ∈ hopCaches coherent h → tracks cfg cache = false → ms.copyAt cache b = some c →
      ms'.copyAt cache b = none ∨
        ms'.copyAt cache b = some { c with data := c.data.set (pa % blockSize cfg) v }) ∧
    (Memory.read ms'.mem pa = v ∨
      ∃ cache copy, tracks cfg cache = true ∧ ms'.copyAt cache b = some copy ∧ copy.modified = true ∧
        copy.data.getD (pa % blockSize cfg) 0#8 = v)

/-- An agent reads what it wrote, along a path through the same domains (rules R68 to R70, R81); in a well-formed
configuration that is the path of every load, store and `CBO.ZERO` of the agent through a page of one memory type (the
Load Value Axiom, rule R99, asks for it: log entry 34). -/
def Obligations.ReadAfterWrite : Prop :=
  ∀ (cfg : Config) (ms : MemSys) (tick : Nat) (acc acc' : Access) (pa : Nat) (v : Byte), ms.wf cfg = true →
    hopsOf cfg acc' (blockBase cfg pa) = hopsOf cfg acc (blockBase cfg pa) ∨
      (cfg.wf = true ∧ acc'.agent = acc.agent ∧ acc'.memType = acc.memType ∧
        acc.kind ∈ [AccessKind.load, .store, .zero] ∧ acc'.kind ∈ [AccessKind.load, .store, .zero]) →
    MemSys.readByte cfg (MemSys.writeByte cfg tick acc pa v ms) acc' pa = v

/-- Rule R95: a load of a byte an invalidate operated on with no store since gives a free value (the draw is D18's); a
store to a byte ends that for it and for no other. -/
def Obligations.LoadAfterInvalidateIsFree : Prop :=
  ∀ (s : State) (memType : Nat), s.Inv →
    (∀ a ∈ s.unspecified, s.cfg.loadAfterInvalDrawn = true →
      hartLoadByte s memType a = Config.freeByte s.tick (.loadByte a)) ∧
    (∀ a, a ∉ s.unspecified →
      hartLoadByte s memType a = MemSys.readByte s.cfg s.ms (hartAccess .load memType) a) ∧
    (∀ (kind : AccessKind) (pa : Nat) (bs : List Byte) (a : Nat),
      a ∈ (hartWrite s kind memType pa bs).unspecified ↔ a ∈ s.unspecified ∧ ¬ (pa ≤ a ∧ a < pa + bs.length))

/-- The Load Value Axiom of one hart and of the agents of its domain (rules R99, R100; RVWMO is general knowledge): what
the hart stores, its loads through a page of the same memory type return, whatever block boundaries the store crosses,
and they must from then on; so with the store of another agent that has its place in the order of those loads. No store
but a later one in that order, no clean or flush, no hint, no allocation of the hart's own load or store and no move of
a cache takes a latest store from the accesses that must return it (an invalidate may: rules R71, R95): what another
domain modified, and a store, a clean, a flush or a move brings where they look, they may return besides (rule R80); but
a clean or a flush brings nothing to an access whose path is that of its own access, however many Modified copies it
meets (rules R99, R152 (a)). A cache may deallocate a block at any time for all that (rule R66): drop it unmodified, or
send it modified along the domains to memory. And what is Modified off the path of the loads, so that a move may bring
it, another domain wrote: no management operation, no store or `CBO.ZERO` of the hart through a page of that memory
type, no `FENCE.I`, no hint and no move of a cache makes a block Modified there. What the latest stores are, what may be
returned besides, and which moves the architecture allows a cache is log entry 45's (DEDUCED). -/
def Obligations.LatestStoresAreRead : Prop :=
  (∀ s : State, s.Inv → ∀ e ∈ s.latest, MemSys.readByte s.cfg s.ms e.access e.address ∈ e.values) ∧
  (∀ (s : State) (kind : AccessKind) (memType pa : Nat) (bs : List Byte), s.Inv →
    (kind = .store ∨ kind = .zero → memType ∈ memTypesOf s.cfg → ∀ i (h : i < bs.length),
      hartLoadByte (hartWrite s kind memType pa bs) memType (pa + i) = bs[i] ∧
        { address := pa + i, kind := .load, memType := memType, values := [bs[i]] } ∈
          (hartWrite s kind memType pa bs).latest) ∧
    ∀ e ∈ s.latest, supersedes s (hartAccess kind memType) pa bs.length e = false →
      e.bring (bytesBring pa bs e) ∈ (hartWrite s kind memType pa bs).latest) ∧
  (∀ (s : State) (acc : Access) (pa : Nat) (bs : List Byte), s.Inv →
    (∀ memType ∈ memTypesOf s.cfg, ∀ i (h : i < bs.length), ordered s acc (pa + i) memType = true →
      { address := pa + i, kind := .load, memType := memType, values := [bs[i]] } ∈ (agentStore s acc pa bs).latest) ∧
    ∀ e ∈ s.latest, supersedes s acc pa bs.length e = false →
      e.bring (bytesBring pa bs e) ∈ (agentStore s acc pa bs).latest) ∧
  (∀ (s : State) (op : CacheOp) (acc : Access) (pa : Nat) (poc : Poc), s.Inv → op ≠ .invalidate → ∀ e ∈ s.latest,
    e.bring (whereNeeded s.cfg (manageBlock s op acc pa poc).ms
      (blockBrings s.cfg (blockBase s.cfg pa) (s.ms.transferredAt s.cfg s.tick op acc pa poc s.latest)) e) ∈
        (manageBlock s op acc pa poc).latest ∧
    (blockBase s.cfg e.address ≠ blockBase s.cfg pa ∨ entersTogether s.cfg acc e.access (blockBase s.cfg pa) →
      e ∈ (manageBlock s op acc pa poc).latest)) ∧
  (∀ (s : State) (kind : AccessKind) (memType pa : Nat) (cache : Option Nat), s.Inv → ∀ e ∈ s.latest,
    e ∈ (allocateForLoad s memType pa).latest ∧ e ∈ (allocateForWrite s kind memType pa cache).latest ∧
    e.held s.cfg (allocateForLoad s memType pa).ms = true ∧
    e.held s.cfg (allocateForWrite s kind memType pa cache).ms = true) ∧
  (∀ (s t : State) (i : Instr) (rs1 : RegIdx) (level : Level),
    i = .prefetchR rs1 level ∨ i = .prefetchW rs1 level ∨ i = .prefetchI rs1 level ∨ i = .demote rs1 level →
    exec i s = .next t → ∀ e ∈ s.latest, e ∈ t.latest) ∧
  (∀ (s t : State) (m : Move) (rest : List Move) (b : Nat) (source : Option Nat), s.moves = m :: rest →
    (∃ cache asModified, m = .allocate cache b source asModified) ∨
      (∃ cache destination, m = .deallocate cache b destination ∧ source = some cache) →
    step s = .next t → ∀ e ∈ s.latest, e.bring (whereNeeded s.cfg t.ms (moveBrings s b source) e) ∈ t.latest) ∧
  (∀ (s : State) (rest : List Move) (cache b : Nat) (c : Copy), s.Inv → s.ms.copyAt cache b = some c →
    s.moves = .deallocate cache b (if c.modified then .outward else .dropped) :: rest →
    ∃ t, step s = .next t ∧ t.ms.copyAt cache b = none) ∧
  (∀ (s : State) (ms : MemSys) (memType b : Nat), s.Inv → memType ∈ memTypesOf s.cfg →
    ((∃ op acc pa poc, ms = (manageBlock s op acc pa poc).ms) ∨
      (∃ kind pa bs, (kind = .store ∨ kind = .zero) ∧ ms = (hartWrite s kind memType pa bs).ms) ∨
      (∃ t, execBase 0x0000100F#32 s = .next t ∧ ms = t.ms) ∨
      (∃ t i rs1 level,
        (i = .prefetchR rs1 level ∨ i = .prefetchW rs1 level ∨ i = .prefetchI rs1 level ∨ i = .demote rs1 level) ∧
          exec i s = .next t ∧ ms = t.ms) ∨
      (∃ t m rest, s.moves = m :: rest ∧
        ((∃ cache b source asModified, m = .allocate cache b source asModified) ∨
          (∃ cache b destination, m = .deallocate cache b destination)) ∧ step s = .next t ∧ ms = t.ms)) →
    ms.ModifiedOffLoads s.cfg memType b → s.ms.ModifiedOffLoads s.cfg memType b)

/-- `FENCE.I` (rule R103, D28; general knowledge): after it the hart's fetches read every byte as its loads do, through
pages of the same memory type. Each latest store its loads must return is one they still must return, and from then on
the fetches must return it too, whatever the caches do; what a write-back brings where they look they may return
besides, which where pages of every memory type have the same paths to its block is nothing. Which blocks leave which
caches for that, and how the fetches are bound, is log entry 22's (DESIGN CHOICE). -/
def Obligations.FenceMakesFetchesSeeStores : Prop :=
  ∀ s : State, s.Inv →
    ∃ t, execBase 0x0000100F#32 s = .next t ∧ SameHart s t ∧
      (∀ memType ∈ memTypesOf s.cfg, ∀ a, MemSys.readByte s.cfg t.ms (hartAccess .fetch memType) a =
        MemSys.readByte s.cfg t.ms (hartAccess .load memType) a) ∧
      ∀ e ∈ s.latest, e.kind = .load →
        ∃ e' ∈ t.latest, e'.address = e.address ∧ e'.kind = .load ∧ e'.memType = e.memType ∧
          (∀ v ∈ e.values, v ∈ e'.values) ∧ { e' with kind := .fetch } ∈ t.latest ∧
          MemSys.readByte s.cfg t.ms (hartAccess .fetch e.memType) e.address ∈ e'.values ∧
          ((∀ memType ∈ memTypesOf s.cfg, ∀ kind ∈ [AccessKind.load, .fetch],
              hopsOf s.cfg (hartAccess kind memType) (blockBase s.cfg e.address) =
                hopsOf s.cfg (hartAccess kind 0) (blockBase s.cfg e.address)) → e' = e)

/-! ### Exceptions -/

/-- Taking an exception writes the registers of the mode it goes to as rule R253 says, and goes to that mode's vector
(rules R253, R256; general knowledge). -/
def Obligations.TrapEntryWritesTheTrapRegisters : Prop :=
  ∀ (s : State) (t : Trap),
    (trapTarget s t.cause = .m → TrappedToM s (takeTrap s t) t) ∧
    (trapTarget s t.cause = .s → TrappedToS s (takeTrap s t) t) ∧
    (trapTarget s t.cause = .vs → TrappedToVS s (takeTrap s t) t)

/-- Which mode an exception goes to: M, unless `medeleg` delegates its cause from a lower mode, and VS where `hedeleg`
goes on to delegate it from a guest's mode (rule R256; general knowledge, D32), which it never does with the guest-page
fault (log entry 10, PRESUMED). The causes are those of CMO instructions: 2, 3, 7, 15 and 23. -/
def Obligations.DelegationByCause : Prop :=
  ∀ (s : State) (e : Exception),
    e ∈ [Exception.illegalInstruction, .breakpoint, .storeAccess, .storePage, .storeGuestPage] →
    trapTarget s e =
      (if s.mode = .m ∨ s.csr.medeleg.getLsbD e.code = false then Handler.m
       else if s.mode.isVirtual = true ∧ s.csr.hedeleg.getLsbD e.code = true ∧ e ≠ .storeGuestPage then .vs else .s)

/-- Exceptions are precise: one that a CMO instruction takes leaves memory, caches, integer registers, PMP, triggers, the
reservation, the four `xcmocontrol` registers and the page-table registers as they were (rules R211, R253; D16). That the
reservation stands is the model's choice, which no rule gives (DESIGN CHOICE, log entry 32). -/
def Obligations.ExceptionsArePrecise : Prop :=
  ∀ (s t : State) (e : Exception), Takes s e (.next t) →
    t.ms = s.ms ∧ t.x = s.x ∧ t.pmp = s.pmp ∧ t.triggers = s.triggers ∧ t.reservation = s.reservation ∧
    t.unspecified = s.unspecified ∧ t.latest = s.latest ∧ t.cfg = s.cfg ∧ t.moves = s.moves ∧
    t.csr.mcmocontrol = s.csr.mcmocontrol ∧ t.csr.scmocontrol = s.csr.scmocontrol ∧
    t.csr.hcmocontrol = s.csr.hcmocontrol ∧ t.csr.vscmocontrol = s.csr.vscmocontrol ∧
    t.csr.satp = s.csr.satp ∧ t.csr.vsatp = s.csr.vsatp ∧ t.csr.hgatp = s.csr.hgatp ∧
    t.csr.medeleg = s.csr.medeleg ∧ t.csr.hedeleg = s.csr.hedeleg ∧ t.csr.mtvec = s.csr.mtvec ∧
    t.csr.stvec = s.csr.stvec ∧ t.csr.vstvec = s.csr.vstvec ∧ t.csr.tselect = s.csr.tselect

/-- What a CMO instruction that takes an exception records (rule R252; D15): the effective address as `x[rs1]` holds it,
an address of its block, or zero; for an illegal instruction the instruction word or zero. Where the parameter
`TVAL_RULE` is `info` it is the first of these, where it is zero the last. -/
def Obligations.TrapValueIsInTheBlock : Prop :=
  ∀ (s t : State) (i : Instr) (op : CmoOp) (rs1 : RegIdx) (sel : Nat), s.cfg.wf = true →
    i.parts = some (op, rs1, sel) → exec i s = .next t →
    let ea := effectiveAddress s rs1
    (∃ s', SameHart s s' ∧ t = retire s') ∨
      ∃ trap, t = takeTrap s trap ∧
        (if trap.cause = .illegalInstruction then
          (trap.tval = wordTval s ∨ trap.tval = 0#64) ∧ (s.cfg.tval = .info → trap.tval = wordTval s)
        else
          (trap.tval = ea ∨ trap.tval = 0#64 ∨ blockBase s.cfg trap.tval.toNat = blockBase s.cfg ea.toNat) ∧
            (s.cfg.tval = .info → trap.tval = ea)) ∧
        (s.cfg.tval = .zero → trap.tval = 0#64)

/-- `MRET` after a trap to M-mode goes back: the mode, the program counter and `MIE` are those before the trap, and
`MPRV` is clear below M-mode (rules R253, R254; general knowledge). -/
def Obligations.ReturnAfterTrap : Prop :=
  ∀ (s : State) (t : Trap), s.modeLegal = true → instrAligned s.cfg s.pc = true → truncX s.cfg s.pc = s.pc →
    trapTarget s t.cause = .m →
    let r := returnFromM (takeTrap s t)
    r.mode = s.mode ∧ r.pc = s.pc ∧ r.csr.mstatus.getLsbD 3 = s.csr.mstatus.getLsbD 3 ∧
      (s.mode ≠ .m → r.csr.mstatus.getLsbD 17 = false) ∧ r.ms = s.ms ∧ r.x = s.x

/-! ### Triggers -/

/-- Rule R249: to a `type=6` trigger on load and store addresses that is enabled in the current mode and matches the
address, a management instruction is a load and a store, `CBO.ZERO` a store, and a hint both or neither; one that does not
match, or is not enabled in the mode, does not fire. A trigger that compares for equality matches the address in `tdata2`
and no other; the address compared is `x[rs1]`, which each instruction hands to the trigger module
(`TriggerBreaksBeforeTheOperation`). On a CMO instruction that is no NOP a `type=2` trigger on loads or stores, and a data
match of either type, fires or not by a free choice (rules R248, R250), whatever the class and the address (log entry 25,
DESIGN CHOICE); on hints that are converted to NOPs no trigger fires (rules R210, R251; I23). The bits of `tdata1` are
general knowledge, the mode-enable bits are compared with the current mode, also under `MPRV` (both log entry 7). -/
def Obligations.TriggerClassOfCmoInstructions : Prop :=
  ∀ (s : State) (index : Nat) (t : Trigger) (ea : Word),
    let classes := [TriggerClass.management, TriggerClass.zero, TriggerClass.hint s.cfg]
    let type := triggerType s.cfg.xlen t
    let enabled := match s.mode with
      | .m => t.tdata1.getLsbD 6
      | .s => t.tdata1.getLsbD 4
      | .u => t.tdata1.getLsbD 3
      | .vs => decide (type = 6) && t.tdata1.getLsbD 24
      | .vu => decide (type = 6) && t.tdata1.getLsbD 23
    (bitField t.tdata1 7 4 = 0 → (triggerMatches t ea = true ↔ ea = t.tdata2)) ∧
    (enabled = false → ∀ c ∈ classes, triggerFires s index t c ea = false) ∧
    (type = 6 → triggerOnData s.cfg.xlen t = false → triggerMatches t ea = false →
      ∀ c ∈ classes, triggerFires s index t c ea = false) ∧
    (enabled = true → type = 6 → triggerOnData s.cfg.xlen t = false → triggerMatches t ea = true →
      triggerFires s index t TriggerClass.management ea = (t.tdata1.getLsbD 0 || t.tdata1.getLsbD 1) ∧
      triggerFires s index t TriggerClass.zero ea = t.tdata1.getLsbD 1 ∧
      triggerFires s index t (TriggerClass.hint s.cfg) ea =
        (decide (s.cfg.hintTrigger = .loadAndStore) && (t.tdata1.getLsbD 0 || t.tdata1.getLsbD 1))) ∧
    (s.cfg.hintAction = .no → s.cfg.hintTrigger = .neither →
      triggerFires s index t (TriggerClass.hint s.cfg) ea = false) ∧
    (enabled = true → ∀ c ∈ classes,
      (c = TriggerClass.hint s.cfg → s.cfg.hintAction ≠ .no ∨ s.cfg.hintTrigger = .loadAndStore) →
      t.tdata1.getLsbD 0 = true ∨ t.tdata1.getLsbD 1 = true →
      (type = 2 → triggerOnData s.cfg.xlen t = false →
        triggerFires s index t c ea = resolve s.cfg.mcontrolFires s.tick (.triggerFires index false)) ∧
      (type = 2 ∨ type = 6 → triggerOnData s.cfg.xlen t = true →
        triggerFires s index t c ea = resolve s.cfg.dataMatchFires s.tick (.triggerFires index false)))

/-- A trigger that fires with the breakpoint action on a legal management or write instruction, or on a hint, makes it
take a breakpoint exception and leave memory and caches as they were (rules R212, R245, R247, R249). -/
def Obligations.TriggerBreaksBeforeTheOperation : Prop :=
  ∀ (s : State) (rs1 : RegIdx) (poc : Poc) (level : Level) (i : Instr),
    (illegalCbme s.csr s.mode = false ∧
        triggerHit s TriggerClass.management (effectiveAddress s rs1) = some .breakpoint ∧
        (i = .cboInval rs1 poc ∨ i = .cboClean rs1 poc ∨ i = .cboFlush rs1 poc)) ∨
      (illegalCbwe s.csr s.mode = false ∧
        triggerHit s TriggerClass.zero (effectiveAddress s rs1) = some .breakpoint ∧ i = .cboZero rs1 level) ∨
      (triggerHit s (TriggerClass.hint s.cfg) (effectiveAddress s rs1) = some .breakpoint ∧
        (i = .prefetchR rs1 level ∨ i = .prefetchW rs1 level ∨ i = .prefetchI rs1 level ∨ i = .demote rs1 level)) →
    ∃ t, exec i s = .next t ∧ Takes s .breakpoint (.next t) ∧ t.ms = s.ms

/-! ### Reset and invariants -/

/-- The machine after reset: M-mode at the reset vector with `MIE` and `MPRV` clear (rule R261), so that the effective
mode is M; every `xcmocontrol` register at `REF`'s 0 (rule R46, log entry 4). -/
def Obligations.ResetState : Prop :=
  State.reset.mode = .m ∧ State.reset.pc = State.reset.cfg.resetVector ∧
    State.reset.csr.mstatus.getLsbD 3 = false ∧ State.reset.csr.mstatus.getLsbD 17 = false ∧
    effMode State.reset = .m ∧ State.reset.csr.mcmocontrol = 0#64 ∧ State.reset.csr.scmocontrol = 0#64 ∧
    State.reset.csr.hcmocontrol = 0#64 ∧ State.reset.csr.vscmocontrol = 0#64

/-- The state after reset is one the machine can come out of reset in, and meets the invariant. -/
def Obligations.ResetMeetsTheInvariant : Prop := State.reset.Inv ∧ State.AfterReset State.reset

/-- After reset, whatever the `xcmocontrol` registers and the caches hold, no CMO instruction is illegal, and
`CBO.INVAL` is an invalidate that no `xcmocontrol` register denies (rule R261; general knowledge). -/
def Obligations.AfterResetEveryCmoIsLegal : Prop :=
  ∀ (s t : State) (i : Instr) (rs1 : RegIdx) (tr : Xlate), State.AfterReset s →
    (exec i s = .next t → (∃ s', SameHart s s' ∧ t = retire s') ∨
      ∃ e ∈ [Exception.breakpoint, .storeAccess], Takes s e (.next t)) ∧
    managementOp s .inval (effMode s) tr = .invalidate ∧ invalDenied s .inval (effMode s) tr.pa = false ∧
    translate s .management true (effMode s) (effectiveAddress s rs1) =
      .ok { pa := (effectiveAddress s rs1).toNat, wVS := none, wS := none, wG := none, memType := 0, pteWrites := [] }

/-- Every step keeps the invariant: the configuration well formed, memory and caches in canonical form with no Modified
block where that state is not tracked, the copies of each coherence domain in agreement where hardware enforces
coherence (rule R79), the latest stores where the hart's loads and fetches find them (rules R99, R103; log entries 22
and 45), legal `xcmocontrol` registers, a mode that exists. -/
def Obligations.StepKeepsTheInvariant : Prop :=
  ∀ s t : State, s.Inv → step s = .next t → t.Inv

/-- No step changes the parameters of the machine: the state holds them as a record that nothing writes, which is log
entry 15's (DESIGN CHOICE). -/
def Obligations.StepKeepsTheConfiguration : Prop :=
  ∀ s t : State, step s = .next t → t.cfg = s.cfg
end

