-- ==== Sys2Proof/Laws/Memory.lean ====
section
/-!
SUPPORT. What the lists in canonical form do: reads after writes, writes leave every other place alone, and every operation
keeps the form.
-/

namespace Sys2Proof.Machine

/-! ### Memory -/

@[simp] theorem Memory.read_nil (a : Nat) : Memory.read [] a = Memory.unwritten := rfl

/-- A write leaves every other byte as it was. -/
theorem Memory.read_write_other (m : List Host.Cell) {a a' : Nat} (v : Byte) (h : a' ≠ a) :
    Memory.read (Memory.write m a v) a' = Memory.read m a' := by
  induction m with
  | nil => by_cases hv : v = Memory.unwritten <;> simp [Memory.write, Memory.read, hv, h]
  | cons e rest ih =>
    obtain ⟨b, w⟩ := e
    by_cases h1 : a < b
    · by_cases hv : v = Memory.unwritten <;> simp [Memory.write, Memory.read, h1, hv, h]
    · by_cases h2 : a = b
      · subst h2
        by_cases hv : v = Memory.unwritten <;> simp [Memory.write, Memory.read, hv, h]
      · simp [Memory.write, Memory.read, h1, h2, ih]

theorem Memory.wfFrom_mono {lo lo' : Nat} {m : List Host.Cell} (h : lo ≤ lo') (hw : Memory.wfFrom lo' m = true) :
    Memory.wfFrom lo m = true := by
  cases m with
  | nil => rfl
  | cons e rest =>
    obtain ⟨a, v⟩ := e
    simp only [Memory.wfFrom, Bool.and_eq_true, decide_eq_true_eq] at hw ⊢
    exact ⟨⟨by omega, hw.1.2⟩, hw.2⟩

/-- Below the first listed address nothing is listed. -/
theorem Memory.read_below {lo a : Nat} {m : List Host.Cell} (hw : Memory.wfFrom lo m = true) (h : a < lo) :
    Memory.read m a = Memory.unwritten := by
  induction m generalizing lo with
  | nil => rfl
  | cons e rest ih =>
    obtain ⟨b, v⟩ := e
    simp only [Memory.wfFrom, Bool.and_eq_true, decide_eq_true_eq] at hw
    have hne : a ≠ b := by omega
    simp only [Memory.read, hne, if_false]
    exact ih hw.2 (by omega)

theorem Memory.read_write_same_from {lo a : Nat} {m : List Host.Cell} (v : Byte) (hw : Memory.wfFrom lo m = true) :
    Memory.read (Memory.write m a v) a = v := by
  induction m generalizing lo with
  | nil => by_cases hv : v = Memory.unwritten <;> simp [Memory.write, Memory.read, hv]
  | cons e rest ih =>
    obtain ⟨b, w⟩ := e
    have hw' := hw
    simp only [Memory.wfFrom, Bool.and_eq_true, decide_eq_true_eq] at hw
    by_cases h1 : a < b
    · by_cases hv : v = Memory.unwritten
      · have : Memory.read ((b, w) :: rest) a = Memory.unwritten :=
          Memory.read_below (lo := b) (by simp only [Memory.wfFrom, Bool.and_eq_true, decide_eq_true_eq]; exact ⟨⟨le_refl b, hw.1.2⟩, hw.2⟩) h1
        simp [Memory.write, h1, hv, this]
      · simp [Memory.write, Memory.read, h1, hv]
    · by_cases h2 : a = b
      · subst h2
        by_cases hv : v = Memory.unwritten
        · have : Memory.read rest a = Memory.unwritten := Memory.read_below hw.2 (by omega)
          simp [Memory.write, hv, this]
        · simp [Memory.write, Memory.read, hv]
      · simp [Memory.write, Memory.read, h1, h2, ih hw.2]

/-- A read of the written byte gives what was written. -/
theorem Memory.read_write_same {a : Nat} {m : List Host.Cell} (v : Byte) (hw : Memory.wf m = true) :
    Memory.read (Memory.write m a v) a = v :=
  Memory.read_write_same_from v hw

theorem Memory.write_wfFrom {lo a : Nat} {m : List Host.Cell} (v : Byte) (hw : Memory.wfFrom lo m = true) (h : lo ≤ a) :
    Memory.wfFrom lo (Memory.write m a v) = true := by
  induction m generalizing lo with
  | nil => by_cases hv : v = Memory.unwritten <;> simp [Memory.write, Memory.wfFrom, hv, h]
  | cons e rest ih =>
    obtain ⟨b, w⟩ := e
    have hw' := hw
    simp only [Memory.wfFrom, Bool.and_eq_true, decide_eq_true_eq] at hw
    by_cases h1 : a < b
    · by_cases hv : v = Memory.unwritten
      · simpa [Memory.write, h1, hv] using hw'
      · simp only [Memory.write, h1, hv, if_true, if_false, Memory.wfFrom, Bool.and_eq_true, decide_eq_true_eq]
        exact ⟨⟨h, by simpa using hv⟩, ⟨by omega, hw.1.2⟩, hw.2⟩
    · by_cases h2 : a = b
      · subst h2
        by_cases hv : v = Memory.unwritten
        · simpa [Memory.write, hv] using Memory.wfFrom_mono (by omega) hw.2
        · simp only [Memory.write, h1, hv, if_true, if_false, Memory.wfFrom, Bool.and_eq_true, decide_eq_true_eq]
          exact ⟨⟨h, by simpa using hv⟩, hw.2⟩
      · simp only [Memory.write, h1, h2, if_false, Memory.wfFrom, Bool.and_eq_true, decide_eq_true_eq]
        exact ⟨hw.1, ih hw.2 (by omega)⟩

/-- A write keeps the canonical form. -/
theorem Memory.write_wf {a : Nat} {m : List Host.Cell} (v : Byte) (hw : Memory.wf m = true) :
    Memory.wf (Memory.write m a v) = true :=
  Memory.write_wfFrom v hw (Nat.zero_le a)

/-- A write of several bytes keeps the canonical form. -/
theorem Memory.writeBytes_wf {a : Nat} {m : List Host.Cell} (bs : List Byte) (hw : Memory.wf m = true) :
    Memory.wf (Memory.writeBytes m a bs) = true := by
  induction bs generalizing m a with
  | nil => exact hw
  | cons b bs ih => exact ih (Memory.write_wf b hw)

/-- A write of several bytes leaves every byte outside them as it was. -/
theorem Memory.read_writeBytes_other (m : List Host.Cell) {a a' : Nat} (bs : List Byte)
    (h : a' < a ∨ a + bs.length ≤ a') : Memory.read (Memory.writeBytes m a bs) a' = Memory.read m a' := by
  induction bs generalizing m a with
  | nil => rfl
  | cons b bs ih =>
    simp only [List.length_cons] at h
    rw [Memory.writeBytes, ih _ (by omega), Memory.read_write_other _ _ (by omega)]

/-- A byte of a write of several bytes reads as written. -/
theorem Memory.read_writeBytes_same {m : List Host.Cell} {a i : Nat} (bs : List Byte) (hw : Memory.wf m = true)
    (h : i < bs.length) : Memory.read (Memory.writeBytes m a bs) (a + i) = bs[i] := by
  induction bs generalizing m a i with
  | nil => simp at h
  | cons b bs ih =>
    cases i with
    | zero =>
      rw [Memory.writeBytes, Memory.read_writeBytes_other _ _ (by omega)]
      exact Memory.read_write_same b hw
    | succ i =>
      have := ih (m := Memory.write m a b) (a := a + 1) (i := i) (Memory.write_wf b hw) (by simpa using h)
      simpa [Memory.writeBytes, Nat.add_assoc, Nat.add_comm 1 i] using this

/-- Reading back a write of several bytes. -/
theorem Memory.readBytes_writeBytes {m : List Host.Cell} {a : Nat} (bs : List Byte) (hw : Memory.wf m = true) :
    Memory.readBytes (Memory.writeBytes m a bs) a bs.length = bs := by
  apply List.ext_getElem
  · simp [Memory.readBytes]
  · intro i h1 h2
    simp only [Memory.readBytes, List.getElem_map, List.getElem_range]
    exact Memory.read_writeBytes_same bs hw h2

@[simp] theorem Memory.readBytes_length (m : List Host.Cell) (a n : Nat) : (Memory.readBytes m a n).length = n := by
  simp [Memory.readBytes]

/-! ### Copies of blocks -/

theorem Copies.find_block {l : List Copy} {b : Nat} {c : Copy} (h : Copies.find l b = some c) : c.block = b := by
  induction l with
  | nil => simp [Copies.find] at h
  | cons d rest ih =>
    by_cases hd : d.block = b
    · simp only [Copies.find, hd, if_true, Option.some.injEq] at h
      rw [← h]; exact hd
    · simp only [Copies.find, hd, if_false] at h
      exact ih h

@[simp] theorem Copies.find_put_same (l : List Copy) (c : Copy) : Copies.find (Copies.put l c) c.block = some c := by
  induction l with
  | nil => simp [Copies.put, Copies.find]
  | cons d rest ih =>
    by_cases h1 : c.block < d.block
    · simp [Copies.put, Copies.find, h1]
    · by_cases h2 : c.block = d.block
      · simp [Copies.put, Copies.find, h2]
      · have : ¬ d.block = c.block := fun h => h2 h.symm
        simp [Copies.put, Copies.find, h1, h2, this, ih]

theorem Copies.find_put_other (l : List Copy) {c : Copy} {b : Nat} (h : b ≠ c.block) :
    Copies.find (Copies.put l c) b = Copies.find l b := by
  have hc : ¬ c.block = b := fun e => h e.symm
  induction l with
  | nil => simp [Copies.put, Copies.find, hc]
  | cons d rest ih =>
    by_cases h1 : c.block < d.block
    · simp [Copies.put, Copies.find, h1, hc]
    · by_cases h2 : c.block = d.block
      · simp [Copies.put, Copies.find, h2, h2 ▸ hc]
      · simp [Copies.put, Copies.find, h1, h2, ih]

theorem Copies.find_drop_other (l : List Copy) {b b' : Nat} (h : b' ≠ b) :
    Copies.find (Copies.drop l b) b' = Copies.find l b' := by
  induction l with
  | nil => rfl
  | cons d rest ih =>
    by_cases h1 : d.block = b
    · have : ¬ d.block = b' := by omega
      simp [Copies.drop, Copies.find, h1, h1 ▸ this]
    · simp [Copies.drop, Copies.find, h1, ih]

theorem Copies.wfFrom_mono {size lo lo' : Nat} {t : Bool} {l : List Copy} (h : lo ≤ lo')
    (hw : Copies.wfFrom size t lo' l = true) : Copies.wfFrom size t lo l = true := by
  cases l with
  | nil => rfl
  | cons c rest =>
    simp only [Copies.wfFrom, Bool.and_eq_true, decide_eq_true_eq] at hw ⊢
    exact ⟨⟨⟨⟨by omega, hw.1.1.1.2⟩, hw.1.1.2⟩, hw.1.2⟩, hw.2⟩

theorem Copies.find_below {size lo b : Nat} {t : Bool} {l : List Copy} (hw : Copies.wfFrom size t lo l = true)
    (h : b < lo) : Copies.find l b = none := by
  induction l generalizing lo with
  | nil => rfl
  | cons c rest ih =>
    simp only [Copies.wfFrom, Bool.and_eq_true, decide_eq_true_eq] at hw
    have hne : ¬ c.block = b := by omega
    simp only [Copies.find, hne, if_false]
    exact ih hw.2 (by omega)

/-- After a drop the block is Invalid. -/
theorem Copies.find_drop_same {size lo b : Nat} {t : Bool} {l : List Copy} (hw : Copies.wfFrom size t lo l = true) :
    Copies.find (Copies.drop l b) b = none := by
  induction l generalizing lo with
  | nil => rfl
  | cons c rest ih =>
    simp only [Copies.wfFrom, Bool.and_eq_true, decide_eq_true_eq] at hw
    by_cases h1 : c.block = b
    · simp only [Copies.drop, h1, if_true]
      exact Copies.find_below hw.2 (by omega)
    · simp only [Copies.drop, h1, if_false, Copies.find]
      exact ih hw.2

theorem Copies.drop_wfFrom {size lo b : Nat} {t : Bool} {l : List Copy} (hw : Copies.wfFrom size t lo l = true) :
    Copies.wfFrom size t lo (Copies.drop l b) = true := by
  induction l generalizing lo with
  | nil => rfl
  | cons c rest ih =>
    simp only [Copies.wfFrom, Bool.and_eq_true, decide_eq_true_eq] at hw
    by_cases h1 : c.block = b
    · simp only [Copies.drop, h1, if_true]
      exact Copies.wfFrom_mono (by omega) hw.2
    · simp only [Copies.drop, h1, if_false, Copies.wfFrom, Bool.and_eq_true, decide_eq_true_eq]
      exact ⟨hw.1, ih hw.2⟩

/-- What the canonical form says of one copy. -/
def Copy.wf (size : Nat) (t : Bool) (c : Copy) : Bool :=
  c.block % size == 0 && c.data.length == size && (t || !c.modified)

theorem Copies.put_wfFrom {size lo : Nat} {t : Bool} {l : List Copy} {c : Copy}
    (hw : Copies.wfFrom size t lo l = true) (hc : c.wf size t = true) (h : lo ≤ c.block) :
    Copies.wfFrom size t lo (Copies.put l c) = true := by
  simp only [Copy.wf, Bool.and_eq_true] at hc
  induction l generalizing lo with
  | nil =>
    simp only [Copies.put, Copies.wfFrom, Bool.and_eq_true, decide_eq_true_eq]
    exact ⟨⟨⟨⟨h, hc.1.1⟩, hc.1.2⟩, hc.2⟩, trivial⟩
  | cons d rest ih =>
    have hw' := hw
    simp only [Copies.wfFrom, Bool.and_eq_true, decide_eq_true_eq] at hw
    by_cases h1 : c.block < d.block
    · simp only [Copies.put, h1, if_true, Copies.wfFrom, Bool.and_eq_true, decide_eq_true_eq]
      exact ⟨⟨⟨⟨h, hc.1.1⟩, hc.1.2⟩, hc.2⟩, ⟨⟨⟨by omega, hw.1.1.1.2⟩, hw.1.1.2⟩, hw.1.2⟩, hw.2⟩
    · by_cases h2 : c.block = d.block
      · simp only [Copies.put, h2, lt_irrefl, if_true, if_false, Copies.wfFrom, Bool.and_eq_true, decide_eq_true_eq]
        exact ⟨⟨⟨⟨hw.1.1.1.1, h2 ▸ hc.1.1⟩, hc.1.2⟩, hc.2⟩, hw.2⟩
      · simp only [Copies.put, h1, h2, if_false, Copies.wfFrom, Bool.and_eq_true, decide_eq_true_eq]
        exact ⟨hw.1, ih hw.2 (by omega)⟩

theorem Copies.find_wf {size lo b : Nat} {t : Bool} {l : List Copy} {c : Copy}
    (hw : Copies.wfFrom size t lo l = true) (h : Copies.find l b = some c) : c.wf size t = true := by
  induction l generalizing lo with
  | nil => simp [Copies.find] at h
  | cons d rest ih =>
    simp only [Copies.wfFrom, Bool.and_eq_true, decide_eq_true_eq] at hw
    by_cases hd : d.block = b
    · simp only [Copies.find, hd, if_true, Option.some.injEq] at h
      subst h
      simp only [Copy.wf, Bool.and_eq_true]
      exact ⟨⟨hw.1.1.1.2, hw.1.1.2⟩, hw.1.2⟩
    · simp only [Copies.find, hd, if_false] at h
      exact ih hw.2 h

/-! ### Sets of addresses -/

theorem Addresses.wfFrom_mono {lo lo' : Nat} {l : List Nat} (h : lo ≤ lo') (hw : Addresses.wfFrom lo' l = true) :
    Addresses.wfFrom lo l = true := by
  cases l with
  | nil => rfl
  | cons a rest =>
    simp only [Addresses.wfFrom, Bool.and_eq_true, decide_eq_true_eq] at hw ⊢
    exact ⟨by omega, hw.2⟩

theorem Addresses.insert_wfFrom {lo a : Nat} {l : List Nat} (hw : Addresses.wfFrom lo l = true) (h : lo ≤ a) :
    Addresses.wfFrom lo (Addresses.insert l a) = true := by
  induction l generalizing lo with
  | nil => simp [Addresses.insert, Addresses.wfFrom, h]
  | cons b rest ih =>
    have hw' := hw
    simp only [Addresses.wfFrom, Bool.and_eq_true, decide_eq_true_eq] at hw
    by_cases h1 : a < b
    · simp only [Addresses.insert, h1, if_true, Addresses.wfFrom, Bool.and_eq_true, decide_eq_true_eq]
      exact ⟨h, by omega, hw.2⟩
    · by_cases h2 : a = b
      · simpa [Addresses.insert, h1, h2] using hw'
      · simp only [Addresses.insert, h1, h2, if_false, Addresses.wfFrom, Bool.and_eq_true, decide_eq_true_eq]
        exact ⟨hw.1, ih hw.2 (by omega)⟩

theorem Addresses.erase_wfFrom {lo a : Nat} {l : List Nat} (hw : Addresses.wfFrom lo l = true) :
    Addresses.wfFrom lo (Addresses.erase l a) = true := by
  induction l generalizing lo with
  | nil => rfl
  | cons b rest ih =>
    simp only [Addresses.wfFrom, Bool.and_eq_true, decide_eq_true_eq] at hw
    by_cases h2 : a = b
    · simpa [Addresses.erase, h2] using Addresses.wfFrom_mono (by omega) hw.2
    · simp only [Addresses.erase, h2, if_false, Addresses.wfFrom, Bool.and_eq_true, decide_eq_true_eq]
      exact ⟨hw.1, ih hw.2⟩

theorem Addresses.mem_insert {a b : Nat} {l : List Nat} : b ∈ Addresses.insert l a ↔ b = a ∨ b ∈ l := by
  induction l with
  | nil => simp [Addresses.insert]
  | cons c rest ih =>
    by_cases h1 : a < c
    · simp [Addresses.insert, h1]
    · by_cases h2 : a = c
      · simp [Addresses.insert, h2]
      · simp only [Addresses.insert, h1, h2, if_false, List.mem_cons, ih]; tauto

theorem Addresses.mem_of_mem_erase {a b : Nat} {l : List Nat} (h : b ∈ Addresses.erase l a) : b ∈ l := by
  induction l with
  | nil => simp [Addresses.erase] at h
  | cons c rest ih =>
    by_cases h2 : a = c
    · simp only [Addresses.erase, h2, if_true] at h; exact List.mem_cons_of_mem _ h
    · simp only [Addresses.erase, h2, if_false, List.mem_cons] at h
      rcases h with h | h
      · simp [h]
      · exact List.mem_cons_of_mem _ (ih h)

theorem Addresses.lt_of_mem {lo b : Nat} {l : List Nat} (hw : Addresses.wfFrom lo l = true) (h : b ∈ l) : lo ≤ b := by
  induction l generalizing lo with
  | nil => simp at h
  | cons c rest ih =>
    simp only [Addresses.wfFrom, Bool.and_eq_true, decide_eq_true_eq] at hw
    rcases List.mem_cons.mp h with h | h
    · omega
    · have := ih hw.2 h; omega

/-- After an erase the address is not in the set. -/
theorem Addresses.not_mem_erase {lo a : Nat} {l : List Nat} (hw : Addresses.wfFrom lo l = true) :
    a ∉ Addresses.erase l a := by
  induction l generalizing lo with
  | nil => simp [Addresses.erase]
  | cons c rest ih =>
    simp only [Addresses.wfFrom, Bool.and_eq_true, decide_eq_true_eq] at hw
    by_cases h2 : a = c
    · simp only [Addresses.erase, h2, if_true]
      intro h
      have := Addresses.lt_of_mem hw.2 h
      omega
    · simp only [Addresses.erase, h2, if_false, List.mem_cons, not_or]
      exact ⟨not_false, ih hw.2⟩

theorem Addresses.mem_erase_of_ne {a b : Nat} {l : List Nat} (hne : b ≠ a) : b ∈ Addresses.erase l a ↔ b ∈ l := by
  induction l with
  | nil => simp [Addresses.erase]
  | cons c rest ih =>
    by_cases h2 : a = c
    · subst h2; simp [Addresses.erase, hne]
    · simp [Addresses.erase, h2, ih]

/-- Folding an operation that keeps a property keeps it. -/
theorem foldl_keeps {α β : Type} (P : β → Prop) (f : β → α → β) (hf : ∀ b a, P b → P (f b a)) (l : List α) (b : β)
    (h : P b) : P (l.foldl f b) := by
  induction l generalizing b with
  | nil => exact h
  | cons a l ih => exact ih _ (hf b a h)

end Sys2Proof.Machine
end

