-- ==== Sys2Proof/Laws/Caches.lean ====
section
/-!
SUPPORT. What the operations on memory and caches can do: one lemma per operation for the copies, for memory and for the
canonical form.
-/

namespace Sys2Proof.Machine

/-! ### One copy put or dropped -/

@[simp] theorem MemSys.putCopy_mem (ms : MemSys) (cache : Nat) (c : Copy) : (ms.putCopy cache c).mem = ms.mem := rfl

@[simp] theorem MemSys.dropCopy_mem (ms : MemSys) (cache b : Nat) : (ms.dropCopy cache b).mem = ms.mem := rfl

/-- A copy put in a cache changes that block of that cache alone. -/
theorem MemSys.copyAt_putCopy_other (ms : MemSys) {cache cache' b : Nat} (c : Copy) (h : cache' ≠ cache ∨ b ≠ c.block) :
    (ms.putCopy cache c).copyAt cache' b = ms.copyAt cache' b := by
  simp only [MemSys.copyAt, MemSys.putCopy, List.getElem?_modify]
  rcases h with h | h
  · have : ¬ cache = cache' := fun e => h e.symm
    simp [this]
  · by_cases hc : cache = cache'
    · subst hc
      cases hl : ms.caches[cache]? with
      | none => simp
      | some l => simp [Copies.find_put_other l h]
    · simp [hc]

/-- A copy put in a cache that exists is what the cache holds. -/
theorem MemSys.copyAt_putCopy_same (ms : MemSys) {cache : Nat} (c : Copy) (h : cache < ms.caches.length) :
    (ms.putCopy cache c).copyAt cache c.block = some c := by
  simp [MemSys.copyAt, MemSys.putCopy, h]

/-- A dropped copy changes that block of that cache alone. -/
theorem MemSys.copyAt_dropCopy_other (ms : MemSys) {cache cache' b b' : Nat} (h : cache' ≠ cache ∨ b' ≠ b) :
    (ms.dropCopy cache b).copyAt cache' b' = ms.copyAt cache' b' := by
  simp only [MemSys.copyAt, MemSys.dropCopy, List.getElem?_modify]
  rcases h with h | h
  · have : ¬ cache = cache' := fun e => h e.symm
    simp [this]
  · by_cases hc : cache = cache'
    · subst hc
      cases hl : ms.caches[cache]? with
      | none => simp
      | some l => simp [Copies.find_drop_other l h]
    · simp [hc]

/-- A copy a cache holds is of the block asked for, and the cache exists. -/
theorem MemSys.copyAt_block {ms : MemSys} {cache b : Nat} {c : Copy} (h : ms.copyAt cache b = some c) :
    c.block = b ∧ cache < ms.caches.length := by
  simp only [MemSys.copyAt] at h
  cases hl : ms.caches[cache]? with
  | none => simp [hl] at h
  | some l =>
    simp only [hl] at h
    exact ⟨Copies.find_block h, (List.getElem?_eq_some_iff.mp hl).1⟩

/-! ### The canonical form of the caches -/

theorem cachesWf_length {size : Nat} {ds : List CacheDesc} {ls : List (List Copy)} (h : cachesWf size ds ls = true) :
    ls.length = ds.length := by
  induction ds generalizing ls with
  | nil => cases ls <;> simp_all [cachesWf]
  | cons d ds ih =>
    cases ls with
    | nil => simp [cachesWf] at h
    | cons l ls =>
      simp only [cachesWf, Bool.and_eq_true] at h
      simp [ih h.2]

theorem cachesWf_get {size i : Nat} {ds : List CacheDesc} {ls : List (List Copy)} {l : List Copy}
    (h : cachesWf size ds ls = true) (hl : ls[i]? = some l) :
    ∃ d, ds[i]? = some d ∧ Copies.wfFrom size d.tracksModified 0 l = true := by
  induction ds generalizing ls i with
  | nil => cases ls <;> simp_all [cachesWf]
  | cons d ds ih =>
    cases ls with
    | nil => simp at hl
    | cons l' ls =>
      simp only [cachesWf, Bool.and_eq_true] at h
      cases i with
      | zero =>
        simp only [List.getElem?_cons_zero, Option.some.injEq] at hl
        exact ⟨d, by simp, hl ▸ h.1⟩
      | succ i =>
        simp only [List.getElem?_cons_succ] at hl ⊢
        exact ih h.2 hl

theorem cachesWf_modify {size i : Nat} {ds : List CacheDesc} {ls : List (List Copy)} {f : List Copy → List Copy}
    (h : cachesWf size ds ls = true)
    (hf : ∀ d l, ds[i]? = some d → Copies.wfFrom size d.tracksModified 0 l = true →
      Copies.wfFrom size d.tracksModified 0 (f l) = true) :
    cachesWf size ds (ls.modify i f) = true := by
  induction ds generalizing ls i with
  | nil => cases ls <;> simp_all [cachesWf]
  | cons d ds ih =>
    cases ls with
    | nil => simp [cachesWf] at h
    | cons l ls =>
      simp only [cachesWf, Bool.and_eq_true] at h
      cases i with
      | zero =>
        simp only [List.modify_zero_cons, cachesWf, Bool.and_eq_true]
        exact ⟨hf d l (by simp) h.1, h.2⟩
      | succ i =>
        simp only [List.modify_succ_cons, cachesWf, Bool.and_eq_true]
        exact ⟨h.1, ih h.2 (fun d l hd => hf d l (by simpa using hd))⟩

/-- A copy found in a well-formed memory system is a whole, aligned block, Modified only where that is tracked. -/
theorem MemSys.copyAt_wf {cfg : Config} {ms : MemSys} {cache b : Nat} {c : Copy} (hw : ms.wf cfg = true)
    (h : ms.copyAt cache b = some c) : c.wf (blockSize cfg) (tracks cfg cache) = true := by
  simp only [MemSys.wf, Bool.and_eq_true] at hw
  simp only [MemSys.copyAt] at h
  cases hl : ms.caches[cache]? with
  | none => simp [hl] at h
  | some l =>
    simp only [hl] at h
    obtain ⟨d, hd, hwf⟩ := cachesWf_get hw.2 hl
    simpa [tracks, hd] using Copies.find_wf hwf h

theorem MemSys.copyAt_length {cfg : Config} {ms : MemSys} {cache b : Nat} {c : Copy} (hw : ms.wf cfg = true)
    (h : ms.copyAt cache b = some c) : c.data.length = blockSize cfg := by
  have := MemSys.copyAt_wf hw h
  simp only [Copy.wf, Bool.and_eq_true, beq_iff_eq] at this
  exact this.1.2

theorem MemSys.copyAt_aligned {cfg : Config} {ms : MemSys} {cache b : Nat} {c : Copy} (hw : ms.wf cfg = true)
    (h : ms.copyAt cache b = some c) : b % blockSize cfg = 0 := by
  have := MemSys.copyAt_wf hw h
  simp only [Copy.wf, Bool.and_eq_true, beq_iff_eq] at this
  rw [(MemSys.copyAt_block h).1] at this
  exact this.1.1

theorem MemSys.wf_mem {cfg : Config} {ms : MemSys} (hw : ms.wf cfg = true) : Memory.wf ms.mem = true := by
  simp only [MemSys.wf, Bool.and_eq_true] at hw
  exact hw.1

theorem MemSys.wf_setMem {cfg : Config} {ms : MemSys} {m : List Host.Cell} (hw : ms.wf cfg = true)
    (hm : Memory.wf m = true) : ({ ms with mem := m } : MemSys).wf cfg = true := by
  simp only [MemSys.wf, Bool.and_eq_true] at hw ⊢
  exact ⟨hm, hw.2⟩

theorem MemSys.putCopy_wf {cfg : Config} {ms : MemSys} {cache : Nat} {c : Copy} (hw : ms.wf cfg = true)
    (hc : c.wf (blockSize cfg) (tracks cfg cache) = true) : (ms.putCopy cache c).wf cfg = true := by
  simp only [MemSys.wf, Bool.and_eq_true] at hw ⊢
  refine ⟨hw.1, cachesWf_modify hw.2 fun d l hd hl => ?_⟩
  exact Copies.put_wfFrom hl (by simpa [tracks, hd] using hc) (Nat.zero_le _)

theorem MemSys.dropCopy_wf {cfg : Config} {ms : MemSys} {cache b : Nat} (hw : ms.wf cfg = true) :
    (ms.dropCopy cache b).wf cfg = true := by
  simp only [MemSys.wf, Bool.and_eq_true] at hw ⊢
  exact ⟨hw.1, cachesWf_modify hw.2 fun d l _ hl => Copies.drop_wfFrom hl⟩

/-- A dropped copy leaves the block Invalid. -/
theorem MemSys.copyAt_dropCopy_same {cfg : Config} {ms : MemSys} {cache b : Nat} (hw : ms.wf cfg = true) :
    (ms.dropCopy cache b).copyAt cache b = none := by
  simp only [MemSys.wf, Bool.and_eq_true] at hw
  simp only [MemSys.copyAt, MemSys.dropCopy, List.getElem?_modify]
  cases hl : ms.caches[cache]? with
  | none => simp
  | some l =>
    obtain ⟨d, -, hwf⟩ := cachesWf_get hw.2 hl
    simp [Copies.find_drop_same hwf]

theorem MemSys.firstCopy_mem {ms : MemSys} {caches : List Nat} {b : Nat} {c : Copy}
    (h : ms.firstCopy caches b = some c) : ∃ cache ∈ caches, ms.copyAt cache b = some c := by
  simpa [MemSys.firstCopy] using List.exists_of_findSome?_eq_some h

theorem MemSys.blockData_length {cfg : Config} {ms : MemSys} (caches : List Nat) (b : Nat) (hw : ms.wf cfg = true) :
    (ms.blockData cfg caches b).length = blockSize cfg := by
  unfold MemSys.blockData
  split
  · next c hc =>
    obtain ⟨cache, -, h⟩ := MemSys.firstCopy_mem hc
    exact MemSys.copyAt_length hw h
  · simp

/-! ### Data writes (rules R68 to R70) -/

theorem MemSys.writeCopy_wf {cfg : Config} {tick pa : Nat} {v : Byte} {ms : MemSys} (cache : Nat)
    (hw : ms.wf cfg = true) : (MemSys.writeCopy cfg tick pa v ms cache).wf cfg = true := by
  unfold MemSys.writeCopy
  split
  · exact hw
  · next c hc =>
    have hcw := MemSys.copyAt_wf hw hc
    simp only [Copy.wf, Bool.and_eq_true, beq_iff_eq] at hcw
    split
    · next ht =>
      exact MemSys.putCopy_wf hw (by simp [Copy.wf, hcw.1.1, hcw.1.2, ht])
    · split
      · exact MemSys.putCopy_wf hw (by simp only [Copy.wf, Bool.and_eq_true, beq_iff_eq, List.length_set]; exact hcw)
      · exact MemSys.dropCopy_wf hw

@[simp] theorem MemSys.writeCopy_mem (cfg : Config) (tick pa : Nat) (v : Byte) (ms : MemSys) (cache : Nat) :
    (MemSys.writeCopy cfg tick pa v ms cache).mem = ms.mem := by
  unfold MemSys.writeCopy
  split
  · rfl
  · split
    · rfl
    · split <;> rfl

/-- A data write in one cache changes that block of that cache alone. -/
theorem MemSys.copyAt_writeCopy_other {cfg : Config} {tick pa : Nat} {v : Byte} {ms : MemSys} {cache cache' b : Nat}
    (h : cache' ≠ cache ∨ b ≠ blockBase cfg pa) :
    (MemSys.writeCopy cfg tick pa v ms cache).copyAt cache' b = ms.copyAt cache' b := by
  unfold MemSys.writeCopy
  split
  · rfl
  · next c hc =>
    have hb := (MemSys.copyAt_block hc).1
    split
    · exact MemSys.copyAt_putCopy_other _ _ (by simpa [hb] using h)
    · split
      · exact MemSys.copyAt_putCopy_other _ _ (by simpa [hb] using h)
      · exact MemSys.copyAt_dropCopy_other _ h

theorem MemSys.writeCopies_wf {cfg : Config} {tick pa : Nat} {v : Byte} (caches : List Nat) {ms : MemSys}
    (hw : ms.wf cfg = true) : (caches.foldl (MemSys.writeCopy cfg tick pa v) ms).wf cfg = true :=
  foldl_keeps (fun ms => ms.wf cfg = true) _ (fun _ c h => MemSys.writeCopy_wf c h) caches ms hw

@[simp] theorem MemSys.writeCopies_mem (cfg : Config) (tick pa : Nat) (v : Byte) (caches : List Nat) (ms : MemSys) :
    (caches.foldl (MemSys.writeCopy cfg tick pa v) ms).mem = ms.mem :=
  foldl_keeps (fun ms' => ms'.mem = ms.mem) _ (fun _ c h => by simp [h]) caches ms rfl

theorem MemSys.copyAt_writeCopies_block {cfg : Config} {tick pa : Nat} {v : Byte} (caches : List Nat) {ms : MemSys}
    {cache b : Nat} (h : b ≠ blockBase cfg pa) :
    (caches.foldl (MemSys.writeCopy cfg tick pa v) ms).copyAt cache b = ms.copyAt cache b :=
  foldl_keeps (fun ms' => ms'.copyAt cache b = ms.copyAt cache b) _
    (fun _ c h' => by rw [MemSys.copyAt_writeCopy_other (Or.inr h), h']) caches ms rfl

theorem MemSys.writeAlong_wf {cfg : Config} {tick pa : Nat} {v : Byte} (hops : List Hop) {ms : MemSys}
    (hw : ms.wf cfg = true) : (MemSys.writeAlong cfg tick pa v hops ms).wf cfg = true := by
  induction hops generalizing ms with
  | nil => exact MemSys.wf_setMem hw (Memory.write_wf v (MemSys.wf_mem hw))
  | cons h hs ih =>
    simp only [MemSys.writeAlong]
    split
    · exact MemSys.writeCopies_wf _ hw
    · exact ih (MemSys.writeCopies_wf _ hw)

/-- A data write of one byte changes no other byte of memory. -/
theorem MemSys.read_writeAlong_other {cfg : Config} {tick pa : Nat} {v : Byte} (hops : List Hop) {ms : MemSys} {a : Nat}
    (h : a ≠ pa) : Memory.read (MemSys.writeAlong cfg tick pa v hops ms).mem a = Memory.read ms.mem a := by
  induction hops generalizing ms with
  | nil => exact Memory.read_write_other _ _ h
  | cons hd hs ih =>
    simp only [MemSys.writeAlong]
    split
    · simp
    · rw [ih]; simp

/-- A data write of one byte changes no copy of another block. -/
theorem MemSys.copyAt_writeAlong_block {cfg : Config} {tick pa : Nat} {v : Byte} (hops : List Hop) {ms : MemSys}
    {cache b : Nat} (h : b ≠ blockBase cfg pa) :
    (MemSys.writeAlong cfg tick pa v hops ms).copyAt cache b = ms.copyAt cache b := by
  induction hops generalizing ms with
  | nil => rfl
  | cons hd hs ih =>
    simp only [MemSys.writeAlong]
    split
    · exact MemSys.copyAt_writeCopies_block _ h
    · rw [ih]; exact MemSys.copyAt_writeCopies_block _ h

theorem MemSys.writeByte_wf {cfg : Config} {tick pa : Nat} {acc : Access} {v : Byte} {ms : MemSys}
    (hw : ms.wf cfg = true) : (MemSys.writeByte cfg tick acc pa v ms).wf cfg = true :=
  MemSys.writeAlong_wf _ hw

theorem MemSys.writeBytes_wf {cfg : Config} {tick pa : Nat} {acc : Access} (bs : List Byte) {ms : MemSys}
    (hw : ms.wf cfg = true) : (MemSys.writeBytes cfg tick acc pa bs ms).wf cfg = true := by
  induction bs generalizing pa ms with
  | nil => exact hw
  | cons b bs ih => exact ih (MemSys.writeByte_wf hw)

/-- Data writes of several bytes change no byte of memory outside them. -/
theorem MemSys.read_writeBytes_other {cfg : Config} {tick pa : Nat} {acc : Access} (bs : List Byte)
    {ms : MemSys} {a : Nat} (h : a < pa ∨ pa + bs.length ≤ a) :
    Memory.read (MemSys.writeBytes cfg tick acc pa bs ms).mem a = Memory.read ms.mem a := by
  induction bs generalizing pa ms with
  | nil => rfl
  | cons b bs ih =>
    simp only [List.length_cons] at h
    rw [MemSys.writeBytes, ih (by omega)]
    exact MemSys.read_writeAlong_other _ (by omega)

/-- Data writes of several bytes change no copy of a block they do not touch. -/
theorem MemSys.copyAt_writeBytes_block {cfg : Config} {tick pa : Nat} {acc : Access} (bs : List Byte)
    {ms : MemSys} {cache b : Nat} (h : ∀ i < bs.length, b ≠ blockBase cfg (pa + i)) :
    (MemSys.writeBytes cfg tick acc pa bs ms).copyAt cache b = ms.copyAt cache b := by
  induction bs generalizing pa ms with
  | nil => rfl
  | cons v bs ih =>
    rw [MemSys.writeBytes, ih (fun i hi => by
      have := h (i + 1) (by simpa using hi)
      simpa [Nat.add_assoc, Nat.add_comm 1 i] using this)]
    exact MemSys.copyAt_writeAlong_block _ (h 0 (by simp))

/-! ### Allocation and deallocation (rules R65, R66) -/

@[simp] theorem MemSys.allocate_mem (cfg : Config) (cache b : Nat) (source : Option Nat) (m : Bool) (ms : MemSys) :
    (MemSys.allocate cfg cache b source m ms).mem = ms.mem := by
  unfold MemSys.allocate
  split <;> rfl

@[simp] theorem MemSys.allocated_block (cfg : Config) (cache b : Nat) (source : Option Nat) (m : Bool) (ms : MemSys) :
    (ms.allocated cfg cache b source m).block = b := by
  unfold MemSys.allocated
  split <;> rfl

/-- An allocated block has the bytes of its source. -/
theorem MemSys.allocated_data {cfg : Config} {cache b : Nat} {source : Option Nat} {m : Bool} {ms : MemSys} :
    (∃ c copy, source = some c ∧ ms.copyAt c b = some copy ∧ (ms.allocated cfg cache b source m).data = copy.data) ∨
      (ms.allocated cfg cache b source m).data = Memory.readBytes ms.mem b (blockSize cfg) := by
  unfold MemSys.allocated
  split
  · exact .inr rfl
  · next c hc =>
    obtain ⟨d, h1, h2⟩ := Option.bind_eq_some_iff.mp hc
    exact .inl ⟨d, c, h1, h2, rfl⟩

/-- An allocated block is Modified only where the cache tracks that state. -/
theorem MemSys.allocated_wf {cfg : Config} {cache b : Nat} {source : Option Nat} {m : Bool} {ms : MemSys}
    (hw : ms.wf cfg = true) (hb : b % blockSize cfg = 0) :
    (ms.allocated cfg cache b source m).wf (blockSize cfg) (tracks cfg cache) = true := by
  have hlen : (ms.allocated cfg cache b source m).data.length = blockSize cfg := by
    rcases MemSys.allocated_data (cfg := cfg) (cache := cache) (b := b) (source := source) (m := m) (ms := ms)
      with ⟨c, copy, -, h, hd⟩ | hd
    · rw [hd]; exact MemSys.copyAt_length hw h
    · rw [hd, Memory.readBytes_length]
  simp only [Copy.wf, Bool.and_eq_true, beq_iff_eq, MemSys.allocated_block]
  refine ⟨⟨hb, hlen⟩, ?_⟩
  unfold MemSys.allocated
  split
  · simp
  · cases m <;> cases tracks cfg cache <;> simp

theorem MemSys.mayAllocate_aligned {cfg : Config} {ms : MemSys} {cache b : Nat} {source : Option Nat}
    (h : ms.mayAllocate cfg cache b source = true) : b % blockSize cfg = 0 := by
  simp only [MemSys.mayAllocate, Bool.and_eq_true, beq_iff_eq] at h
  exact h.1.2

theorem MemSys.allocate_wf {cfg : Config} {cache b : Nat} {source : Option Nat} {m : Bool} {ms : MemSys}
    (hw : ms.wf cfg = true) : (MemSys.allocate cfg cache b source m ms).wf cfg = true := by
  unfold MemSys.allocate
  split
  · next h => exact MemSys.putCopy_wf hw (MemSys.allocated_wf hw (MemSys.mayAllocate_aligned h))
  · exact hw

/-- An allocation changes no copy but the one it makes. -/
theorem MemSys.copyAt_allocate_other {cfg : Config} {cache b : Nat} {source : Option Nat} {m : Bool} {ms : MemSys}
    {cache' b' : Nat} (h : cache' ≠ cache ∨ b' ≠ b) :
    (MemSys.allocate cfg cache b source m ms).copyAt cache' b' = ms.copyAt cache' b' := by
  unfold MemSys.allocate
  split
  · exact MemSys.copyAt_putCopy_other _ _ (by simpa using h)
  · rfl

/-- The copy an allocation makes; an allocation that may not be made changes nothing. -/
theorem MemSys.copyAt_allocate_same {cfg : Config} {cache b : Nat} {source : Option Nat} {m : Bool} {ms : MemSys}
    (hw : ms.wf cfg = true) :
    (ms.mayAllocate cfg cache b source = true ∧
      (MemSys.allocate cfg cache b source m ms).copyAt cache b = some (ms.allocated cfg cache b source m)) ∨
    MemSys.allocate cfg cache b source m ms = ms := by
  unfold MemSys.allocate
  split
  · next h =>
    refine .inl ⟨h, ?_⟩
    have hlt : cache < ms.caches.length := by
      simp only [MemSys.mayAllocate, Bool.and_eq_true, decide_eq_true_eq] at h
      simp only [MemSys.wf, Bool.and_eq_true] at hw
      rw [cachesWf_length hw.2]
      exact h.1.1.1.1
    have := MemSys.copyAt_putCopy_same ms (ms.allocated cfg cache b source m) hlt
    simpa using this
  · exact .inr rfl

/-- An allocation for an access is an allocation from what lies beyond the cache, or nothing. -/
theorem MemSys.allocateOnPath_cases (cfg : Config) (acc : Access) (cache b : Nat) (ms : MemSys) :
    (cache ∈ directCaches (hopsOf cfg acc b) ∧
      MemSys.allocateOnPath cfg acc cache b ms = MemSys.allocate cfg cache b (ms.holderBeyond cfg acc cache b) false ms) ∨
    MemSys.allocateOnPath cfg acc cache b ms = ms := by
  unfold MemSys.allocateOnPath
  split
  · next h =>
    simp only [Bool.and_eq_true] at h
    exact .inl ⟨by simpa using h.2, rfl⟩
  · exact .inr rfl

@[simp] theorem MemSys.allocateOnPath_mem (cfg : Config) (acc : Access) (cache b : Nat) (ms : MemSys) :
    (MemSys.allocateOnPath cfg acc cache b ms).mem = ms.mem := by
  rcases MemSys.allocateOnPath_cases cfg acc cache b ms with ⟨-, h⟩ | h <;> rw [h]
  simp

theorem MemSys.allocateOnPath_wf {cfg : Config} {acc : Access} {cache b : Nat} {ms : MemSys} (hw : ms.wf cfg = true) :
    (MemSys.allocateOnPath cfg acc cache b ms).wf cfg = true := by
  rcases MemSys.allocateOnPath_cases cfg acc cache b ms with ⟨-, h⟩ | h <;> rw [h]
  · exact MemSys.allocate_wf hw
  · exact hw

theorem MemSys.copyAt_allocateOnPath_other {cfg : Config} {acc : Access} {cache b : Nat} {ms : MemSys} {cache' b' : Nat}
    (h : cache' ≠ cache ∨ b' ≠ b) :
    (MemSys.allocateOnPath cfg acc cache b ms).copyAt cache' b' = ms.copyAt cache' b' := by
  rcases MemSys.allocateOnPath_cases cfg acc cache b ms with ⟨-, h'⟩ | h' <;> rw [h']
  exact MemSys.copyAt_allocate_other h

/-! ### The transfer of a modified block toward memory (rules R66, R152 (a)) -/

theorem MemSys.updateCopy_wf {cfg : Config} {b : Nat} {data : List Byte} {ms : MemSys} (cache : Nat)
    (hw : ms.wf cfg = true) (hd : data.length = blockSize cfg) : (MemSys.updateCopy cfg b data ms cache).wf cfg = true := by
  unfold MemSys.updateCopy
  split
  · exact hw
  · next c hc =>
    refine MemSys.putCopy_wf hw ?_
    have := MemSys.copyAt_aligned hw hc
    simp [Copy.wf, this, hd]

@[simp] theorem MemSys.updateCopy_mem (cfg : Config) (b : Nat) (data : List Byte) (ms : MemSys) (cache : Nat) :
    (MemSys.updateCopy cfg b data ms cache).mem = ms.mem := by
  unfold MemSys.updateCopy
  split <;> rfl

theorem MemSys.copyAt_updateCopy_other {cfg : Config} {b : Nat} {data : List Byte} {ms : MemSys} {cache cache' b' : Nat}
    (h : cache' ≠ cache ∨ b' ≠ b) : (MemSys.updateCopy cfg b data ms cache).copyAt cache' b' = ms.copyAt cache' b' := by
  unfold MemSys.updateCopy
  split
  · rfl
  · exact MemSys.copyAt_putCopy_other _ _ h

theorem MemSys.transfer_wf {cfg : Config} {b : Nat} {data : List Byte} (hops : List Hop) {ms : MemSys}
    (hw : ms.wf cfg = true) (hd : data.length = blockSize cfg) : (MemSys.transfer cfg b data hops ms).wf cfg = true := by
  induction hops generalizing ms with
  | nil => exact MemSys.wf_setMem hw (Memory.writeBytes_wf data (MemSys.wf_mem hw))
  | cons h hs ih =>
    have hfold : (List.foldl (MemSys.updateCopy cfg b data) ms (hopCaches (hardwareCoherent cfg b) h)).wf cfg = true :=
      foldl_keeps (fun ms => ms.wf cfg = true) _ (fun _ c h => MemSys.updateCopy_wf c h hd) _ ms hw
    simp only [MemSys.transfer]
    split
    · exact hfold
    · exact ih hfold

/-- A transfer of a block changes no byte of memory outside the block. -/
theorem MemSys.read_transfer_other {cfg : Config} {b : Nat} {data : List Byte} (hops : List Hop) {ms : MemSys} {a : Nat}
    (h : a < b ∨ b + data.length ≤ a) :
    Memory.read (MemSys.transfer cfg b data hops ms).mem a = Memory.read ms.mem a := by
  have hfold : ∀ (ms : MemSys) (l : List Nat), (l.foldl (MemSys.updateCopy cfg b data) ms).mem = ms.mem := fun ms l =>
    foldl_keeps (fun ms' => ms'.mem = ms.mem) _ (fun _ c h => by simp [h]) l ms rfl
  induction hops generalizing ms with
  | nil => exact Memory.read_writeBytes_other _ _ h
  | cons hd hs ih =>
    simp only [MemSys.transfer]
    split
    · rw [hfold]
    · rw [ih, hfold]

/-- A transfer of a block changes no copy of another block. -/
theorem MemSys.copyAt_transfer_block {cfg : Config} {b : Nat} {data : List Byte} (hops : List Hop) {ms : MemSys}
    {cache b' : Nat} (h : b' ≠ b) : (MemSys.transfer cfg b data hops ms).copyAt cache b' = ms.copyAt cache b' := by
  have hfold : ∀ (ms : MemSys) (l : List Nat),
      (l.foldl (MemSys.updateCopy cfg b data) ms).copyAt cache b' = ms.copyAt cache b' := fun ms l =>
    foldl_keeps (fun ms' => ms'.copyAt cache b' = ms.copyAt cache b') _
      (fun _ c h' => by rw [MemSys.copyAt_updateCopy_other (Or.inr h), h']) l ms rfl
  induction hops generalizing ms with
  | nil => rfl
  | cons hd hs ih =>
    simp only [MemSys.transfer]
    split
    · exact hfold _ _
    · rw [ih]; exact hfold _ _

/-! ### Deallocation (rule R66) -/

/-- A copy a cache may give away is a whole block, Modified only where it may go as such. -/
theorem MemSys.deallocate_wf {cfg : Config} {cache b : Nat} {destination : Destination} {ms : MemSys}
    (hw : ms.wf cfg = true) : (MemSys.deallocate cfg cache b destination ms).wf cfg = true := by
  unfold MemSys.deallocate
  split
  · exact hw
  · next c hc =>
    split
    · cases destination with
      | dropped => exact MemSys.dropCopy_wf hw
      | memory => exact MemSys.wf_setMem (MemSys.dropCopy_wf hw) (Memory.writeBytes_wf _ (MemSys.wf_mem hw))
      | outward => exact MemSys.transfer_wf _ (MemSys.dropCopy_wf hw) (MemSys.copyAt_length hw hc)
      | cache d =>
        have hcw := MemSys.copyAt_wf hw hc
        have hput : ((ms.dropCopy cache b).putCopy d { c with modified := c.modified && tracks cfg d }).wf cfg = true := by
          refine MemSys.putCopy_wf (MemSys.dropCopy_wf hw) ?_
          simp only [Copy.wf, Bool.and_eq_true, beq_iff_eq] at hcw ⊢
          refine ⟨hcw.1, ?_⟩
          cases c.modified <;> simp
        simp only
        split
        · exact MemSys.wf_setMem hput (Memory.writeBytes_wf _ (MemSys.wf_mem hw))
        · exact hput
    · exact hw

/-- A deallocation changes no byte of memory outside the block. -/
theorem MemSys.read_deallocate_other {cfg : Config} {cache b : Nat} {destination : Destination} {ms : MemSys} {a : Nat}
    (hw : ms.wf cfg = true) (h : a < b ∨ b + blockSize cfg ≤ a) :
    Memory.read (MemSys.deallocate cfg cache b destination ms).mem a = Memory.read ms.mem a := by
  unfold MemSys.deallocate
  split
  · rfl
  · next c hc =>
    have hd := MemSys.copyAt_length hw hc
    split
    · cases destination with
      | dropped => rfl
      | memory => exact Memory.read_writeBytes_other _ _ (by omega)
      | outward => exact MemSys.read_transfer_other _ (by omega)
      | cache d =>
        simp only
        split
        · exact Memory.read_writeBytes_other _ _ (by omega)
        · rfl
    · rfl

/-- A deallocation changes no copy of another block. -/
theorem MemSys.copyAt_deallocate_block {cfg : Config} {cache b : Nat} {destination : Destination} {ms : MemSys}
    {cache' b' : Nat} (h : b' ≠ b) :
    (MemSys.deallocate cfg cache b destination ms).copyAt cache' b' = ms.copyAt cache' b' := by
  unfold MemSys.deallocate
  split
  · rfl
  · next c hc =>
    split
    · cases destination with
      | dropped => exact MemSys.copyAt_dropCopy_other _ (.inr h)
      | memory => exact MemSys.copyAt_dropCopy_other ms (.inr h)
      | outward => rw [MemSys.copyAt_transfer_block _ h]; exact MemSys.copyAt_dropCopy_other _ (.inr h)
      | cache d =>
        have hput : ((ms.dropCopy cache b).putCopy d { c with modified := c.modified && tracks cfg d }).copyAt cache' b' =
            ms.copyAt cache' b' := by
          rw [MemSys.copyAt_putCopy_other _ _ (.inr (by rw [(MemSys.copyAt_block hc).1]; exact h)),
            MemSys.copyAt_dropCopy_other _ (.inr h)]
        simp only
        split
        · exact hput
        · exact hput
    · rfl

/-! ### Management operations (rules R71 to R73, R152) -/

theorem pickCache_mem {tick : Nat} {l : List Nat} {c : Nat} (h : pickCache tick l = some c) : c ∈ l := by
  unfold pickCache at h
  split at h
  · simp at h
  · simp only [Option.some.injEq] at h; simp [h]
  · exact List.mem_of_getElem? h

/-- A choice among caches is made wherever there is one to choose. -/
theorem pickCache_some {tick : Nat} {l : List Nat} (h : l ≠ []) : ∃ c, pickCache tick l = some c := by
  unfold pickCache
  split
  · exact absurd rfl h
  · exact ⟨_, rfl⟩
  · next c d rest =>
    have : Config.freeNat tick .survivor % (rest.length + 2) < (c :: d :: rest).length := by
      have := Nat.mod_lt (Config.freeNat tick .survivor) (show 0 < rest.length + 2 by omega)
      simp only [List.length_cons]; omega
    exact ⟨_, List.getElem?_eq_getElem this⟩

/-- The newest of some caches are among them, and are some where there are any. -/
theorem MemSys.newest_subset {cfg : Config} {b : Nat} {set : List Nat} {bound : List LatestByte} {ms : MemSys} {l : List Nat} :
    ms.newest cfg b set bound l ⊆ l := by
  unfold MemSys.newest
  simp only
  split
  · exact fun _ h => h
  · exact List.filter_subset_self _

theorem MemSys.newest_ne_nil {cfg : Config} {b : Nat} {set : List Nat} {bound : List LatestByte} {ms : MemSys} {l : List Nat}
    (h : l ≠ []) : ms.newest cfg b set bound l ≠ [] := by
  unfold MemSys.newest
  simp only
  split
  · exact h
  · next h' => simpa using h'

/-- The bytes made visible are those of a Modified copy of the set. -/
theorem MemSys.transferred_mem {cfg : Config} {tick : Nat} {op : CacheOp} {set : List Nat} {b : Nat}
    {bound : List LatestByte} {ms : MemSys} {d : List Byte} (h : ms.transferred cfg tick op set b bound = some d) :
    ∃ c ∈ set, ∃ copy, ms.copyAt c b = some copy ∧ copy.modified = true ∧ copy.data = d := by
  unfold MemSys.transferred at h
  split at h
  · simp at h
  · next c hc =>
    have hm : c ∈ set ∧ ms.isModified c b = true := by
      have := MemSys.newest_subset (pickCache_mem hc)
      unfold MemSys.transferring at this
      cases op <;> simp_all
    split at h
    · simp at h
    · next copy hcopy =>
      refine ⟨c, hm.1, copy, hcopy, ?_, by simpa using h⟩
      simpa [MemSys.isModified, hcopy] using hm.2

theorem MemSys.settle_wf {cfg : Config} {tick : Nat} {op : CacheOp} {b : Nat} {data : Option (List Byte)} {ms : MemSys}
    (cache : Nat) (hw : ms.wf cfg = true) (hd : ∀ d, data = some d → d.length = blockSize cfg) :
    (MemSys.settle cfg tick op b data ms cache).wf cfg = true := by
  unfold MemSys.settle
  split
  · exact hw
  · next c hc =>
    have hcw := MemSys.copyAt_wf hw hc
    simp only [Copy.wf, Bool.and_eq_true, beq_iff_eq] at hcw
    cases op with
    | clean =>
      simp only
      split
      · exact MemSys.dropCopy_wf hw
      · refine MemSys.putCopy_wf hw ?_
        have : (data.getD c.data).length = blockSize cfg := by
          cases hdata : data with
          | none => exact hcw.1.2
          | some d => exact hd d hdata
        simp [Copy.wf, hcw.1.1, this]
    | invalidate => exact MemSys.dropCopy_wf hw
    | flush => exact MemSys.dropCopy_wf hw

@[simp] theorem MemSys.settle_mem (cfg : Config) (tick : Nat) (op : CacheOp) (b : Nat) (data : Option (List Byte))
    (ms : MemSys) (cache : Nat) : (MemSys.settle cfg tick op b data ms cache).mem = ms.mem := by
  unfold MemSys.settle
  split
  · rfl
  · cases op with
    | clean => simp only; split <;> rfl
    | invalidate => rfl
    | flush => rfl

/-- An operation on one cache changes that block of that cache alone. -/
theorem MemSys.copyAt_settle_other {cfg : Config} {tick : Nat} {op : CacheOp} {b : Nat} {data : Option (List Byte)}
    {ms : MemSys} {cache cache' b' : Nat} (h : cache' ≠ cache ∨ b' ≠ b) :
    (MemSys.settle cfg tick op b data ms cache).copyAt cache' b' = ms.copyAt cache' b' := by
  unfold MemSys.settle
  split
  · rfl
  · next c hc =>
    have hb := (MemSys.copyAt_block hc).1
    cases op with
    | clean =>
      simp only
      split
      · exact MemSys.copyAt_dropCopy_other _ h
      · exact MemSys.copyAt_putCopy_other _ _ (by simpa [hb] using h)
    | invalidate => exact MemSys.copyAt_dropCopy_other _ h
    | flush => exact MemSys.copyAt_dropCopy_other _ h

/-- A transfer to another cache is an allocation there, outside the set, that takes no Modified block off the path of the
hart's loads, keeps the domains' agreement and hides no latest store; or nothing. -/
theorem MemSys.give_cases (cfg : Config) (tick : Nat) (op : CacheOp) (set : List Nat) (b : Nat)
    (data : Option (List Byte)) (bound : List LatestByte) (ms : MemSys) (cache : Nat) :
    (∃ target c, target ∉ set ∧ cfg.cacheTransfers ≠ .no ∧ ms.copyAt cache b = some c ∧ mayGive op data c = true ∧
      ms.takesOut cfg b (some cache) (some target) = false ∧
      (MemSys.give cfg tick op set b data bound ms cache).agrees cfg b = true ∧
      bound.all (·.held cfg (MemSys.give cfg tick op set b data bound ms cache)) = true ∧
      MemSys.give cfg tick op set b data bound ms cache = MemSys.allocate cfg target b (some cache) true ms) ∨
    MemSys.give cfg tick op set b data bound ms cache = ms := by
  unfold MemSys.give
  split
  · exact .inr rfl
  · next c hc =>
    simp only
    split
    · next h =>
      simp only [Bool.and_eq_true, Bool.not_eq_true'] at h
      refine .inl ⟨_, c, ?_, ?_, hc, h.1.1.1.1.2, h.1.1.2, h.1.2, h.2, rfl⟩
      · simpa using h.1.1.1.2
      · intro hno
        have := h.1.1.1.1.1
        simp [hno, resolve] at this
    · exact .inr rfl

@[simp] theorem MemSys.give_mem (cfg : Config) (tick : Nat) (op : CacheOp) (set : List Nat) (b : Nat)
    (data : Option (List Byte)) (bound : List LatestByte) (ms : MemSys) (cache : Nat) :
    (MemSys.give cfg tick op set b data bound ms cache).mem = ms.mem := by
  rcases MemSys.give_cases cfg tick op set b data bound ms cache with ⟨t, c, -, -, -, -, -, -, -, h⟩ | h <;> rw [h]
  simp

theorem MemSys.give_wf {cfg : Config} {tick : Nat} {op : CacheOp} {set : List Nat} {b : Nat}
    {data : Option (List Byte)} {bound : List LatestByte} {ms : MemSys} (cache : Nat) (hw : ms.wf cfg = true) :
    (MemSys.give cfg tick op set b data bound ms cache).wf cfg = true := by
  rcases MemSys.give_cases cfg tick op set b data bound ms cache with ⟨t, c, -, -, -, -, -, -, -, h⟩ | h <;> rw [h]
  · exact MemSys.allocate_wf hw
  · exact hw

/-- A transfer to another cache changes no copy of the set, and none of another block. -/
theorem MemSys.copyAt_give {cfg : Config} {tick : Nat} {op : CacheOp} {set : List Nat} {b : Nat}
    {data : Option (List Byte)} {bound : List LatestByte} {ms : MemSys} {cache cache' b' : Nat}
    (h : cache' ∈ set ∨ b' ≠ b ∨ cfg.cacheTransfers = .no) :
    (MemSys.give cfg tick op set b data bound ms cache).copyAt cache' b' = ms.copyAt cache' b' := by
  rcases MemSys.give_cases cfg tick op set b data bound ms cache with ⟨t, c, ht, hno, -, -, -, -, -, h'⟩ | h' <;> rw [h']
  refine MemSys.copyAt_allocate_other ?_
  rcases h with h | h | h
  · exact .inl fun e => ht (e ▸ h)
  · exact .inr h
  · exact absurd h hno

/-- The transfers to other caches an operation makes, one per cache of a list. -/
def MemSys.gives (cfg : Config) (tick : Nat) (op : CacheOp) (set : List Nat) (b : Nat) (data : Option (List Byte))
    (bound : List LatestByte) (givers : List Nat) (ms : MemSys) : MemSys := givers.foldl (MemSys.give cfg tick op set b data bound) ms

@[simp] theorem MemSys.gives_mem (cfg : Config) (tick : Nat) (op : CacheOp) (set : List Nat) (b : Nat)
    (data : Option (List Byte)) (bound : List LatestByte) (l : List Nat) (ms : MemSys) : (ms.gives cfg tick op set b data bound l).mem = ms.mem :=
  foldl_keeps (fun ms' : MemSys => ms'.mem = ms.mem) _ (fun _ _ h => by simp [h]) l ms rfl

theorem MemSys.gives_wf {cfg : Config} {tick : Nat} {op : CacheOp} {set : List Nat} {b : Nat}
    {data : Option (List Byte)} {bound : List LatestByte} {ms : MemSys} (l : List Nat) (hw : ms.wf cfg = true) :
    (ms.gives cfg tick op set b data bound l).wf cfg = true :=
  foldl_keeps (fun ms' : MemSys => ms'.wf cfg = true) _ (fun _ c h => MemSys.give_wf c h) l ms hw

theorem MemSys.copyAt_gives {cfg : Config} {tick : Nat} {op : CacheOp} {set : List Nat} {b : Nat}
    {data : Option (List Byte)} {bound : List LatestByte} {ms : MemSys} {cache' b' : Nat} (l : List Nat)
    (h : cache' ∈ set ∨ b' ≠ b ∨ cfg.cacheTransfers = .no) :
    (ms.gives cfg tick op set b data bound l).copyAt cache' b' = ms.copyAt cache' b' :=
  foldl_keeps (fun ms' : MemSys => ms'.copyAt cache' b' = ms.copyAt cache' b') _
    (fun _ _ h' => by rw [MemSys.copyAt_give h, h']) l ms rfl

theorem MemSys.transferred_length {cfg : Config} {tick : Nat} {op : CacheOp} {set : List Nat} {b : Nat}
    {bound : List LatestByte} {ms : MemSys} {d : List Byte} (hw : ms.wf cfg = true) (h : ms.transferred cfg tick op set b bound = some d) :
    d.length = blockSize cfg := by
  obtain ⟨c, -, copy, hc, -, rfl⟩ := MemSys.transferred_mem h
  exact MemSys.copyAt_length hw hc

/-- The state of memory and caches before an operation settles: its transfers made, the bytes it transfers toward memory,
if any, visible at the PoC. -/
def MemSys.visible (cfg : Config) (tick : Nat) (op : CacheOp) (set : List Nat) (beyond : List Hop) (b : Nat)
    (bound : List LatestByte) (ms : MemSys) : MemSys :=
  match ms.transferred cfg tick op set b bound with
  | none => ms.gives cfg tick op set b (ms.transferred cfg tick op set b bound) bound set
  | some d => MemSys.transfer cfg b d beyond (ms.gives cfg tick op set b (ms.transferred cfg tick op set b bound) bound set)

theorem MemSys.manage_eq (cfg : Config) (tick : Nat) (op : CacheOp) (set : List Nat) (beyond : List Hop) (b : Nat)
    (bound : List LatestByte) (ms : MemSys) :
    MemSys.manage cfg tick op set beyond b bound ms =
      set.foldl (MemSys.settle cfg tick op b (ms.transferred cfg tick op set b bound)) (ms.visible cfg tick op set beyond b bound) :=
  rfl

theorem MemSys.visible_wf {cfg : Config} {tick : Nat} {op : CacheOp} {set : List Nat} {beyond : List Hop} {b : Nat}
    {bound : List LatestByte} {ms : MemSys} (hw : ms.wf cfg = true) : (ms.visible cfg tick op set beyond b bound).wf cfg = true := by
  unfold MemSys.visible
  split
  · exact MemSys.gives_wf _ hw
  · next d hd => exact MemSys.transfer_wf _ (MemSys.gives_wf _ hw) (MemSys.transferred_length hw hd)

theorem MemSys.manage_wf {cfg : Config} {tick : Nat} {op : CacheOp} {set : List Nat} {beyond : List Hop} {b : Nat}
    {bound : List LatestByte} {ms : MemSys} (hw : ms.wf cfg = true) : (MemSys.manage cfg tick op set beyond b bound ms).wf cfg = true := by
  rw [MemSys.manage_eq]
  exact foldl_keeps (fun ms : MemSys => ms.wf cfg = true) _
    (fun _ c h => MemSys.settle_wf c h fun d h => MemSys.transferred_length hw h) _ _ (MemSys.visible_wf hw)

theorem MemSys.manageAt_wf {cfg : Config} {tick : Nat} {op : CacheOp} {acc : Access} {pa : Nat} {poc : Poc}
    {bound : List LatestByte} {ms : MemSys} (hw : ms.wf cfg = true) : (MemSys.manageAt cfg tick op acc pa poc bound ms).wf cfg = true :=
  MemSys.manage_wf hw

theorem MemSys.settles_mem {cfg : Config} {tick : Nat} {op : CacheOp} {b : Nat} {data : Option (List Byte)}
    (set : List Nat) (ms : MemSys) : (set.foldl (MemSys.settle cfg tick op b data) ms).mem = ms.mem :=
  foldl_keeps (fun ms' => ms'.mem = ms.mem) _ (fun _ c h => by simp [h]) set ms rfl

/-- A management operation changes no byte of memory outside the block. -/
theorem MemSys.read_manage_other {cfg : Config} {tick : Nat} {op : CacheOp} {set : List Nat} {beyond : List Hop}
    {b : Nat} {bound : List LatestByte} {ms : MemSys} {a : Nat} (hw : ms.wf cfg = true) (h : a < b ∨ b + blockSize cfg ≤ a) :
    Memory.read (MemSys.manage cfg tick op set beyond b bound ms).mem a = Memory.read ms.mem a := by
  rw [MemSys.manage_eq, MemSys.settles_mem]
  unfold MemSys.visible
  split
  · simp
  · next d hd =>
    have := MemSys.transferred_length hw hd
    rw [MemSys.read_transfer_other _ (by omega), MemSys.gives_mem]

/-- A management operation changes no copy of another block. -/
theorem MemSys.copyAt_manage_block {cfg : Config} {tick : Nat} {op : CacheOp} {set : List Nat} {beyond : List Hop}
    {b : Nat} {bound : List LatestByte} {ms : MemSys} {cache b' : Nat} (h : b' ≠ b) :
    (MemSys.manage cfg tick op set beyond b bound ms).copyAt cache b' = ms.copyAt cache b' := by
  rw [MemSys.manage_eq]
  refine foldl_keeps (fun ms' : MemSys => ms'.copyAt cache b' = ms.copyAt cache b') _
    (fun _ c h' => by rw [MemSys.copyAt_settle_other (Or.inr h), h']) _ _ ?_
  unfold MemSys.visible
  split
  · exact MemSys.copyAt_gives _ (.inr (.inl h))
  · rw [MemSys.copyAt_transfer_block _ h]; exact MemSys.copyAt_gives _ (.inr (.inl h))

/-! ### A block that leaves the caches the hart reaches (rules R66, R103) -/

theorem MemSys.dropCopies_wf {cfg : Config} {b : Nat} (l : List Nat) {ms : MemSys} (hw : ms.wf cfg = true) :
    (l.foldl (fun ms c => ms.dropCopy c b) ms).wf cfg = true :=
  foldl_keeps (fun ms : MemSys => ms.wf cfg = true) _ (fun _ _ h => MemSys.dropCopy_wf h) l ms hw

@[simp] theorem MemSys.dropCopies_mem (b : Nat) (l : List Nat) (ms : MemSys) :
    (l.foldl (fun ms c => ms.dropCopy c b) ms).mem = ms.mem :=
  foldl_keeps (fun ms' : MemSys => ms'.mem = ms.mem) _ (fun _ _ h => by simp [h]) l ms rfl

theorem MemSys.copyAt_dropCopies {cfg : Config} {b : Nat} (l : List Nat) {ms : MemSys} (hw : ms.wf cfg = true)
    (cache b' : Nat) :
    (l.foldl (fun ms c => ms.dropCopy c b) ms).copyAt cache b' =
      if cache ∈ l ∧ b' = b then none else ms.copyAt cache b' := by
  induction l generalizing ms with
  | nil => simp
  | cons d ds ih =>
    rw [List.foldl_cons, ih (MemSys.dropCopy_wf hw)]
    by_cases hb : b' = b
    · subst hb
      by_cases hd : cache = d
      · subst hd
        simp [MemSys.copyAt_dropCopy_same hw]
      · simp [hd, MemSys.copyAt_dropCopy_other ms (.inl hd)]
    · simp [hb, MemSys.copyAt_dropCopy_other ms (.inr hb)]

theorem MemSys.firstModified_mem {ms : MemSys} {l : List Nat} {b : Nat} {d : List Byte}
    (h : ms.firstModified l b = some d) : ∃ c ∈ l, ∃ copy, ms.copyAt c b = some copy ∧ copy.modified = true ∧ copy.data = d := by
  obtain ⟨c, hc, h⟩ := List.exists_of_findSome?_eq_some h
  obtain ⟨copy, h1, h2⟩ := Option.bind_eq_some_iff.mp h
  split at h2
  · next hm => exact ⟨c, hc, copy, h1, hm, by simpa using h2⟩
  · simp at h2

theorem MemSys.copyAt_emptyBlock {cfg : Config} {ms : MemSys} {b : Nat} (hw : ms.wf cfg = true) (cache b' : Nat) :
    (ms.emptyBlock cfg b).copyAt cache b' =
      if cache ∈ hartCaches cfg b ∧ b' = b then none else ms.copyAt cache b' := by
  unfold MemSys.emptyBlock
  simp only
  split
  · exact MemSys.copyAt_dropCopies _ hw cache b'
  · exact MemSys.copyAt_dropCopies _ hw cache b'

theorem MemSys.emptyBlock_wf {cfg : Config} {ms : MemSys} (b : Nat) (hw : ms.wf cfg = true) :
    (ms.emptyBlock cfg b).wf cfg = true := by
  unfold MemSys.emptyBlock
  simp only
  split
  · exact MemSys.dropCopies_wf _ hw
  · exact MemSys.wf_setMem (MemSys.dropCopies_wf _ hw) (Memory.writeBytes_wf _ (MemSys.wf_mem hw))

/-! ### A block that is written back and shown to the fetches (rules R66, R103) -/

theorem MemSys.firstModified_length {cfg : Config} {ms : MemSys} {l : List Nat} {b : Nat} {d : List Byte}
    (hw : ms.wf cfg = true) (h : ms.firstModified l b = some d) : d.length = blockSize cfg := by
  obtain ⟨c, -, copy, hc, -, rfl⟩ := MemSys.firstModified_mem h
  exact MemSys.copyAt_length hw hc

theorem MemSys.cleanCopy_wf {cfg : Config} {b : Nat} {data : List Byte} {ms : MemSys} (cache : Nat)
    (hw : ms.wf cfg = true) (hd : data.length = blockSize cfg) : (MemSys.cleanCopy b data ms cache).wf cfg = true := by
  unfold MemSys.cleanCopy
  split
  · exact hw
  · next c hc =>
    refine MemSys.putCopy_wf hw ?_
    have := MemSys.copyAt_aligned hw hc
    simp [Copy.wf, this, hd]

theorem MemSys.copyAt_cleanCopy_other {b : Nat} {data : List Byte} {ms : MemSys} {cache cache' b' : Nat}
    (h : cache' ≠ cache ∨ b' ≠ b) : (MemSys.cleanCopy b data ms cache).copyAt cache' b' = ms.copyAt cache' b' := by
  unfold MemSys.cleanCopy
  split
  · rfl
  · exact MemSys.copyAt_putCopy_other _ _ h

/-- After the copies of a list of caches are cleaned, each that holds the block holds the bytes, Unmodified. -/
theorem MemSys.copyAt_cleanCopies {b : Nat} {data : List Byte} (caches : List Nat) {ms : MemSys} (cache b' : Nat) :
    (caches.foldl (MemSys.cleanCopy b data) ms).copyAt cache b' =
      if cache ∈ caches ∧ b' = b then (ms.copyAt cache b).map fun _ => { block := b, modified := false, data := data }
      else ms.copyAt cache b' := by
  induction caches generalizing ms with
  | nil => simp
  | cons d ds ih =>
    rw [List.foldl_cons, ih]
    by_cases hb : b' = b
    · subst hb
      by_cases hd : cache = d
      · subst hd
        have hsame : (MemSys.cleanCopy b' data ms cache).copyAt cache b' =
            (ms.copyAt cache b').map fun _ => { block := b', modified := false, data := data } := by
          unfold MemSys.cleanCopy
          cases hc : ms.copyAt cache b' with
          | none => simp [hc]
          | some c =>
            exact MemSys.copyAt_putCopy_same ms { block := b', modified := false, data := data }
              (MemSys.copyAt_block hc).2
        rw [hsame]
        cases ms.copyAt cache b' <;> simp
      · rw [MemSys.copyAt_cleanCopy_other (.inl hd)]
        simp [hd]
    · simp [hb, MemSys.copyAt_cleanCopy_other (.inr hb)]

/-- What a write-back leaves in each cache: where one of the list holds the block Modified, each of the list that holds
it holds the bytes of the first such copy, Unmodified. -/
theorem MemSys.copyAt_writeBack {ms : MemSys} (caches : List Nat) (b cache b' : Nat) :
    (ms.writeBack caches b).copyAt cache b' =
      match ms.firstModified caches b with
      | none => ms.copyAt cache b'
      | some d =>
        if cache ∈ caches ∧ b' = b then (ms.copyAt cache b).map fun _ => { block := b, modified := false, data := d }
        else ms.copyAt cache b' := by
  cases h : ms.firstModified caches b with
  | none => simp [MemSys.writeBack, h]
  | some d =>
    simp only [MemSys.writeBack, h]
    exact MemSys.copyAt_cleanCopies caches cache b'

/-- Memory after a write-back: the bytes of the first Modified copy, where there is one. -/
theorem MemSys.writeBack_mem {ms : MemSys} (caches : List Nat) (b : Nat) :
    (ms.writeBack caches b).mem =
      match ms.firstModified caches b with
      | none => ms.mem
      | some d => Memory.writeBytes ms.mem b d := by
  cases h : ms.firstModified caches b with
  | none => simp [MemSys.writeBack, h]
  | some d =>
    have : (caches.foldl (MemSys.cleanCopy b d) ms).mem = ms.mem :=
      foldl_keeps (fun ms' : MemSys => ms'.mem = ms.mem) _ (fun ms' c h => by
        rw [← h]; unfold MemSys.cleanCopy; split <;> rfl) _ _ rfl
    simp only [MemSys.writeBack, h, this]

theorem MemSys.writeBack_wf {cfg : Config} {ms : MemSys} (caches : List Nat) (b : Nat) (hw : ms.wf cfg = true) :
    (ms.writeBack caches b).wf cfg = true := by
  unfold MemSys.writeBack
  split
  · exact hw
  · next d hd =>
    have := foldl_keeps (fun ms : MemSys => ms.wf cfg = true) (MemSys.cleanCopy b d)
      (fun _ c h => MemSys.cleanCopy_wf c h (MemSys.firstModified_length hw hd)) caches ms hw
    exact MemSys.wf_setMem this (Memory.writeBytes_wf _ (MemSys.wf_mem this))

/-- What showing a byte to the fetches makes of a copy. -/
def syncedCopy (cfg : Config) (pa : Nat) (v : Byte) (c : Copy) : Option Copy :=
  if c.data.getD (pa % blockSize cfg) Memory.unwritten = v then some c
  else if c.modified then some { c with data := c.data.set (pa % blockSize cfg) v }
  else none

theorem MemSys.syncCopy_wf {cfg : Config} {pa : Nat} {v : Byte} {ms : MemSys} (cache : Nat) (hw : ms.wf cfg = true) :
    (MemSys.syncCopy cfg pa v ms cache).wf cfg = true := by
  unfold MemSys.syncCopy
  split
  · exact hw
  · next c hc =>
    split
    · exact hw
    · split
      · refine MemSys.putCopy_wf hw ?_
        have hcw := MemSys.copyAt_wf hw hc
        simpa [Copy.wf] using hcw
      · exact MemSys.dropCopy_wf hw

@[simp] theorem MemSys.syncCopy_mem (cfg : Config) (pa : Nat) (v : Byte) (ms : MemSys) (cache : Nat) :
    (MemSys.syncCopy cfg pa v ms cache).mem = ms.mem := by
  unfold MemSys.syncCopy
  split
  · rfl
  · split
    · rfl
    · split <;> rfl

theorem MemSys.copyAt_syncCopy_other {cfg : Config} {pa : Nat} {v : Byte} {ms : MemSys} {cache cache' b' : Nat}
    (h : cache' ≠ cache ∨ b' ≠ blockBase cfg pa) :
    (MemSys.syncCopy cfg pa v ms cache).copyAt cache' b' = ms.copyAt cache' b' := by
  unfold MemSys.syncCopy
  split
  · rfl
  · next c hc =>
    split
    · rfl
    · split
      · exact MemSys.copyAt_putCopy_other _ _ (by rw [(MemSys.copyAt_block hc).1]; exact h)
      · exact MemSys.copyAt_dropCopy_other _ h

/-- What showing a byte to the fetches leaves in each cache of their path. -/
theorem MemSys.copyAt_syncCopies {cfg : Config} {pa : Nat} {v : Byte} (caches : List Nat) {ms : MemSys}
    (hw : ms.wf cfg = true) (cache b' : Nat) :
    (caches.foldl (MemSys.syncCopy cfg pa v) ms).copyAt cache b' =
      if cache ∈ caches ∧ b' = blockBase cfg pa then (ms.copyAt cache b').bind (syncedCopy cfg pa v)
      else ms.copyAt cache b' := by
  have hlen : ∀ (ms : MemSys), ms.wf cfg = true → ∀ c, ms.copyAt cache (blockBase cfg pa) = some c →
      pa % blockSize cfg < c.data.length := fun ms hw c h => by
    rw [MemSys.copyAt_length hw h]; exact Nat.mod_lt _ (Nat.two_pow_pos _)
  induction caches generalizing ms with
  | nil => simp
  | cons d ds ih =>
    rw [List.foldl_cons, ih (MemSys.syncCopy_wf d hw)]
    by_cases hb : b' = blockBase cfg pa
    · subst hb
      by_cases hd : cache = d
      · subst hd
        have hsame : (MemSys.syncCopy cfg pa v ms cache).copyAt cache (blockBase cfg pa) =
            (ms.copyAt cache (blockBase cfg pa)).bind (syncedCopy cfg pa v) := by
          unfold MemSys.syncCopy
          cases hc : ms.copyAt cache (blockBase cfg pa) with
          | none => simp [hc]
          | some c =>
            obtain ⟨hcb, hlt⟩ := MemSys.copyAt_block hc
            simp only [Option.bind_some, syncedCopy]
            split
            · exact hc
            · split
              · exact hcb ▸ MemSys.copyAt_putCopy_same ms { c with data := c.data.set (pa % blockSize cfg) v } hlt
              · exact MemSys.copyAt_dropCopy_same hw
        rw [hsame]
        cases hc : ms.copyAt cache (blockBase cfg pa) with
        | none => simp
        | some c =>
          have hidem : (syncedCopy cfg pa v c).bind (syncedCopy cfg pa v) = syncedCopy cfg pa v c := by
            unfold syncedCopy
            split
            · simp only [Option.bind_some]
              rw [if_pos ‹_›]
            · split
              · simp [List.getD, hlen ms hw c hc]
              · rfl
          simp only [Option.bind_some, hidem]
          simp
      · rw [MemSys.copyAt_syncCopy_other (.inl hd)]
        simp [hd]
    · simp [hb, MemSys.copyAt_syncCopy_other (.inr hb)]

theorem MemSys.syncCopies_wf {cfg : Config} {pa : Nat} {v : Byte} (caches : List Nat) {ms : MemSys}
    (hw : ms.wf cfg = true) : (caches.foldl (MemSys.syncCopy cfg pa v) ms).wf cfg = true :=
  foldl_keeps (fun ms : MemSys => ms.wf cfg = true) _ (fun _ c h => MemSys.syncCopy_wf c h) _ _ hw

theorem MemSys.showToFetches_wf {cfg : Config} {memType pa : Nat} {ms : MemSys} (hw : ms.wf cfg = true) :
    (MemSys.showToFetches cfg memType pa ms).wf cfg = true :=
  MemSys.syncCopies_wf _ (MemSys.writeBack_wf _ _ hw)

end Sys2Proof.Machine
end

