-- ==== Sys2Proof/Laws/Topology.lean ====
section
/-!
SUPPORT. Block arithmetic (rule R90) and the paths of the topology.
-/

namespace Sys2Proof.Machine

theorem blockSize_pos (cfg : Config) : 0 < blockSize cfg := Nat.two_pow_pos _

theorem blockBase_le (cfg : Config) (a : Nat) : blockBase cfg a ≤ a := Nat.sub_le _ _

theorem blockBase_add_offset (cfg : Config) (a : Nat) : blockBase cfg a + a % blockSize cfg = a :=
  Nat.sub_add_cancel (Nat.mod_le _ _)

theorem lt_blockBase_add (cfg : Config) (a : Nat) : a < blockBase cfg a + blockSize cfg := by
  have := blockBase_add_offset cfg a
  have := Nat.mod_lt a (blockSize_pos cfg)
  omega

/-- A block base is a multiple of the block size. -/
theorem blockBase_mod (cfg : Config) (a : Nat) : blockBase cfg a % blockSize cfg = 0 := by
  have h : blockBase cfg a = blockSize cfg * (a / blockSize cfg) := by
    have := Nat.div_add_mod a (blockSize cfg)
    unfold blockBase
    omega
  rw [h]
  exact Nat.mul_mod_right _ _

/-- Every address of a block has the block's base. -/
theorem blockBase_add (cfg : Config) {b i : Nat} (hb : b % blockSize cfg = 0) (hi : i < blockSize cfg) :
    blockBase cfg (b + i) = b := by
  have : (b + i) % blockSize cfg = i := by rw [Nat.add_mod, hb, Nat.zero_add, Nat.mod_mod, Nat.mod_eq_of_lt hi]
  unfold blockBase
  omega

@[simp] theorem blockBase_blockBase (cfg : Config) (a : Nat) : blockBase cfg (blockBase cfg a) = blockBase cfg a := by
  simpa using blockBase_add cfg (blockBase_mod cfg a) (blockSize_pos cfg)

theorem mem_blockAddresses {cfg : Config} {a pa : Nat} :
    a ∈ blockAddresses cfg pa ↔ blockBase cfg pa ≤ a ∧ a < blockBase cfg pa + blockSize cfg := by
  simp only [blockAddresses, List.mem_map, List.mem_range]
  constructor
  · rintro ⟨i, hi, rfl⟩
    omega
  · rintro ⟨h1, h2⟩
    exact ⟨a - blockBase cfg pa, by omega, by omega⟩

theorem not_mem_blockAddresses {cfg : Config} {a pa : Nat} (h : a ∉ blockAddresses cfg pa) :
    a < blockBase cfg pa ∨ blockBase cfg pa + blockSize cfg ≤ a := by
  rw [mem_blockAddresses] at h
  omega

/-- The addresses of a block are those with its base. -/
theorem mem_blockAddresses_iff_base {cfg : Config} {a pa : Nat} :
    a ∈ blockAddresses cfg pa ↔ blockBase cfg a = blockBase cfg pa := by
  rw [mem_blockAddresses]
  constructor
  · rintro ⟨h1, h2⟩
    have : blockBase cfg (blockBase cfg pa + (a - blockBase cfg pa)) = blockBase cfg pa :=
      blockBase_add cfg (blockBase_mod cfg pa) (by omega)
    rwa [show blockBase cfg pa + (a - blockBase cfg pa) = a by omega] at this
  · intro h
    have := blockBase_le cfg a
    have := lt_blockBase_add cfg a
    omega

theorem mem_blockAddresses_self (cfg : Config) (pa : Nat) : pa ∈ blockAddresses cfg pa :=
  mem_blockAddresses_iff_base.mpr rfl

@[simp] theorem blockAddresses_length (cfg : Config) (pa : Nat) : (blockAddresses cfg pa).length = blockSize cfg := by
  simp [blockAddresses]

end Sys2Proof.Machine
end

