-- ==== Sys2Proof/Laws/Coherence.lean ====
section
/-!
SUPPORT. What the operations of rules R65 to R73 make of the copies of their own block: the value an access along a path
reads (`Holds`), what a data write leaves in each cache, what a management operation leaves in its set, and what a
transfer leaves of a modified block.
-/

namespace Sys2Proof.Machine

/-! ### The value an access reads -/

/-- What `MemSys.heldAlong` says: every copy of the byte's block that an access along the domains can meet, up to the
first domain with a Modified copy, holds one of `vs` at the byte, and so does memory where there is none. -/
def Holds (cfg : Config) (ms : MemSys) (pa : Nat) (vs : List Byte) : List Hop → Prop
  | [] => Memory.read ms.mem pa ∈ vs
  | h :: hs =>
    (∀ cache ∈ hopCaches (hardwareCoherent cfg (blockBase cfg pa)) h, ∀ c, ms.copyAt cache (blockBase cfg pa) = some c →
      c.data.getD (pa % blockSize cfg) 0#8 ∈ vs) ∧
    ((∃ cache ∈ hopCaches (hardwareCoherent cfg (blockBase cfg pa)) h,
        ms.isModified cache (blockBase cfg pa) = true) ∨
      Holds cfg ms pa vs hs)

theorem MemSys.heldAlong_iff {cfg : Config} {ms : MemSys} {pa : Nat} {vs : List Byte} {hops : List Hop} :
    ms.heldAlong cfg pa vs hops = true ↔ Holds cfg ms pa vs hops := by
  induction hops with
  | nil => simp [MemSys.heldAlong, Holds]
  | cons h hs ih =>
    simp only [MemSys.heldAlong, Holds, Bool.and_eq_true, Bool.or_eq_true, List.all_eq_true, List.any_eq_true, ih]
    refine and_congr (forall₂_congr fun c _ => ?_) Iff.rfl
    cases ms.copyAt c (blockBase cfg pa) <;> simp [Memory.unwritten]

theorem MemSys.isModified_iff {ms : MemSys} {cache b : Nat} :
    ms.isModified cache b = true ↔ ∃ c, ms.copyAt cache b = some c ∧ c.modified = true := by
  unfold MemSys.isModified
  cases ms.copyAt cache b <;> simp

/-- A cache that holds a Modified block tracks that state (rule R43). -/
theorem MemSys.isModified_tracks {cfg : Config} {ms : MemSys} {cache b : Nat} {c : Copy} (hw : ms.wf cfg = true)
    (h : ms.copyAt cache b = some c) (hm : c.modified = true) : tracks cfg cache = true := by
  have := MemSys.copyAt_wf hw h
  simp only [Copy.wf, hm, Bool.and_eq_true, Bool.not_true, Bool.or_false] at this
  exact this.2

theorem MemSys.absorbs_iff {cfg : Config} {ms : MemSys} {caches : List Nat} {b : Nat} :
    ms.absorbs cfg caches b = true ↔ ∃ cache ∈ caches, tracks cfg cache = true ∧ ∃ c, ms.copyAt cache b = some c := by
  simp [MemSys.absorbs, Option.isSome_iff_exists]

theorem MemSys.firstCopy_append (ms : MemSys) (l l' : List Nat) (b : Nat) :
    ms.firstCopy (l ++ l') b = (ms.firstCopy l b).or (ms.firstCopy l' b) := by
  simp [MemSys.firstCopy, List.findSome?_append]

theorem MemSys.firstCopy_none {ms : MemSys} {l : List Nat} {b : Nat} (h : ms.firstCopy l b = none) :
    ∀ cache ∈ l, ms.copyAt cache b = none := by
  simpa [MemSys.firstCopy] using h

/-- An access along a path reads one of the bytes the path holds. -/
theorem Holds.reads {cfg : Config} {ms : MemSys} {pa : Nat} {vs : List Byte} {hops : List Hop}
    (h : Holds cfg ms pa vs hops) :
    (match ms.firstCopy (hops.flatMap (hopCaches (hardwareCoherent cfg (blockBase cfg pa)))) (blockBase cfg pa) with
      | some c => c.data.getD (pa % blockSize cfg) Memory.unwritten
      | none => Memory.read ms.mem pa) ∈ vs := by
  induction hops with
  | nil => exact h
  | cons d hs ih =>
    rw [List.flatMap_cons, MemSys.firstCopy_append]
    cases hf : ms.firstCopy (hopCaches (hardwareCoherent cfg (blockBase cfg pa)) d) (blockBase cfg pa) with
    | some c =>
      obtain ⟨cache, hm, hc⟩ := MemSys.firstCopy_mem hf
      exact h.1 cache hm c hc
    | none =>
      rcases h.2 with ha | hr
      · obtain ⟨cache, hm, ha⟩ := ha
        obtain ⟨c, hc, -⟩ := MemSys.isModified_iff.mp ha
        rw [MemSys.firstCopy_none hf cache hm] at hc
        simp at hc
      · simpa using ih hr

/-- An agent whose path holds some bytes reads one of them. -/
theorem Holds.readByte {cfg : Config} {ms : MemSys} {pa : Nat} {acc : Access} {vs : List Byte}
    (h : Holds cfg ms pa vs (hopsOf cfg acc (blockBase cfg pa))) : MemSys.readByte cfg ms acc pa ∈ vs :=
  h.reads

/-- A latest store stands where the path of its access holds what the access may return. -/
theorem LatestByte.held_iff {cfg : Config} {ms : MemSys} {e : LatestByte} :
    e.held cfg ms = true ↔ Holds cfg ms e.address e.values (hopsOf cfg e.access (blockBase cfg e.address)) :=
  MemSys.heldAlong_iff

theorem LatestByte.mem_bring {e : LatestByte} {w : Option Byte} {v : Byte} :
    v ∈ (e.bring w).values ↔ v ∈ e.values ∨ w = some v := by
  unfold LatestByte.bring
  split
  · simp
  · split
    · next h =>
      simp only [List.contains_iff_mem] at h
      simp only [Option.some.injEq]
      exact ⟨.inl, fun hv => hv.elim id fun hv => hv ▸ h⟩
    · simp [or_comm, eq_comm]

@[simp] theorem LatestByte.bring_none (e : LatestByte) : e.bring none = e := rfl

/-- A byte an access may return already brings nothing. -/
theorem LatestByte.bring_of_mem {e : LatestByte} {w : Option Byte} (h : ∀ v, w = some v → v ∈ e.values) :
    e.bring w = e := by
  cases w with
  | none => rfl
  | some v => simp [LatestByte.bring, h v rfl]

/-- A latest store that stands with what comes stands with what is needed of it. -/
theorem LatestByte.held_whereNeeded {cfg : Config} {ms : MemSys} {brought : LatestByte → Option Byte} {e : LatestByte}
    (h : (e.bring (brought e)).held cfg ms = true) : (e.bring (whereNeeded cfg ms brought e)).held cfg ms = true := by
  unfold whereNeeded
  split
  · next h' => exact h'
  · exact h

/-- What comes is the same to the fetch as to the load. -/
theorem LatestByte.bring_fetch (e : LatestByte) (w : Option Byte) :
    ({ e with kind := .fetch } : LatestByte).bring w = { e.bring w with kind := .fetch } := by
  unfold LatestByte.bring; split <;> first | rfl | (split <;> rfl)

@[simp] theorem LatestByte.bring_address (e : LatestByte) (w : Option Byte) : (e.bring w).address = e.address := by
  unfold LatestByte.bring; split <;> first | rfl | (split <;> rfl)

@[simp] theorem LatestByte.bring_kind (e : LatestByte) (w : Option Byte) : (e.bring w).kind = e.kind := by
  unfold LatestByte.bring; split <;> first | rfl | (split <;> rfl)

@[simp] theorem LatestByte.bring_memType (e : LatestByte) (w : Option Byte) : (e.bring w).memType = e.memType := by
  unfold LatestByte.bring; split <;> first | rfl | (split <;> rfl)

@[simp] theorem LatestByte.bring_access (e : LatestByte) (w : Option Byte) : (e.bring w).access = e.access := by
  simp [LatestByte.access]

/-- What a path holds depends on memory at the byte and on the copies of the block alone. -/
theorem Holds.mono {cfg : Config} {ms ms' : MemSys} {pa : Nat} {vs vs' : List Byte} {hops : List Hop}
    (hm : Memory.read ms.mem pa ∈ vs → Memory.read ms'.mem pa ∈ vs')
    (hc : ∀ cache c', ms'.copyAt cache (blockBase cfg pa) = some c' → ∃ c, ms.copyAt cache (blockBase cfg pa) = some c ∧
      (c.data.getD (pa % blockSize cfg) 0#8 ∈ vs → c'.data.getD (pa % blockSize cfg) 0#8 ∈ vs'))
    (ht : ∀ cache c, ms.copyAt cache (blockBase cfg pa) = some c → c.modified = true →
      ∃ c', ms'.copyAt cache (blockBase cfg pa) = some c' ∧ c'.modified = true)
    (h : Holds cfg ms pa vs hops) : Holds cfg ms' pa vs' hops := by
  induction hops with
  | nil => exact hm h
  | cons d hs ih =>
    refine ⟨fun cache hcache c' hc' => ?_, h.2.imp (fun ha => ?_) ih⟩
    · obtain ⟨c, h1, h2⟩ := hc cache c' hc'
      exact h2 (h.1 cache hcache c h1)
    · obtain ⟨cache, hmem, ha⟩ := ha
      obtain ⟨c, h1, h2⟩ := MemSys.isModified_iff.mp ha
      exact ⟨cache, hmem, MemSys.isModified_iff.mpr (ht cache c h1 h2)⟩

/-- A path that holds some bytes holds more. -/
theorem Holds.subset {cfg : Config} {ms : MemSys} {pa : Nat} {vs vs' : List Byte} {hops : List Hop}
    (hs : ∀ v ∈ vs, v ∈ vs') (h : Holds cfg ms pa vs hops) : Holds cfg ms pa vs' hops :=
  h.mono (hs _) (fun _ c' hc' => ⟨c', hc', hs _⟩) fun _ c hc hm => ⟨c, hc, hm⟩

/-! ### Data writes (rules R68 to R70) -/

/-- What a data write makes of the copy one cache holds. -/
def writtenCopy (cfg : Config) (tick pa : Nat) (v : Byte) (cache : Nat) (c : Copy) : Option Copy :=
  if tracks cfg cache then some { c with modified := true, data := c.data.set (pa % blockSize cfg) v }
  else if resolve cfg.writeThroughUpdates tick (.writeThroughUpdates cache pa) then
    some { c with data := c.data.set (pa % blockSize cfg) v }
  else none

theorem MemSys.copyAt_writeCopy_same {cfg : Config} {tick pa : Nat} {v : Byte} {ms : MemSys} (cache : Nat)
    (hw : ms.wf cfg = true) :
    (MemSys.writeCopy cfg tick pa v ms cache).copyAt cache (blockBase cfg pa) =
      (ms.copyAt cache (blockBase cfg pa)).bind (writtenCopy cfg tick pa v cache) := by
  unfold MemSys.writeCopy
  cases hc : ms.copyAt cache (blockBase cfg pa) with
  | none => simp [hc]
  | some c =>
    obtain ⟨hb, hlt⟩ := MemSys.copyAt_block hc
    simp only [writtenCopy, Option.bind_some]
    split
    · exact hb ▸ MemSys.copyAt_putCopy_same ms _ hlt
    · split
      · exact hb ▸ MemSys.copyAt_putCopy_same ms _ hlt
      · exact MemSys.copyAt_dropCopy_same hw

/-- A second write of the same byte changes a copy no more. -/
theorem writtenCopy_idem (cfg : Config) (tick pa : Nat) (v : Byte) (cache : Nat) (c : Copy) :
    (writtenCopy cfg tick pa v cache c).bind (writtenCopy cfg tick pa v cache) = writtenCopy cfg tick pa v cache c := by
  unfold writtenCopy
  split
  · simp [*]
  · split <;> simp [*]

/-- After the writes of a domain every cache of it holds its written copy, and every other its own. -/
theorem MemSys.copyAt_writeCopies {cfg : Config} {tick pa : Nat} {v : Byte} (caches : List Nat) {ms : MemSys}
    (hw : ms.wf cfg = true) (cache : Nat) :
    (caches.foldl (MemSys.writeCopy cfg tick pa v) ms).copyAt cache (blockBase cfg pa) =
      if cache ∈ caches then (ms.copyAt cache (blockBase cfg pa)).bind (writtenCopy cfg tick pa v cache)
      else ms.copyAt cache (blockBase cfg pa) := by
  induction caches generalizing ms with
  | nil => simp
  | cons d ds ih =>
    rw [List.foldl_cons, ih (MemSys.writeCopy_wf d hw)]
    by_cases hd : cache = d
    · subst hd
      rw [MemSys.copyAt_writeCopy_same cache hw]
      by_cases hm : cache ∈ ds
      · simp only [hm, if_true, List.mem_cons_self]
        cases ms.copyAt cache (blockBase cfg pa) with
        | none => rfl
        | some c => exact writtenCopy_idem cfg tick pa v cache c
      · simp [hm]
    · rw [MemSys.copyAt_writeCopy_other (.inl hd)]
      simp [hd]

theorem writtenCopy_tracks {cfg : Config} {tick pa : Nat} {v : Byte} {cache : Nat} {c : Copy}
    (h : tracks cfg cache = true) :
    writtenCopy cfg tick pa v cache c = some { c with modified := true, data := c.data.set (pa % blockSize cfg) v } := by
  simp [writtenCopy, h]

/-- A data write leaves a cache its copy, written or not; one that tracks the modified state keeps the block. -/
theorem MemSys.copyAt_writeAlong_cases {cfg : Config} {tick pa : Nat} {v : Byte} (hops : List Hop) {ms : MemSys}
    (hw : ms.wf cfg = true) (cache : Nat) :
    (MemSys.writeAlong cfg tick pa v hops ms).copyAt cache (blockBase cfg pa) = ms.copyAt cache (blockBase cfg pa) ∨
      (MemSys.writeAlong cfg tick pa v hops ms).copyAt cache (blockBase cfg pa) =
        (ms.copyAt cache (blockBase cfg pa)).bind (writtenCopy cfg tick pa v cache) := by
  induction hops generalizing ms with
  | nil => exact .inl rfl
  | cons d hs ih =>
    have hd := MemSys.copyAt_writeCopies (tick := tick) (pa := pa) (v := v) (hopCaches (hardwareCoherent cfg (blockBase cfg pa)) d)
      hw cache
    simp only [MemSys.writeAlong]
    split
    · rw [hd]
      split
      · exact .inr rfl
      · exact .inl rfl
    · rcases ih (MemSys.writeCopies_wf _ hw) with h | h
      · rw [h, hd]
        split
        · exact .inr rfl
        · exact .inl rfl
      · rw [h, hd]
        split
        · refine .inr ?_
          cases ms.copyAt cache (blockBase cfg pa) with
          | none => rfl
          | some c => exact writtenCopy_idem cfg tick pa v cache c
        · exact .inr rfl

/-- A data write reaches every cache of a domain that no domain before it keeps it from. -/
theorem MemSys.copyAt_writeAlong_reached {cfg : Config} {tick pa : Nat} {v : Byte} {before after : List Hop} {d : Hop}
    {ms : MemSys} (hw : ms.wf cfg = true)
    (hb : ∀ d' ∈ before,
      ms.absorbs cfg (hopCaches (hardwareCoherent cfg (blockBase cfg pa)) d') (blockBase cfg pa) = false)
    {cache : Nat} (hc : cache ∈ hopCaches (hardwareCoherent cfg (blockBase cfg pa)) d) :
    (MemSys.writeAlong cfg tick pa v (before ++ d :: after) ms).copyAt cache (blockBase cfg pa) =
      (ms.copyAt cache (blockBase cfg pa)).bind (writtenCopy cfg tick pa v cache) := by
  have idem : ∀ x : Option Copy, (x.bind (writtenCopy cfg tick pa v cache)).bind (writtenCopy cfg tick pa v cache) =
      x.bind (writtenCopy cfg tick pa v cache) := fun x => by
    cases x with
    | none => rfl
    | some c => exact writtenCopy_idem cfg tick pa v cache c
  induction before generalizing ms with
  | nil =>
    have hcopies := MemSys.copyAt_writeCopies (tick := tick) (pa := pa) (v := v)
      (hopCaches (hardwareCoherent cfg (blockBase cfg pa)) d) hw cache
    rw [if_pos hc] at hcopies
    simp only [List.nil_append, MemSys.writeAlong]
    split
    · exact hcopies
    · rcases MemSys.copyAt_writeAlong_cases (tick := tick) (v := v) after (MemSys.writeCopies_wf _ hw) cache with h | h
      · rw [h, hcopies]
      · rw [h, hcopies, idem]
  | cons d₀ ds ih =>
    have hcopies := MemSys.copyAt_writeCopies (tick := tick) (pa := pa) (v := v)
      (hopCaches (hardwareCoherent cfg (blockBase cfg pa)) d₀) hw
    simp only [List.cons_append, MemSys.writeAlong, hb d₀ (by simp), Bool.false_eq_true, if_false]
    rw [ih (MemSys.writeCopies_wf _ hw) (fun d' hd' => ?_), hcopies]
    · split
      · exact idem _
      · rfl
    · have hf := hb d' (by simp [hd'])
      rw [Bool.eq_false_iff] at hf ⊢
      intro ha
      obtain ⟨x, hx, ht, c, hcx⟩ := MemSys.absorbs_iff.mp ha
      rw [hcopies] at hcx
      refine hf (MemSys.absorbs_iff.mpr ⟨x, hx, ht, ?_⟩)
      split at hcx
      · obtain ⟨c₀, h₀, -⟩ := Option.bind_eq_some_iff.mp hcx
        exact ⟨c₀, h₀⟩
      · exact ⟨c, hcx⟩

theorem writtenCopy_data {cfg : Config} {tick pa : Nat} {v : Byte} {cache : Nat} {c c' : Copy}
    (h : writtenCopy cfg tick pa v cache c = some c') : c'.data = c.data.set (pa % blockSize cfg) v := by
  unfold writtenCopy at h
  split at h
  · injection h with h; rw [← h]
  · split at h
    · injection h with h; rw [← h]
    · simp at h

theorem getD_set_same {l : List Byte} {i : Nat} (v : Byte) (h : i < l.length) : (l.set i v).getD i 0#8 = v := by
  simp [List.getD, h]

theorem getD_set_other (l : List Byte) {i j : Nat} (v : Byte) (h : i ≠ j) : (l.set i v).getD j 0#8 = l.getD j 0#8 := by
  simp [List.getD, h]

/-- A data write leaves what a path holds at another byte of the block. -/
theorem Holds.writeAlong_other {cfg : Config} {tick pa pa' : Nat} {vs : List Byte} {v' : Byte} {hops hops' : List Hop}
    {ms : MemSys} (hw : ms.wf cfg = true) (hne : pa' ≠ pa) (h : Holds cfg ms pa vs hops) :
    Holds cfg (MemSys.writeAlong cfg tick pa' v' hops' ms) pa vs hops := by
  by_cases hb : blockBase cfg pa = blockBase cfg pa'
  · have hoff : pa' % blockSize cfg ≠ pa % blockSize cfg := by
      intro he
      have h1 := blockBase_add_offset cfg pa
      have h2 := blockBase_add_offset cfg pa'
      omega
    refine h.mono (fun hm => ?_) (fun cache c' hc' => ?_) (fun cache c hc hcm => ?_)
    · rw [MemSys.read_writeAlong_other _ (fun e => hne e.symm)]; exact hm
    · rw [hb] at hc' ⊢
      rcases MemSys.copyAt_writeAlong_cases (tick := tick) (v := v') hops' hw cache with h' | h'
      · rw [h'] at hc'
        exact ⟨c', hc', id⟩
      · rw [h'] at hc'
        obtain ⟨c, h1, h2⟩ := Option.bind_eq_some_iff.mp hc'
        refine ⟨c, h1, fun hv => ?_⟩
        rw [writtenCopy_data h2, getD_set_other _ _ hoff]
        exact hv
    · rw [hb] at hc ⊢
      rcases MemSys.copyAt_writeAlong_cases (tick := tick) (v := v') hops' hw cache with h' | h'
      · exact ⟨c, by rw [h', hc], hcm⟩
      · exact ⟨_, by rw [h', hc, Option.bind_some, writtenCopy_tracks (MemSys.isModified_tracks hw hc hcm)], rfl⟩
  · refine h.mono (fun hm => ?_) (fun cache c' hc' => ?_) (fun cache c hc hcm => ?_)
    · rw [MemSys.read_writeAlong_other _ (fun e => hne e.symm)]; exact hm
    · rw [MemSys.copyAt_writeAlong_block _ hb] at hc'
      exact ⟨c', hc', id⟩
    · exact ⟨c, by rw [MemSys.copyAt_writeAlong_block _ hb]; exact hc, hcm⟩

/-- A data write leaves memory its byte, written or not. -/
theorem MemSys.read_writeAlong_cases {cfg : Config} {tick pa : Nat} {v : Byte} (hops : List Hop) {ms : MemSys}
    (hw : ms.wf cfg = true) :
    Memory.read (MemSys.writeAlong cfg tick pa v hops ms).mem pa = Memory.read ms.mem pa ∨
      Memory.read (MemSys.writeAlong cfg tick pa v hops ms).mem pa = v := by
  induction hops generalizing ms with
  | nil => exact .inr (Memory.read_write_same v (MemSys.wf_mem hw))
  | cons d hs ih =>
    have hmem : ∀ l : List Nat, (l.foldl (MemSys.writeCopy cfg tick pa v) ms).mem = ms.mem := fun l =>
      foldl_keeps (fun ms' : MemSys => ms'.mem = ms.mem) _ (fun _ _ h => by simp [h]) l ms rfl
    simp only [MemSys.writeAlong]
    split
    · exact .inl (by rw [hmem])
    · rw [← hmem (hopCaches (hardwareCoherent cfg (blockBase cfg pa)) d)]
      exact ih (MemSys.writeCopies_wf _ hw)

theorem writtenCopy_getD {cfg : Config} {tick pa : Nat} {v : Byte} {ms : MemSys} {cache : Nat} {c : Copy}
    (hw : ms.wf cfg = true)
    (h : (ms.copyAt cache (blockBase cfg pa)).bind (writtenCopy cfg tick pa v cache) = some c) :
    c.data.getD (pa % blockSize cfg) 0#8 = v := by
  obtain ⟨c₀, h1, h2⟩ := Option.bind_eq_some_iff.mp h
  rw [writtenCopy_data h2]
  exact getD_set_same v (by rw [MemSys.copyAt_length hw h1]; exact Nat.mod_lt _ (blockSize_pos cfg))

/-- After a data write the path it went along holds the byte written, and no other. -/
theorem Holds.writeAlong_same {cfg : Config} {tick pa : Nat} {v : Byte} (hops : List Hop) {ms : MemSys}
    (hw : ms.wf cfg = true) : Holds cfg (MemSys.writeAlong cfg tick pa v hops ms) pa [v] hops := by
  induction hops generalizing ms with
  | nil => exact List.mem_singleton.mpr (Memory.read_write_same v (MemSys.wf_mem hw))
  | cons d hs ih =>
    have hcopies := MemSys.copyAt_writeCopies (tick := tick) (pa := pa) (v := v)
      (hopCaches (hardwareCoherent cfg (blockBase cfg pa)) d) hw
    have hfw := MemSys.writeCopies_wf (tick := tick) (pa := pa) (v := v)
      (hopCaches (hardwareCoherent cfg (blockBase cfg pa)) d) hw
    simp only [MemSys.writeAlong]
    split
    · next ha =>
      refine ⟨fun cache hm c hc => ?_, .inl ?_⟩
      · rw [hcopies, if_pos hm] at hc
        exact List.mem_singleton.mpr (writtenCopy_getD hw hc)
      · obtain ⟨cache, hm, ht, c, hc⟩ := MemSys.absorbs_iff.mp ha
        exact ⟨cache, hm, MemSys.isModified_iff.mpr ⟨_, by
          rw [hcopies, if_pos hm, hc, Option.bind_some, writtenCopy_tracks ht], rfl⟩⟩
    · refine ⟨fun cache hm c hc => List.mem_singleton.mpr ?_, .inr (ih hfw)⟩
      rcases MemSys.copyAt_writeAlong_cases (tick := tick) (v := v) hs hfw cache with h' | h'
      · rw [h', hcopies, if_pos hm] at hc
        exact writtenCopy_getD hw hc
      · rw [h'] at hc
        exact writtenCopy_getD hfw hc

/-- After a data write along any path, another holds what it held and the byte written. -/
theorem Holds.writeAlong_any {cfg : Config} {tick pa : Nat} {v : Byte} {vs : List Byte} {hops hops' : List Hop}
    {ms : MemSys} (hw : ms.wf cfg = true) (h : Holds cfg ms pa vs hops) :
    Holds cfg (MemSys.writeAlong cfg tick pa v hops' ms) pa (v :: vs) hops := by
  refine h.mono (fun hm => ?_) (fun cache c' hc' => ?_) fun cache c hc hm => ?_
  · rcases MemSys.read_writeAlong_cases (tick := tick) (pa := pa) (v := v) hops' hw with h' | h' <;> rw [h']
    · exact List.mem_cons_of_mem _ hm
    · exact List.mem_cons_self
  · rcases MemSys.copyAt_writeAlong_cases (tick := tick) (v := v) hops' hw cache with h' | h' <;> rw [h'] at hc'
    · exact ⟨c', hc', List.mem_cons_of_mem _⟩
    · obtain ⟨c, h1, -⟩ := Option.bind_eq_some_iff.mp hc'
      exact ⟨c, h1, fun _ => by rw [writtenCopy_getD hw hc']; exact List.mem_cons_self⟩
  · rcases MemSys.copyAt_writeAlong_cases (tick := tick) (v := v) hops' hw cache with h' | h'
    · exact ⟨c, by rw [h', hc], hm⟩
    · exact ⟨_, by rw [h', hc, Option.bind_some, writtenCopy_tracks (MemSys.isModified_tracks hw hc hm)], rfl⟩

/-- Data writes of several bytes leave what a path holds at a byte before them. -/
theorem Holds.writeBytes_before {cfg : Config} {tick q : Nat} {acc : Access} {vs : List Byte} {hops : List Hop}
    (bs : List Byte) {p : Nat} {ms : MemSys} (hw : ms.wf cfg = true) (hlt : q < p) (h : Holds cfg ms q vs hops) :
    Holds cfg (MemSys.writeBytes cfg tick acc p bs ms) q vs hops := by
  induction bs generalizing p ms with
  | nil => exact h
  | cons b bs ih => exact ih (MemSys.writeByte_wf hw) (by omega) (h.writeAlong_other hw (by omega))

/-- Data writes of several bytes, whatever blocks they lie in, leave each of them where its path holds it. -/
theorem Holds.writeBytes {cfg : Config} {tick pa : Nat} {acc : Access} (bs : List Byte) {ms : MemSys}
    (hw : ms.wf cfg = true) :
    ∀ i (hi : i < bs.length), Holds cfg (MemSys.writeBytes cfg tick acc pa bs ms) (pa + i) [bs[i]]
      (hopsOf cfg acc (blockBase cfg (pa + i))) := by
  induction bs generalizing pa ms with
  | nil => intro i hi; simp at hi
  | cons b bs ih =>
    intro i hi
    cases i with
    | zero => exact Holds.writeBytes_before bs (MemSys.writeByte_wf hw) (by omega) (Holds.writeAlong_same _ hw)
    | succ i =>
      have := ih (pa := pa + 1) (MemSys.writeByte_wf (tick := tick) (acc := acc) (pa := pa) (v := b) hw) i
        (by simpa using hi)
      rwa [show pa + 1 + i = pa + (i + 1) by omega] at this

/-- A latest store stands after data writes along any path, where what they bring may be returned besides (rules R80, R100). -/
theorem LatestByte.held_writeBytes {cfg : Config} {tick pa : Nat} {acc : Access} (bs : List Byte) {ms : MemSys}
    {e : LatestByte} (hw : ms.wf cfg = true) (h : e.held cfg ms = true) :
    (e.bring (bytesBring pa bs e)).held cfg (MemSys.writeBytes cfg tick acc pa bs ms) = true := by
  rw [LatestByte.held_iff] at h ⊢
  simp only [LatestByte.bring_address, LatestByte.bring_access]
  induction bs generalizing pa ms with
  | nil => exact h.subset fun v hv => LatestByte.mem_bring.mpr (.inl hv)
  | cons b bs ih =>
    by_cases hpa : pa = e.address
    · subst hpa
      refine Holds.writeBytes_before bs (MemSys.writeByte_wf hw) (by omega) ((h.writeAlong_any hw).subset fun v hv => ?_)
      rw [LatestByte.mem_bring]
      rcases List.mem_cons.mp hv with rfl | hv
      · exact .inr (by simp [bytesBring])
      · exact .inl hv
    · refine (ih (pa := pa + 1) (MemSys.writeByte_wf hw) (h.writeAlong_other hw hpa)).subset fun v hv => ?_
      rw [LatestByte.mem_bring] at hv ⊢
      refine hv.imp id fun hv => ?_
      simp only [bytesBring] at hv ⊢
      split at hv
      · next hle =>
        rw [if_pos (by omega), show e.address - pa = e.address - (pa + 1) + 1 by omega]
        simpa using hv
      · simp at hv

/-! ### The transfer of a modified block (rule R66) -/

theorem MemSys.copyAt_updateCopy_same {cfg : Config} {b : Nat} {data : List Byte} {ms : MemSys} (cache : Nat) :
    (MemSys.updateCopy cfg b data ms cache).copyAt cache b =
      (ms.copyAt cache b).map fun _ => { block := b, modified := tracks cfg cache, data := data } := by
  unfold MemSys.updateCopy
  cases hc : ms.copyAt cache b with
  | none => simp [hc]
  | some c =>
    exact MemSys.copyAt_putCopy_same ms { block := b, modified := tracks cfg cache, data := data }
      (MemSys.copyAt_block hc).2

/-- After the updates of a domain every cache of it that holds the block holds the bytes, and every other its own. -/
theorem MemSys.copyAt_updateCopies {cfg : Config} {b : Nat} {data : List Byte} (caches : List Nat) {ms : MemSys}
    (cache : Nat) :
    (caches.foldl (MemSys.updateCopy cfg b data) ms).copyAt cache b =
      if cache ∈ caches then
        (ms.copyAt cache b).map fun _ => { block := b, modified := tracks cfg cache, data := data }
      else ms.copyAt cache b := by
  induction caches generalizing ms with
  | nil => simp
  | cons d ds ih =>
    rw [List.foldl_cons, ih]
    by_cases hd : cache = d
    · subst hd
      rw [MemSys.copyAt_updateCopy_same]
      cases ms.copyAt cache b <;> simp
    · rw [MemSys.copyAt_updateCopy_other (.inl hd)]
      simp [hd]

/-- A transfer makes no block valid and none Invalid. -/
theorem MemSys.copyAt_transfer_isNone {cfg : Config} {b : Nat} {data : List Byte} (hops : List Hop) {ms : MemSys}
    (cache : Nat) :
    (MemSys.transfer cfg b data hops ms).copyAt cache b = none ↔ ms.copyAt cache b = none := by
  induction hops generalizing ms with
  | nil => exact Iff.rfl
  | cons d hs ih =>
    have hd : ((hopCaches (hardwareCoherent cfg b) d).foldl (MemSys.updateCopy cfg b data) ms).copyAt cache b = none ↔
        ms.copyAt cache b = none := by
      rw [MemSys.copyAt_updateCopies]
      split <;> simp
    simp only [MemSys.transfer]
    split
    · exact hd
    · rw [ih, hd]

/-- A transferred block is in memory or, Modified, in a cache. -/
theorem MemSys.transfer_arrives {cfg : Config} {b : Nat} {data : List Byte} (hops : List Hop) {ms : MemSys}
    (hw : Memory.wf ms.mem = true) :
    Memory.readBytes (MemSys.transfer cfg b data hops ms).mem b data.length = data ∨
      ∃ cache, (MemSys.transfer cfg b data hops ms).copyAt cache b =
        some { block := b, modified := true, data := data } := by
  have hfold : ∀ (ms : MemSys) (l : List Nat), (l.foldl (MemSys.updateCopy cfg b data) ms).mem = ms.mem := fun ms l =>
    foldl_keeps (fun ms' => ms'.mem = ms.mem) _ (fun _ c h => by simp [h]) l ms rfl
  induction hops generalizing ms with
  | nil => exact .inl (Memory.readBytes_writeBytes data hw)
  | cons d hs ih =>
    simp only [MemSys.transfer]
    split
    · next ha =>
      obtain ⟨cache, hm, ht, c, hc⟩ := MemSys.absorbs_iff.mp ha
      exact .inr ⟨cache, by rw [MemSys.copyAt_updateCopies, if_pos hm, hc, ht]; rfl⟩
    · exact ih (by rw [hfold]; exact hw)

/-! ### Management operations (rules R71 to R73, R152) -/

/-- What an operation leaves of the copy one cache holds. -/
def settledCopy (cfg : Config) (tick : Nat) (op : CacheOp) (data : Option (List Byte)) (cache : Nat) (c : Copy) :
    Option Copy :=
  match op with
  | .clean =>
    if resolve cfg.cleanInvalidates tick (.cleanInvalidates cache) then none
    else some { c with modified := false, data := data.getD c.data }
  | .invalidate => none
  | .flush => none

theorem MemSys.copyAt_settle_same {cfg : Config} {tick : Nat} {op : CacheOp} {b : Nat} {data : Option (List Byte)}
    {ms : MemSys} (cache : Nat) (hw : ms.wf cfg = true) :
    (MemSys.settle cfg tick op b data ms cache).copyAt cache b =
      (ms.copyAt cache b).bind (settledCopy cfg tick op data cache) := by
  unfold MemSys.settle
  cases hc : ms.copyAt cache b with
  | none => simp [hc]
  | some c =>
    obtain ⟨hb, hlt⟩ := MemSys.copyAt_block hc
    cases op with
    | clean =>
      simp only [settledCopy, Option.bind_some]
      split
      · exact MemSys.copyAt_dropCopy_same hw
      · exact hb ▸ MemSys.copyAt_putCopy_same ms _ hlt
    | invalidate => exact MemSys.copyAt_dropCopy_same hw
    | flush => exact MemSys.copyAt_dropCopy_same hw

theorem settledCopy_idem (cfg : Config) (tick : Nat) (op : CacheOp) (data : Option (List Byte)) (cache : Nat)
    (c : Copy) :
    (settledCopy cfg tick op data cache c).bind (settledCopy cfg tick op data cache) =
      settledCopy cfg tick op data cache c := by
  cases op with
  | clean =>
    simp only [settledCopy]
    split
    · rfl
    · next h => cases data <;> simp [settledCopy, h]
  | invalidate => rfl
  | flush => rfl

/-- After an operation every cache of the set holds what the operation leaves, and every other its own copy. -/
theorem MemSys.copyAt_settles {cfg : Config} {tick : Nat} {op : CacheOp} {b : Nat} {data : Option (List Byte)}
    (set : List Nat) {ms : MemSys} (hw : ms.wf cfg = true) (hd : ∀ d, data = some d → d.length = blockSize cfg)
    (cache : Nat) :
    (set.foldl (MemSys.settle cfg tick op b data) ms).copyAt cache b =
      if cache ∈ set then (ms.copyAt cache b).bind (settledCopy cfg tick op data cache) else ms.copyAt cache b := by
  induction set generalizing ms with
  | nil => simp
  | cons d ds ih =>
    rw [List.foldl_cons, ih (MemSys.settle_wf d hw hd)]
    by_cases hc : cache = d
    · subst hc
      rw [MemSys.copyAt_settle_same cache hw]
      by_cases hm : cache ∈ ds
      · simp only [hm, if_true, List.mem_cons_self]
        cases ms.copyAt cache b with
        | none => rfl
        | some c => exact settledCopy_idem cfg tick op data cache c
      · simp [hm]
    · rw [MemSys.copyAt_settle_other (.inl hc)]
      simp [hc]

/-- What a management operation leaves of its block in each cache. -/
theorem MemSys.copyAt_manage {cfg : Config} {tick : Nat} {op : CacheOp} {set : List Nat} {beyond : List Hop} {b : Nat}
    {bound : List LatestByte} {ms : MemSys} (hw : ms.wf cfg = true) (cache : Nat) :
    (MemSys.manage cfg tick op set beyond b bound ms).copyAt cache b =
      if cache ∈ set then
        ((ms.visible cfg tick op set beyond b bound).copyAt cache b).bind
          (settledCopy cfg tick op (ms.transferred cfg tick op set b bound) cache)
      else (ms.visible cfg tick op set beyond b bound).copyAt cache b :=
  MemSys.copyAt_settles set (MemSys.visible_wf hw) (fun _ h => MemSys.transferred_length hw h) cache

/-- What a management operation leaves in memory. -/
theorem MemSys.manage_mem {cfg : Config} {tick : Nat} {op : CacheOp} {set : List Nat} {beyond : List Hop} {b : Nat}
    {bound : List LatestByte} {ms : MemSys} :
    (MemSys.manage cfg tick op set beyond b bound ms).mem = (ms.visible cfg tick op set beyond b bound).mem :=
  MemSys.settles_mem set _

/-- Before it settles, an operation has made no block of its set valid and none Invalid. -/
theorem MemSys.copyAt_visible_isNone {cfg : Config} {tick : Nat} {op : CacheOp} {set : List Nat} {beyond : List Hop}
    {b : Nat} {bound : List LatestByte} {ms : MemSys} {cache : Nat} (hc : cache ∈ set) :
    (ms.visible cfg tick op set beyond b bound).copyAt cache b = none ↔ ms.copyAt cache b = none := by
  unfold MemSys.visible
  split
  · rw [MemSys.copyAt_gives _ (.inl hc)]
  · rw [MemSys.copyAt_transfer_isNone, MemSys.copyAt_gives _ (.inl hc)]

/-- An operation that may transfer a modified copy of the set transfers one where there is one. -/
theorem MemSys.transferred_some {cfg : Config} {tick : Nat} {op : CacheOp} {set : List Nat} {b : Nat}
    {bound : List LatestByte} {ms : MemSys}
    (hop : op = .invalidate → cfg.invalTransfers = .yes) (h : ∃ c ∈ set, ms.isModified c b = true) :
    ∃ d, ms.transferred cfg tick op set b bound = some d := by
  obtain ⟨c, hc, hmod⟩ := h
  have hmem : c ∈ ms.transferring cfg tick op set b := by
    cases op <;> simp [MemSys.transferring, hc, hmod]
    simp [resolve, hop rfl]
  obtain ⟨c', hc'⟩ := pickCache_some (tick := tick)
    (MemSys.newest_ne_nil (cfg := cfg) (b := b) (set := set) (bound := bound) (ms := ms) (List.ne_nil_of_mem hmem))
  have hm' := MemSys.newest_subset (pickCache_mem hc')
  have hmod' : ms.isModified c' b = true := by
    unfold MemSys.transferring at hm'
    cases op <;> simp_all
  unfold MemSys.transferred
  rw [hc']
  unfold MemSys.isModified at hmod'
  cases hcopy : ms.copyAt c' b with
  | none => simp [hcopy] at hmod'
  | some copy => exact ⟨copy.data, by simp [hcopy]⟩

/-- An operation on a set with no Modified copy transfers nothing. -/
theorem MemSys.transferred_none {cfg : Config} {tick : Nat} {op : CacheOp} {set : List Nat} {b : Nat}
    {bound : List LatestByte} {ms : MemSys}
    (h : ∀ c ∈ set, ms.isModified c b = false) : ms.transferred cfg tick op set b bound = none := by
  cases ht : ms.transferred cfg tick op set b bound with
  | none => rfl
  | some d =>
    obtain ⟨c, hc, copy, h1, h2, -⟩ := MemSys.transferred_mem ht
    have := h c hc
    simp [MemSys.isModified, h1, h2] at this

/-- What the transfers to other caches leave outside the set: what was there, or a copy that one of the set gave. -/
theorem MemSys.copyAt_gives_outside {cfg : Config} {tick : Nat} {op : CacheOp} {set : List Nat} {b : Nat}
    {data : Option (List Byte)} {bound : List LatestByte} {ms : MemSys} (hw : ms.wf cfg = true) (l : List Nat)
    (hl : ∀ x ∈ l, x ∈ set) (cache : Nat) :
    (ms.gives cfg tick op set b data bound l).copyAt cache b = ms.copyAt cache b ∨
      (cfg.cacheTransfers ≠ .no ∧ ms.copyAt cache b = none ∧
        ∃ new, (ms.gives cfg tick op set b data bound l).copyAt cache b = some new ∧
          ∃ c ∈ set, ∃ copy, ms.copyAt c b = some copy ∧ mayGive op data copy = true ∧ new.data = copy.data ∧
            (new.modified = true → copy.modified = true)) := by
  induction l using List.reverseRecOn with
  | nil => exact .inl rfl
  | append_singleton l x ih =>
    have hset := hl x (by simp)
    have hgw : (ms.gives cfg tick op set b data bound l).wf cfg = true := MemSys.gives_wf l hw
    have hx : (ms.gives cfg tick op set b data bound l).copyAt x b = ms.copyAt x b := MemSys.copyAt_gives l (.inl hset)
    have hcons : ms.gives cfg tick op set b data bound (l ++ [x]) =
        MemSys.give cfg tick op set b data bound (ms.gives cfg tick op set b data bound l) x := by simp [MemSys.gives]
    have ih := ih fun y hy => hl y (by simp [hy])
    rw [hcons]
    rcases MemSys.give_cases cfg tick op set b data bound (ms.gives cfg tick op set b data bound l) x
      with ⟨t, c, -, hno, hc, hmay, -, -, -, h⟩ | h
    · rw [h]
      by_cases ht : cache = t
      · subst ht
        rcases MemSys.copyAt_allocate_same (source := some x) (m := true) (cache := cache) (b := b) hgw with
          ⟨hok, hnew⟩ | hnew
        · rw [hnew]
          refine ih.elim (fun h0 => .inr ⟨hno, ?_, _, rfl, x, hset, c, by rw [← hx]; exact hc, hmay, ?_, ?_⟩)
            (fun h0 => ?_)
          · simp only [MemSys.mayAllocate, Bool.and_eq_true, Option.isNone_iff_eq_none] at hok
            rw [← h0]
            exact hok.1.1.1.2
          · simp [MemSys.allocated, hc]
          · simp [MemSys.allocated, hc]
          · obtain ⟨-, -, new, hn, -⟩ := h0
            simp only [MemSys.mayAllocate, Bool.and_eq_true, Option.isNone_iff_eq_none] at hok
            rw [hok.1.1.1.2] at hn
            simp at hn
        · rw [hnew]; exact ih
      · rw [MemSys.copyAt_allocate_other (.inl ht)]; exact ih
    · rw [h]; exact ih

/-! ### Allocation (rule R65) -/

theorem hopsFrom_split {cache : Nat} {hops : List Hop} (h : cache ∈ directCaches hops) :
    ∃ before d after, hops = before ++ d :: after ∧ hopsFrom cache hops = d :: after ∧
      (cache ∈ d.direct ∨ cache ∈ d.indirect) ∧ ∀ d' ∈ before, cache ∉ d'.direct ∧ cache ∉ d'.indirect := by
  induction hops with
  | nil => simp [directCaches] at h
  | cons d hs ih =>
    by_cases hd : cache ∈ d.direct ∨ cache ∈ d.indirect
    · exact ⟨[], d, hs, rfl, by rcases hd with hd | hd <;> simp [hopsFrom, hd], hd, by simp⟩
    · have hnot := hd
      rw [not_or] at hnot
      have h' : cache ∈ directCaches hs := by
        simpa [directCaches, hnot.1] using h
      obtain ⟨before, d', after, h1, h2, h3, h4⟩ := ih h'
      exact ⟨d :: before, d', after, by simp [h1], by simp [hopsFrom, hnot.1, hnot.2, h2], h3, by
        intro x hx
        rcases List.mem_cons.mp hx with rfl | hx
        · exact hnot
        · exact h4 x hx⟩

theorem distinct_nodup {l : List Nat} (h : distinct l = true) : l.Nodup := by
  induction l with
  | nil => simp
  | cons a l ih =>
    simp only [distinct, Bool.and_eq_true] at h
    simpa using ⟨by simpa using h.1, ih h.2⟩

/-- The domains an access meets are those of a rule of the topology about the address, or those that rule has beyond
PoC-memory, or none. -/
theorem hopsOf_cases (cfg : Config) (acc : Access) (pa : Nat) :
    hopsOf cfg acc pa = [] ∨ ∃ p ∈ cfg.paths, inRange p.base p.size pa = true ∧
      (hopsOf cfg acc pa = p.toPoc ++ p.beyondPoc ∨ hopsOf cfg acc pa = p.beyondPoc) := by
  unfold hopsOf pathOf
  split
  · next p hp =>
    have := List.find?_some hp
    simp only [pathCovers, Bool.and_eq_true] at this
    exact .inr ⟨p, List.mem_of_find?_eq_some hp, this.1.1.2, .inl rfl⟩
  · simp only [List.nil_append]
    unfold beyondPocOf
    split
    · next p hp =>
      have := List.find?_some hp
      simp only [Bool.and_eq_true] at this
      exact .inr ⟨p, List.mem_of_find?_eq_some hp, this.2, .inr rfl⟩
    · exact .inl rfl

/-- Every domain an access meets is one of a path the topology lists to the address. -/
theorem hopsOf_subset {cfg : Config} {acc : Access} {pa : Nat} {h : Hop} (hh : h ∈ hopsOf cfg acc pa) :
    h ∈ hopsCovering cfg pa := by
  rcases hopsOf_cases cfg acc pa with h0 | ⟨p, hp, hr, h0⟩
  · simp [h0] at hh
  · refine List.mem_flatMap.mpr ⟨p, List.mem_filter.mpr ⟨hp, hr⟩, ?_⟩
    rcases h0 with h0 | h0 <;> rw [h0] at hh
    · exact hh
    · exact List.mem_append_right _ hh

/-- What a well-formed configuration says of the topology. -/
theorem Config.wf_topology {cfg : Config} (h : cfg.wf = true) :
    cfg.paths.all (PathRule.wf cfg) = true ∧ convergesAtPoc cfg = true ∧ convergesInDomains cfg = true ∧
      domainsWf cfg = true := by
  simp only [Config.wf, Bool.and_eq_true] at h
  obtain ⟨⟨⟨⟨⟨⟨⟨⟨⟨⟨⟨-, hp⟩, hq⟩, hd⟩, hw⟩, -⟩, -⟩, -⟩, -⟩, -⟩, -⟩, -⟩ := h
  exact ⟨hp, hq, hd, hw⟩

theorem Config.wf_paths {cfg : Config} (h : cfg.wf = true) {p : PathRule} (hp : p ∈ cfg.paths) : p.wf cfg = true :=
  List.all_eq_true.mp (Config.wf_topology h).1 p hp

/-- A rule of a well-formed topology is about all data accesses of the base ISA and `CBO.ZERO` alike, or about none. -/
theorem pathCovers_kinds {cfg : Config} (hw : cfg.wf = true) {p : PathRule} (hp : p ∈ cfg.paths) {acc acc' : Access}
    (pa : Nat) (ha : acc'.agent = acc.agent) (hm : acc'.memType = acc.memType)
    (hk : acc.kind ∈ [AccessKind.load, .store, .zero]) (hk' : acc'.kind ∈ [AccessKind.load, .store, .zero]) :
    pathCovers p acc' pa = pathCovers p acc pa := by
  have h := Config.wf_paths hw hp
  simp only [PathRule.wf, Bool.and_eq_true] at h
  have hkw := h.1.2
  have key : ∀ k ∈ [AccessKind.load, .store, .zero], ∀ k' ∈ [AccessKind.load, .store, .zero],
      (p.kinds.isEmpty || p.kinds.contains k') = (p.kinds.isEmpty || p.kinds.contains k) := by
    intro k h1 k' h2
    simp only [PathRule.kindsWf, List.map_cons, List.map_nil, List.all_cons, List.all_nil, List.any_cons, List.any_nil,
      id, Bool.and_true, Bool.or_false] at hkw
    simp only [List.mem_cons, List.not_mem_nil, or_false] at h1 h2
    cases h3 : (p.kinds.isEmpty || p.kinds.contains .load) <;>
      cases h4 : (p.kinds.isEmpty || p.kinds.contains .store) <;>
      cases h5 : (p.kinds.isEmpty || p.kinds.contains .zero) <;>
      simp only [h3, h4, h5] at hkw <;>
      first
        | exact absurd hkw (by decide)
        | (rcases h1 with rfl | rfl | rfl <;> rcases h2 with rfl | rfl | rfl <;> simp only [h3, h4, h5])
  simp only [pathCovers, ha, hm, key _ hk _ hk']

/-- In a well-formed configuration the loads, the stores and the `CBO.ZERO` of an agent through a page of one memory type
take one path (rule R99). -/
theorem hopsOf_kinds {cfg : Config} (hw : cfg.wf = true) {acc acc' : Access} (pa : Nat) (ha : acc'.agent = acc.agent)
    (hm : acc'.memType = acc.memType) (hk : acc.kind ∈ [AccessKind.load, .store, .zero])
    (hk' : acc'.kind ∈ [AccessKind.load, .store, .zero]) : hopsOf cfg acc' pa = hopsOf cfg acc pa := by
  have hfind : ∀ l : List PathRule, (∀ p ∈ l, p ∈ cfg.paths) →
      l.find? (pathCovers · acc' pa) = l.find? (pathCovers · acc pa) := by
    intro l
    induction l with
    | nil => intro _; rfl
    | cons p l ih =>
      intro h
      simp only [List.find?_cons, pathCovers_kinds hw (h p (by simp)) pa ha hm hk hk', ih fun q hq => h q (by simp [hq])]
  simp only [hopsOf, pathOf, hfind cfg.paths fun _ h => h]
  cases cfg.paths.find? (pathCovers · acc pa) <;> rfl

/-- A path of a well-formed configuration names each cache once, and only caches that exist. -/
theorem hopsOf_wf {cfg : Config} (hw : cfg.wf = true) (acc : Access) (pa : Nat) :
    ((hopsOf cfg acc pa).flatMap fun h => h.direct ++ h.indirect).Nodup ∧
      ∀ cache ∈ (hopsOf cfg acc pa).flatMap (fun h => h.direct ++ h.indirect), cache < cfg.caches.length := by
  rcases hopsOf_cases cfg acc pa with h0 | ⟨p, hp, -, h0⟩
  · simp [h0]
  · have := Config.wf_paths hw hp
    simp only [PathRule.wf, Bool.and_eq_true, List.all_eq_true, decide_eq_true_eq, PathRule.caches] at this
    have hnd := distinct_nodup this.1.1.2
    rcases h0 with h0 | h0 <;> rw [h0]
    · exact ⟨hnd, this.2⟩
    · rw [List.flatMap_append] at hnd
      exact ⟨List.Nodup.of_append_right hnd, fun c hc => this.2 c (by
        rw [List.flatMap_append]; exact List.mem_append_right _ hc)⟩

/-- Where a cache stands on a path: the domains before it know nothing of it, nor do those after. -/
theorem hopsOf_split {cfg : Config} (hw : cfg.wf = true) {acc : Access} {pa cache : Nat}
    (h : cache ∈ directCaches (hopsOf cfg acc pa)) :
    ∃ before d after, hopsOf cfg acc pa = before ++ d :: after ∧
      hopsFrom cache (hopsOf cfg acc pa) = d :: after ∧ cache ∈ d.direct ∧
      (∀ d' ∈ before, cache ∉ d'.direct ∧ cache ∉ d'.indirect) ∧
      ∀ d' ∈ after, cache ∉ d'.direct ∧ cache ∉ d'.indirect := by
  obtain ⟨before, d, after, h1, h2, h3, h4⟩ := hopsFrom_split h
  have hnd := (hopsOf_wf hw acc pa).1
  rw [h1, List.flatMap_append, List.flatMap_cons] at hnd
  have hnd := List.Nodup.of_append_right hnd
  have h5 : ∀ d' ∈ after, cache ∉ d'.direct ∧ cache ∉ d'.indirect := fun d' hd' => by
    have hdis := List.disjoint_of_nodup_append hnd (a := cache) (by simpa using h3)
    rw [← not_or]
    exact fun hx => hdis (List.mem_flatMap.mpr ⟨d', hd', by simpa using hx⟩)
  refine ⟨before, d, after, h1, h2, ?_, h4, h5⟩
  by_contra hd
  rw [directCaches, h1, List.flatMap_append, List.flatMap_cons, List.mem_append, List.mem_append] at h
  rcases h with h | h | h
  · obtain ⟨x, hx, hm⟩ := List.mem_flatMap.mp h
    exact (h4 x hx).1 hm
  · exact hd h
  · obtain ⟨x, hx, hm⟩ := List.mem_flatMap.mp h
    exact (h5 x hx).1 hm

theorem not_mem_hopCaches {cfg : Config} {b cache : Nat} {hops : List Hop}
    (h : ∀ d ∈ hops, cache ∉ d.direct ∧ cache ∉ d.indirect) :
    cache ∉ hops.flatMap (hopCaches (hardwareCoherent cfg b)) := by
  intro hm
  obtain ⟨d, hd, hc⟩ := List.mem_flatMap.mp hm
  rw [hopCaches, List.mem_append] at hc
  rcases hc with hc | hc
  · exact (h d hd).1 hc
  · split at hc
    · exact (h d hd).2 hc
    · simp at hc

theorem MemSys.firstCopy_congr {ms ms' : MemSys} {l : List Nat} {b : Nat}
    (h : ∀ cache ∈ l, ms'.copyAt cache b = ms.copyAt cache b) : ms'.firstCopy l b = ms.firstCopy l b := by
  induction l with
  | nil => rfl
  | cons c l ih =>
    simp only [MemSys.firstCopy, List.findSome?_cons] at ih ⊢
    rw [h c (by simp), ih (fun x hx => h x (by simp [hx]))]

/-- What an access reads along caches: the first copy's byte, else memory's. -/
theorem MemSys.blockData_getD {cfg : Config} {ms : MemSys} {l : List Nat} (pa : Nat) :
    (ms.blockData cfg l (blockBase cfg pa)).getD (pa % blockSize cfg) 0#8 =
      match ms.firstCopy l (blockBase cfg pa) with
      | some c => c.data.getD (pa % blockSize cfg) Memory.unwritten
      | none => Memory.read ms.mem pa := by
  unfold MemSys.blockData
  cases ms.firstCopy l (blockBase cfg pa) with
  | some c => rfl
  | none => simp [Memory.readBytes, List.getD, Nat.mod_lt pa (blockSize_pos cfg), blockBase_add_offset]

theorem MemSys.firstCopy_eq_find (ms : MemSys) (l : List Nat) (b : Nat) :
    ms.firstCopy l b = (l.find? fun c => (ms.copyAt c b).isSome).bind (ms.copyAt · b) := by
  induction l with
  | nil => rfl
  | cons c l ih =>
    simp only [MemSys.firstCopy, List.findSome?_cons, List.find?_cons] at ih ⊢
    cases h : ms.copyAt c b with
    | none => simpa using ih
    | some d => simp [h]

/-- An allocation for an access brings the bytes the access reads from there on. -/
theorem MemSys.allocated_onPath (cfg : Config) (acc : Access) (cache b : Nat) (ms : MemSys) :
    (ms.allocated cfg cache b (ms.holderBeyond cfg acc cache b) false).data =
      ms.blockData cfg ((hopsFrom cache (hopsOf cfg acc b)).flatMap (hopCaches (hardwareCoherent cfg b))) b := by
  unfold MemSys.allocated MemSys.blockData MemSys.holderBeyond
  rw [MemSys.firstCopy_eq_find]
  split <;> next h => rw [h]

/-- An allocation for an access changes no byte that access reads. -/
theorem MemSys.readByte_allocateOnPath {cfg : Config} {acc : Access} {cache b a : Nat} {ms : MemSys}
    (hc : cfg.wf = true) (hw : ms.wf cfg = true) :
    MemSys.readByte cfg (MemSys.allocateOnPath cfg acc cache b ms) acc a = MemSys.readByte cfg ms acc a := by
  by_cases hb : blockBase cfg a = b
  · subst hb
    rcases MemSys.allocateOnPath_cases cfg acc cache (blockBase cfg a) ms with ⟨hdir, h⟩ | h <;> rw [h]
    rcases MemSys.copyAt_allocate_same (source := ms.holderBeyond cfg acc cache (blockBase cfg a)) (m := false)
      (cache := cache) (b := blockBase cfg a) hw with ⟨-, hsame⟩ | h'
    · obtain ⟨before, d, after, h1, h2, h3, h4, -⟩ := hopsOf_split hc hdir
      have hdata := MemSys.allocated_onPath cfg acc cache (blockBase cfg a) ms
      rw [h2] at hdata
      generalize hms : MemSys.allocate cfg cache (blockBase cfg a) (ms.holderBeyond cfg acc cache (blockBase cfg a))
        false ms = ms' at hsame
      have hother : ∀ x, x ≠ cache → ms'.copyAt x (blockBase cfg a) = ms.copyAt x (blockBase cfg a) := fun x hx => by
        rw [← hms]; exact MemSys.copyAt_allocate_other (.inl hx)
      have hmem : ms'.mem = ms.mem := by rw [← hms]; simp
      generalize ms.allocated cfg cache (blockBase cfg a) (ms.holderBeyond cfg acc cache (blockBase cfg a)) false = new
        at hsame hdata
      have hbefore : ms'.firstCopy (before.flatMap (hopCaches (hardwareCoherent cfg (blockBase cfg a)))) (blockBase cfg a) =
          ms.firstCopy (before.flatMap (hopCaches (hardwareCoherent cfg (blockBase cfg a)))) (blockBase cfg a) :=
        MemSys.firstCopy_congr fun x hx => hother x (fun e => not_mem_hopCaches h4 (e ▸ hx))
      simp only [MemSys.readByte, pathCaches]
      rw [h1, List.flatMap_append, MemSys.firstCopy_append, MemSys.firstCopy_append, hbefore]
      cases hf : ms.firstCopy (before.flatMap (hopCaches (hardwareCoherent cfg (blockBase cfg a)))) (blockBase cfg a) with
      | some c => rfl
      | none =>
        simp only [Option.none_or, hmem]
        refine Eq.trans ?_ (MemSys.blockData_getD (cfg := cfg) (ms := ms)
          (l := (d :: after).flatMap (hopCaches (hardwareCoherent cfg (blockBase cfg a)))) a)
        generalize hl : (d :: after).flatMap (hopCaches (hardwareCoherent cfg (blockBase cfg a))) = l at hdata ⊢
        have hcl : cache ∈ l := by rw [← hl]; simp [hopCaches, h3]
        have key : ∀ l' : List Nat, cache ∈ l' → ∃ c, ms'.firstCopy l' (blockBase cfg a) = some c ∧
            (c = new ∨ ms.firstCopy l' (blockBase cfg a) = some c) := by
          intro l'
          induction l' with
          | nil => simp
          | cons x xs ih =>
            intro hx
            simp only [MemSys.firstCopy, List.findSome?_cons] at ih ⊢
            by_cases hxc : x = cache
            · subst hxc
              exact ⟨new, by rw [hsame], .inl rfl⟩
            · rw [hother x hxc]
              cases hcx : ms.copyAt x (blockBase cfg a) with
              | some c => exact ⟨c, rfl, .inr rfl⟩
              | none => exact ih (by simpa [Ne.symm hxc] using hx)
        obtain ⟨c, hc1, hc2⟩ := key l hcl
        rw [hc1]
        rcases hc2 with rfl | hc2
        · rw [← hdata]; rfl
        · rw [MemSys.blockData_getD, hc2]
    · rw [h']
  · have hother : ∀ c, (MemSys.allocateOnPath cfg acc cache b ms).copyAt c (blockBase cfg a) =
        ms.copyAt c (blockBase cfg a) := fun c => MemSys.copyAt_allocateOnPath_other (.inr hb)
    simp only [MemSys.readByte, MemSys.firstCopy, hother, MemSys.allocateOnPath_mem]

end Sys2Proof.Machine
end

