-- ==== Sys2Proof/Laws/Csr.lean ====
section
/-!
SUPPORT. The fields of the control and status registers under writes: single bits, `MPP`, and the six fields of an
`xcmocontrol` register.
-/

namespace Sys2Proof.Machine

/-! ### Bits -/

/-- A bit of a word with one bit set. -/
theorem getLsbD_setBit (w : Word) (i j : Nat) (b : Bool) (hi : i < 64) :
    (setBit w i b).getLsbD j = if j = i then b else w.getLsbD j := by
  have h1 : (1#64 <<< i).getLsbD j = decide (j = i) := by
    rw [BitVec.getLsbD_shiftLeft, BitVec.getLsbD_one]
    by_cases h : j = i
    · subst h; simp [hi]
    · simp only [h, decide_false]
      by_cases h' : j < i
      · simp [h']
      · have : ¬ (j - i = 0) := by omega
        simp [this]
  unfold setBit
  cases b
  · simp only [Bool.false_eq_true, if_false, BitVec.getLsbD_and, BitVec.getLsbD_not, h1]
    by_cases h : j = i
    · simp [h]
    · by_cases h' : j < 64
      · simp [h, h']
      · simp [h, BitVec.getLsbD_of_ge _ _ (Nat.le_of_not_lt h')]
  · simp only [if_true, BitVec.getLsbD_or, h1]
    by_cases h : j = i <;> simp [h]

theorem getElem_setBit (w : Word) (i j : Nat) (b : Bool) (hi : i < 64) (hj : j < 64) :
    (setBit w i b)[j] = if j = i then b else w[j] := by
  have h := getLsbD_setBit w i j b hi
  rwa [BitVec.getLsbD_eq_getElem hj, BitVec.getLsbD_eq_getElem hj] at h

theorem getLsbD_mergeBits (m v w : Word) (j : Nat) :
    (mergeBits m v w).getLsbD j = if m.getLsbD j then v.getLsbD j else w.getLsbD j := by
  simp only [mergeBits, BitVec.getLsbD_or, BitVec.getLsbD_and, BitVec.getLsbD_not]
  by_cases h : j < 64
  · cases m.getLsbD j <;> simp [h]
  · simp [BitVec.getLsbD_of_ge _ _ (Nat.le_of_not_lt h)]

theorem getLsbD_mpp (w : Word) (j : Nat) : (mpp w).getLsbD j = (decide (j < 2) && w.getLsbD (11 + j)) := by
  simp [mpp, BitVec.getLsbD_extractLsb']

/-- A write of a bit outside `MPP` leaves `MPP`. -/
theorem mpp_setBit (w : Word) (i : Nat) (b : Bool) (hi : i < 64) (h : i ≠ 11 ∧ i ≠ 12) :
    mpp (setBit w i b) = mpp w := by
  apply BitVec.eq_of_getLsbD_eq
  intro j hj
  simp only [getLsbD_mpp, getLsbD_setBit _ _ _ _ hi]
  have : 11 + j ≠ i := by omega
  simp [this]

/-- The mask of `MPP`. -/
theorem getLsbD_mppMask (j : Nat) : (0x1800#64).getLsbD j = decide (j = 11 ∨ j = 12) := by
  by_cases h : j < 64
  · revert h; revert j; decide
  · rw [BitVec.getLsbD_of_ge _ _ (Nat.le_of_not_lt h)]
    have : ¬ (j = 11 ∨ j = 12) := by omega
    simp [this]

theorem mpp_setMpp (w : Word) (v : BitVec 2) : mpp (setMpp w v) = v := by
  apply BitVec.eq_of_getLsbD_eq
  intro j hj
  simp only [getLsbD_mpp, setMpp, getLsbD_mergeBits, getLsbD_mppMask]
  have h1 : 11 + j = 11 ∨ 11 + j = 12 := by omega
  have h2 : 11 + j < 64 := by omega
  simp only [h1, decide_true, if_true, hj, Bool.true_and, BitVec.getLsbD_shiftLeft, h2, BitVec.getLsbD_setWidth]
  simp only [show ¬ (11 + j < 11) by omega, show 11 + j - 11 = j by omega, show j < 64 by omega]
  simp

/-- A write of `MPP` leaves the other bits. -/
theorem getLsbD_setMpp (w : Word) (v : BitVec 2) (j : Nat) (h : j ≠ 11 ∧ j ≠ 12) :
    (setMpp w v).getLsbD j = w.getLsbD j := by
  simp only [setMpp, getLsbD_mergeBits, getLsbD_mppMask]
  have : ¬ (j = 11 ∨ j = 12) := by omega
  simp [this]

/-! ### The `xcmocontrol` registers -/

theorem cmoFields_cmoOfFields (f : BitVec 6) : cmoFields (cmoOfFields f) = f := by
  revert f; decide

/-- The value a register holds is one it can hold (rule R36). -/
theorem cmoLegal_legalizeCmo {p : CmoCsrParam} (h : p.wf = true) (v : Word) : cmoLegal p (legalizeCmo p v) = true := by
  simp only [CmoCsrParam.wf, List.all_eq_true, List.mem_range, beq_iff_eq] at h
  have := h (cmoFields v).toNat (cmoFields v).isLt
  simp only [BitVec.ofNat_toNat, BitVec.setWidth_eq] at this
  simp only [cmoLegal, beq_iff_eq, legalizeCmo, cmoFields_cmoOfFields, this]

/-- The bits outside the six fields read as zero (rule R35). -/
theorem legalizeCmo_reserved (p : CmoCsrParam) (v : Word) : legalizeCmo p v &&& ~~~0xF03#64 = 0#64 := by
  have : ∀ f : BitVec 6, cmoOfFields f &&& ~~~0xF03#64 = 0#64 := by decide
  exact this _

/-! ### The numbers of the registers (rule R39) -/

/-- The register a number names, that of none of the four apart, has the number of a standard CSR, so no number of the
four names another register. -/
theorem standardCsr_of_csrNamed {cfg : Config} {number : BitVec 12} {id : CsrId} (h : csrNamed cfg number = some id)
    (hid : id.isCmo = false) : standardCsr number.toNat = true := by
  have hrange : ∀ lo hi, (lo, hi) ∈ machineCsrNumbers → lo ≤ number.toNat → number.toNat ≤ hi →
      standardCsr number.toNat = true := fun lo hi hm h1 h2 => by
    simp only [standardCsr, List.any_append, Bool.or_eq_true, List.any_eq_true, Bool.and_eq_true, decide_eq_true_eq]
    exact .inr ⟨_, hm, h1, h2⟩
  have hnamed : ∀ e ∈ supervisorCsrs ++ hypervisorCsrs ++ machineCsrs, standardCsr e.1 = true := by decide
  unfold csrNamed at h
  simp only at h
  repeat' split at h
  all_goals first
    | (injection h with h; subst h; simp [CsrId.isCmo] at hid; done)
    | skip
  · exact hrange 0x3A0 0x3EF (by decide) (by omega) (by omega)
  · exact hrange 0x3A0 0x3EF (by decide) (by omega) (by omega)
  · exact hrange 0x30C 0x310 (by decide) (by omega) (by omega)
  · obtain ⟨e, he, -⟩ := Option.map_eq_some_iff.mp h
    have := hnamed e (List.mem_of_find?_eq_some he)
    have heq := List.find?_some he
    simp only [beq_iff_eq] at heq
    rwa [← heq]

end Sys2Proof.Machine
end

