-- ==== Sys2Proof/Laws/Decode.lean ====
section
/-!
SUPPORT. The fields of an assembled word, the word of given fields, and the bytes of a word.
-/

namespace Sys2Proof

/-- A bit of an assembled word, by its place (rule R123). -/
theorem getLsbD_assemble (sel : BitVec 2) (op : BitVec 5) (rs1 : RegIdx) (j : Nat) :
    (assemble sel op rs1).getLsbD j =
      if j < 7 then (0b0001011#7).getLsbD j
      else if j < 15 then false
      else if j < 20 then (BitVec.ofFin rs1 : BitVec 5).getLsbD (j - 15)
      else if j < 25 then op.getLsbD (j - 20)
      else if j < 27 then sel.getLsbD (j - 25)
      else false := by
  unfold assemble
  simp only [BitVec.getLsbD_append, BitVec.getLsbD_zero]
  by_cases h7 : j < 7
  · simp [h7]
  · by_cases h15 : j < 15
    · by_cases h12 : j < 12
      · simp [h7, h15, show j - 7 < 5 by omega]
      · simp [h7, h15, show ¬ j - 7 < 5 by omega, show j - 7 - 5 < 3 by omega]
    · simp only [h7, h15, if_false, show ¬ j - 7 < 5 by omega, show ¬ j - 7 - 5 < 3 by omega,
        show j - 7 - 5 - 3 = j - 15 by omega]
      by_cases h20 : j < 20
      · simp [h20, show j - 15 < 5 by omega]
      · simp only [h20, show ¬ j - 15 < 5 by omega, if_false, show j - 15 - 5 = j - 20 by omega]
        by_cases h25 : j < 25
        · simp [h25, show j - 20 < 5 by omega]
        · simp only [h25, show ¬ j - 20 < 5 by omega, if_false,
            show j - 20 - 5 = j - 25 by omega]
          by_cases h27 : j < 27
          · simp [h27, show j - 25 < 2 by omega]
          · simp [h27, show ¬ j - 25 < 2 by omega]

theorem getLsbD_field (w : InstrWord) (lo n j : Nat) : (field w lo n).getLsbD j = (decide (j < n) && w.getLsbD (lo + j)) := by
  simp [field, BitVec.getLsbD_extractLsb']

/-- The fields of an assembled word. -/
theorem field_assemble (sel : BitVec 2) (op : BitVec 5) (rs1 : RegIdx) :
    field (assemble sel op rs1) 0 7 = 0b0001011#7 ∧ field (assemble sel op rs1) 27 5 = 0#5 ∧
    field (assemble sel op rs1) 12 3 = 0#3 ∧ field (assemble sel op rs1) 7 5 = 0#5 ∧
    field (assemble sel op rs1) 20 5 = op ∧ field (assemble sel op rs1) 15 5 = BitVec.ofFin rs1 ∧
    field (assemble sel op rs1) 25 2 = sel := by
  refine ⟨?_, ?_, ?_, ?_, ?_, ?_, ?_⟩ <;>
  · apply BitVec.eq_of_getLsbD_eq
    intro j hj
    rw [getLsbD_field, getLsbD_assemble]
    simp only [hj, decide_true, Bool.true_and]
    interval_cases j <;> simp

theorem decodeWord_assemble (sel : BitVec 2) (op : BitVec 5) (rs1 : RegIdx) :
    decodeWord (assemble sel op rs1) = decodeOp op rs1 sel := by
  obtain ⟨h0, h1, h2, h3, h4, h5, h6⟩ := field_assemble sel op rs1
  simp [decodeWord, h0, h1, h2, h3, h4, h5, h6]

/-- A word of the CMO opcode with its zero fields zero is the assembly of its other fields. -/
theorem assemble_fields {w : InstrWord} (h0 : field w 0 7 = 0b0001011#7) (h1 : field w 27 5 = 0#5)
    (h2 : field w 12 3 = 0#3) (h3 : field w 7 5 = 0#5) :
    assemble (field w 25 2) (field w 20 5) (field w 15 5).toFin = w := by
  apply BitVec.eq_of_getLsbD_eq
  intro j hj
  have e0 := fun j => congrArg (fun v => BitVec.getLsbD v j) h0
  have e1 := fun j => congrArg (fun v => BitVec.getLsbD v j) h1
  have e2 := fun j => congrArg (fun v => BitVec.getLsbD v j) h2
  have e3 := fun j => congrArg (fun v => BitVec.getLsbD v j) h3
  simp only [getLsbD_field] at e0 e1 e2 e3
  rw [getLsbD_assemble]
  by_cases h7 : j < 7
  · have := e0 j
    simp only [h7, decide_true, Bool.true_and, Nat.zero_add] at this
    simp [h7, this]
  · by_cases h12 : j < 12
    · have := e3 (j - 7)
      simp only [show j - 7 < 5 by omega, decide_true, Bool.true_and, show 7 + (j - 7) = j by omega] at this
      simp [h7, show j < 15 by omega, this]
    · by_cases h15 : j < 15
      · have := e2 (j - 12)
        simp only [show j - 12 < 3 by omega, decide_true, Bool.true_and, show 12 + (j - 12) = j by omega] at this
        simp [h7, h15, this]
      · by_cases h20 : j < 20
        · simp only [h7, h15, h20, if_true, if_false, BitVec.ofFin_toFin, getLsbD_field, show j - 15 < 5 by omega,
            show 15 + (j - 15) = j by omega, decide_true, Bool.true_and]
        · by_cases h25 : j < 25
          · simp only [h7, h15, h20, h25, if_true, if_false, BitVec.ofFin_toFin, getLsbD_field, show j - 20 < 5 by omega,
            show 20 + (j - 20) = j by omega, decide_true, Bool.true_and]
          · by_cases h27 : j < 27
            · simp only [h7, h15, h20, h25, h27, if_true, if_false, BitVec.ofFin_toFin, getLsbD_field, show j - 25 < 2 by omega,
            show 25 + (j - 25) = j by omega, decide_true, Bool.true_and]
            · have := e1 (j - 27)
              simp only [show j - 27 < 5 by omega, decide_true, Bool.true_and, show 27 + (j - 27) = j by omega] at this
              simp [h7, h15, h20, h25, h27, this]

/-- The value of the bytes of a value. -/
theorem ofBytesLE_toBytesLE (v n : Nat) : ofBytesLE (toBytesLE v n) = v % 256 ^ n := by
  induction n generalizing v with
  | zero => simp [toBytesLE, ofBytesLE, Nat.mod_one]
  | succ n ih =>
    simp only [toBytesLE, ofBytesLE, ih, BitVec.toNat_ofNat]
    rw [show (2 : Nat) ^ 8 = 256 from rfl, Nat.pow_succ, Nat.mul_comm (256 ^ n) 256, Nat.mod_mul]

@[simp] theorem toBytesLE_length (v n : Nat) : (toBytesLE v n).length = n := by
  induction n generalizing v with
  | zero => rfl
  | succ n ih => simp [toBytesLE, ih]

/-- Decoding the four bytes of a word is decoding the word. -/
theorem decode_toBytesLE (w : InstrWord) (rest : List Byte) :
    decode (toBytesLE w.toNat 4 ++ rest) = (decodeWord w).map fun i => (i, rest) := by
  have h : BitVec.ofNat 32 (ofBytesLE (toBytesLE w.toNat 4)) = w := by
    rw [ofBytesLE_toBytesLE]
    apply BitVec.eq_of_toNat_eq
    have := w.isLt
    simp only [BitVec.toNat_ofNat]
    omega
  simp only [toBytesLE, List.cons_append, List.nil_append, decode]
  simp only [toBytesLE] at h
  rw [h]

end Sys2Proof
end

