-- ==== Sys2Proof/Laws/Domains.lean ====
section
/-!
SUPPORT. Coherence domains (rule R79): what the agreement of their copies means, and that every operation on memory and
caches keeps it in a well-formed configuration.
-/

namespace Sys2Proof.Machine

theorem Copies.agree_iff {l : List Copy} : Copies.agree l = true ↔ ∀ c ∈ l, ∀ d ∈ l, c.data = d.data := by
  cases l with
  | nil => simp [Copies.agree]
  | cons a l =>
    simp only [Copies.agree, List.all_eq_true, beq_iff_eq]
    constructor
    · intro h c hc d hd
      have key : ∀ x ∈ a :: l, x.data = a.data := fun x hx => by
        rcases List.mem_cons.mp hx with rfl | hx
        · rfl
        · exact h x hx
      rw [key c hc, key d hd]
    · exact fun h d hd => h d (List.mem_cons_of_mem _ hd) a List.mem_cons_self

/-- The copies of a block agree in each domain where hardware enforces coherence on it. -/
theorem MemSys.agrees_iff {cfg : Config} {ms : MemSys} {b : Nat} :
    ms.agrees cfg b = true ↔ (hardwareCoherent cfg b = true → ∀ h ∈ hopsCovering cfg b, ∀ x ∈ hopMembers h,
      ∀ y ∈ hopMembers h, ∀ c d, ms.copyAt x b = some c → ms.copyAt y b = some d → c.data = d.data) := by
  unfold MemSys.agrees
  cases hc : hardwareCoherent cfg b with
  | false => simp
  | true =>
    simp only [Bool.not_true, Bool.false_or, List.all_eq_true, Copies.agree_iff, List.mem_filterMap, forall_const]
    constructor
    · exact fun h k hk x hx y hy c d h1 h2 => h k hk c ⟨x, hx, h1⟩ d ⟨y, hy, h2⟩
    · rintro h k hk c ⟨x, hx, h1⟩ d ⟨y, hy, h2⟩
      exact h k hk x hx y hy c d h1 h2

/-- In a well-formed configuration two domains of an address that share a cache are one set of caches. -/
theorem sameDomain {cfg : Config} (hw : cfg.wf = true) {pa x : Nat} {h k : Hop} (hh : h ∈ hopsCovering cfg pa)
    (hk : k ∈ hopsCovering cfg pa) (h1 : x ∈ hopMembers h) (h2 : x ∈ hopMembers k) :
    ∀ y, y ∈ hopMembers h ↔ y ∈ hopMembers k := by
  obtain ⟨p, hp, hh⟩ := List.mem_flatMap.mp hh
  obtain ⟨q, hq, hk⟩ := List.mem_flatMap.mp hk
  obtain ⟨hp, hpr⟩ := List.mem_filter.mp hp
  obtain ⟨hq, hqr⟩ := List.mem_filter.mp hq
  simp only [inRange, Bool.and_eq_true, decide_eq_true_eq] at hpr hqr
  have hd := (Config.wf_topology hw).2.2.2
  simp only [domainsWf, List.all_eq_true] at hd
  have hd := hd p hp q hq
  have hm : p.meets q = true := by
    simp only [PathRule.meets, Bool.and_eq_true, decide_eq_true_eq]
    omega
  simp only [hm, Bool.not_true, Bool.false_or, List.all_eq_true] at hd
  have hd := hd h hh k hk
  split at hd
  · simp only [sameMembers, Bool.and_eq_true, List.all_eq_true, List.contains_iff_mem] at hd
    exact fun y => ⟨hd.1 y, hd.2 y⟩
  · simp only [disjoint, List.all_eq_true, Bool.not_eq_true', List.contains_eq_mem, decide_eq_false_iff_not] at hd
    exact absurd h2 (hd x h1)

/-- A change that takes each domain's copies to copies with bytes computed from theirs keeps agreement. -/
theorem MemSys.agrees_of_map {cfg : Config} {ms ms' : MemSys} {b : Nat} (ha : ms.agrees cfg b = true)
    (hmap : hardwareCoherent cfg b = true → ∀ h ∈ hopsCovering cfg b, ∃ g : List Byte → List Byte, ∀ x ∈ hopMembers h,
      ∀ c', ms'.copyAt x b = some c' → ∃ c, ms.copyAt x b = some c ∧ c'.data = g c.data) :
    ms'.agrees cfg b = true := by
  rw [MemSys.agrees_iff] at ha ⊢
  intro hc h hh x hx y hy c' d' h1 h2
  obtain ⟨g, hg⟩ := hmap hc h hh
  obtain ⟨c, hc1, e1⟩ := hg x hx c' h1
  obtain ⟨d, hd1, e2⟩ := hg y hy d' h2
  rw [e1, e2, ha hc h hh x hx y hy c d hc1 hd1]

theorem MemSys.agrees_congr {cfg : Config} {ms ms' : MemSys} {b : Nat} (ha : ms.agrees cfg b = true)
    (hcopy : ∀ x, ms'.copyAt x b = ms.copyAt x b) : ms'.agrees cfg b = true :=
  MemSys.agrees_of_map ha fun _ _ _ => ⟨id, fun x _ c' h => ⟨c', by rw [← hcopy x]; exact h, rfl⟩⟩

/-- Copies that leave keep agreement. -/
theorem MemSys.agrees_of_subset {cfg : Config} {ms ms' : MemSys} {b : Nat} (ha : ms.agrees cfg b = true)
    (hsub : ∀ x, ms'.copyAt x b = none ∨ ms'.copyAt x b = ms.copyAt x b) : ms'.agrees cfg b = true :=
  MemSys.agrees_of_map ha fun _ _ _ => ⟨id, fun x _ c' h => by
    rcases hsub x with h0 | h0
    · rw [h0] at h; simp at h
    · exact ⟨c', by rw [← h0]; exact h, rfl⟩⟩

/-- A change of every copy of one set of domains, by one function on bytes, keeps agreement. -/
theorem MemSys.agrees_of_domains {cfg : Config} {ms ms' : MemSys} {b : Nat} {hops : List Hop} (hw : cfg.wf = true)
    (hs : ∀ h ∈ hops, h ∈ hopsCovering cfg b) (g : List Byte → List Byte) (ha : ms.agrees cfg b = true)
    (hin : ∀ x, (∃ h ∈ hops, x ∈ hopMembers h) → ∀ c', ms'.copyAt x b = some c' →
      ∃ c, ms.copyAt x b = some c ∧ c'.data = g c.data)
    (hout : ∀ x, ¬ (∃ h ∈ hops, x ∈ hopMembers h) → ms'.copyAt x b = ms.copyAt x b) : ms'.agrees cfg b = true := by
  refine MemSys.agrees_of_map ha fun _ k hk => ?_
  by_cases hmeet : ∃ x ∈ hopMembers k, ∃ h ∈ hops, x ∈ hopMembers h
  · obtain ⟨x, hx, h, hh, hxh⟩ := hmeet
    have hsame := sameDomain hw hk (hs h hh) hx hxh
    exact ⟨g, fun y hy c' hc' => hin y ⟨h, hh, (hsame y).mp hy⟩ c' hc'⟩
  · refine ⟨id, fun y hy c' hc' => ⟨c', ?_, rfl⟩⟩
    rw [← hout y fun hex => hmeet ⟨y, hy, hex⟩]
    exact hc'

theorem hopCaches_coherent (h : Hop) : hopCaches true h = hopMembers h := by simp [hopCaches, hopMembers]

/-! ### Data writes -/

theorem MemSys.agrees_writeCopies {cfg : Config} {tick pa : Nat} {v : Byte} {d : Hop} {ms : MemSys} (hc : cfg.wf = true)
    (hw : ms.wf cfg = true) (hd : d ∈ hopsCovering cfg (blockBase cfg pa))
    (ha : ms.agrees cfg (blockBase cfg pa) = true) :
    ((hopCaches (hardwareCoherent cfg (blockBase cfg pa)) d).foldl (MemSys.writeCopy cfg tick pa v) ms).agrees cfg
      (blockBase cfg pa) = true := by
  cases hco : hardwareCoherent cfg (blockBase cfg pa) with
  | false => simp [MemSys.agrees, hco]
  | true =>
    rw [hopCaches_coherent]
    have hcopies := MemSys.copyAt_writeCopies (tick := tick) (pa := pa) (v := v) (hopMembers d) hw
    refine MemSys.agrees_of_domains (hops := [d]) hc (by simpa using hd) (fun l => l.set (pa % blockSize cfg) v) ha
      (fun x hx c' hc' => ?_) (fun x hx => ?_)
    · rw [hcopies, if_pos (by simpa using hx)] at hc'
      obtain ⟨c, h1, h2⟩ := Option.bind_eq_some_iff.mp hc'
      exact ⟨c, h1, writtenCopy_data h2⟩
    · rw [hcopies, if_neg (by simpa using hx)]

theorem MemSys.agrees_writeAlong {cfg : Config} {tick pa : Nat} {v : Byte} (hops : List Hop) {ms : MemSys}
    (hc : cfg.wf = true) (hw : ms.wf cfg = true) (hs : ∀ h ∈ hops, h ∈ hopsCovering cfg (blockBase cfg pa))
    (ha : ms.agrees cfg (blockBase cfg pa) = true) :
    (MemSys.writeAlong cfg tick pa v hops ms).agrees cfg (blockBase cfg pa) = true := by
  induction hops generalizing ms with
  | nil => exact MemSys.agrees_congr ha fun _ => rfl
  | cons d hs' ih =>
    have h1 := MemSys.agrees_writeCopies (tick := tick) (v := v) hc hw (hs d List.mem_cons_self) ha
    simp only [MemSys.writeAlong]
    split
    · exact h1
    · exact ih (MemSys.writeCopies_wf _ hw) (fun h hh => hs h (List.mem_cons_of_mem _ hh)) h1

/-- Data writes keep the agreement of every block. -/
theorem MemSys.agrees_writeByte {cfg : Config} {tick pa : Nat} {acc : Access} {v : Byte} {ms : MemSys} {b : Nat}
    (hc : cfg.wf = true) (hw : ms.wf cfg = true) (ha : ms.agrees cfg b = true) :
    (MemSys.writeByte cfg tick acc pa v ms).agrees cfg b = true := by
  by_cases hb : b = blockBase cfg pa
  · subst hb
    exact MemSys.agrees_writeAlong _ hc hw (fun _ => hopsOf_subset) ha
  · exact MemSys.agrees_congr ha fun _ => MemSys.copyAt_writeAlong_block _ hb

theorem MemSys.agrees_writeBytes {cfg : Config} {tick pa : Nat} {acc : Access} (bs : List Byte) {ms : MemSys} {b : Nat}
    (hc : cfg.wf = true) (hw : ms.wf cfg = true) (ha : ms.agrees cfg b = true) :
    (MemSys.writeBytes cfg tick acc pa bs ms).agrees cfg b = true := by
  induction bs generalizing pa ms with
  | nil => exact ha
  | cons v bs ih => exact ih (MemSys.writeByte_wf hw) (MemSys.agrees_writeByte hc hw ha)

/-! ### Allocation and deallocation -/

/-- An allocation for an access keeps the agreement of its block: it brings what the domain holds, if it holds any. -/
theorem MemSys.agrees_allocateOnPath {cfg : Config} {acc : Access} {cache b b' : Nat} {ms : MemSys} (hc : cfg.wf = true)
    (hw : ms.wf cfg = true) (ha : ms.agrees cfg b' = true) :
    (MemSys.allocateOnPath cfg acc cache b ms).agrees cfg b' = true := by
  by_cases hb : b' = b
  · subst hb
    rcases MemSys.allocateOnPath_cases cfg acc cache b' ms with ⟨hdir, h⟩ | h <;> rw [h]
    · rcases MemSys.copyAt_allocate_same (source := ms.holderBeyond cfg acc cache b') (m := false) (cache := cache)
        (b := b') hw with ⟨-, hsame⟩ | h'
      · obtain ⟨before, d, after, h1, h2, h3, -, -⟩ := hopsOf_split hc hdir
        have hdata := MemSys.allocated_onPath cfg acc cache b' ms
        rw [h2] at hdata
        have hdc : d ∈ hopsCovering cfg b' := hopsOf_subset (acc := acc) (by rw [h1]; simp)
        have hother : ∀ x, x ≠ cache → (MemSys.allocate cfg cache b' (ms.holderBeyond cfg acc cache b') false
            ms).copyAt x b' = ms.copyAt x b' := fun x hx => MemSys.copyAt_allocate_other (.inl hx)
        rw [MemSys.agrees_iff] at ha ⊢
        intro hco h hh x hx y hy
        -- the new copy has the bytes of every copy of its domain
        have key : ∀ z ∈ hopMembers h, cache ∈ hopMembers h → ∀ e, ms.copyAt z b' = some e →
            (ms.allocated cfg cache b' (ms.holderBeyond cfg acc cache b') false).data = e.data := by
          intro z hz hch e he
          have hsd := sameDomain hc hh hdc hch (by simp [hopMembers, h3])
          have hzd := (hsd z).mp hz
          rw [hdata, MemSys.blockData, List.flatMap_cons, MemSys.firstCopy_append, hco, hopCaches_coherent]
          cases hf : ms.firstCopy (hopMembers d) b' with
          | none =>
            rw [MemSys.firstCopy_none hf z hzd] at he
            simp at he
          | some f =>
            obtain ⟨w, hwm, hwf⟩ := MemSys.firstCopy_mem hf
            exact ha hco d hdc w hwm z hzd f e hwf he
        intro c e hcx hey
        by_cases hxc : x = cache
        · by_cases hyc : y = cache
          · rw [hxc] at hcx; rw [hyc] at hey
            rw [hcx] at hey; injection hey with hey; rw [hey]
          · rw [hother y hyc] at hey
            rw [hxc, hsame] at hcx
            injection hcx with hcx
            rw [← hcx]
            exact key y hy (hxc ▸ hx) e hey
        · rw [hother x hxc] at hcx
          by_cases hyc : y = cache
          · rw [hyc, hsame] at hey
            injection hey with hey
            rw [← hey]
            exact (key x hx (hyc ▸ hy) c hcx).symm
          · rw [hother y hyc] at hey
            exact ha hco h hh x hx y hy c e hcx hey
      · rw [h']; exact ha
    · exact ha
  · exact MemSys.agrees_congr ha fun _ => MemSys.copyAt_allocateOnPath_other (.inr hb)

/-! ### Management operations -/

theorem MemSys.agrees_transfer {cfg : Config} {b : Nat} {data : List Byte} (hops : List Hop) {ms : MemSys}
    (hc : cfg.wf = true) (hs : ∀ h ∈ hops, h ∈ hopsCovering cfg b) (ha : ms.agrees cfg b = true) :
    (MemSys.transfer cfg b data hops ms).agrees cfg b = true := by
  induction hops generalizing ms with
  | nil => exact MemSys.agrees_congr ha fun _ => rfl
  | cons d hs' ih =>
    have h1 : ((hopCaches (hardwareCoherent cfg b) d).foldl (MemSys.updateCopy cfg b data) ms).agrees cfg b = true := by
      cases hco : hardwareCoherent cfg b with
      | false => simp [MemSys.agrees, hco]
      | true =>
        rw [hopCaches_coherent]
        refine MemSys.agrees_of_domains (hops := [d]) hc (by simpa using hs d List.mem_cons_self) (fun _ => data) ha
          (fun x hx c' hc' => ?_) (fun x hx => ?_)
        · rw [MemSys.copyAt_updateCopies, if_pos (by simpa using hx)] at hc'
          obtain ⟨c, h1, h2⟩ := Option.map_eq_some_iff.mp hc'
          exact ⟨c, h1, by rw [← h2]⟩
        · rw [MemSys.copyAt_updateCopies, if_neg (by simpa using hx)]
    simp only [MemSys.transfer]
    split
    · exact h1
    · exact ih (fun h hh => hs h (List.mem_cons_of_mem _ hh)) h1

theorem MemSys.agrees_gives {cfg : Config} {tick : Nat} {op : CacheOp} {set : List Nat} {b : Nat}
    {data : Option (List Byte)} {bound : List LatestByte} (l : List Nat) {ms : MemSys} (ha : ms.agrees cfg b = true) :
    (ms.gives cfg tick op set b data bound l).agrees cfg b = true :=
  foldl_keeps (fun ms : MemSys => ms.agrees cfg b = true) _ (fun ms c h => by
    rcases MemSys.give_cases cfg tick op set b data bound ms c with ⟨_, _, -, -, -, -, -, h', -, -⟩ | h'
    · exact h'
    · rw [h']; exact h) l ms ha

/-- What settling makes of the bytes of a copy it leaves. -/
theorem settledCopy_data {cfg : Config} {tick : Nat} {op : CacheOp} {data : Option (List Byte)} {cache : Nat} {c c' : Copy}
    (h : settledCopy cfg tick op data cache c = some c') : c'.data = data.getD c.data := by
  cases op with
  | clean =>
    simp only [settledCopy] at h
    split at h
    · simp at h
    · injection h with h; rw [← h]
  | invalidate => simp [settledCopy] at h
  | flush => simp [settledCopy] at h

/-- A management operation keeps the agreement of every block. -/
theorem MemSys.agrees_manageAt {cfg : Config} {tick : Nat} {op : CacheOp} {acc : Access} {pa b : Nat} {poc : Poc}
    {bound : List LatestByte} {ms : MemSys} (hc : cfg.wf = true) (hw : ms.wf cfg = true) (ha : ms.agrees cfg b = true) :
    (MemSys.manageAt cfg tick op acc pa poc bound ms).agrees cfg b = true := by
  unfold MemSys.manageAt
  by_cases hb : b = blockBase cfg pa
  · subst hb
    have hsub : ∀ h ∈ (pathOf cfg acc (blockBase cfg pa)).toPoc ++ (pathOf cfg acc (blockBase cfg pa)).beyondPoc,
        h ∈ hopsCovering cfg (blockBase cfg pa) := fun h hh => hopsOf_subset hh
    generalize hset : cacheSet cfg acc pa poc = set
    have hvis : (ms.visible cfg tick op set (pathOf cfg acc (blockBase cfg pa)).beyondPoc
        (blockBase cfg pa) bound).agrees cfg (blockBase cfg pa) = true := by
      unfold MemSys.visible
      split
      · exact MemSys.agrees_gives _ ha
      · exact MemSys.agrees_transfer _ hc (fun h hh => hsub h (List.mem_append_right _ hh)) (MemSys.agrees_gives _ ha)
    have hvw := MemSys.visible_wf (tick := tick) (op := op) (set := set)
      (beyond := (pathOf cfg acc (blockBase cfg pa)).beyondPoc) (b := blockBase cfg pa) (bound := bound) hw
    cases hco : hardwareCoherent cfg (blockBase cfg pa) with
    | false => simp [MemSys.agrees, hco]
    | true =>
      rw [MemSys.manage_eq]
      have hmem : ∀ x, x ∈ set ↔ ∃ h ∈ (pathOf cfg acc (blockBase cfg pa)).toPoc, x ∈ hopMembers h := fun x => by
        rw [← hset]
        cases poc
        simp [cacheSet, hco, hopCaches_coherent]
      have hsettle := MemSys.copyAt_settles (tick := tick) (op := op) (b := blockBase cfg pa)
        (data := ms.transferred cfg tick op set (blockBase cfg pa) bound) set hvw
        (fun d h => MemSys.transferred_length hw h)
      refine MemSys.agrees_of_domains (hops := (pathOf cfg acc (blockBase cfg pa)).toPoc) hc
        (fun h hh => hsub h (List.mem_append_left _ hh))
        (fun l => (ms.transferred cfg tick op set (blockBase cfg pa) bound).getD l) hvis
        (fun x hx c' hc' => ?_) (fun x hx => ?_)
      · rw [hsettle, if_pos ((hmem x).mpr hx)] at hc'
        obtain ⟨c, h1, h2⟩ := Option.bind_eq_some_iff.mp hc'
        exact ⟨c, h1, settledCopy_data h2⟩
      · rw [hsettle, if_neg (fun hm => hx ((hmem x).mp hm))]
  · exact MemSys.agrees_congr ha fun _ => MemSys.copyAt_manage_block hb

/-! ### Blocks that leave -/

theorem MemSys.agrees_emptyBlock {cfg : Config} {ms : MemSys} {b b' : Nat} (hw : ms.wf cfg = true)
    (ha : ms.agrees cfg b' = true) : (ms.emptyBlock cfg b).agrees cfg b' = true := by
  refine MemSys.agrees_of_subset ha fun x => ?_
  rw [MemSys.copyAt_emptyBlock hw]
  split
  · exact .inl rfl
  · exact .inr rfl

/-! ### Blocks shown to the fetches -/

/-- A cache on the path of an access to an address whose coherence hardware enforces is one of a domain of that path. -/
theorem mem_pathCaches {cfg : Config} {acc : Access} {b x : Nat} (hco : hardwareCoherent cfg b = true) :
    x ∈ pathCaches cfg acc b ↔ ∃ h ∈ hopsOf cfg acc b, x ∈ hopMembers h := by
  simp [pathCaches, hco, hopCaches_coherent]

theorem MemSys.agrees_writeBack {cfg : Config} {ms : MemSys} {acc : Access} {b : Nat} (hc : cfg.wf = true)
    (ha : ms.agrees cfg b = true) : (ms.writeBack (pathCaches cfg acc b) b).agrees cfg b = true := by
  cases hco : hardwareCoherent cfg b with
  | false => simp [MemSys.agrees, hco]
  | true =>
    cases hf : ms.firstModified (pathCaches cfg acc b) b with
    | none => exact MemSys.agrees_congr ha fun x => by rw [MemSys.copyAt_writeBack, hf]
    | some d =>
      refine MemSys.agrees_of_domains (hops := hopsOf cfg acc b) hc (fun _ => hopsOf_subset) (fun _ => d) ha
        (fun x hx c' hc' => ?_) (fun x hx => ?_)
      · rw [MemSys.copyAt_writeBack, hf] at hc'
        simp only [(mem_pathCaches hco).mpr hx, and_self, if_true] at hc'
        obtain ⟨c, h1, h2⟩ := Option.map_eq_some_iff.mp hc'
        exact ⟨c, h1, by rw [← h2]⟩
      · rw [MemSys.copyAt_writeBack, hf]
        exact if_neg fun hm => hx ((mem_pathCaches hco).mp hm.1)

theorem syncedCopy_data {cfg : Config} {pa : Nat} {v : Byte} {c c' : Copy} (h : syncedCopy cfg pa v c = some c') :
    c'.data = if c.data.getD (pa % blockSize cfg) Memory.unwritten = v then c.data
      else c.data.set (pa % blockSize cfg) v := by
  unfold syncedCopy at h
  split at h
  · injection h with h; rw [if_pos ‹_›, h]
  · split at h
    · injection h with h; rw [if_neg ‹_›, ← h]
    · simp at h

theorem MemSys.agrees_syncCopies {cfg : Config} {ms : MemSys} {acc : Access} {pa : Nat} {v : Byte} (hc : cfg.wf = true)
    (hw : ms.wf cfg = true) (ha : ms.agrees cfg (blockBase cfg pa) = true) :
    ((pathCaches cfg acc (blockBase cfg pa)).foldl (MemSys.syncCopy cfg pa v) ms).agrees cfg (blockBase cfg pa) = true := by
  cases hco : hardwareCoherent cfg (blockBase cfg pa) with
  | false => simp [MemSys.agrees, hco]
  | true =>
    refine MemSys.agrees_of_domains (hops := hopsOf cfg acc (blockBase cfg pa)) hc (fun _ => hopsOf_subset)
      (fun l => if l.getD (pa % blockSize cfg) Memory.unwritten = v then l else l.set (pa % blockSize cfg) v) ha
      (fun x hx c' hc' => ?_) (fun x hx => ?_)
    · rw [MemSys.copyAt_syncCopies _ hw, if_pos ⟨(mem_pathCaches hco).mpr hx, rfl⟩] at hc'
      obtain ⟨c, h1, h2⟩ := Option.bind_eq_some_iff.mp hc'
      exact ⟨c, h1, syncedCopy_data h2⟩
    · rw [MemSys.copyAt_syncCopies _ hw, if_neg fun hm => hx ((mem_pathCaches hco).mp hm.1)]

/-- Showing a byte to the fetches touches no other block. -/
theorem MemSys.copyAt_showToFetches_block {cfg : Config} {memType pa x b : Nat} {ms : MemSys} (hw : ms.wf cfg = true)
    (hb : b ≠ blockBase cfg pa) : (MemSys.showToFetches cfg memType pa ms).copyAt x b = ms.copyAt x b := by
  unfold MemSys.showToFetches
  rw [MemSys.copyAt_syncCopies _ (MemSys.writeBack_wf _ _ hw), if_neg fun h => hb h.2, MemSys.copyAt_writeBack]
  split
  · rfl
  · rw [if_neg fun h => hb h.2]

theorem MemSys.agrees_showToFetches {cfg : Config} {memType pa b : Nat} {ms : MemSys} (hc : cfg.wf = true)
    (hw : ms.wf cfg = true) (ha : ms.agrees cfg b = true) :
    (MemSys.showToFetches cfg memType pa ms).agrees cfg b = true := by
  by_cases hb : b = blockBase cfg pa
  · subst hb
    exact MemSys.agrees_syncCopies hc (MemSys.writeBack_wf _ _ hw) (MemSys.agrees_writeBack hc ha)
  · exact MemSys.agrees_congr ha fun _ => MemSys.copyAt_showToFetches_block hw hb

/-! ### All blocks -/

theorem Copies.mem_of_find {l : List Copy} {b : Nat} {c : Copy} (h : Copies.find l b = some c) : c ∈ l := by
  induction l with
  | nil => simp [Copies.find] at h
  | cons d l ih =>
    simp only [Copies.find] at h
    split at h
    · injection h with h; simp [h]
    · exact List.mem_cons_of_mem _ (ih h)

/-- A block with a copy is among those some cache holds. -/
theorem MemSys.mem_blocksHeld {ms : MemSys} {x b : Nat} {c : Copy} (h : ms.copyAt x b = some c) : b ∈ ms.blocksHeld := by
  have hb := (MemSys.copyAt_block h).1
  simp only [MemSys.copyAt] at h
  split at h
  · next l hl =>
    simp only [MemSys.blocksHeld, List.mem_eraseDups, List.mem_flatMap, List.mem_map]
    exact ⟨l, List.mem_of_getElem? hl, c, Copies.mem_of_find h, hb⟩
  · simp at h

/-- Agreement of the blocks held is agreement of every block. -/
theorem MemSys.domainsAgree_iff {cfg : Config} {ms : MemSys} :
    ms.domainsAgree cfg = true ↔ ∀ b, ms.agrees cfg b = true := by
  simp only [MemSys.domainsAgree, List.all_eq_true]
  constructor
  · intro h b
    by_cases hb : b ∈ ms.blocksHeld
    · exact h b hb
    · rw [MemSys.agrees_iff]
      intro _ k _ x _ y _ c d hc
      exact absurd (MemSys.mem_blocksHeld hc) hb
  · exact fun h b _ => h b

/-! ### Sound memory systems -/

/-- Canonical, and in agreement in every domain. -/
structure MemSys.Sound (cfg : Config) (ms : MemSys) : Prop where
  wf : ms.wf cfg = true
  agrees : ∀ b, ms.agrees cfg b = true

theorem MemSys.Sound.writeBytes {cfg : Config} {tick pa : Nat} {acc : Access} {bs : List Byte} {ms : MemSys}
    (hc : cfg.wf = true) (h : ms.Sound cfg) : (MemSys.writeBytes cfg tick acc pa bs ms).Sound cfg :=
  ⟨MemSys.writeBytes_wf _ h.wf, fun b => MemSys.agrees_writeBytes _ hc h.wf (h.agrees b)⟩

theorem MemSys.Sound.allocateOnPath {cfg : Config} {acc : Access} {cache b : Nat} {ms : MemSys}
    (hc : cfg.wf = true) (h : ms.Sound cfg) : (MemSys.allocateOnPath cfg acc cache b ms).Sound cfg :=
  ⟨MemSys.allocateOnPath_wf h.wf, fun b' => MemSys.agrees_allocateOnPath hc h.wf (h.agrees b')⟩

theorem MemSys.Sound.manageAt {cfg : Config} {tick pa : Nat} {op : CacheOp} {acc : Access} {poc : Poc}
    {bound : List LatestByte} {ms : MemSys} (hc : cfg.wf = true) (h : ms.Sound cfg) :
    (MemSys.manageAt cfg tick op acc pa poc bound ms).Sound cfg :=
  ⟨MemSys.manageAt_wf h.wf, fun b => MemSys.agrees_manageAt hc h.wf (h.agrees b)⟩

theorem MemSys.Sound.emptyBlock {cfg : Config} {ms : MemSys} (b : Nat) (h : ms.Sound cfg) :
    (ms.emptyBlock cfg b).Sound cfg :=
  ⟨MemSys.emptyBlock_wf b h.wf, fun b' => MemSys.agrees_emptyBlock h.wf (h.agrees b')⟩

theorem MemSys.Sound.writeBack {cfg : Config} {ms : MemSys} {acc : Access} {b : Nat} (hc : cfg.wf = true)
    (h : ms.Sound cfg) : (ms.writeBack (pathCaches cfg acc b) b).Sound cfg :=
  ⟨MemSys.writeBack_wf _ _ h.wf, fun b' => by
    by_cases hb : b' = b
    · subst hb; exact MemSys.agrees_writeBack hc (h.agrees _)
    · refine MemSys.agrees_congr (h.agrees b') fun x => ?_
      rw [MemSys.copyAt_writeBack]
      split
      · rfl
      · exact if_neg fun hh => hb hh.2⟩

theorem MemSys.Sound.showToFetches {cfg : Config} {ms : MemSys} {memType pa : Nat} (hc : cfg.wf = true)
    (h : ms.Sound cfg) : (MemSys.showToFetches cfg memType pa ms).Sound cfg :=
  ⟨MemSys.showToFetches_wf h.wf, fun _ => MemSys.agrees_showToFetches hc h.wf (h.agrees _)⟩

/-- An allocation that keeps its block's agreement keeps every block's. -/
theorem MemSys.Sound.allocate {cfg : Config} {cache b : Nat} {source : Option Nat} {m : Bool} {ms : MemSys}
    (h : ms.Sound cfg) (ha : (MemSys.allocate cfg cache b source m ms).agrees cfg b = true) :
    (MemSys.allocate cfg cache b source m ms).Sound cfg :=
  ⟨MemSys.allocate_wf h.wf, fun b' => by
    by_cases hb : b' = b
    · exact hb ▸ ha
    · exact MemSys.agrees_congr (h.agrees b') fun _ => MemSys.copyAt_allocate_other (.inr hb)⟩

/-- A deallocation that keeps its block's agreement keeps every block's. -/
theorem MemSys.Sound.deallocate {cfg : Config} {cache b : Nat} {destination : Destination} {ms : MemSys}
    (h : ms.Sound cfg) (ha : (MemSys.deallocate cfg cache b destination ms).agrees cfg b = true) :
    (MemSys.deallocate cfg cache b destination ms).Sound cfg :=
  ⟨MemSys.deallocate_wf h.wf, fun b' => by
    by_cases hb : b' = b
    · exact hb ▸ ha
    · exact MemSys.agrees_congr (h.agrees b') fun _ => MemSys.copyAt_deallocate_block hb⟩

/-- The memory system of a state that meets the invariant. -/
theorem State.Inv.sound {s : State} (h : s.Inv) : s.ms.Sound s.cfg := ⟨h.ms, MemSys.domainsAgree_iff.mp h.domains⟩

end Sys2Proof.Machine
end

