-- ==== Sys2Proof/Laws/State.lean ====
section
/-!
SUPPORT. What each operation on a state leaves of each field: one lemma per field and operation, so that no later proof
unfolds a record update.
-/

namespace Sys2Proof.Machine

/-! ### Retiring -/

@[simp] theorem retireBy_cfg (s : State) (n : Nat) : (retireBy s n).cfg = s.cfg := rfl
@[simp] theorem retireBy_x (s : State) (n : Nat) : (retireBy s n).x = s.x := rfl
@[simp] theorem retireBy_pc (s : State) (n : Nat) : (retireBy s n).pc = pcAfter s n := rfl
@[simp] theorem retireBy_mode (s : State) (n : Nat) : (retireBy s n).mode = s.mode := rfl
@[simp] theorem retireBy_csr (s : State) (n : Nat) : (retireBy s n).csr = s.csr := rfl
@[simp] theorem retireBy_pmp (s : State) (n : Nat) : (retireBy s n).pmp = s.pmp := rfl
@[simp] theorem retireBy_triggers (s : State) (n : Nat) : (retireBy s n).triggers = s.triggers := rfl
@[simp] theorem retireBy_ms (s : State) (n : Nat) : (retireBy s n).ms = s.ms := rfl
@[simp] theorem retireBy_unspecified (s : State) (n : Nat) : (retireBy s n).unspecified = s.unspecified := rfl
@[simp] theorem retireBy_reservation (s : State) (n : Nat) : (retireBy s n).reservation = s.reservation := rfl
@[simp] theorem retireBy_word (s : State) (n : Nat) : (retireBy s n).word = s.word := rfl
@[simp] theorem retireBy_latest (s : State) (n : Nat) : (retireBy s n).latest = s.latest := rfl
@[simp] theorem retireBy_moves (s : State) (n : Nat) : (retireBy s n).moves = s.moves := rfl
@[simp] theorem retireBy_tick (s : State) (n : Nat) : (retireBy s n).tick = s.tick + 1 := rfl

/-! ### A CMO instruction retires -/

@[simp] theorem retire_cfg (s : State) : (retire s).cfg = s.cfg := rfl
@[simp] theorem retire_x (s : State) : (retire s).x = s.x := rfl
@[simp] theorem retire_pc (s : State) : (retire s).pc = nextPc s := rfl
@[simp] theorem retire_mode (s : State) : (retire s).mode = s.mode := rfl
@[simp] theorem retire_csr (s : State) : (retire s).csr = s.csr := rfl
@[simp] theorem retire_pmp (s : State) : (retire s).pmp = s.pmp := rfl
@[simp] theorem retire_triggers (s : State) : (retire s).triggers = s.triggers := rfl
@[simp] theorem retire_ms (s : State) : (retire s).ms = s.ms := rfl
@[simp] theorem retire_unspecified (s : State) : (retire s).unspecified = s.unspecified := rfl
@[simp] theorem retire_reservation (s : State) : (retire s).reservation = s.reservation := rfl
@[simp] theorem retire_word (s : State) : (retire s).word = s.word := rfl
@[simp] theorem retire_latest (s : State) : (retire s).latest = s.latest := rfl
@[simp] theorem retire_moves (s : State) : (retire s).moves = s.moves := rfl
@[simp] theorem retire_tick (s : State) : (retire s).tick = s.tick + 1 := rfl

/-! ### A base instruction retires -/

@[simp] theorem retireBase_cfg (s : State) : (retireBase s).cfg = s.cfg := rfl
@[simp] theorem retireBase_x (s : State) : (retireBase s).x = s.x := rfl
@[simp] theorem retireBase_pc (s : State) : (retireBase s).pc = pcAfter s 4 := rfl
@[simp] theorem retireBase_mode (s : State) : (retireBase s).mode = s.mode := rfl
@[simp] theorem retireBase_csr (s : State) : (retireBase s).csr = s.csr := rfl
@[simp] theorem retireBase_pmp (s : State) : (retireBase s).pmp = s.pmp := rfl
@[simp] theorem retireBase_triggers (s : State) : (retireBase s).triggers = s.triggers := rfl
@[simp] theorem retireBase_ms (s : State) : (retireBase s).ms = s.ms := rfl
@[simp] theorem retireBase_unspecified (s : State) : (retireBase s).unspecified = s.unspecified := rfl
@[simp] theorem retireBase_reservation (s : State) : (retireBase s).reservation = s.reservation := rfl
@[simp] theorem retireBase_word (s : State) : (retireBase s).word = s.word := rfl
@[simp] theorem retireBase_latest (s : State) : (retireBase s).latest = s.latest := rfl
@[simp] theorem retireBase_moves (s : State) : (retireBase s).moves = s.moves := rfl
@[simp] theorem retireBase_tick (s : State) : (retireBase s).tick = s.tick + 1 := rfl

/-! ### A move is over -/

@[simp] theorem moved_cfg (s : State) : (moved s).cfg = s.cfg := rfl
@[simp] theorem moved_x (s : State) : (moved s).x = s.x := rfl
@[simp] theorem moved_pc (s : State) : (moved s).pc = s.pc := rfl
@[simp] theorem moved_mode (s : State) : (moved s).mode = s.mode := rfl
@[simp] theorem moved_csr (s : State) : (moved s).csr = s.csr := rfl
@[simp] theorem moved_pmp (s : State) : (moved s).pmp = s.pmp := rfl
@[simp] theorem moved_triggers (s : State) : (moved s).triggers = s.triggers := rfl
@[simp] theorem moved_ms (s : State) : (moved s).ms = s.ms := rfl
@[simp] theorem moved_unspecified (s : State) : (moved s).unspecified = s.unspecified := rfl
@[simp] theorem moved_reservation (s : State) : (moved s).reservation = s.reservation := rfl
@[simp] theorem moved_word (s : State) : (moved s).word = s.word := rfl
@[simp] theorem moved_latest (s : State) : (moved s).latest = s.latest := rfl
@[simp] theorem moved_moves (s : State) : (moved s).moves = s.moves := rfl
@[simp] theorem moved_tick (s : State) : (moved s).tick = s.tick + 1 := rfl

/-! ### The word that is executed -/

@[simp] theorem withWord_cfg (s : State) (bytes : List Byte) : (withWord s bytes).cfg = s.cfg := rfl
@[simp] theorem withWord_x (s : State) (bytes : List Byte) : (withWord s bytes).x = s.x := rfl
@[simp] theorem withWord_pc (s : State) (bytes : List Byte) : (withWord s bytes).pc = s.pc := rfl
@[simp] theorem withWord_mode (s : State) (bytes : List Byte) : (withWord s bytes).mode = s.mode := rfl
@[simp] theorem withWord_csr (s : State) (bytes : List Byte) : (withWord s bytes).csr = s.csr := rfl
@[simp] theorem withWord_pmp (s : State) (bytes : List Byte) : (withWord s bytes).pmp = s.pmp := rfl
@[simp] theorem withWord_triggers (s : State) (bytes : List Byte) : (withWord s bytes).triggers = s.triggers := rfl
@[simp] theorem withWord_ms (s : State) (bytes : List Byte) : (withWord s bytes).ms = s.ms := rfl
@[simp] theorem withWord_unspecified (s : State) (bytes : List Byte) :
    (withWord s bytes).unspecified = s.unspecified := rfl
@[simp] theorem withWord_reservation (s : State) (bytes : List Byte) :
    (withWord s bytes).reservation = s.reservation := rfl
@[simp] theorem withWord_word (s : State) (bytes : List Byte) : (withWord s bytes).word = ofBytesLE bytes := rfl
@[simp] theorem withWord_latest (s : State) (bytes : List Byte) : (withWord s bytes).latest = s.latest := rfl
@[simp] theorem withWord_moves (s : State) (bytes : List Byte) : (withWord s bytes).moves = s.moves := rfl
@[simp] theorem withWord_tick (s : State) (bytes : List Byte) : (withWord s bytes).tick = s.tick := rfl

/-! ### Another memory system -/

@[simp] theorem setMs_cfg (s : State) (ms : MemSys) : (setMs s ms).cfg = s.cfg := rfl
@[simp] theorem setMs_x (s : State) (ms : MemSys) : (setMs s ms).x = s.x := rfl
@[simp] theorem setMs_pc (s : State) (ms : MemSys) : (setMs s ms).pc = s.pc := rfl
@[simp] theorem setMs_mode (s : State) (ms : MemSys) : (setMs s ms).mode = s.mode := rfl
@[simp] theorem setMs_csr (s : State) (ms : MemSys) : (setMs s ms).csr = s.csr := rfl
@[simp] theorem setMs_pmp (s : State) (ms : MemSys) : (setMs s ms).pmp = s.pmp := rfl
@[simp] theorem setMs_triggers (s : State) (ms : MemSys) : (setMs s ms).triggers = s.triggers := rfl
@[simp] theorem setMs_ms (s : State) (ms : MemSys) : (setMs s ms).ms = ms := rfl
@[simp] theorem setMs_unspecified (s : State) (ms : MemSys) : (setMs s ms).unspecified = s.unspecified := rfl
@[simp] theorem setMs_reservation (s : State) (ms : MemSys) : (setMs s ms).reservation = s.reservation := rfl
@[simp] theorem setMs_word (s : State) (ms : MemSys) : (setMs s ms).word = s.word := rfl
@[simp] theorem setMs_latest (s : State) (ms : MemSys) : (setMs s ms).latest = standing s.cfg ms s.latest := rfl
@[simp] theorem setMs_moves (s : State) (ms : MemSys) : (setMs s ms).moves = s.moves := rfl
@[simp] theorem setMs_tick (s : State) (ms : MemSys) : (setMs s ms).tick = s.tick := rfl

/-! ### Another memory system, with bytes brought in -/

@[simp] theorem bringMs_cfg (s : State) (f : LatestByte → Option Byte) (ms : MemSys) : (bringMs s f ms).cfg = s.cfg :=
  rfl
@[simp] theorem bringMs_x (s : State) (f : LatestByte → Option Byte) (ms : MemSys) : (bringMs s f ms).x = s.x := rfl
@[simp] theorem bringMs_pc (s : State) (f : LatestByte → Option Byte) (ms : MemSys) : (bringMs s f ms).pc = s.pc :=
  rfl
@[simp] theorem bringMs_mode (s : State) (f : LatestByte → Option Byte) (ms : MemSys) :
    (bringMs s f ms).mode = s.mode := rfl
@[simp] theorem bringMs_csr (s : State) (f : LatestByte → Option Byte) (ms : MemSys) : (bringMs s f ms).csr = s.csr :=
  rfl
@[simp] theorem bringMs_pmp (s : State) (f : LatestByte → Option Byte) (ms : MemSys) : (bringMs s f ms).pmp = s.pmp :=
  rfl
@[simp] theorem bringMs_triggers (s : State) (f : LatestByte → Option Byte) (ms : MemSys) :
    (bringMs s f ms).triggers = s.triggers := rfl
@[simp] theorem bringMs_ms (s : State) (f : LatestByte → Option Byte) (ms : MemSys) : (bringMs s f ms).ms = ms := rfl
@[simp] theorem bringMs_unspecified (s : State) (f : LatestByte → Option Byte) (ms : MemSys) :
    (bringMs s f ms).unspecified = s.unspecified := rfl
@[simp] theorem bringMs_reservation (s : State) (f : LatestByte → Option Byte) (ms : MemSys) :
    (bringMs s f ms).reservation = s.reservation := rfl
@[simp] theorem bringMs_word (s : State) (f : LatestByte → Option Byte) (ms : MemSys) :
    (bringMs s f ms).word = s.word := rfl
@[simp] theorem bringMs_latest (s : State) (f : LatestByte → Option Byte) (ms : MemSys) :
    (bringMs s f ms).latest = standing s.cfg ms (bringAll f s.latest) := rfl
@[simp] theorem bringMs_moves (s : State) (f : LatestByte → Option Byte) (ms : MemSys) :
    (bringMs s f ms).moves = s.moves := rfl
@[simp] theorem bringMs_tick (s : State) (f : LatestByte → Option Byte) (ms : MemSys) :
    (bringMs s f ms).tick = s.tick := rfl

/-! ### A management operation of an agent -/

@[simp] theorem manageBlock_cfg (s : State) (op : CacheOp) (acc : Access) (pa : Nat) (poc : Poc) :
    (manageBlock s op acc pa poc).cfg = s.cfg := rfl
@[simp] theorem manageBlock_x (s : State) (op : CacheOp) (acc : Access) (pa : Nat) (poc : Poc) :
    (manageBlock s op acc pa poc).x = s.x := rfl
@[simp] theorem manageBlock_pc (s : State) (op : CacheOp) (acc : Access) (pa : Nat) (poc : Poc) :
    (manageBlock s op acc pa poc).pc = s.pc := rfl
@[simp] theorem manageBlock_mode (s : State) (op : CacheOp) (acc : Access) (pa : Nat) (poc : Poc) :
    (manageBlock s op acc pa poc).mode = s.mode := rfl
@[simp] theorem manageBlock_csr (s : State) (op : CacheOp) (acc : Access) (pa : Nat) (poc : Poc) :
    (manageBlock s op acc pa poc).csr = s.csr := rfl
@[simp] theorem manageBlock_pmp (s : State) (op : CacheOp) (acc : Access) (pa : Nat) (poc : Poc) :
    (manageBlock s op acc pa poc).pmp = s.pmp := rfl
@[simp] theorem manageBlock_triggers (s : State) (op : CacheOp) (acc : Access) (pa : Nat) (poc : Poc) :
    (manageBlock s op acc pa poc).triggers = s.triggers := rfl
@[simp] theorem manageBlock_ms (s : State) (op : CacheOp) (acc : Access) (pa : Nat) (poc : Poc) :
    (manageBlock s op acc pa poc).ms = MemSys.manageAt s.cfg s.tick op acc pa poc s.latest s.ms := rfl
@[simp] theorem manageBlock_unspecified (s : State) (op : CacheOp) (acc : Access) (pa : Nat) (poc : Poc) :
    (manageBlock s op acc pa poc).unspecified = s.unspecified := rfl
@[simp] theorem manageBlock_reservation (s : State) (op : CacheOp) (acc : Access) (pa : Nat) (poc : Poc) :
    (manageBlock s op acc pa poc).reservation = s.reservation := rfl
@[simp] theorem manageBlock_word (s : State) (op : CacheOp) (acc : Access) (pa : Nat) (poc : Poc) :
    (manageBlock s op acc pa poc).word = s.word := rfl
@[simp] theorem manageBlock_moves (s : State) (op : CacheOp) (acc : Access) (pa : Nat) (poc : Poc) :
    (manageBlock s op acc pa poc).moves = s.moves := rfl
@[simp] theorem manageBlock_tick (s : State) (op : CacheOp) (acc : Access) (pa : Nat) (poc : Poc) :
    (manageBlock s op acc pa poc).tick = s.tick := rfl

/-! ### A latest store shown to the fetches -/

@[simp] theorem showToFetches_cfg (s : State) (e : LatestByte) : (showToFetches s e).cfg = s.cfg :=
  by unfold showToFetches; split <;> rfl
@[simp] theorem showToFetches_x (s : State) (e : LatestByte) : (showToFetches s e).x = s.x :=
  by unfold showToFetches; split <;> rfl
@[simp] theorem showToFetches_pc (s : State) (e : LatestByte) : (showToFetches s e).pc = s.pc :=
  by unfold showToFetches; split <;> rfl
@[simp] theorem showToFetches_mode (s : State) (e : LatestByte) : (showToFetches s e).mode = s.mode :=
  by unfold showToFetches; split <;> rfl
@[simp] theorem showToFetches_csr (s : State) (e : LatestByte) : (showToFetches s e).csr = s.csr :=
  by unfold showToFetches; split <;> rfl
@[simp] theorem showToFetches_pmp (s : State) (e : LatestByte) : (showToFetches s e).pmp = s.pmp :=
  by unfold showToFetches; split <;> rfl
@[simp] theorem showToFetches_triggers (s : State) (e : LatestByte) : (showToFetches s e).triggers = s.triggers :=
  by unfold showToFetches; split <;> rfl
@[simp] theorem showToFetches_unspecified (s : State) (e : LatestByte) :
    (showToFetches s e).unspecified = s.unspecified := by unfold showToFetches; split <;> rfl
@[simp] theorem showToFetches_reservation (s : State) (e : LatestByte) :
    (showToFetches s e).reservation = s.reservation := by unfold showToFetches; split <;> rfl
@[simp] theorem showToFetches_word (s : State) (e : LatestByte) : (showToFetches s e).word = s.word :=
  by unfold showToFetches; split <;> rfl
@[simp] theorem showToFetches_moves (s : State) (e : LatestByte) : (showToFetches s e).moves = s.moves :=
  by unfold showToFetches; split <;> rfl
@[simp] theorem showToFetches_tick (s : State) (e : LatestByte) : (showToFetches s e).tick = s.tick :=
  by unfold showToFetches; split <;> rfl

/-! ### The block of a latest store written back along the path of the fetches -/

@[simp] theorem cleanFetches_cfg (s : State) (e : LatestByte) : (cleanFetches s e).cfg = s.cfg := rfl
@[simp] theorem cleanFetches_x (s : State) (e : LatestByte) : (cleanFetches s e).x = s.x := rfl
@[simp] theorem cleanFetches_pc (s : State) (e : LatestByte) : (cleanFetches s e).pc = s.pc := rfl
@[simp] theorem cleanFetches_mode (s : State) (e : LatestByte) : (cleanFetches s e).mode = s.mode := rfl
@[simp] theorem cleanFetches_csr (s : State) (e : LatestByte) : (cleanFetches s e).csr = s.csr := rfl
@[simp] theorem cleanFetches_pmp (s : State) (e : LatestByte) : (cleanFetches s e).pmp = s.pmp := rfl
@[simp] theorem cleanFetches_triggers (s : State) (e : LatestByte) : (cleanFetches s e).triggers = s.triggers := rfl
@[simp] theorem cleanFetches_unspecified (s : State) (e : LatestByte) :
    (cleanFetches s e).unspecified = s.unspecified := rfl
@[simp] theorem cleanFetches_reservation (s : State) (e : LatestByte) :
    (cleanFetches s e).reservation = s.reservation := rfl
@[simp] theorem cleanFetches_word (s : State) (e : LatestByte) : (cleanFetches s e).word = s.word := rfl
@[simp] theorem cleanFetches_moves (s : State) (e : LatestByte) : (cleanFetches s e).moves = s.moves := rfl
@[simp] theorem cleanFetches_tick (s : State) (e : LatestByte) : (cleanFetches s e).tick = s.tick := rfl

/-! ### A block that leaves the caches of the fetches -/

@[simp] theorem syncFetches_cfg (s : State) (b : Nat) : (syncFetches s b).cfg = s.cfg :=
  by unfold syncFetches; split <;> rfl
@[simp] theorem syncFetches_x (s : State) (b : Nat) : (syncFetches s b).x = s.x :=
  by unfold syncFetches; split <;> rfl
@[simp] theorem syncFetches_pc (s : State) (b : Nat) : (syncFetches s b).pc = s.pc :=
  by unfold syncFetches; split <;> rfl
@[simp] theorem syncFetches_mode (s : State) (b : Nat) : (syncFetches s b).mode = s.mode :=
  by unfold syncFetches; split <;> rfl
@[simp] theorem syncFetches_csr (s : State) (b : Nat) : (syncFetches s b).csr = s.csr :=
  by unfold syncFetches; split <;> rfl
@[simp] theorem syncFetches_pmp (s : State) (b : Nat) : (syncFetches s b).pmp = s.pmp :=
  by unfold syncFetches; split <;> rfl
@[simp] theorem syncFetches_triggers (s : State) (b : Nat) : (syncFetches s b).triggers = s.triggers :=
  by unfold syncFetches; split <;> rfl
@[simp] theorem syncFetches_unspecified (s : State) (b : Nat) : (syncFetches s b).unspecified = s.unspecified :=
  by unfold syncFetches; split <;> rfl
@[simp] theorem syncFetches_reservation (s : State) (b : Nat) : (syncFetches s b).reservation = s.reservation :=
  by unfold syncFetches; split <;> rfl
@[simp] theorem syncFetches_word (s : State) (b : Nat) : (syncFetches s b).word = s.word :=
  by unfold syncFetches; split <;> rfl
@[simp] theorem syncFetches_moves (s : State) (b : Nat) : (syncFetches s b).moves = s.moves :=
  by unfold syncFetches; split <;> rfl
@[simp] theorem syncFetches_tick (s : State) (b : Nat) : (syncFetches s b).tick = s.tick :=
  by unfold syncFetches; split <;> rfl

/-- A property each part of `FENCE.I` keeps, and that does not rest on the latest stores, `FENCE.I` keeps. -/
theorem fenceInstructions_keeps (P : State → Prop) (h₁ : ∀ s e, P s → P (showToFetches s e))
    (h₂ : ∀ s e, P s → P (cleanFetches s e)) (h₃ : ∀ s b, P s → P (syncFetches s b))
    (h₄ : ∀ (s : State) l, P s → P { s with latest := l }) {s : State} (h : P s) : P (fenceInstructions s) :=
  h₄ _ _ (foldl_keeps P _ h₃ _ _ (foldl_keeps P _ h₂ _ _ (foldl_keeps P _ h₁ _ _ h)))

theorem fenceInstructions_field {α : Type} (f : State → α) (h₁ : ∀ s e, f (showToFetches s e) = f s)
    (h₂ : ∀ s e, f (cleanFetches s e) = f s) (h₃ : ∀ s b, f (syncFetches s b) = f s)
    (h₄ : ∀ (s : State) l, f { s with latest := l } = f s) (s : State) : f (fenceInstructions s) = f s :=
  fenceInstructions_keeps (fun s' => f s' = f s) (fun s' e h => (h₁ s' e).trans h) (fun s' e h => (h₂ s' e).trans h)
    (fun s' b h => (h₃ s' b).trans h) (fun s' l h => (h₄ s' l).trans h) rfl

/-! ### The fence of instruction fetches -/

@[simp] theorem fenceInstructions_cfg (s : State) : (fenceInstructions s).cfg = s.cfg :=
  fenceInstructions_field (·.cfg) showToFetches_cfg cleanFetches_cfg
    syncFetches_cfg (fun _ _ => rfl) s
@[simp] theorem fenceInstructions_x (s : State) : (fenceInstructions s).x = s.x :=
  fenceInstructions_field (·.x) showToFetches_x cleanFetches_x
    syncFetches_x (fun _ _ => rfl) s
@[simp] theorem fenceInstructions_pc (s : State) : (fenceInstructions s).pc = s.pc :=
  fenceInstructions_field (·.pc) showToFetches_pc cleanFetches_pc
    syncFetches_pc (fun _ _ => rfl) s
@[simp] theorem fenceInstructions_mode (s : State) : (fenceInstructions s).mode = s.mode :=
  fenceInstructions_field (·.mode) showToFetches_mode cleanFetches_mode
    syncFetches_mode (fun _ _ => rfl) s
@[simp] theorem fenceInstructions_csr (s : State) : (fenceInstructions s).csr = s.csr :=
  fenceInstructions_field (·.csr) showToFetches_csr cleanFetches_csr
    syncFetches_csr (fun _ _ => rfl) s
@[simp] theorem fenceInstructions_pmp (s : State) : (fenceInstructions s).pmp = s.pmp :=
  fenceInstructions_field (·.pmp) showToFetches_pmp cleanFetches_pmp
    syncFetches_pmp (fun _ _ => rfl) s
@[simp] theorem fenceInstructions_triggers (s : State) : (fenceInstructions s).triggers = s.triggers :=
  fenceInstructions_field (·.triggers) showToFetches_triggers cleanFetches_triggers
    syncFetches_triggers (fun _ _ => rfl) s
@[simp] theorem fenceInstructions_unspecified (s : State) : (fenceInstructions s).unspecified = s.unspecified :=
  fenceInstructions_field (·.unspecified) showToFetches_unspecified cleanFetches_unspecified
    syncFetches_unspecified (fun _ _ => rfl) s
@[simp] theorem fenceInstructions_reservation (s : State) : (fenceInstructions s).reservation = s.reservation :=
  fenceInstructions_field (·.reservation) showToFetches_reservation cleanFetches_reservation
    syncFetches_reservation (fun _ _ => rfl) s
@[simp] theorem fenceInstructions_word (s : State) : (fenceInstructions s).word = s.word :=
  fenceInstructions_field (·.word) showToFetches_word cleanFetches_word
    syncFetches_word (fun _ _ => rfl) s
@[simp] theorem fenceInstructions_moves (s : State) : (fenceInstructions s).moves = s.moves :=
  fenceInstructions_field (·.moves) showToFetches_moves cleanFetches_moves
    syncFetches_moves (fun _ _ => rfl) s
@[simp] theorem fenceInstructions_tick (s : State) : (fenceInstructions s).tick = s.tick :=
  fenceInstructions_field (·.tick) showToFetches_tick cleanFetches_tick
    syncFetches_tick (fun _ _ => rfl) s

/-! ### A register write -/

@[simp] theorem writeX_cfg (s : State) (r : RegIdx) (v : Word) : (writeX s r v).cfg = s.cfg :=
  by unfold writeX; split <;> rfl
@[simp] theorem writeX_pc (s : State) (r : RegIdx) (v : Word) : (writeX s r v).pc = s.pc :=
  by unfold writeX; split <;> rfl
@[simp] theorem writeX_mode (s : State) (r : RegIdx) (v : Word) : (writeX s r v).mode = s.mode :=
  by unfold writeX; split <;> rfl
@[simp] theorem writeX_csr (s : State) (r : RegIdx) (v : Word) : (writeX s r v).csr = s.csr :=
  by unfold writeX; split <;> rfl
@[simp] theorem writeX_pmp (s : State) (r : RegIdx) (v : Word) : (writeX s r v).pmp = s.pmp :=
  by unfold writeX; split <;> rfl
@[simp] theorem writeX_triggers (s : State) (r : RegIdx) (v : Word) : (writeX s r v).triggers = s.triggers :=
  by unfold writeX; split <;> rfl
@[simp] theorem writeX_ms (s : State) (r : RegIdx) (v : Word) : (writeX s r v).ms = s.ms :=
  by unfold writeX; split <;> rfl
@[simp] theorem writeX_unspecified (s : State) (r : RegIdx) (v : Word) : (writeX s r v).unspecified = s.unspecified :=
  by unfold writeX; split <;> rfl
@[simp] theorem writeX_reservation (s : State) (r : RegIdx) (v : Word) : (writeX s r v).reservation = s.reservation :=
  by unfold writeX; split <;> rfl
@[simp] theorem writeX_word (s : State) (r : RegIdx) (v : Word) : (writeX s r v).word = s.word :=
  by unfold writeX; split <;> rfl
@[simp] theorem writeX_latest (s : State) (r : RegIdx) (v : Word) : (writeX s r v).latest = s.latest :=
  by unfold writeX; split <;> rfl
@[simp] theorem writeX_moves (s : State) (r : RegIdx) (v : Word) : (writeX s r v).moves = s.moves :=
  by unfold writeX; split <;> rfl
@[simp] theorem writeX_tick (s : State) (r : RegIdx) (v : Word) : (writeX s r v).tick = s.tick :=
  by unfold writeX; split <;> rfl

/-! ### A write of a control and status register -/

@[simp] theorem withCsr_cfg (s : State) (c : Csrs) : (withCsr s c).cfg = s.cfg := rfl
@[simp] theorem withCsr_x (s : State) (c : Csrs) : (withCsr s c).x = s.x := rfl
@[simp] theorem withCsr_pc (s : State) (c : Csrs) : (withCsr s c).pc = s.pc := rfl
@[simp] theorem withCsr_mode (s : State) (c : Csrs) : (withCsr s c).mode = s.mode := rfl
@[simp] theorem withCsr_csr (s : State) (c : Csrs) : (withCsr s c).csr = c := rfl
@[simp] theorem withCsr_pmp (s : State) (c : Csrs) : (withCsr s c).pmp = s.pmp := rfl
@[simp] theorem withCsr_triggers (s : State) (c : Csrs) : (withCsr s c).triggers = s.triggers := rfl
@[simp] theorem withCsr_ms (s : State) (c : Csrs) : (withCsr s c).ms = s.ms := rfl
@[simp] theorem withCsr_unspecified (s : State) (c : Csrs) : (withCsr s c).unspecified = s.unspecified := rfl
@[simp] theorem withCsr_reservation (s : State) (c : Csrs) : (withCsr s c).reservation = s.reservation := rfl
@[simp] theorem withCsr_word (s : State) (c : Csrs) : (withCsr s c).word = s.word := rfl
@[simp] theorem withCsr_latest (s : State) (c : Csrs) : (withCsr s c).latest = s.latest := rfl
@[simp] theorem withCsr_moves (s : State) (c : Csrs) : (withCsr s c).moves = s.moves := rfl
@[simp] theorem withCsr_tick (s : State) (c : Csrs) : (withCsr s c).tick = s.tick := rfl

/-! ### Taking an exception: everything but the trap registers, the mode and the program counter stays -/

@[simp] theorem takeTrap_cfg (s : State) (t : Trap) : (takeTrap s t).cfg = s.cfg := by unfold takeTrap; split <;> rfl
@[simp] theorem takeTrap_x (s : State) (t : Trap) : (takeTrap s t).x = s.x := by unfold takeTrap; split <;> rfl
@[simp] theorem takeTrap_pmp (s : State) (t : Trap) : (takeTrap s t).pmp = s.pmp := by unfold takeTrap; split <;> rfl
@[simp] theorem takeTrap_triggers (s : State) (t : Trap) : (takeTrap s t).triggers = s.triggers :=
  by unfold takeTrap; split <;> rfl
@[simp] theorem takeTrap_ms (s : State) (t : Trap) : (takeTrap s t).ms = s.ms := by unfold takeTrap; split <;> rfl
@[simp] theorem takeTrap_unspecified (s : State) (t : Trap) : (takeTrap s t).unspecified = s.unspecified :=
  by unfold takeTrap; split <;> rfl
@[simp] theorem takeTrap_reservation (s : State) (t : Trap) : (takeTrap s t).reservation = s.reservation :=
  by unfold takeTrap; split <;> rfl
@[simp] theorem takeTrap_word (s : State) (t : Trap) : (takeTrap s t).word = s.word :=
  by unfold takeTrap; split <;> rfl
@[simp] theorem takeTrap_latest (s : State) (t : Trap) : (takeTrap s t).latest = s.latest :=
  by unfold takeTrap; split <;> rfl
@[simp] theorem takeTrap_moves (s : State) (t : Trap) : (takeTrap s t).moves = s.moves :=
  by unfold takeTrap; split <;> rfl
@[simp] theorem takeTrap_tick (s : State) (t : Trap) : (takeTrap s t).tick = s.tick + 1 :=
  by unfold takeTrap; split <;> rfl

/-! ### Returning from an exception -/

@[simp] theorem returnFromM_cfg (s : State) : (returnFromM s).cfg = s.cfg := by unfold returnFromM; rfl
@[simp] theorem returnFromM_x (s : State) : (returnFromM s).x = s.x := by unfold returnFromM; rfl
@[simp] theorem returnFromM_pmp (s : State) : (returnFromM s).pmp = s.pmp := by unfold returnFromM; rfl
@[simp] theorem returnFromM_triggers (s : State) : (returnFromM s).triggers = s.triggers := by unfold returnFromM; rfl
@[simp] theorem returnFromM_ms (s : State) : (returnFromM s).ms = s.ms := by unfold returnFromM; rfl
@[simp] theorem returnFromM_unspecified (s : State) : (returnFromM s).unspecified = s.unspecified :=
  by unfold returnFromM; rfl
@[simp] theorem returnFromM_reservation (s : State) : (returnFromM s).reservation = s.reservation :=
  by unfold returnFromM; rfl
@[simp] theorem returnFromM_word (s : State) : (returnFromM s).word = s.word := by unfold returnFromM; rfl
@[simp] theorem returnFromM_latest (s : State) : (returnFromM s).latest = s.latest := by unfold returnFromM; rfl
@[simp] theorem returnFromM_moves (s : State) : (returnFromM s).moves = s.moves := by unfold returnFromM; rfl
@[simp] theorem returnFromM_tick (s : State) : (returnFromM s).tick = s.tick + 1 := by unfold returnFromM; rfl

/-! ### Returning to the mode below S -/

@[simp] theorem returnFromS_cfg (s : State) : (returnFromS s).cfg = s.cfg := by unfold returnFromS; rfl
@[simp] theorem returnFromS_x (s : State) : (returnFromS s).x = s.x := by unfold returnFromS; rfl
@[simp] theorem returnFromS_pmp (s : State) : (returnFromS s).pmp = s.pmp := by unfold returnFromS; rfl
@[simp] theorem returnFromS_triggers (s : State) : (returnFromS s).triggers = s.triggers := by unfold returnFromS; rfl
@[simp] theorem returnFromS_ms (s : State) : (returnFromS s).ms = s.ms := by unfold returnFromS; rfl
@[simp] theorem returnFromS_unspecified (s : State) : (returnFromS s).unspecified = s.unspecified :=
  by unfold returnFromS; rfl
@[simp] theorem returnFromS_reservation (s : State) : (returnFromS s).reservation = s.reservation :=
  by unfold returnFromS; rfl
@[simp] theorem returnFromS_word (s : State) : (returnFromS s).word = s.word := by unfold returnFromS; rfl
@[simp] theorem returnFromS_latest (s : State) : (returnFromS s).latest = s.latest := by unfold returnFromS; rfl
@[simp] theorem returnFromS_moves (s : State) : (returnFromS s).moves = s.moves := by unfold returnFromS; rfl
@[simp] theorem returnFromS_tick (s : State) : (returnFromS s).tick = s.tick + 1 := by unfold returnFromS; rfl

/-! ### Returning inside the guest -/

@[simp] theorem returnFromVS_cfg (s : State) : (returnFromVS s).cfg = s.cfg := by unfold returnFromVS; rfl
@[simp] theorem returnFromVS_x (s : State) : (returnFromVS s).x = s.x := by unfold returnFromVS; rfl
@[simp] theorem returnFromVS_pmp (s : State) : (returnFromVS s).pmp = s.pmp := by unfold returnFromVS; rfl
@[simp] theorem returnFromVS_triggers (s : State) : (returnFromVS s).triggers = s.triggers :=
  by unfold returnFromVS; rfl
@[simp] theorem returnFromVS_ms (s : State) : (returnFromVS s).ms = s.ms := by unfold returnFromVS; rfl
@[simp] theorem returnFromVS_unspecified (s : State) : (returnFromVS s).unspecified = s.unspecified :=
  by unfold returnFromVS; rfl
@[simp] theorem returnFromVS_reservation (s : State) : (returnFromVS s).reservation = s.reservation :=
  by unfold returnFromVS; rfl
@[simp] theorem returnFromVS_word (s : State) : (returnFromVS s).word = s.word := by unfold returnFromVS; rfl
@[simp] theorem returnFromVS_latest (s : State) : (returnFromVS s).latest = s.latest := by unfold returnFromVS; rfl
@[simp] theorem returnFromVS_moves (s : State) : (returnFromVS s).moves = s.moves := by unfold returnFromVS; rfl
@[simp] theorem returnFromVS_tick (s : State) : (returnFromVS s).tick = s.tick + 1 := by unfold returnFromVS; rfl

/-! ### A store of the hart -/

@[simp] theorem hartWrite_cfg (s : State) (k : AccessKind) (m pa : Nat) (bs : List Byte) :
    (hartWrite s k m pa bs).cfg = s.cfg := rfl
@[simp] theorem hartWrite_x (s : State) (k : AccessKind) (m pa : Nat) (bs : List Byte) :
    (hartWrite s k m pa bs).x = s.x := rfl
@[simp] theorem hartWrite_pc (s : State) (k : AccessKind) (m pa : Nat) (bs : List Byte) :
    (hartWrite s k m pa bs).pc = s.pc := rfl
@[simp] theorem hartWrite_mode (s : State) (k : AccessKind) (m pa : Nat) (bs : List Byte) :
    (hartWrite s k m pa bs).mode = s.mode := rfl
@[simp] theorem hartWrite_csr (s : State) (k : AccessKind) (m pa : Nat) (bs : List Byte) :
    (hartWrite s k m pa bs).csr = s.csr := rfl
@[simp] theorem hartWrite_pmp (s : State) (k : AccessKind) (m pa : Nat) (bs : List Byte) :
    (hartWrite s k m pa bs).pmp = s.pmp := rfl
@[simp] theorem hartWrite_triggers (s : State) (k : AccessKind) (m pa : Nat) (bs : List Byte) :
    (hartWrite s k m pa bs).triggers = s.triggers := rfl
@[simp] theorem hartWrite_ms (s : State) (k : AccessKind) (m pa : Nat) (bs : List Byte) :
    (hartWrite s k m pa bs).ms = MemSys.writeBytes s.cfg s.tick (hartAccess k m) pa bs s.ms := rfl
@[simp] theorem hartWrite_reservation (s : State) (k : AccessKind) (m pa : Nat) (bs : List Byte) :
    (hartWrite s k m pa bs).reservation = s.reservation := rfl
@[simp] theorem hartWrite_word (s : State) (k : AccessKind) (m pa : Nat) (bs : List Byte) :
    (hartWrite s k m pa bs).word = s.word := rfl
@[simp] theorem hartWrite_latest (s : State) (k : AccessKind) (m pa : Nat) (bs : List Byte) :
    (hartWrite s k m pa bs).latest = latestAfterWrite s (hartWrite s k m pa bs).ms (hartAccess k m) pa bs :=
  rfl
@[simp] theorem hartWrite_moves (s : State) (k : AccessKind) (m pa : Nat) (bs : List Byte) :
    (hartWrite s k m pa bs).moves = s.moves := rfl
@[simp] theorem hartWrite_tick (s : State) (k : AccessKind) (m pa : Nat) (bs : List Byte) :
    (hartWrite s k m pa bs).tick = s.tick := rfl

/-- A property every store of the hart keeps, the page-table writes keep. -/
theorem writePtes_keeps (P : State → Prop) (h : ∀ s pa bs, P s → P (hartWrite s .store 0 pa bs))
    (ws : List (Nat × List Byte)) (s : State) (hs : P s) : P (writePtes s ws) := by
  unfold writePtes
  exact foldl_keeps P _ (fun s w hs => h s w.1 w.2 hs) ws s hs

/-! ### The page-table writes of a hart that updates `A` and `D` -/

@[simp] theorem writePtes_cfg (s : State) (ws : List (Nat × List Byte)) : (writePtes s ws).cfg = s.cfg :=
  writePtes_keeps (fun s' => s'.cfg = s.cfg) (fun _ _ _ h => h) ws s rfl
@[simp] theorem writePtes_x (s : State) (ws : List (Nat × List Byte)) : (writePtes s ws).x = s.x :=
  writePtes_keeps (fun s' => s'.x = s.x) (fun _ _ _ h => h) ws s rfl
@[simp] theorem writePtes_pc (s : State) (ws : List (Nat × List Byte)) : (writePtes s ws).pc = s.pc :=
  writePtes_keeps (fun s' => s'.pc = s.pc) (fun _ _ _ h => h) ws s rfl
@[simp] theorem writePtes_mode (s : State) (ws : List (Nat × List Byte)) : (writePtes s ws).mode = s.mode :=
  writePtes_keeps (fun s' => s'.mode = s.mode) (fun _ _ _ h => h) ws s rfl
@[simp] theorem writePtes_csr (s : State) (ws : List (Nat × List Byte)) : (writePtes s ws).csr = s.csr :=
  writePtes_keeps (fun s' => s'.csr = s.csr) (fun _ _ _ h => h) ws s rfl
@[simp] theorem writePtes_pmp (s : State) (ws : List (Nat × List Byte)) : (writePtes s ws).pmp = s.pmp :=
  writePtes_keeps (fun s' => s'.pmp = s.pmp) (fun _ _ _ h => h) ws s rfl
@[simp] theorem writePtes_triggers (s : State) (ws : List (Nat × List Byte)) :
    (writePtes s ws).triggers = s.triggers :=
  writePtes_keeps (fun s' => s'.triggers = s.triggers) (fun _ _ _ h => h) ws s rfl
@[simp] theorem writePtes_reservation (s : State) (ws : List (Nat × List Byte)) :
    (writePtes s ws).reservation = s.reservation :=
  writePtes_keeps (fun s' => s'.reservation = s.reservation) (fun _ _ _ h => h) ws s rfl
@[simp] theorem writePtes_word (s : State) (ws : List (Nat × List Byte)) : (writePtes s ws).word = s.word :=
  writePtes_keeps (fun s' => s'.word = s.word) (fun _ _ _ h => h) ws s rfl
@[simp] theorem writePtes_moves (s : State) (ws : List (Nat × List Byte)) : (writePtes s ws).moves = s.moves :=
  writePtes_keeps (fun s' => s'.moves = s.moves) (fun _ _ _ h => h) ws s rfl
@[simp] theorem writePtes_tick (s : State) (ws : List (Nat × List Byte)) : (writePtes s ws).tick = s.tick :=
  writePtes_keeps (fun s' => s'.tick = s.tick) (fun _ _ _ h => h) ws s rfl

/-! ### An allocation for a write -/

@[simp] theorem allocateForWrite_cfg (s : State) (k : AccessKind) (m pa : Nat) (c : Option Nat) :
    (allocateForWrite s k m pa c).cfg = s.cfg :=
  by unfold allocateForWrite allocateAt; split <;> first | rfl | (split <;> rfl)
@[simp] theorem allocateForWrite_x (s : State) (k : AccessKind) (m pa : Nat) (c : Option Nat) :
    (allocateForWrite s k m pa c).x = s.x :=
  by unfold allocateForWrite allocateAt; split <;> first | rfl | (split <;> rfl)
@[simp] theorem allocateForWrite_pc (s : State) (k : AccessKind) (m pa : Nat) (c : Option Nat) :
    (allocateForWrite s k m pa c).pc = s.pc :=
  by unfold allocateForWrite allocateAt; split <;> first | rfl | (split <;> rfl)
@[simp] theorem allocateForWrite_mode (s : State) (k : AccessKind) (m pa : Nat) (c : Option Nat) :
    (allocateForWrite s k m pa c).mode = s.mode :=
  by unfold allocateForWrite allocateAt; split <;> first | rfl | (split <;> rfl)
@[simp] theorem allocateForWrite_csr (s : State) (k : AccessKind) (m pa : Nat) (c : Option Nat) :
    (allocateForWrite s k m pa c).csr = s.csr :=
  by unfold allocateForWrite allocateAt; split <;> first | rfl | (split <;> rfl)
@[simp] theorem allocateForWrite_pmp (s : State) (k : AccessKind) (m pa : Nat) (c : Option Nat) :
    (allocateForWrite s k m pa c).pmp = s.pmp :=
  by unfold allocateForWrite allocateAt; split <;> first | rfl | (split <;> rfl)
@[simp] theorem allocateForWrite_triggers (s : State) (k : AccessKind) (m pa : Nat) (c : Option Nat) :
    (allocateForWrite s k m pa c).triggers = s.triggers :=
  by unfold allocateForWrite allocateAt; split <;> first | rfl | (split <;> rfl)
@[simp] theorem allocateForWrite_unspecified (s : State) (k : AccessKind) (m pa : Nat) (c : Option Nat) :
    (allocateForWrite s k m pa c).unspecified = s.unspecified :=
  by unfold allocateForWrite allocateAt; split <;> first | rfl | (split <;> rfl)
@[simp] theorem allocateForWrite_reservation (s : State) (k : AccessKind) (m pa : Nat) (c : Option Nat) :
    (allocateForWrite s k m pa c).reservation = s.reservation :=
  by unfold allocateForWrite allocateAt; split <;> first | rfl | (split <;> rfl)
@[simp] theorem allocateForWrite_word (s : State) (k : AccessKind) (m pa : Nat) (c : Option Nat) :
    (allocateForWrite s k m pa c).word = s.word :=
  by unfold allocateForWrite allocateAt; split <;> first | rfl | (split <;> rfl)
@[simp] theorem allocateForWrite_moves (s : State) (k : AccessKind) (m pa : Nat) (c : Option Nat) :
    (allocateForWrite s k m pa c).moves = s.moves :=
  by unfold allocateForWrite allocateAt; split <;> first | rfl | (split <;> rfl)
@[simp] theorem allocateForWrite_tick (s : State) (k : AccessKind) (m pa : Nat) (c : Option Nat) :
    (allocateForWrite s k m pa c).tick = s.tick :=
  by unfold allocateForWrite allocateAt; split <;> first | rfl | (split <;> rfl)

/-! ### An allocation for a load -/

@[simp] theorem allocateForLoad_cfg (s : State) (m pa : Nat) : (allocateForLoad s m pa).cfg = s.cfg :=
  by unfold allocateForLoad allocateAt; split <;> first | rfl | (split <;> rfl)
@[simp] theorem allocateForLoad_x (s : State) (m pa : Nat) : (allocateForLoad s m pa).x = s.x :=
  by unfold allocateForLoad allocateAt; split <;> first | rfl | (split <;> rfl)
@[simp] theorem allocateForLoad_pc (s : State) (m pa : Nat) : (allocateForLoad s m pa).pc = s.pc :=
  by unfold allocateForLoad allocateAt; split <;> first | rfl | (split <;> rfl)
@[simp] theorem allocateForLoad_mode (s : State) (m pa : Nat) : (allocateForLoad s m pa).mode = s.mode :=
  by unfold allocateForLoad allocateAt; split <;> first | rfl | (split <;> rfl)
@[simp] theorem allocateForLoad_csr (s : State) (m pa : Nat) : (allocateForLoad s m pa).csr = s.csr :=
  by unfold allocateForLoad allocateAt; split <;> first | rfl | (split <;> rfl)
@[simp] theorem allocateForLoad_pmp (s : State) (m pa : Nat) : (allocateForLoad s m pa).pmp = s.pmp :=
  by unfold allocateForLoad allocateAt; split <;> first | rfl | (split <;> rfl)
@[simp] theorem allocateForLoad_triggers (s : State) (m pa : Nat) : (allocateForLoad s m pa).triggers = s.triggers :=
  by unfold allocateForLoad allocateAt; split <;> first | rfl | (split <;> rfl)
@[simp] theorem allocateForLoad_unspecified (s : State) (m pa : Nat) :
    (allocateForLoad s m pa).unspecified = s.unspecified :=
  by unfold allocateForLoad allocateAt; split <;> first | rfl | (split <;> rfl)
@[simp] theorem allocateForLoad_reservation (s : State) (m pa : Nat) :
    (allocateForLoad s m pa).reservation = s.reservation :=
  by unfold allocateForLoad allocateAt; split <;> first | rfl | (split <;> rfl)
@[simp] theorem allocateForLoad_word (s : State) (m pa : Nat) : (allocateForLoad s m pa).word = s.word :=
  by unfold allocateForLoad allocateAt; split <;> first | rfl | (split <;> rfl)
@[simp] theorem allocateForLoad_moves (s : State) (m pa : Nat) : (allocateForLoad s m pa).moves = s.moves :=
  by unfold allocateForLoad allocateAt; split <;> first | rfl | (split <;> rfl)
@[simp] theorem allocateForLoad_tick (s : State) (m pa : Nat) : (allocateForLoad s m pa).tick = s.tick :=
  by unfold allocateForLoad allocateAt; split <;> first | rfl | (split <;> rfl)

/-! ### A reservation disturbed -/

@[simp] theorem disturbReservation_cfg (s : State) (pa : Nat) : (disturbReservation s pa).cfg = s.cfg :=
  by unfold disturbReservation; split <;> rfl
@[simp] theorem disturbReservation_x (s : State) (pa : Nat) : (disturbReservation s pa).x = s.x :=
  by unfold disturbReservation; split <;> rfl
@[simp] theorem disturbReservation_pc (s : State) (pa : Nat) : (disturbReservation s pa).pc = s.pc :=
  by unfold disturbReservation; split <;> rfl
@[simp] theorem disturbReservation_mode (s : State) (pa : Nat) : (disturbReservation s pa).mode = s.mode :=
  by unfold disturbReservation; split <;> rfl
@[simp] theorem disturbReservation_csr (s : State) (pa : Nat) : (disturbReservation s pa).csr = s.csr :=
  by unfold disturbReservation; split <;> rfl
@[simp] theorem disturbReservation_pmp (s : State) (pa : Nat) : (disturbReservation s pa).pmp = s.pmp :=
  by unfold disturbReservation; split <;> rfl
@[simp] theorem disturbReservation_triggers (s : State) (pa : Nat) :
    (disturbReservation s pa).triggers = s.triggers := by unfold disturbReservation; split <;> rfl
@[simp] theorem disturbReservation_ms (s : State) (pa : Nat) : (disturbReservation s pa).ms = s.ms :=
  by unfold disturbReservation; split <;> rfl
@[simp] theorem disturbReservation_unspecified (s : State) (pa : Nat) :
    (disturbReservation s pa).unspecified = s.unspecified := by unfold disturbReservation; split <;> rfl
@[simp] theorem disturbReservation_word (s : State) (pa : Nat) : (disturbReservation s pa).word = s.word :=
  by unfold disturbReservation; split <;> rfl
@[simp] theorem disturbReservation_latest (s : State) (pa : Nat) : (disturbReservation s pa).latest = s.latest :=
  by unfold disturbReservation; split <;> rfl
@[simp] theorem disturbReservation_moves (s : State) (pa : Nat) : (disturbReservation s pa).moves = s.moves :=
  by unfold disturbReservation; split <;> rfl
@[simp] theorem disturbReservation_tick (s : State) (pa : Nat) : (disturbReservation s pa).tick = s.tick :=
  by unfold disturbReservation; split <;> rfl

/-! ### A management operation -/

@[simp] theorem performManagement_cfg (s : State) (op : CacheOp) (m pa : Nat) (poc : Poc) :
    (performManagement s op m pa poc).cfg = s.cfg := by simp [performManagement]
@[simp] theorem performManagement_x (s : State) (op : CacheOp) (m pa : Nat) (poc : Poc) :
    (performManagement s op m pa poc).x = s.x := by simp [performManagement]
@[simp] theorem performManagement_pc (s : State) (op : CacheOp) (m pa : Nat) (poc : Poc) :
    (performManagement s op m pa poc).pc = s.pc := by simp [performManagement]
@[simp] theorem performManagement_mode (s : State) (op : CacheOp) (m pa : Nat) (poc : Poc) :
    (performManagement s op m pa poc).mode = s.mode := by simp [performManagement]
@[simp] theorem performManagement_csr (s : State) (op : CacheOp) (m pa : Nat) (poc : Poc) :
    (performManagement s op m pa poc).csr = s.csr := by simp [performManagement]
@[simp] theorem performManagement_pmp (s : State) (op : CacheOp) (m pa : Nat) (poc : Poc) :
    (performManagement s op m pa poc).pmp = s.pmp := by simp [performManagement]
@[simp] theorem performManagement_triggers (s : State) (op : CacheOp) (m pa : Nat) (poc : Poc) :
    (performManagement s op m pa poc).triggers = s.triggers := by simp [performManagement]
@[simp] theorem performManagement_ms (s : State) (op : CacheOp) (m pa : Nat) (poc : Poc) :
    (performManagement s op m pa poc).ms = (manageBlock s op (hartAccess .management m) pa poc).ms :=
  by simp [performManagement]
@[simp] theorem performManagement_unspecified (s : State) (op : CacheOp) (m pa : Nat) (poc : Poc) :
    (performManagement s op m pa poc).unspecified = unspecifiedAfter s op pa :=
  by simp [performManagement]
@[simp] theorem performManagement_word (s : State) (op : CacheOp) (m pa : Nat) (poc : Poc) :
    (performManagement s op m pa poc).word = s.word := by simp [performManagement]
@[simp] theorem performManagement_moves (s : State) (op : CacheOp) (m pa : Nat) (poc : Poc) :
    (performManagement s op m pa poc).moves = s.moves := by simp [performManagement]
@[simp] theorem performManagement_tick (s : State) (op : CacheOp) (m pa : Nat) (poc : Poc) :
    (performManagement s op m pa poc).tick = s.tick := by simp [performManagement]

/-! ### A block of zeros -/

@[simp] theorem zeroBlock_cfg (s : State) (l : Level) (m pa : Nat) : (zeroBlock s l m pa).cfg = s.cfg :=
  by simp [zeroBlock]
@[simp] theorem zeroBlock_x (s : State) (l : Level) (m pa : Nat) : (zeroBlock s l m pa).x = s.x := by simp [zeroBlock]
@[simp] theorem zeroBlock_pc (s : State) (l : Level) (m pa : Nat) : (zeroBlock s l m pa).pc = s.pc :=
  by simp [zeroBlock]
@[simp] theorem zeroBlock_mode (s : State) (l : Level) (m pa : Nat) : (zeroBlock s l m pa).mode = s.mode :=
  by simp [zeroBlock]
@[simp] theorem zeroBlock_csr (s : State) (l : Level) (m pa : Nat) : (zeroBlock s l m pa).csr = s.csr :=
  by simp [zeroBlock]
@[simp] theorem zeroBlock_pmp (s : State) (l : Level) (m pa : Nat) : (zeroBlock s l m pa).pmp = s.pmp :=
  by simp [zeroBlock]
@[simp] theorem zeroBlock_triggers (s : State) (l : Level) (m pa : Nat) :
    (zeroBlock s l m pa).triggers = s.triggers := by simp [zeroBlock]
@[simp] theorem zeroBlock_word (s : State) (l : Level) (m pa : Nat) : (zeroBlock s l m pa).word = s.word :=
  by simp [zeroBlock]
@[simp] theorem zeroBlock_moves (s : State) (l : Level) (m pa : Nat) : (zeroBlock s l m pa).moves = s.moves :=
  by simp [zeroBlock]
@[simp] theorem zeroBlock_tick (s : State) (l : Level) (m pa : Nat) : (zeroBlock s l m pa).tick = s.tick :=
  by simp [zeroBlock]

/-! ### Writes by another agent -/

@[simp] theorem agentStore_cfg (s : State) (acc : Access) (pa : Nat) (bs : List Byte) :
    (agentStore s acc pa bs).cfg = s.cfg := rfl
@[simp] theorem agentStore_x (s : State) (acc : Access) (pa : Nat) (bs : List Byte) :
    (agentStore s acc pa bs).x = s.x := rfl
@[simp] theorem agentStore_pc (s : State) (acc : Access) (pa : Nat) (bs : List Byte) :
    (agentStore s acc pa bs).pc = s.pc := rfl
@[simp] theorem agentStore_mode (s : State) (acc : Access) (pa : Nat) (bs : List Byte) :
    (agentStore s acc pa bs).mode = s.mode := rfl
@[simp] theorem agentStore_csr (s : State) (acc : Access) (pa : Nat) (bs : List Byte) :
    (agentStore s acc pa bs).csr = s.csr := rfl
@[simp] theorem agentStore_pmp (s : State) (acc : Access) (pa : Nat) (bs : List Byte) :
    (agentStore s acc pa bs).pmp = s.pmp := rfl
@[simp] theorem agentStore_triggers (s : State) (acc : Access) (pa : Nat) (bs : List Byte) :
    (agentStore s acc pa bs).triggers = s.triggers := rfl
@[simp] theorem agentStore_ms (s : State) (acc : Access) (pa : Nat) (bs : List Byte) :
    (agentStore s acc pa bs).ms = MemSys.writeBytes s.cfg s.tick acc pa bs s.ms := rfl
@[simp] theorem agentStore_unspecified (s : State) (acc : Access) (pa : Nat) (bs : List Byte) :
    (agentStore s acc pa bs).unspecified = unspecifiedAfterAgent s acc pa bs.length := rfl
@[simp] theorem agentStore_word (s : State) (acc : Access) (pa : Nat) (bs : List Byte) :
    (agentStore s acc pa bs).word = s.word := rfl
@[simp] theorem agentStore_latest (s : State) (acc : Access) (pa : Nat) (bs : List Byte) :
    (agentStore s acc pa bs).latest = latestAfterWrite s (agentStore s acc pa bs).ms acc pa bs := rfl
@[simp] theorem agentStore_moves (s : State) (acc : Access) (pa : Nat) (bs : List Byte) :
    (agentStore s acc pa bs).moves = s.moves := rfl
@[simp] theorem agentStore_tick (s : State) (acc : Access) (pa : Nat) (bs : List Byte) :
    (agentStore s acc pa bs).tick = s.tick + 1 := rfl

/-! ### The action of a hint -/

@[simp] theorem performHint_cfg (s : State) (k : HintKind) (l : Level) (m pa : Nat) :
    (performHint s k l m pa).cfg = s.cfg :=
  by simp only [performHint, disturbReservation_cfg]; split <;> first | rfl | (split <;> rfl)
@[simp] theorem performHint_x (s : State) (k : HintKind) (l : Level) (m pa : Nat) :
    (performHint s k l m pa).x = s.x :=
  by simp only [performHint, disturbReservation_x]; split <;> first | rfl | (split <;> rfl)
@[simp] theorem performHint_pc (s : State) (k : HintKind) (l : Level) (m pa : Nat) :
    (performHint s k l m pa).pc = s.pc :=
  by simp only [performHint, disturbReservation_pc]; split <;> first | rfl | (split <;> rfl)
@[simp] theorem performHint_mode (s : State) (k : HintKind) (l : Level) (m pa : Nat) :
    (performHint s k l m pa).mode = s.mode :=
  by simp only [performHint, disturbReservation_mode]; split <;> first | rfl | (split <;> rfl)
@[simp] theorem performHint_csr (s : State) (k : HintKind) (l : Level) (m pa : Nat) :
    (performHint s k l m pa).csr = s.csr :=
  by simp only [performHint, disturbReservation_csr]; split <;> first | rfl | (split <;> rfl)
@[simp] theorem performHint_pmp (s : State) (k : HintKind) (l : Level) (m pa : Nat) :
    (performHint s k l m pa).pmp = s.pmp :=
  by simp only [performHint, disturbReservation_pmp]; split <;> first | rfl | (split <;> rfl)
@[simp] theorem performHint_triggers (s : State) (k : HintKind) (l : Level) (m pa : Nat) :
    (performHint s k l m pa).triggers = s.triggers :=
  by simp only [performHint, disturbReservation_triggers]; split <;> first | rfl | (split <;> rfl)
@[simp] theorem performHint_unspecified (s : State) (k : HintKind) (l : Level) (m pa : Nat) :
    (performHint s k l m pa).unspecified = s.unspecified :=
  by simp only [performHint, disturbReservation_unspecified]; split <;> first | rfl | (split <;> rfl)
@[simp] theorem performHint_word (s : State) (k : HintKind) (l : Level) (m pa : Nat) :
    (performHint s k l m pa).word = s.word :=
  by simp only [performHint, disturbReservation_word]; split <;> first | rfl | (split <;> rfl)
@[simp] theorem performHint_moves (s : State) (k : HintKind) (l : Level) (m pa : Nat) :
    (performHint s k l m pa).moves = s.moves :=
  by simp only [performHint, disturbReservation_moves]; split <;> first | rfl | (split <;> rfl)
@[simp] theorem performHint_tick (s : State) (k : HintKind) (l : Level) (m pa : Nat) :
    (performHint s k l m pa).tick = s.tick :=
  by simp only [performHint, disturbReservation_tick]; split <;> first | rfl | (split <;> rfl)

end Sys2Proof.Machine
end

