-- ==== Sys2Proof/Laws/Ops.lean ====
section
/-!
SUPPORT. What the shared operations of `Machine/Ops.lean` and of the instruction families can do, each said once: what they
change of memory and caches, of the hart, and that they keep the canonical forms.
-/

namespace Sys2Proof.Machine

/-! ### Agreement of memory systems -/

theorem MemSys.AgreeBut.of {cfg : Config} {changed : List Nat} {ms ms' : MemSys}
    (hm : ∀ a, a ∉ changed → Memory.read ms'.mem a = Memory.read ms.mem a)
    (hc : ∀ cache b, (∀ a ∈ changed, blockBase cfg a ≠ b) → ms'.copyAt cache b = ms.copyAt cache b) :
    MemSys.AgreeBut cfg changed ms ms' where
  mem := hm
  copies := hc
  reads := fun acc a h => by
    have hf : ms'.firstCopy (pathCaches cfg acc (blockBase cfg a)) (blockBase cfg a)
        = ms.firstCopy (pathCaches cfg acc (blockBase cfg a)) (blockBase cfg a) := by
      simp only [MemSys.firstCopy, hc _ _ h]
    have ha : a ∉ changed := fun ha => h a ha rfl
    simp only [MemSys.readByte, hf, hm a ha]

theorem MemSys.AgreeBut.refl (cfg : Config) (changed : List Nat) (ms : MemSys) :
    MemSys.AgreeBut cfg changed ms ms := .of (fun _ _ => rfl) (fun _ _ _ => rfl)

theorem MemSys.AgreeBut.trans {cfg : Config} {as bs : List Nat} {ms ms' ms'' : MemSys}
    (h : MemSys.AgreeBut cfg as ms ms') (h' : MemSys.AgreeBut cfg bs ms' ms'') :
    MemSys.AgreeBut cfg (as ++ bs) ms ms'' :=
  .of (fun a ha => by
        rw [List.mem_append, not_or] at ha
        rw [h'.mem a ha.2, h.mem a ha.1])
    (fun cache b hb => by
        rw [h'.copies cache b (fun a ha => hb a (List.mem_append_right _ ha)),
          h.copies cache b (fun a ha => hb a (List.mem_append_left _ ha))])

theorem MemSys.AgreeBut.mono {cfg : Config} {as bs : List Nat} {ms ms' : MemSys}
    (h : MemSys.AgreeBut cfg as ms ms') (hs : ∀ a ∈ as, a ∈ bs) : MemSys.AgreeBut cfg bs ms ms' :=
  .of (fun a ha => h.mem a (fun h' => ha (hs a h'))) (fun cache b hb => h.copies cache b (fun a ha => hb a (hs a ha)))

/-- An operation that leaves memory outside a block and the copies of other blocks agrees but on the block. -/
theorem MemSys.AgreeBut.of_block {cfg : Config} {pa : Nat} {ms ms' : MemSys}
    (hm : ∀ a, a < blockBase cfg pa ∨ blockBase cfg pa + blockSize cfg ≤ a →
      Memory.read ms'.mem a = Memory.read ms.mem a)
    (hc : ∀ cache b, b ≠ blockBase cfg pa → ms'.copyAt cache b = ms.copyAt cache b) :
    MemSys.AgreeBut cfg (blockAddresses cfg pa) ms ms' :=
  .of (fun a ha => hm a (not_mem_blockAddresses ha))
    (fun cache b hb => hc cache b (fun h => hb pa (mem_blockAddresses_self cfg pa) h.symm))

theorem MemSys.manageAt_agree {cfg : Config} {tick : Nat} {op : CacheOp} {acc : Access} {pa : Nat} {poc : Poc}
    {bound : List LatestByte} {ms : MemSys} (hw : ms.wf cfg = true) :
    MemSys.AgreeBut cfg (blockAddresses cfg pa) ms (MemSys.manageAt cfg tick op acc pa poc bound ms) :=
  .of_block (fun _ h => MemSys.read_manage_other hw h) (fun _ _ h => MemSys.copyAt_manage_block h)

theorem MemSys.allocateOnPath_agree (cfg : Config) (acc : Access) (cache pa : Nat) (ms : MemSys) :
    MemSys.AgreeBut cfg (blockAddresses cfg pa) ms (MemSys.allocateOnPath cfg acc cache (blockBase cfg pa) ms) :=
  .of_block (fun _ _ => by rw [MemSys.allocateOnPath_mem]) (fun _ _ h => MemSys.copyAt_allocateOnPath_other (Or.inr h))

theorem MemSys.deallocate_agree {cfg : Config} {cache pa : Nat} {destination : Destination} {ms : MemSys}
    (hw : ms.wf cfg = true) :
    MemSys.AgreeBut cfg (blockAddresses cfg pa) ms
      (MemSys.deallocate cfg cache (blockBase cfg pa) destination ms) :=
  .of_block (fun _ h => MemSys.read_deallocate_other hw h) (fun _ _ h => MemSys.copyAt_deallocate_block h)

theorem MemSys.writeBytes_agree (cfg : Config) (tick : Nat) (acc : Access) (pa : Nat) (bs : List Byte) (ms : MemSys) :
    MemSys.AgreeBut cfg ((List.range bs.length).map (pa + ·)) ms (MemSys.writeBytes cfg tick acc pa bs ms) := by
  refine .of (fun a ha => MemSys.read_writeBytes_other bs ?_) (fun cache b hb => MemSys.copyAt_writeBytes_block bs ?_)
  · by_contra hn
    exact ha (List.mem_map.mpr ⟨a - pa, List.mem_range.mpr (by omega), by omega⟩)
  · intro i hi h
    exact hb (pa + i) (List.mem_map.mpr ⟨i, List.mem_range.mpr hi, rfl⟩) h.symm

/-! ### Operations of the hart on memory and caches -/

theorem hartWrite_agree (s : State) (kind : AccessKind) (memType pa : Nat) (bs : List Byte) :
    MemSys.AgreeBut s.cfg ((List.range bs.length).map (pa + ·)) s.ms (hartWrite s kind memType pa bs).ms :=
  MemSys.writeBytes_agree _ _ _ _ _ _

theorem hartWrite_sound {s : State} {kind : AccessKind} {memType pa : Nat} {bs : List Byte} (hc : s.cfg.wf = true)
    (h : s.ms.Sound s.cfg) : (hartWrite s kind memType pa bs).ms.Sound s.cfg := h.writeBytes hc

theorem hartWrite_unspecified_wf {s : State} {kind : AccessKind} {memType pa : Nat} {bs : List Byte}
    (h : Addresses.wfFrom 0 s.unspecified = true) : Addresses.wfFrom 0 (hartWrite s kind memType pa bs).unspecified = true :=
  foldl_keeps (fun l => Addresses.wfFrom 0 l = true) Addresses.erase (fun _ _ h => Addresses.erase_wfFrom h) _ _ h

theorem writePtes_agree (s : State) (ws : List (Nat × List Byte)) :
    MemSys.AgreeBut s.cfg (pteWriteAddresses ws) s.ms (writePtes s ws).ms := by
  induction ws generalizing s with
  | nil => exact .refl _ _ _
  | cons w ws ih => exact (hartWrite_agree s .store 0 w.1 w.2).trans (ih (hartWrite s .store 0 w.1 w.2))

theorem writePtes_sound {s : State} {ws : List (Nat × List Byte)} (hc : s.cfg.wf = true) (h : s.ms.Sound s.cfg) :
    (writePtes s ws).ms.Sound s.cfg := by
  have := writePtes_keeps (fun s' => s'.cfg = s.cfg ∧ s'.ms.Sound s'.cfg) (fun s' pa bs h' =>
    ⟨h'.1, hartWrite_sound (h'.1 ▸ hc) h'.2⟩) ws s ⟨rfl, h⟩
  rw [← this.1]
  exact this.2

theorem writePtes_unspecified_wf {s : State} {ws : List (Nat × List Byte)}
    (h : Addresses.wfFrom 0 s.unspecified = true) : Addresses.wfFrom 0 (writePtes s ws).unspecified = true :=
  writePtes_keeps (fun s' => Addresses.wfFrom 0 s'.unspecified = true) (fun _ _ _ h => hartWrite_unspecified_wf h) ws s h

/-- An allocation for a write is nothing, or an allocation on the path of the write. -/
theorem allocateForWrite_cases (s : State) (kind : AccessKind) (memType pa : Nat) (cache : Option Nat) :
    (allocateForWrite s kind memType pa cache).ms = s.ms ∨ ∃ c, (allocateForWrite s kind memType pa cache).ms =
      MemSys.allocateOnPath s.cfg (hartAccess kind memType) c (blockBase s.cfg pa) s.ms := by
  unfold allocateForWrite allocateAt
  split
  · exact .inl rfl
  · split
    · exact .inr ⟨_, rfl⟩
    · exact .inl rfl

theorem allocateForWrite_agree (s : State) (kind : AccessKind) (memType pa : Nat) (cache : Option Nat) :
    MemSys.AgreeBut s.cfg (blockAddresses s.cfg pa) s.ms (allocateForWrite s kind memType pa cache).ms := by
  rcases allocateForWrite_cases s kind memType pa cache with h | ⟨c, h⟩ <;> rw [h]
  · exact .refl _ _ _
  · exact MemSys.allocateOnPath_agree _ _ _ _ _

theorem allocateForWrite_sound {s : State} {kind : AccessKind} {memType pa : Nat} {cache : Option Nat}
    (hc : s.cfg.wf = true) (h : s.ms.Sound s.cfg) : (allocateForWrite s kind memType pa cache).ms.Sound s.cfg := by
  rcases allocateForWrite_cases s kind memType pa cache with h' | ⟨c, h'⟩ <;> rw [h']
  · exact h
  · exact h.allocateOnPath hc

theorem allocateForLoad_sound {s : State} {memType pa : Nat} (hc : s.cfg.wf = true) (h : s.ms.Sound s.cfg) :
    (allocateForLoad s memType pa).ms.Sound s.cfg := by
  unfold allocateForLoad allocateAt
  split
  · exact h
  · split
    · exact h.allocateOnPath hc
    · exact h

theorem disturbReservation_kept (s : State) (pa : Nat) : ReservationKept s (disturbReservation s pa) pa := by
  unfold disturbReservation
  split
  · next h => exact .inr ⟨h.1, rfl⟩
  · exact .inl rfl

/-- Addresses added to a set in canonical form. -/
theorem foldl_insert_wf {l : List Nat} (as : List Nat) (h : Addresses.wfFrom 0 l = true) :
    Addresses.wfFrom 0 (as.foldl Addresses.insert l) = true :=
  foldl_keeps (fun l => Addresses.wfFrom 0 l = true) Addresses.insert
    (fun _ _ h => Addresses.insert_wfFrom h (Nat.zero_le _)) _ _ h

theorem mem_foldl_insert {a : Nat} (as l : List Nat) : a ∈ as.foldl Addresses.insert l ↔ a ∈ as ∨ a ∈ l := by
  induction as generalizing l with
  | nil => simp
  | cons b bs ih => simp only [List.foldl_cons, ih, Addresses.mem_insert, List.mem_cons]; tauto

theorem mem_foldl_erase {a : Nat} (as : List Nat) {l : List Nat} (h : Addresses.wfFrom 0 l = true) :
    a ∈ as.foldl Addresses.erase l ↔ a ∉ as ∧ a ∈ l := by
  induction as generalizing l with
  | nil => simp
  | cons b bs ih =>
    rw [List.foldl_cons, ih (Addresses.erase_wfFrom h), List.mem_cons, not_or]
    by_cases hb : a = b
    · subst hb
      simp [Addresses.not_mem_erase h]
    · simp [hb, Addresses.mem_erase_of_ne hb]

theorem unspecifiedAfter_wf {s : State} {op : CacheOp} {pa : Nat} (h : Addresses.wfFrom 0 s.unspecified = true) :
    Addresses.wfFrom 0 (unspecifiedAfter s op pa) = true := by
  cases op with
  | invalidate => exact foldl_insert_wf _ h
  | clean => exact h
  | flush => exact h

/-! ### Latest stores (rules R99, R103) -/

theorem State.latestWf_iff {s : State} : s.latestWf = true ↔ ∀ e ∈ s.latest,
    (e.kind = .load ∨ e.kind = .fetch) ∧ e.memType ∈ memTypesOf s.cfg ∧ e.held s.cfg s.ms = true := by
  simp [State.latestWf, and_assoc]

/-- Fewer latest stores over the same memory and caches. -/
theorem State.latestWf_of {s t : State} (h : s.latestWf = true) (hcfg : t.cfg = s.cfg) (hms : t.ms = s.ms)
    (hl : ∀ e ∈ t.latest, e ∈ s.latest) : t.latestWf = true := by
  rw [State.latestWf_iff] at h ⊢
  rw [hcfg, hms]
  exact fun e he => h e (hl e he)

/-- The latest stores that stand among some of the hart's loads and fetches. -/
theorem State.latestWf_standing {t : State} {l : List LatestByte} (hl : t.latest = standing t.cfg t.ms l)
    (hk : ∀ e ∈ l, (e.kind = .load ∨ e.kind = .fetch) ∧ e.memType ∈ memTypesOf t.cfg) : t.latestWf = true := by
  rw [State.latestWf_iff, hl]
  intro e he
  obtain ⟨h1, h2⟩ := List.mem_filter.mp he
  exact ⟨(hk e h1).1, (hk e h1).2, h2⟩

theorem mem_bringAll {brought : LatestByte → Option Byte} {l : List LatestByte} {e : LatestByte} :
    e ∈ bringAll brought l ↔ ∃ f ∈ l, f.bring (brought f) = e := List.mem_map

/-- Bringing a byte leaves the kinds of access and the memory types as they are. -/
theorem bringAll_kinds {cfg : Config} {brought : LatestByte → Option Byte} {l : List LatestByte}
    (h : ∀ e ∈ l, (e.kind = .load ∨ e.kind = .fetch) ∧ e.memType ∈ memTypesOf cfg) :
    ∀ e ∈ bringAll brought l, (e.kind = .load ∨ e.kind = .fetch) ∧ e.memType ∈ memTypesOf cfg := fun e he => by
  obtain ⟨f, hf, rfl⟩ := mem_bringAll.mp he
  simpa using h f hf

theorem State.latest_kinds {s : State} (h : s.latestWf = true) :
    ∀ e ∈ s.latest, (e.kind = .load ∨ e.kind = .fetch) ∧ e.memType ∈ memTypesOf s.cfg := fun e he =>
  ⟨(State.latestWf_iff.mp h e he).1, (State.latestWf_iff.mp h e he).2.1⟩

theorem setMs_latestWf {s : State} (ms : MemSys) (h : s.latestWf = true) : (setMs s ms).latestWf = true :=
  State.latestWf_standing (setMs_latest s ms) (State.latest_kinds h)

theorem bringMs_latestWf {s : State} (brought : LatestByte → Option Byte) (ms : MemSys) (h : s.latestWf = true) :
    (bringMs s brought ms).latestWf = true :=
  State.latestWf_standing (bringMs_latest s brought ms) (bringAll_kinds (State.latest_kinds h))

theorem manageBlock_latestWf {s : State} (op : CacheOp) (acc : Access) (pa : Nat) (poc : Poc) (h : s.latestWf = true) :
    (manageBlock s op acc pa poc).latestWf = true := bringMs_latestWf _ _ h

/-- Which latest stores a write gives the loads in whose order it is. -/
theorem mem_latestOfWrite {s : State} {acc : Access} {pa : Nat} {bs : List Byte} {e : LatestByte} :
    e ∈ latestOfWrite s acc pa bs ↔ e.memType ∈ memTypesOf s.cfg ∧ e.kind = .load ∧
      ∃ i < bs.length, e.address = pa + i ∧ e.values = [bs.getD i 0#8] ∧ ordered s acc (pa + i) e.memType = true := by
  simp only [latestOfWrite, List.mem_flatMap, List.mem_filterMap, List.mem_range]
  constructor
  · rintro ⟨m, hm, i, hi, he⟩
    split at he
    · next ho =>
      injection he with he
      subst he
      exact ⟨hm, rfl, i, hi, rfl, rfl, ho⟩
    · simp at he
  · rintro ⟨hm, hk, i, hi, ha, hv, ho⟩
    refine ⟨e.memType, hm, i, hi, ?_⟩
    rw [if_pos ho, ← ha, ← hk, ← hv]

/-- Which latest stores there are after a write: of those that stand, its own, and the earlier ones it does not come
after in the order of their loads, with what it brings. -/
theorem mem_latestAfterWrite {s : State} {ms : MemSys} {acc : Access} {pa : Nat} {bs : List Byte} {e : LatestByte} :
    e ∈ latestAfterWrite s ms acc pa bs ↔ e.held s.cfg ms = true ∧ (e ∈ latestOfWrite s acc pa bs ∨
      ∃ f ∈ s.latest, supersedes s acc pa bs.length f = false ∧ f.bring (bytesBring pa bs f) = e) := by
  simp only [latestAfterWrite, standing, List.mem_filter, List.mem_append, mem_bringAll, Bool.not_eq_true', and_assoc,
    and_comm (a := e.held s.cfg ms = true)]

theorem latestAfterWrite_wf {s u : State} {acc : Access} {pa : Nat} {bs : List Byte} (h : s.latestWf = true)
    (hcfg : u.cfg = s.cfg) (hl : u.latest = latestAfterWrite s u.ms acc pa bs) : u.latestWf = true := by
  refine State.latestWf_standing (by rw [hl, hcfg]; rfl) fun e he => ?_
  rw [hcfg]
  rcases List.mem_append.mp he with he | he
  · obtain ⟨hm, hk, -⟩ := mem_latestOfWrite.mp he
    exact ⟨.inl hk, hm⟩
  · exact bringAll_kinds (fun f hf => State.latest_kinds h f (List.mem_filter.mp hf).1) e he

theorem hartWrite_latestWf {s : State} (kind : AccessKind) (memType pa : Nat) (bs : List Byte) (h : s.latestWf = true) :
    (hartWrite s kind memType pa bs).latestWf = true :=
  latestAfterWrite_wf h (hartWrite_cfg ..) (hartWrite_latest ..)

theorem agentStore_latestWf {s : State} (acc : Access) (pa : Nat) (bs : List Byte) (h : s.latestWf = true) :
    (agentStore s acc pa bs).latestWf = true :=
  latestAfterWrite_wf h (agentStore_cfg ..) (agentStore_latest ..)

/-- No write takes a latest store it does not come after from the accesses that must return it (rules R99, R100). -/
theorem latestAfterWrite_keeps {s : State} {acc : Access} {pa : Nat} {bs : List Byte} {e : LatestByte}
    (hw : s.ms.wf s.cfg = true) (h : s.latestWf = true) (he : e ∈ s.latest)
    (hs : supersedes s acc pa bs.length e = false) :
    e.bring (bytesBring pa bs e) ∈
      latestAfterWrite s (MemSys.writeBytes s.cfg s.tick acc pa bs s.ms) acc pa bs :=
  mem_latestAfterWrite.mpr ⟨LatestByte.held_writeBytes bs hw (State.latestWf_iff.mp h e he).2.2, .inr ⟨e, he, hs, rfl⟩⟩

/-- An allocation of the hart hides no latest store. -/
@[simp] theorem allocateAt_latest (s : State) (acc : Access) (wanted : Bool) (pa cache : Nat) :
    (allocateAt s acc wanted pa cache).latest = s.latest := by
  unfold allocateAt
  split
  · next h => exact List.filter_eq_self.mpr (List.all_eq_true.mp (Bool.and_eq_true_iff.mp h).2)
  · rfl

@[simp] theorem allocateForWrite_latest (s : State) (kind : AccessKind) (memType pa : Nat) (cache : Option Nat) :
    (allocateForWrite s kind memType pa cache).latest = s.latest := by
  unfold allocateForWrite; split <;> simp

@[simp] theorem allocateForLoad_latest (s : State) (memType pa : Nat) :
    (allocateForLoad s memType pa).latest = s.latest := by
  unfold allocateForLoad; split <;> simp

theorem allocateForWrite_latestWf {s : State} (kind : AccessKind) (memType pa : Nat) (cache : Option Nat)
    (h : s.latestWf = true) : (allocateForWrite s kind memType pa cache).latestWf = true := by
  unfold allocateForWrite allocateAt
  split
  · exact h
  · split
    · exact setMs_latestWf _ h
    · exact h

theorem allocateForLoad_latestWf {s : State} (memType pa : Nat) (h : s.latestWf = true) :
    (allocateForLoad s memType pa).latestWf = true := by
  unfold allocateForLoad allocateAt
  split
  · exact h
  · split
    · exact setMs_latestWf _ h
    · exact h

theorem disturbReservation_latestWf {s : State} (pa : Nat) (h : s.latestWf = true) :
    (disturbReservation s pa).latestWf = true :=
  State.latestWf_of h (by simp) (by simp) (by simp)

theorem performManagement_latestWf {s : State} (op : CacheOp) (memType pa : Nat) (poc : Poc) (h : s.latestWf = true) :
    (performManagement s op memType pa poc).latestWf = true := by
  refine disturbReservation_latestWf _ (State.latestWf_of (manageBlock_latestWf op _ pa poc h) rfl rfl fun e he => ?_)
  cases op with
  | invalidate => exact (List.mem_filter.mp he).1
  | clean => exact he
  | flush => exact he

theorem zeroBlock_latestWf {s : State} (level : Level) (memType pa : Nat) (h : s.latestWf = true) :
    (zeroBlock s level memType pa).latestWf = true :=
  disturbReservation_latestWf _ (hartWrite_latestWf _ _ _ _ (allocateForWrite_latestWf _ _ _ _ h))

theorem performHint_latestWf {s : State} (kind : HintKind) (level : Level) (memType pa : Nat) (h : s.latestWf = true) :
    (performHint s kind level memType pa).latestWf = true := by
  refine disturbReservation_latestWf _ ?_
  split
  · exact h
  · split
    · exact setMs_latestWf _ h
    · exact h

theorem showToFetches_latestWf {s : State} (e : LatestByte) (h : s.latestWf = true) :
    (showToFetches s e).latestWf = true := by
  unfold showToFetches
  split
  · exact h
  · exact bringMs_latestWf _ _ h

theorem cleanFetches_latestWf {s : State} (e : LatestByte) (h : s.latestWf = true) :
    (cleanFetches s e).latestWf = true := bringMs_latestWf _ _ h

theorem syncFetches_latestWf {s : State} (b : Nat) (h : s.latestWf = true) : (syncFetches s b).latestWf = true := by
  unfold syncFetches
  split
  · exact h
  · exact bringMs_latestWf _ _ h

/-- The latest stores of the fetches are those of the loads that stand for the fetches too. -/
theorem mem_fetchEntries {s : State} {e : LatestByte} :
    e ∈ fetchEntries s ↔
      e.held s.cfg s.ms = true ∧ ∃ f ∈ s.latest, f.kind = .load ∧ { f with kind := .fetch } = e := by
  simp only [fetchEntries, standing, List.mem_filter, List.mem_map, beq_iff_eq, and_assoc]
  exact and_comm

theorem fenceInstructions_latestWf {s : State} (h : s.latestWf = true) : (fenceInstructions s).latestWf = true := by
  let stores := s.latest.filter (·.kind == .load)
  let clean := stores.foldl cleanFetches (stores.foldl showToFetches s)
  have ht : (clean.ms.blocksHeld.foldl syncFetches clean).latestWf = true :=
    foldl_keeps (fun s : State => s.latestWf = true) _ (fun _ b h => syncFetches_latestWf b h) _ _
      (foldl_keeps (fun s : State => s.latestWf = true) _ (fun _ e h => cleanFetches_latestWf e h) _ _
        (foldl_keeps (fun s : State => s.latestWf = true) _ (fun _ e h => showToFetches_latestWf e h) _ _ h))
  have hwf := State.latestWf_iff.mp ht
  refine State.latestWf_iff.mpr fun e he => ?_
  rcases List.mem_append.mp he with he | he
  · obtain ⟨hh, f, hf, -, rfl⟩ := mem_fetchEntries.mp he
    exact ⟨.inr rfl, (hwf f hf).2.1, hh⟩
  · exact hwf e (List.mem_filter.mp he).1

/-! ### Management, write and hint operations -/

theorem writePtes_sameHart (s : State) (ws : List (Nat × List Byte)) : SameHart s (writePtes s ws) := by
  constructor <;> simp

theorem SameHart.trans {s t u : State} (h : SameHart s t) (h' : SameHart t u) : SameHart s u where
  cfg := h'.cfg.trans h.cfg
  x := h'.x.trans h.x
  mode := h'.mode.trans h.mode
  csr := h'.csr.trans h.csr
  pmp := h'.pmp.trans h.pmp
  triggers := h'.triggers.trans h.triggers
  word := h'.word.trans h.word
  moves := h'.moves.trans h.moves

/-- The next address is that of a state with the same configuration and program counter. -/
theorem pcAfter_congr {s t : State} (n : Nat) (hc : t.cfg = s.cfg) (hp : t.pc = s.pc) : pcAfter t n = pcAfter s n := by
  simp only [pcAfter, hc, hp]

theorem retire_sameHart {s t : State} (h : SameHart s t) : SameHart s (retire t) :=
  ⟨h.cfg, h.x, h.mode, h.csr, h.pmp, h.triggers, h.word, h.moves⟩

theorem performManagement_sameHart (s : State) (op : CacheOp) (memType pa : Nat) (poc : Poc) :
    SameHart s (performManagement s op memType pa poc) := by constructor <;> simp

theorem performManagement_reservation (s : State) (op : CacheOp) (memType pa : Nat) (poc : Poc) :
    ReservationKept s (performManagement s op memType pa poc) pa := by
  simp only [performManagement]
  exact disturbReservation_kept _ pa

theorem zeroBlock_sameHart (s : State) (level : Level) (memType pa : Nat) : SameHart s (zeroBlock s level memType pa) := by
  constructor <;> simp

theorem zeroBlock_reservation (s : State) (level : Level) (memType pa : Nat) : ReservationKept s (zeroBlock s level memType pa) pa := by
  have h := disturbReservation_kept
    (hartWrite (allocateForWrite s .zero memType pa (zeroCache s level memType pa)) .zero memType (blockBase s.cfg pa)
      (List.replicate (blockSize s.cfg) 0#8)) pa
  simpa [ReservationKept, zeroBlock] using h

theorem performHint_sameHart (s : State) (kind : HintKind) (level : Level) (memType pa : Nat) :
    SameHart s (performHint s kind level memType pa) := by constructor <;> simp

theorem performHint_reservation (s : State) (kind : HintKind) (level : Level) (memType pa : Nat) :
    ReservationKept s (performHint s kind level memType pa) pa := by
  simp only [performHint]
  split
  · exact disturbReservation_kept s pa
  · split
    · exact disturbReservation_kept _ pa
    · exact disturbReservation_kept s pa

theorem zeroBlock_ms (s : State) (level : Level) (memType pa : Nat) :
    (zeroBlock s level memType pa).ms = MemSys.writeBytes s.cfg s.tick (hartAccess .zero memType) (blockBase s.cfg pa)
      (List.replicate (blockSize s.cfg) 0#8) (allocateForWrite s .zero memType pa (zeroCache s level memType pa)).ms := by
  simp [zeroBlock]

theorem zeroBlock_unspecified (s : State) (level : Level) (memType pa : Nat) :
    (zeroBlock s level memType pa).unspecified = (blockAddresses s.cfg pa).foldl Addresses.erase s.unspecified := by
  simp [zeroBlock, hartWrite, blockAddresses]

theorem zeroBlock_agree (s : State) (level : Level) (memType pa : Nat) :
    MemSys.AgreeBut s.cfg (blockAddresses s.cfg pa) s.ms (zeroBlock s level memType pa).ms := by
  rw [zeroBlock_ms]
  have h := (allocateForWrite_agree s .zero memType pa (zeroCache s level memType pa)).trans
    (MemSys.writeBytes_agree s.cfg s.tick (hartAccess .zero memType) (blockBase s.cfg pa)
      (List.replicate (blockSize s.cfg) 0#8) (allocateForWrite s .zero memType pa (zeroCache s level memType pa)).ms)
  exact h.mono (fun a ha => by simpa [blockAddresses] using ha)

theorem zeroBlock_sound {s : State} {level : Level} {memType pa : Nat} (hc : s.cfg.wf = true) (h : s.ms.Sound s.cfg) :
    (zeroBlock s level memType pa).ms.Sound s.cfg := by
  rw [zeroBlock_ms]
  exact (allocateForWrite_sound hc h).writeBytes hc

theorem hintMove_agree {s : State} (kind : HintKind) (cache memType pa : Nat) (hw : s.ms.wf s.cfg = true) :
    MemSys.AgreeBut s.cfg (blockAddresses s.cfg pa) s.ms (hintMove s kind cache memType pa) := by
  cases kind with
  | demote => exact MemSys.deallocate_agree hw
  | prefetchR => exact MemSys.allocateOnPath_agree _ _ _ _ _
  | prefetchW => exact MemSys.allocateOnPath_agree _ _ _ _ _
  | prefetchI => exact MemSys.allocateOnPath_agree _ _ _ _ _

theorem hintMove_sound {s : State} (kind : HintKind) (cache memType pa : Nat) (hc : s.cfg.wf = true)
    (h : s.ms.Sound s.cfg) (ha : (hintMove s kind cache memType pa).agrees s.cfg (blockBase s.cfg pa) = true) :
    (hintMove s kind cache memType pa).Sound s.cfg := by
  cases kind with
  | demote => exact h.deallocate ha
  | prefetchR => exact h.allocateOnPath hc
  | prefetchW => exact h.allocateOnPath hc
  | prefetchI => exact h.allocateOnPath hc

/-- A hint that acts makes one move of a cache that is allowed; one that does not changes nothing of memory and caches.
-/
theorem performHint_ms (s : State) (kind : HintKind) (level : Level) (memType pa : Nat) :
    (performHint s kind level memType pa).ms = s.ms ∨
      ∃ cache, hintCache s kind level memType pa = some cache ∧
        hintAllowed s kind cache pa (hintMove s kind cache memType pa) = true ∧
        (performHint s kind level memType pa).ms = hintMove s kind cache memType pa := by
  simp only [performHint, disturbReservation_ms]
  split
  · exact .inl rfl
  · next cache hc =>
    split
    · next h =>
      simp only [Bool.and_eq_true] at h
      exact .inr ⟨cache, hc, h.2, rfl⟩
    · exact .inl rfl

theorem performHint_agree {s : State} (kind : HintKind) (level : Level) (memType pa : Nat) (hw : s.ms.wf s.cfg = true) :
    MemSys.AgreeBut s.cfg (blockAddresses s.cfg pa) s.ms (performHint s kind level memType pa).ms := by
  rcases performHint_ms s kind level memType pa with h | ⟨cache, -, -, h⟩ <;> rw [h]
  · exact .refl _ _ _
  · exact hintMove_agree kind cache memType pa hw

theorem performHint_sound {s : State} {kind : HintKind} {level : Level} {memType pa : Nat} (hc : s.cfg.wf = true)
    (h : s.ms.Sound s.cfg) : (performHint s kind level memType pa).ms.Sound s.cfg := by
  rcases performHint_ms s kind level memType pa with h' | ⟨cache, -, ha, h'⟩ <;> rw [h']
  · exact h
  · simp only [hintAllowed, Bool.and_eq_true] at ha
    exact hintMove_sound kind cache memType pa hc h ha.1.1.1

/-! ### Which outcomes an instruction has -/

/-- A failed translation is one of three store/AMO exceptions. -/
theorem raiseXlate_takes (s : State) (eff : Mode) (ea : Word) (e : XlateError) :
    ∃ x ∈ [Exception.storePage, .storeGuestPage, .storeAccess], Takes s x (.next (raiseXlate s eff ea e)) := by
  cases e with
  | page => exact ⟨.storePage, by simp, _, _, _, rfl⟩
  | guest gpa => exact ⟨.storeGuestPage, by simp, _, _, _, rfl⟩
  | access => exact ⟨.storeAccess, by simp, _, _, _, rfl⟩

/-- A management instruction that completes was legal, met every check, and performed its operation. -/
theorem execManagement_next {kind : ManagementKind} {rs1 : RegIdx} {poc : Poc} {s t : State}
    (h : execManagement kind rs1 poc s = .next t) :
    (illegalCbme s.csr s.mode = true ∧ Takes s .illegalInstruction (.next t)) ∨
    (illegalCbme s.csr s.mode = false ∧
      ∃ e ∈ [Exception.breakpoint, .storePage, .storeGuestPage, .storeAccess], Takes s e (.next t)) ∨
    (∃ tr, translate s .management (kind == .inval) (effMode s) (effectiveAddress s rs1) = .ok tr ∧
      illegalCbme s.csr s.mode = false ∧ pmaConstraint s.cfg tr.pa = true ∧
      allJointRorX s (effMode s) tr.pa = true ∧ invalDenied s kind (effMode s) tr.pa = false ∧
      t = retire (performManagement (writePtes s tr.pteWrites) (managementOp s kind (effMode s) tr) tr.memType tr.pa poc)) := by
  unfold execManagement at h
  split at h
  · next hl =>
    injection h with h
    exact .inl ⟨hl, _, _, _, by rw [← h]; rfl⟩
  · next hl =>
    simp only [Bool.not_eq_true] at hl
    unfold managementChecks at h
    split at h
    · simp at h
    · injection h with h
      exact .inr (.inl ⟨hl, .breakpoint, by simp, _, _, _, by rw [← h]; rfl⟩)
    · split at h
      · next e _ =>
        injection h with h
        obtain ⟨x, hx, ht⟩ := raiseXlate_takes s (effMode s) (effectiveAddress s rs1) e
        exact .inr (.inl ⟨hl, x, List.mem_cons_of_mem _ hx, by rw [← h]; exact ht⟩)
      · next tr htr =>
        unfold managementAccess at h
        split at h
        · simp at h
        · next hp =>
          split at h
          · injection h with h
            exact .inr (.inl ⟨hl, .storeAccess, by simp, _, _, _, by rw [← h]; rfl⟩)
          · next hj =>
            injection h with h
            simp only [Bool.not_eq_true, Bool.or_eq_true, not_or] at hj
            exact .inr (.inr ⟨tr, htr, hl, by simpa using hp, by simpa using hj.1, by simpa using hj.2, h.symm⟩)

/-- A management instruction that meets every check performs its operation and completes. -/
theorem execManagement_completes {kind : ManagementKind} {rs1 : RegIdx} {poc : Poc} {s : State}
    {tr : Xlate} (hl : illegalCbme s.csr s.mode = false)
    (ht : triggerHit s TriggerClass.management (effectiveAddress s rs1) = none)
    (htr : translate s .management (kind == .inval) (effMode s) (effectiveAddress s rs1) = .ok tr)
    (hp : pmaConstraint s.cfg tr.pa = true) (hj : allJointRorX s (effMode s) tr.pa = true)
    (hd : invalDenied s kind (effMode s) tr.pa = false) :
    execManagement kind rs1 poc s =
      .next (retire (performManagement (writePtes s tr.pteWrites) (managementOp s kind (effMode s) tr) tr.memType tr.pa poc)) := by
  simp [execManagement, hl, managementChecks, ht, htr, managementAccess, hp, hj, hd]

/-- `CBO.ZERO` completes only where it was legal and met every check. -/
theorem execCboZero_next {rs1 : RegIdx} {level : Level} {s t : State} (h : execCboZero rs1 level s = .next t) :
    (illegalCbwe s.csr s.mode = true ∧ Takes s .illegalInstruction (.next t)) ∨
    (illegalCbwe s.csr s.mode = false ∧
      ∃ e ∈ [Exception.breakpoint, .storePage, .storeGuestPage, .storeAccess], Takes s e (.next t)) ∨
    (∃ tr, translate s .zero false (effMode s) (effectiveAddress s rs1) = .ok tr ∧
      illegalCbwe s.csr s.mode = false ∧ pmaConstraint s.cfg tr.pa = true ∧
      fullJointW s (effMode s) tr.pa = true ∧ zeroable s.cfg tr.memType tr.pa = true ∧
      t = retire (zeroBlock (writePtes s tr.pteWrites) level tr.memType tr.pa)) := by
  unfold execCboZero at h
  split at h
  · next hl =>
    injection h with h
    exact .inl ⟨hl, _, _, _, by rw [← h]; rfl⟩
  · next hl =>
    simp only [Bool.not_eq_true] at hl
    unfold zeroChecks at h
    split at h
    · simp at h
    · injection h with h
      exact .inr (.inl ⟨hl, .breakpoint, by simp, _, _, _, by rw [← h]; rfl⟩)
    · split at h
      · next e _ =>
        injection h with h
        obtain ⟨x, hx, ht⟩ := raiseXlate_takes s (effMode s) (effectiveAddress s rs1) e
        exact .inr (.inl ⟨hl, x, List.mem_cons_of_mem _ hx, by rw [← h]; exact ht⟩)
      · next tr htr =>
        unfold zeroAccess at h
        split at h
        · simp at h
        · next hp =>
          split at h
          · injection h with h
            exact .inr (.inl ⟨hl, .storeAccess, by simp, _, _, _, by rw [← h]; rfl⟩)
          · next hj =>
            split at h
            · simp at h
            · next hz =>
              injection h with h
              exact .inr (.inr ⟨tr, htr, hl, by simpa using hp, by simpa using hj, by simpa using hz, h.symm⟩)

/-- `CBO.ZERO` that meets every check writes its zeros and completes. -/
theorem execCboZero_completes {rs1 : RegIdx} {level : Level} {s : State} {tr : Xlate}
    (hl : illegalCbwe s.csr s.mode = false) (ht : triggerHit s TriggerClass.zero (effectiveAddress s rs1) = none)
    (htr : translate s .zero false (effMode s) (effectiveAddress s rs1) = .ok tr)
    (hp : pmaConstraint s.cfg tr.pa = true) (hj : fullJointW s (effMode s) tr.pa = true)
    (hz : zeroable s.cfg tr.memType tr.pa = true) :
    execCboZero rs1 level s = .next (retire (zeroBlock (writePtes s tr.pteWrites) level tr.memType tr.pa)) := by
  simp [execCboZero, hl, zeroChecks, ht, htr, zeroAccess, hp, hj, hz]

/-- What the access of a hint can do: nothing, or its action. -/
theorem hintAccess_cases (s : State) (kind : HintKind) (level : Level) (ea : Word) :
    hintAccess s kind level ea = retire s ∨
      ∃ tr, translate s .hint false (effMode s) ea = .ok tr ∧
        hintAccess s kind level ea = retire (performHint s kind level tr.memType tr.pa) := by
  unfold hintAccess
  split
  · exact .inl rfl
  · next tr htr =>
    split
    · exact .inl rfl
    · exact .inr ⟨tr, htr, rfl⟩

/-- A hint ends in a breakpoint or completes. -/
theorem execHint_next {kind : HintKind} {rs1 : RegIdx} {level : Level} {s t : State}
    (h : execHint kind rs1 level s = .next t) :
    Takes s .breakpoint (.next t) ∨ t = hintAccess s kind level (effectiveAddress s rs1) := by
  unfold execHint at h
  split at h
  · simp at h
  · injection h with h
    exact .inl ⟨_, _, _, by rw [← h]; rfl⟩
  · injection h with h
    exact .inr h.symm

/-- With no trigger a hint completes, whatever the mode, the registers and the permissions. -/
theorem execHint_completes {kind : HintKind} {rs1 : RegIdx} {level : Level} {s : State}
    (ht : triggerHit s (TriggerClass.hint s.cfg) (effectiveAddress s rs1) = none) :
    execHint kind rs1 level s = .next (hintAccess s kind level (effectiveAddress s rs1)) := by
  simp [execHint, ht]

end Sys2Proof.Machine
end

