-- ==== Sys2Proof/Laws/Invariant.lean ====
section
/-!
SUPPORT. The parts of the machine keep the invariant `State.Inv`: one lemma per operation, for the instructions of the
extension, for the base instructions, and for the moves that are not the hart's.
-/

namespace Sys2Proof.Machine

/-- Every next state an outcome can be has the property. -/
def Always (P : State → Prop) (r : Result) : Prop := ∀ t, r = .next t → P t

theorem Always.next {P : State → Prop} {t : State} (h : P t) : Always P (.next t) := fun _ ht => by
  injection ht with ht
  exact ht ▸ h

theorem Always.refused {P : State → Prop} (r : Refusal) : Always P (.refused r) := fun _ ht => by simp at ht

theorem Always.fault {P : State → Prop} (f : Fault) : Always P (.fault f) := fun _ ht => by simp at ht

/-- The invariant of a state with the same parameters, `xcmocontrol` registers and mode. -/
theorem State.Inv.of_same {s t : State} (h : s.Inv) (hcfg : t.cfg = s.cfg) (hcsr : t.csr = s.csr) (hmode : t.mode = s.mode)
    (hms : t.ms.Sound s.cfg) (hu : Addresses.wfFrom 0 t.unspecified = true) (hl : t.latestWf = true) : t.Inv where
  cfg := by rw [hcfg]; exact h.cfg
  ms := by rw [hcfg]; exact hms.wf
  domains := by rw [hcfg]; exact MemSys.domainsAgree_iff.mpr hms.agrees
  unspecified := hu
  latest := hl
  csrs := by
    have := h.csrs
    simp only [State.csrsLegal, hcfg, hcsr] at this ⊢
    exact this
  mode := by
    have := h.mode
    simp only [State.modeLegal, hcfg, hmode] at this ⊢
    exact this

/-- Two register files with the same four `xcmocontrol` registers. -/
def SameCmo (c d : Csrs) : Prop :=
  d.mcmocontrol = c.mcmocontrol ∧ d.scmocontrol = c.scmocontrol ∧ d.hcmocontrol = c.hcmocontrol ∧
    d.vscmocontrol = c.vscmocontrol

/-- The invariant where the imported registers and the mode change. -/
theorem State.Inv.of_cmo {s t : State} (h : s.Inv) (hcfg : t.cfg = s.cfg) (hcsr : SameCmo s.csr t.csr)
    (hmode : t.modeLegal = true) (hms : t.ms = s.ms) (hu : t.unspecified = s.unspecified)
    (hl : t.latest = s.latest) : t.Inv where
  cfg := by rw [hcfg]; exact h.cfg
  ms := by rw [hcfg, hms]; exact h.ms
  domains := by rw [hcfg, hms]; exact h.domains
  unspecified := by rw [hu]; exact h.unspecified
  latest := State.latestWf_of h.latest hcfg hms fun e he => hl ▸ he
  csrs := by
    have := h.csrs
    obtain ⟨h1, h2, h3, h4⟩ := hcsr
    simp only [State.csrsLegal, hcfg, h1, h2, h3, h4] at this ⊢
    exact this
  mode := hmode

theorem retire_inv {s : State} (h : s.Inv) : (retire s).Inv := h.of_same rfl rfl rfl h.sound h.unspecified h.latest

theorem retireBase_inv {s : State} (h : s.Inv) : (retireBase s).Inv := h.of_same rfl rfl rfl h.sound h.unspecified h.latest

theorem writeX_inv {s : State} (r : RegIdx) (v : Word) (h : s.Inv) : (writeX s r v).Inv :=
  h.of_same (by simp) (by simp) (by simp) (by simpa using h.sound) (by simpa using h.unspecified)
    (State.latestWf_of h.latest (by simp) (by simp) (by simp))

/-- A mode without virtualisation always exists. -/
theorem modeLegal_of {s : State} (h : s.mode.isVirtual = true → s.cfg.hasH = true) : s.modeLegal = true := by
  simp only [State.modeLegal]
  cases hm : s.mode.isVirtual <;> simp_all

theorem modeLegal_iff {s : State} : s.modeLegal = true ↔ (s.mode.isVirtual = true → s.cfg.hasH = true) := by
  simp only [State.modeLegal]
  cases s.mode.isVirtual <;> simp

theorem takeTrap_inv {s : State} (t : Trap) (h : s.Inv) : (takeTrap s t).Inv := by
  refine h.of_cmo (by simp) ?_ (modeLegal_of ?_) (by simp) (by simp) (by simp)
  · unfold takeTrap
    split <;> exact ⟨rfl, rfl, rfl, rfl⟩
  · unfold takeTrap
    split
    · simp [Mode.isVirtual]
    · next ht =>
      intro _
      refine (modeLegal_iff (s := s)).mp h.mode ?_
      unfold trapTarget at ht
      split at ht
      · simp at ht
      · split at ht
        · simp at ht
        · split at ht
          · next hv => simp only [Bool.and_eq_true] at hv; exact hv.1.1
          · simp at ht
    · simp [Mode.isVirtual]

theorem Takes.inv {s t : State} {e : Exception} (h : s.Inv) (ht : Takes s e (.next t)) : t.Inv := by
  obtain ⟨tval, gpa, gva, ht⟩ := ht
  injection ht with ht
  rw [ht]
  exact takeTrap_inv _ h

theorem modeOf_virtual {l : BitVec 2} {b : Bool} (h : (modeOf l b).isVirtual = true) : b = true := by
  unfold modeOf at h
  cases b
  · split at h
    · simp [Mode.isVirtual] at h
    · split at h <;> simp [Mode.isVirtual] at h
  · rfl

theorem returnFromM_inv {s : State} (h : s.Inv) : (returnFromM s).Inv := by
  refine h.of_cmo (by simp) ⟨rfl, rfl, rfl, rfl⟩ (modeLegal_of fun hv => ?_) (by simp) (by simp) (by simp)
  have := modeOf_virtual (show (modeOf (mpp s.csr.mstatus) (s.cfg.hasH && s.csr.mstatus.getLsbD mpvBit)).isVirtual = true
    from hv)
  simp only [Bool.and_eq_true] at this
  exact this.1

theorem returnFromS_inv {s : State} (h : s.Inv) : (returnFromS s).Inv := by
  refine h.of_cmo (by simp) ⟨rfl, rfl, rfl, rfl⟩ (modeLegal_of fun hv => ?_) (by simp) (by simp) (by simp)
  have := modeOf_virtual hv
  simp only [Bool.and_eq_true] at this
  exact this.1

theorem returnFromVS_inv {s : State} (h : s.Inv) (hm : s.mode = .vs) : (returnFromVS s).Inv := by
  refine h.of_cmo (by simp) ⟨rfl, rfl, rfl, rfl⟩ (modeLegal_of fun _ => ?_) (by simp) (by simp) (by simp)
  exact (modeLegal_iff (s := s)).mp h.mode (by rw [hm]; rfl)

/-! ### The instructions of the extension -/

theorem hartWrite_inv {s : State} (kind : AccessKind) (memType pa : Nat) (bs : List Byte) (h : s.Inv) :
    (hartWrite s kind memType pa bs).Inv :=
  h.of_same (by simp) (by simp) (by simp) (hartWrite_sound h.cfg h.sound) (hartWrite_unspecified_wf h.unspecified)
    (hartWrite_latestWf _ _ _ _ h.latest)

theorem writePtes_inv {s : State} (ws : List (Nat × List Byte)) (h : s.Inv) : (writePtes s ws).Inv :=
  writePtes_keeps State.Inv (fun _ _ _ h => hartWrite_inv _ _ _ _ h) ws s h

theorem performManagement_inv {s : State} (op : CacheOp) (memType pa : Nat) (poc : Poc) (h : s.Inv) :
    (performManagement s op memType pa poc).Inv :=
  h.of_same (by simp) (by simp) (by simp) (by simpa using h.sound.manageAt h.cfg)
    (by simpa using unspecifiedAfter_wf h.unspecified) (performManagement_latestWf _ _ _ _ h.latest)

theorem zeroBlock_inv {s : State} (level : Level) (memType pa : Nat) (h : s.Inv) :
    (zeroBlock s level memType pa).Inv :=
  h.of_same (by simp) (by simp) (by simp) (zeroBlock_sound h.cfg h.sound) (by
    rw [zeroBlock_unspecified]
    exact foldl_keeps (fun l => Addresses.wfFrom 0 l = true) Addresses.erase (fun _ _ h => Addresses.erase_wfFrom h) _ _
      h.unspecified) (zeroBlock_latestWf _ _ _ h.latest)

theorem performHint_inv {s : State} (kind : HintKind) (level : Level) (memType pa : Nat) (h : s.Inv) :
    (performHint s kind level memType pa).Inv :=
  h.of_same (by simp) (by simp) (by simp) (performHint_sound h.cfg h.sound) (by simpa using h.unspecified)
    (performHint_latestWf _ _ _ _ h.latest)

theorem execManagement_inv {kind : ManagementKind} {rs1 : RegIdx} {poc : Poc} {s : State}
    (h : s.Inv) : Always State.Inv (execManagement kind rs1 poc s) := by
  intro t ht
  rcases execManagement_next ht with ⟨-, htk⟩ | ⟨-, e, -, htk⟩ | ⟨tr, -, -, -, -, -, rfl⟩
  · exact htk.inv h
  · exact htk.inv h
  · exact retire_inv (performManagement_inv _ _ _ _ (writePtes_inv _ h))

theorem execCboZero_inv {rs1 : RegIdx} {level : Level} {s : State} (h : s.Inv) :
    Always State.Inv (execCboZero rs1 level s) := by
  intro t ht
  rcases execCboZero_next ht with ⟨-, htk⟩ | ⟨-, e, -, htk⟩ | ⟨tr, -, -, -, -, -, rfl⟩
  · exact htk.inv h
  · exact htk.inv h
  · exact retire_inv (zeroBlock_inv _ _ _ (writePtes_inv _ h))

theorem execHint_inv {kind : HintKind} {rs1 : RegIdx} {level : Level} {s : State} (h : s.Inv) :
    Always State.Inv (execHint kind rs1 level s) := by
  intro t ht
  rcases execHint_next ht with htk | rfl
  · exact htk.inv h
  · rcases hintAccess_cases s kind level (effectiveAddress s rs1) with hr | ⟨tr, -, hr⟩
    · rw [hr]; exact retire_inv h
    · rw [hr]; exact retire_inv (performHint_inv _ _ _ _ h)

theorem exec_inv (i : Instr) {s : State} (h : s.Inv) : Always State.Inv (exec i s) := by
  cases i with
  | cboInval rs1 poc => exact execManagement_inv h
  | cboClean rs1 poc => exact execManagement_inv h
  | cboFlush rs1 poc => exact execManagement_inv h
  | cboZero rs1 level => exact execCboZero_inv h
  | prefetchR rs1 level => exact execHint_inv h
  | prefetchW rs1 level => exact execHint_inv h
  | prefetchI rs1 level => exact execHint_inv h
  | demote rs1 level => exact execHint_inv h
  | cboSize => exact Always.refused _

/-! ### The base instructions -/

theorem Config.wf_cmo {cfg : Config} (h : cfg.wf = true) :
    cfg.mcmo.wf = true ∧ cfg.scmo.wf = true ∧ cfg.hcmo.wf = true ∧ cfg.vscmo.wf = true := by
  simp only [Config.wf, Bool.and_eq_true] at h
  exact ⟨h.1.1.1.2, h.1.1.2, h.1.2, h.2⟩

/-- A write of an imported register keeps the invariant. -/
theorem withCsr_inv {s : State} {c : Csrs} (h : s.Inv) (hc : SameCmo s.csr c) : (withCsr s c).Inv :=
  h.of_cmo rfl hc h.mode rfl rfl rfl

theorem csrWrite_inv {s : State} (v : Word) (id : CsrId) (h : s.Inv) : (csrWrite s v id).Inv := by
  obtain ⟨wm, ws, wh, wv⟩ := Config.wf_cmo h.cfg
  have hc := h.csrs
  simp only [State.csrsLegal, Bool.and_eq_true] at hc
  cases id with
  | mcmocontrol =>
    exact ⟨h.cfg, h.ms, h.domains, h.unspecified, h.latest, by
      simp [State.csrsLegal, csrWrite, withCsr, cmoLegal_legalizeCmo wm, hc.1.1.2, hc.1.2, hc.2], h.mode⟩
  | scmocontrol =>
    exact ⟨h.cfg, h.ms, h.domains, h.unspecified, h.latest, by
      simp [State.csrsLegal, csrWrite, withCsr, cmoLegal_legalizeCmo ws, hc.1.1.1, hc.1.2, hc.2], h.mode⟩
  | hcmocontrol =>
    exact ⟨h.cfg, h.ms, h.domains, h.unspecified, h.latest, by
      simp [State.csrsLegal, csrWrite, withCsr, cmoLegal_legalizeCmo wh, hc.1.1.1, hc.1.1.2, hc.2], h.mode⟩
  | vscmocontrol =>
    exact ⟨h.cfg, h.ms, h.domains, h.unspecified, h.latest, by
      simp [State.csrsLegal, csrWrite, withCsr, cmoLegal_legalizeCmo wv, hc.1.1.1, hc.1.1.2, hc.1.2], h.mode⟩
  | tselect =>
    simp only [csrWrite]
    split
    · exact withCsr_inv h ⟨rfl, rfl, rfl, rfl⟩
    · exact h
  | tdata1 => exact h.of_same rfl rfl rfl h.sound h.unspecified h.latest
  | tdata2 => exact h.of_same rfl rfl rfl h.sound h.unspecified h.latest
  | pmpcfg i => exact h.of_same rfl rfl rfl h.sound h.unspecified h.latest
  | pmpaddr i =>
    simp only [csrWrite]
    split
    · exact h.of_same rfl rfl rfl h.sound h.unspecified h.latest
    · exact h
  | _ => exact withCsr_inv h ⟨rfl, rfl, rfl, rfl⟩

theorem retireWith_inv {s : State} (rd : RegIdx) (v : Word) (h : s.Inv) : Always State.Inv (retireWith s rd v) :=
  .next (retireBase_inv (writeX_inv rd v h))

theorem jumpTo_inv {s : State} (target : Word) (h : s.Inv) : Always State.Inv (jumpTo s target) := by
  unfold jumpTo
  split
  · exact .next (h.of_same rfl rfl rfl h.sound h.unspecified h.latest)
  · exact .next (takeTrap_inv _ h)

theorem baseTrap_inv {s : State} (e : Exception) (tval : Word) (eff : Mode) (gpa : Nat) (h : s.Inv) :
    Always State.Inv (baseTrap s e tval eff gpa) := .next (takeTrap_inv _ h)

theorem baseIllegal_inv {s : State} (w : InstrWord) (e : Exception) (h : s.Inv) :
    Always State.Inv (baseIllegal s w e) := .next (takeTrap_inv _ h)

/-- A base access does what its action does, or traps, or is refused. -/
theorem baseAccess_inv {s : State} {kind : AccessKind} {ea : Word} {size : Nat} {act : Nat → Nat → Result} (h : s.Inv)
    (ha : ∀ m pa, Always State.Inv (act m pa)) : Always State.Inv (baseAccess s kind ea size act) := by
  unfold baseAccess
  simp only
  split
  · exact .refused _
  · exact baseTrap_inv _ _ _ _ h
  · split
    · exact baseTrap_inv _ _ _ _ h
    · split
      · exact baseTrap_inv _ _ _ _ h
      · exact baseTrap_inv _ _ _ _ h
      · exact baseTrap_inv _ _ _ _ h
      · split
        · exact baseTrap_inv _ _ _ _ h
        · split
          · exact .refused _
          · exact ha _ _

theorem allocateForLoad_inv {s : State} (memType pa : Nat) (h : s.Inv) : (allocateForLoad s memType pa).Inv :=
  h.of_same (by simp) (by simp) (by simp) (allocateForLoad_sound h.cfg h.sound) (by simpa using h.unspecified)
    (allocateForLoad_latestWf _ _ h.latest)

theorem allocateForWrite_inv {s : State} (kind : AccessKind) (memType pa : Nat) (c : Option Nat) (h : s.Inv) :
    (allocateForWrite s kind memType pa c).Inv :=
  h.of_same (by simp) (by simp) (by simp) (allocateForWrite_sound h.cfg h.sound) (by simpa using h.unspecified)
    (allocateForWrite_latestWf _ _ _ _ h.latest)

theorem storeRegister_inv {s : State} (r : RegIdx) (memType pa size : Nat) (h : s.Inv) :
    (storeRegister s r memType pa size).Inv :=
  hartWrite_inv _ _ _ _ (allocateForWrite_inv _ _ _ _ h)

theorem setReservation_inv {s : State} (r : Option Nat) (h : s.Inv) : ({ s with reservation := r } : State).Inv :=
  h.of_same rfl rfl rfl h.sound h.unspecified h.latest

theorem bringMs_inv {s : State} {brought : LatestByte → Option Byte} {ms : MemSys} (h : s.Inv) (hms : ms.Sound s.cfg) :
    (bringMs s brought ms).Inv :=
  h.of_same rfl rfl rfl hms h.unspecified (bringMs_latestWf _ _ h.latest)

theorem showToFetches_inv {s : State} (e : LatestByte) (h : s.Inv) : (showToFetches s e).Inv := by
  unfold showToFetches
  split
  · exact h
  · exact bringMs_inv h (h.sound.showToFetches h.cfg)

theorem cleanFetches_inv {s : State} (e : LatestByte) (h : s.Inv) : (cleanFetches s e).Inv :=
  bringMs_inv h (h.sound.writeBack h.cfg)

theorem syncFetches_inv {s : State} (b : Nat) (h : s.Inv) : (syncFetches s b).Inv := by
  unfold syncFetches
  split
  · exact h
  · exact bringMs_inv h (h.sound.emptyBlock b)

theorem fenceInstructions_sound {s : State} (h : s.Inv) : (fenceInstructions s).ms.Sound s.cfg := by
  have := fenceInstructions_keeps (fun t => t.cfg = s.cfg ∧ t.cfg.wf = true ∧ t.ms.Sound t.cfg)
    (fun t e ht => by
      refine ⟨(showToFetches_cfg t e).trans ht.1, by simpa using ht.2.1, ?_⟩
      unfold showToFetches
      split
      · exact ht.2.2
      · exact ht.2.2.showToFetches ht.2.1)
    (fun t e ht => ⟨(cleanFetches_cfg t e).trans ht.1, by simpa using ht.2.1, ht.2.2.writeBack ht.2.1⟩)
    (fun t b ht => by
      refine ⟨(syncFetches_cfg t b).trans ht.1, by simpa using ht.2.1, ?_⟩
      unfold syncFetches
      split
      · exact ht.2.2
      · exact ht.2.2.emptyBlock b)
    (fun _ _ ht => ht) (s := s) ⟨rfl, h.cfg, h.sound⟩
  rw [← this.1]
  exact this.2.2

theorem fenceInstructions_inv {s : State} (h : s.Inv) : (fenceInstructions s).Inv :=
  h.of_same (by simp) (by simp) (by simp) (fenceInstructions_sound h) (by simpa using h.unspecified)
    (fenceInstructions_latestWf h.latest)

theorem csrInstruction_inv {s : State} (w : InstrWord) (id : CsrId) (h : s.Inv) :
    Always State.Inv (csrInstruction w id s) := by
  unfold csrInstruction
  simp only
  split
  · exact retireWith_inv _ _ (csrWrite_inv _ _ h)
  · refine retireWith_inv _ _ ?_
    split
    · exact h
    · exact csrWrite_inv _ _ h
  · refine retireWith_inv _ _ ?_
    split
    · exact h
    · exact csrWrite_inv _ _ h

theorem execSystem_inv {s : State} (w : InstrWord) (h : s.Inv) : Always State.Inv (execSystem w s) := by
  unfold execSystem
  split
  · split
    · exact baseTrap_inv _ _ _ _ h
    · split
      · exact baseTrap_inv _ _ _ _ h
      · split
        · unfold execMret
          split
          · exact .next (returnFromM_inv h)
          · exact baseIllegal_inv _ _ h
        · split
          · unfold execSret
            split
            · exact .next (returnFromS_inv h)
            · exact .next (returnFromS_inv h)
            · exact baseIllegal_inv _ _ h
            · next hm => exact .next (returnFromVS_inv h hm)
            · exact baseIllegal_inv _ _ h
          · exact .refused _
  · split
    · exact .refused _
    · unfold execCsr
      split
      · exact .refused _
      · exact baseIllegal_inv _ _ h
      · exact baseIllegal_inv _ _ h
      · exact csrInstruction_inv _ _ h

theorem execLoad_inv {s : State} (w : InstrWord) (h : s.Inv) : Always State.Inv (execLoad w s) := by
  unfold execLoad
  split
  · exact .refused _
  · exact baseAccess_inv h fun m pa => retireWith_inv _ _ (allocateForLoad_inv m pa h)

theorem execStore_inv {s : State} (w : InstrWord) (h : s.Inv) : Always State.Inv (execStore w s) := by
  unfold execStore
  split
  · exact .refused _
  · exact baseAccess_inv h fun m pa => .next (retireBase_inv (storeRegister_inv _ m pa _ h))

theorem execAtomic_inv {s : State} (w : InstrWord) (h : s.Inv) : Always State.Inv (execAtomic w s) := by
  unfold execAtomic
  split
  · exact .refused _
  · split
    · exact baseAccess_inv h fun m pa => retireWith_inv _ _ (setReservation_inv _ (allocateForLoad_inv m pa h))
    · split
      · refine baseAccess_inv h fun m pa => ?_
        split
        · exact retireWith_inv _ _ (setReservation_inv _ (storeRegister_inv _ m pa _ h))
        · exact retireWith_inv _ _ (setReservation_inv _ h)
      · exact .refused _

theorem execAlu_inv {s : State} (w : InstrWord) (form : Option Bool) (word : Bool) (second : Word) (h : s.Inv) :
    Always State.Inv (execAlu w form word second s) := by
  unfold execAlu
  split
  · exact .refused _
  · exact retireWith_inv _ _ h

theorem execJump_inv {s : State} (w : InstrWord) (target : Word) (h : s.Inv) :
    Always State.Inv (execJump w target s) := by
  unfold execJump
  split
  · exact jumpTo_inv _ (writeX_inv _ _ h)
  · exact jumpTo_inv _ h

theorem execBranch_inv {s : State} (w : InstrWord) (h : s.Inv) : Always State.Inv (execBranch w s) := by
  unfold execBranch
  split
  · exact .refused _
  · exact .next (retireBase_inv h)
  · exact jumpTo_inv _ h

theorem execMiscMem_inv {s : State} (w : InstrWord) (h : s.Inv) : Always State.Inv (execMiscMem w s) := by
  unfold execMiscMem
  split
  · exact .next (retireBase_inv h)
  · split
    · exact .next (retireBase_inv (fenceInstructions_inv h))
    · exact .refused _

theorem execBase_inv {s : State} (w : InstrWord) (h : s.Inv) : Always State.Inv (execBase w s) := by
  unfold execBase
  split
  · exact baseIllegal_inv _ _ h
  · split
    · exact retireWith_inv _ _ h
    · exact retireWith_inv _ _ h
    · exact execJump_inv _ _ h
    · split
      · exact execJump_inv _ _ h
      · exact .refused _
    · exact execBranch_inv _ h
    · exact execLoad_inv _ h
    · exact execStore_inv _ h
    · exact execAlu_inv _ _ _ _ h
    · exact execAlu_inv _ _ _ _ h
    · exact execAlu_inv _ _ _ _ h
    · exact execAlu_inv _ _ _ _ h
    · exact execMiscMem_inv _ h
    · exact execAtomic_inv _ h
    · exact execSystem_inv _ h
    · exact .refused _

/-! ### Moves that are not the hart's -/

theorem moved_inv {s : State} (h : s.Inv) : (moved s).Inv := h.of_same rfl rfl rfl h.sound h.unspecified h.latest

theorem setMs_inv {s : State} {ms : MemSys} (h : s.Inv) (hms : ms.Sound s.cfg) : (setMs s ms).Inv :=
  h.of_same rfl rfl rfl hms h.unspecified (setMs_latestWf _ h.latest)

theorem manageBlock_inv {s : State} (op : CacheOp) (acc : Access) (pa : Nat) (poc : Poc) (h : s.Inv) :
    (manageBlock s op acc pa poc).Inv := bringMs_inv h (h.sound.manageAt h.cfg)

theorem disturbReservation_inv {s : State} (pa : Nat) (h : s.Inv) : (disturbReservation s pa).Inv :=
  h.of_same (by simp) (by simp) (by simp) (by simpa using h.sound) (by simpa using h.unspecified)
    (disturbReservation_latestWf _ h.latest)

theorem agentStore_inv {s : State} (acc : Access) (pa : Nat) (bs : List Byte) (h : s.Inv) :
    (agentStore s acc pa bs).Inv := by
  refine h.of_same (by simp) (by simp) (by simp) (by simpa using h.sound.writeBytes h.cfg) ?_
    (agentStore_latestWf _ _ _ h.latest)
  simp only [agentStore_unspecified, unspecifiedAfterAgent]
  split
  · exact foldl_keeps (fun l => Addresses.wfFrom 0 l = true) Addresses.erase (fun _ _ h => Addresses.erase_wfFrom h) _ _
      h.unspecified
  · exact h.unspecified

/-- A move of a cache keeps the invariant where its memory system is sound once the block agrees. -/
theorem cacheMove_inv {s : State} {b : Nat} {source target : Option Nat} {ms : MemSys} (h : s.Inv)
    (hms : ms.agrees s.cfg b = true → ms.Sound s.cfg) : Always State.Inv (cacheMove s b source target ms) := by
  unfold cacheMove
  simp only
  split
  · next ha =>
    simp only [Bool.and_eq_true] at ha
    exact .next (moved_inv (bringMs_inv h (hms ha.1.1)))
  · exact .fault _

theorem otherMove_inv {s : State} (m : Move) (h : s.Inv) : Always State.Inv (otherMove s m) := by
  unfold otherMove
  split
  · exact .next h
  · split
    · exact cacheMove_inv h h.sound.allocate
    · exact .fault _
  · split
    · exact cacheMove_inv h h.sound.deallocate
    · exact .fault _
  · split
    · exact .fault _
    · split
      · exact .fault _
      · exact .next (agentStore_inv _ _ _ h)
  · split
    · exact .fault _
    · exact .next (moved_inv (disturbReservation_inv _ (manageBlock_inv _ _ _ _ h)))
  · split
    · exact .fault _
    · split
      · exact .fault _
      · exact .next (agentStore_inv _ _ _ h)
  · split
    · exact .fault _
    · exact .next (moved_inv (disturbReservation_inv _ h))

end Sys2Proof.Machine
end

