-- ==== Sys2Proof/Laws/Latest.lean ====
section
/-!
SUPPORT. What keeps the bytes a path holds (`Holds`, so `LatestByte.held`): a copy that leaves its cache, dropped or sent
outward (rule R66), in a topology whose paths converge within domains (rule R82); and what `FENCE.I` does to them (rule
R103).
-/

namespace Sys2Proof.Machine

/-! ### The domains after a cache (rule R82) -/

theorem meets_of_inRange {p q : PathRule} {pa : Nat} (hp : inRange p.base p.size pa = true)
    (hq : inRange q.base q.size pa = true) : p.meets q = true := by
  simp only [inRange, Bool.and_eq_true, decide_eq_true_eq] at hp hq
  simp only [PathRule.meets, Bool.and_eq_true, decide_eq_true_eq]
  omega

/-- Two domains of paths to one address that share a cache have one name. -/
theorem domain_eq {cfg : Config} (hw : cfg.wf = true) {p q : PathRule} {pa x : Nat} {h k : Hop} (hp : p ∈ cfg.paths)
    (hq : q ∈ cfg.paths) (hpr : inRange p.base p.size pa = true) (hqr : inRange q.base q.size pa = true)
    (hh : h ∈ p.toPoc ++ p.beyondPoc) (hk : k ∈ q.toPoc ++ q.beyondPoc) (hx : x ∈ hopMembers h)
    (hy : x ∈ hopMembers k) : h.domain = k.domain := by
  have hd := (Config.wf_topology hw).2.2.2
  simp only [domainsWf, List.all_eq_true] at hd
  have hd := hd p hp q hq
  simp only [meets_of_inRange hpr hqr, Bool.not_true, Bool.false_or, List.all_eq_true] at hd
  have hd := hd h hh k hk
  split at hd
  · assumption
  · simp only [disjoint, List.all_eq_true, Bool.not_eq_true', List.contains_eq_mem, decide_eq_false_iff_not] at hd
    exact absurd hy (hd x hx)

/-- On a path that goes through a domain once, what lies after it is what lies after its name. -/
theorem afterDomain_split {cfg : Config} (hw : cfg.wf = true) {p : PathRule} (hp : p ∈ cfg.paths) {before after : List Hop}
    {d : Hop} (hs : p.toPoc ++ p.beyondPoc = before ++ d :: after) :
    afterDomain d.domain (p.toPoc ++ p.beyondPoc) = after := by
  have hnot : ∀ h ∈ before, h.domain ≠ d.domain := by
    have hd := Config.wf_paths hw hp
    simp only [PathRule.wf, Bool.and_eq_true] at hd
    have hnd := distinct_nodup hd.1.1.1.1.1
    rw [hs, List.map_append, List.map_cons] at hnd
    exact fun h hh he => List.disjoint_of_nodup_append hnd (List.mem_map.mpr ⟨h, hh, he⟩) List.mem_cons_self
  rw [hs]
  clear hs
  induction before with
  | nil => simp [afterDomain]
  | cons h hs ih =>
    rw [List.cons_append, afterDomain, if_neg (hnot h (by simp))]
    exact ih fun k hk => hnot k (by simp [hk])

/-- The domains an access meets are the end of a path the topology lists to the address. -/
theorem hopsOf_suffix {cfg : Config} {acc : Access} {pa : Nat} (h : hopsOf cfg acc pa ≠ []) :
    ∃ p ∈ cfg.paths, inRange p.base p.size pa = true ∧ ∃ before, p.toPoc ++ p.beyondPoc = before ++ hopsOf cfg acc pa := by
  rcases hopsOf_cases cfg acc pa with h0 | ⟨p, hp, hr, h0⟩
  · exact absurd h0 h
  · rcases h0 with h0 | h0
    · exact ⟨p, hp, hr, [], by rw [h0, List.nil_append]⟩
    · exact ⟨p, hp, hr, p.toPoc, by rw [h0]⟩

/-- Two accesses that meet a domain meet the same caches in it and the same domains after it (rules R79, R82). -/
theorem hopsOf_converge {cfg : Config} (hw : cfg.wf = true) {acc acc' : Access} {pa : Nat} {before after before' after' : List Hop}
    {d d' : Hop} (hs : hopsOf cfg acc pa = before ++ d :: after) (hs' : hopsOf cfg acc' pa = before' ++ d' :: after')
    (he : d.domain = d'.domain) : after = after' ∧ ∀ x, x ∈ hopMembers d ↔ x ∈ hopMembers d' := by
  obtain ⟨p, hp, hpr, pre, hps⟩ := hopsOf_suffix (cfg := cfg) (acc := acc) (pa := pa) (by rw [hs]; simp)
  obtain ⟨q, hq, hqr, pre', hqs⟩ := hopsOf_suffix (cfg := cfg) (acc := acc') (pa := pa) (by rw [hs']; simp)
  rw [hs, ← List.append_assoc] at hps
  rw [hs', ← List.append_assoc] at hqs
  have hmeet := meets_of_inRange hpr hqr
  have hdp : d ∈ p.toPoc ++ p.beyondPoc := by rw [hps]; simp
  have hdq : d' ∈ q.toPoc ++ q.beyondPoc := by rw [hqs]; simp
  have hc := (Config.wf_topology hw).2.2.1
  have hd := (Config.wf_topology hw).2.2.2
  simp only [convergesInDomains, domainsWf, List.all_eq_true] at hc hd
  have hc := hc p hp q hq
  have hd := hd p hp q hq
  simp only [hmeet, Bool.not_true, Bool.false_or, List.all_eq_true] at hc hd
  have hc := hc d hdp d' hdq
  have hd := hd d hdp d' hdq
  simp only [he, bne_self_eq_false, Bool.false_or, beq_iff_eq] at hc
  rw [if_pos he] at hd
  simp only [sameMembers, Bool.and_eq_true, List.all_eq_true, List.contains_iff_mem] at hd
  rw [← he, afterDomain_split hw hp hps, he, afterDomain_split hw hq hqs] at hc
  exact ⟨hc, fun x => ⟨hd.1 x, hd.2 x⟩⟩

/-- A list with a domain that holds a cache, split at the first. -/
theorem hopsFrom_mem {x : Nat} {hops : List Hop} (h : ∃ d ∈ hops, x ∈ hopMembers d) :
    ∃ before d after, hops = before ++ d :: after ∧ hopsFrom x hops = d :: after ∧ x ∈ hopMembers d := by
  induction hops with
  | nil => simp at h
  | cons d hs ih =>
    by_cases hd : x ∈ hopMembers d
    · refine ⟨[], d, hs, rfl, ?_, hd⟩
      rcases List.mem_append.mp hd with hd | hd <;> simp [hopsFrom, hd]
    · have hd' : x ∉ d.direct ∧ x ∉ d.indirect := by
        rw [← not_or]; exact fun hm => hd (List.mem_append.mpr hm)
      obtain ⟨e, he, hx⟩ := h
      have : ∃ e ∈ hs, x ∈ hopMembers e := by
        rcases List.mem_cons.mp he with rfl | he
        · exact absurd hx hd
        · exact ⟨e, he, hx⟩
      obtain ⟨before, k, after, h1, h2, h3⟩ := ih this
      exact ⟨d :: before, k, after, by simp [h1], by simp [hopsFrom, hd'.1, hd'.2, h2], h3⟩

/-- The domains between a cache on the path of an access and memory are those after it on that path. -/
theorem outwardHops_eq {cfg : Config} (hw : cfg.wf = true) {acc : Access} {pa x : Nat} {before after : List Hop} {d : Hop}
    (hs : hopsOf cfg acc pa = before ++ d :: after) (hx : x ∈ hopMembers d) : outwardHops cfg x pa = after := by
  obtain ⟨p, hp, hpr, pre, hps⟩ := hopsOf_suffix (cfg := cfg) (acc := acc) (pa := pa) (by rw [hs]; simp)
  rw [hs, ← List.append_assoc] at hps
  unfold outwardHops
  split
  · next q hq =>
    have hq' := List.find?_some hq
    have hqm := List.mem_of_find?_eq_some hq
    simp only [Bool.and_eq_true, List.any_eq_true, List.contains_iff_mem] at hq'
    obtain ⟨b', k, a', h1, h2, h3⟩ := hopsFrom_mem hq'.2
    rw [h2, List.tail_cons]
    have hdk := domain_eq hw hp hqm hpr hq'.1 (h := d) (k := k) (by rw [hps]; simp) (by rw [h1]; simp) hx h3
    have hc := (Config.wf_topology hw).2.2.1
    simp only [convergesInDomains, List.all_eq_true] at hc
    have hc := hc p hp q hqm
    simp only [meets_of_inRange hpr hq'.1, Bool.not_true, Bool.false_or, List.all_eq_true] at hc
    have hc := hc d (by rw [hps]; simp) k (by rw [h1]; simp)
    simp only [hdk, bne_self_eq_false, Bool.false_or, beq_iff_eq] at hc
    rw [← hdk, afterDomain_split hw hp hps, hdk, afterDomain_split hw hqm h1] at hc
    exact hc.symm
  · next hnone =>
    have := List.find?_eq_none.mp hnone p hp
    simp only [hpr, Bool.true_and, Bool.not_eq_true, List.any_eq_false, List.contains_iff_mem] at this
    exact absurd hx (this d (by rw [hps]; simp))

/-- Whatever listed path a cache is on, the domains after it are domains of paths to the address. -/
theorem outwardHops_subset {cfg : Config} {x pa : Nat} {h : Hop} (hh : h ∈ outwardHops cfg x pa) :
    h ∈ hopsCovering cfg pa := by
  unfold outwardHops at hh
  split at hh
  · next q hq =>
    have hq' := List.find?_some hq
    simp only [Bool.and_eq_true, List.any_eq_true, List.contains_iff_mem] at hq'
    obtain ⟨b', k, a', h1, h2, -⟩ := hopsFrom_mem hq'.2
    rw [h2, List.tail_cons] at hh
    exact List.mem_flatMap.mpr ⟨q, List.mem_filter.mpr ⟨List.mem_of_find?_eq_some hq, hq'.1⟩, by rw [h1]; simp [hh]⟩
  · simp at hh

theorem readBytes_getD_write {cfg : Config} {m : List Host.Cell} {pa : Nat} {data : List Byte} (hw : Memory.wf m = true)
    (hl : data.length = blockSize cfg) :
    Memory.read (Memory.writeBytes m (blockBase cfg pa) data) pa = data.getD (pa % blockSize cfg) 0#8 := by
  have h := congrArg (fun l : List Byte => l.getD (pa % blockSize cfg) 0#8)
    (Memory.readBytes_writeBytes (a := blockBase cfg pa) data hw)
  simpa [Memory.readBytes, List.getD, hl, Nat.mod_lt pa (blockSize_pos cfg), blockBase_add_offset] using h

/-! ### A copy that leaves its cache (rule R66) -/

/-- A copy of another block, or an unmodified one, that leaves takes nothing from a path. -/
theorem Holds.dropCopy {cfg : Config} {ms : MemSys} {cache b pa : Nat} {vs : List Byte} {hops : List Hop}
    (hw : ms.wf cfg = true) (hu : b = blockBase cfg pa → ms.isModified cache b = false) (h : Holds cfg ms pa vs hops) :
    Holds cfg (ms.dropCopy cache b) pa vs hops := by
  refine Holds.mono (ms := ms) (fun hm => hm) (fun x c' hc' => ?_) (fun x c hc hm => ?_) h
  · by_cases hx : x = cache ∧ blockBase cfg pa = b
    · obtain ⟨rfl, hb⟩ := hx
      rw [hb, MemSys.copyAt_dropCopy_same hw] at hc'
      simp at hc'
    · rw [MemSys.copyAt_dropCopy_other _ (by rw [← not_and_or]; exact hx)] at hc'
      exact ⟨c', hc', id⟩
  · refine ⟨c, ?_, hm⟩
    rw [MemSys.copyAt_dropCopy_other]
    · exact hc
    · rw [← not_and_or]
      rintro ⟨rfl, hb⟩
      have := hu hb.symm
      rw [Bool.eq_false_iff] at this
      exact this (MemSys.isModified_iff.mpr ⟨c, hb ▸ hc, hm⟩)

/-- What a transfer makes of a copy, if anything. -/
def transferredCopy (cfg : Config) (b : Nat) (data : List Byte) (cache : Nat) (_ : Copy) : Copy :=
  { block := b, modified := tracks cfg cache, data := data }

/-- A transfer leaves a cache its copy, or one with its bytes. -/
theorem MemSys.copyAt_transfer_cases {cfg : Config} {b : Nat} {data : List Byte} (hops : List Hop) (ms : MemSys)
    (x : Nat) :
    (MemSys.transfer cfg b data hops ms).copyAt x b = ms.copyAt x b ∨
      (MemSys.transfer cfg b data hops ms).copyAt x b = (ms.copyAt x b).map (transferredCopy cfg b data x) := by
  induction hops generalizing ms with
  | nil => exact .inl rfl
  | cons d hs ih =>
    generalize hms : (hopCaches (hardwareCoherent cfg b) d).foldl (MemSys.updateCopy cfg b data) ms = ms'
    have hd : ms'.copyAt x b = ms.copyAt x b ∨
        ms'.copyAt x b = (ms.copyAt x b).map (transferredCopy cfg b data x) := by
      rw [← hms, MemSys.copyAt_updateCopies]
      split
      · exact .inr rfl
      · exact .inl rfl
    simp only [MemSys.transfer, hms]
    split
    · exact hd
    · rcases ih ms' with h | h <;> rw [h]
      · exact hd
      · refine .inr ?_
        rcases hd with hd | hd <;> rw [hd]
        cases ms.copyAt x b <;> rfl

/-- A transfer leaves memory as it is, or with its bytes. -/
theorem MemSys.transfer_mem_cases {cfg : Config} {b : Nat} {data : List Byte} (hops : List Hop) (ms : MemSys) :
    (MemSys.transfer cfg b data hops ms).mem = ms.mem ∨
      (MemSys.transfer cfg b data hops ms).mem = Memory.writeBytes ms.mem b data := by
  induction hops generalizing ms with
  | nil => exact .inr rfl
  | cons d hs ih =>
    have hmem : ∀ l : List Nat, (l.foldl (MemSys.updateCopy cfg b data) ms).mem = ms.mem := fun l =>
      foldl_keeps (fun ms' : MemSys => ms'.mem = ms.mem) _ (fun _ c h => by simp [h]) l ms rfl
    simp only [MemSys.transfer]
    split
    · exact .inl (hmem _)
    · rw [← hmem (hopCaches (hardwareCoherent cfg b) d)]
      exact ih _

/-- A transfer leaves its bytes where an access along the domains it goes to finds them, and no others. -/
theorem Holds.transfer {cfg : Config} {pa : Nat} {data : List Byte} (hops : List Hop) {ms : MemSys}
    (hw : Memory.wf ms.mem = true) (hl : data.length = blockSize cfg) :
    Holds cfg (MemSys.transfer cfg (blockBase cfg pa) data hops ms) pa [data.getD (pa % blockSize cfg) 0#8] hops := by
  have hmem : ∀ (ms : MemSys) (l : List Nat), (l.foldl (MemSys.updateCopy cfg (blockBase cfg pa) data) ms).mem = ms.mem :=
    fun ms l => foldl_keeps (fun ms' => ms'.mem = ms.mem) _ (fun _ c h => by simp [h]) l ms rfl
  induction hops generalizing ms with
  | nil => exact List.mem_singleton.mpr (readBytes_getD_write hw hl)
  | cons d hs ih =>
    have hcopies := MemSys.copyAt_updateCopies (cfg := cfg) (b := blockBase cfg pa) (data := data)
      (hopCaches (hardwareCoherent cfg (blockBase cfg pa)) d) (ms := ms)
    have hdata : ∀ y ∈ hopCaches (hardwareCoherent cfg (blockBase cfg pa)) d, ∀ c,
        ((hopCaches (hardwareCoherent cfg (blockBase cfg pa)) d).foldl (MemSys.updateCopy cfg (blockBase cfg pa) data)
          ms).copyAt y (blockBase cfg pa) = some c → c.data = data := fun y hy c hc => by
      rw [hcopies, if_pos hy] at hc
      obtain ⟨_, -, h2⟩ := Option.map_eq_some_iff.mp hc
      rw [← h2]
    simp only [MemSys.transfer]
    split
    · next ha =>
      obtain ⟨x, hx, ht, c, hc⟩ := MemSys.absorbs_iff.mp ha
      refine ⟨fun y hy c' hc' => List.mem_singleton.mpr (by rw [hdata y hy c' hc']), .inl ⟨x, hx, ?_⟩⟩
      exact MemSys.isModified_iff.mpr ⟨_, by rw [hcopies, if_pos hx, hc]; rfl, ht⟩
    · refine ⟨fun y hy c' hc' => List.mem_singleton.mpr ?_, .inr (ih (by rw [hmem]; exact hw))⟩
      rcases MemSys.copyAt_transfer_cases (data := data) hs _ y with h | h <;> rw [h] at hc'
      · rw [hdata y hy c' hc']
      · obtain ⟨_, -, rfl⟩ := Option.map_eq_some_iff.mp hc'
        rfl

/-- A transfer changes no copy outside its domains. -/
theorem MemSys.copyAt_transfer_outside {cfg : Config} {b : Nat} {data : List Byte} (hops : List Hop) {ms : MemSys}
    {cache : Nat} (h : ∀ d ∈ hops, cache ∉ hopCaches (hardwareCoherent cfg b) d) :
    (MemSys.transfer cfg b data hops ms).copyAt cache b = ms.copyAt cache b := by
  induction hops generalizing ms with
  | nil => rfl
  | cons d hs ih =>
    have hd : ((hopCaches (hardwareCoherent cfg b) d).foldl (MemSys.updateCopy cfg b data) ms).copyAt cache b =
        ms.copyAt cache b := by rw [MemSys.copyAt_updateCopies, if_neg (h d (by simp))]
    simp only [MemSys.transfer]
    split
    · exact hd
    · rw [ih fun d' hd' => h d' (by simp [hd']), hd]

theorem hopCaches_subset {coherent : Bool} {h : Hop} {x : Nat} (hx : x ∈ hopCaches coherent h) : x ∈ hopMembers h := by
  simp only [hopCaches, List.mem_append] at hx
  rcases hx with hx | hx
  · exact List.mem_append_left _ hx
  · split at hx
    · exact List.mem_append_right _ hx
    · simp at hx

/-- A path holds what it held where the copies its access can meet and the byte of memory are the same. -/
theorem Holds.congr_path {cfg : Config} {ms ms' : MemSys} {pa : Nat} {vs : List Byte} {hops : List Hop}
    (hm : Memory.read ms'.mem pa = Memory.read ms.mem pa)
    (hc : ∀ x ∈ hops.flatMap (hopCaches (hardwareCoherent cfg (blockBase cfg pa))),
      ms'.copyAt x (blockBase cfg pa) = ms.copyAt x (blockBase cfg pa))
    (h : Holds cfg ms pa vs hops) : Holds cfg ms' pa vs hops := by
  induction hops with
  | nil => exact (show Memory.read ms'.mem pa ∈ vs from hm.symm ▸ h)
  | cons k hs ih =>
    rw [List.flatMap_cons] at hc
    refine ⟨fun x hx c hcx => h.1 x hx c ?_, h.2.imp (fun ⟨x, hx, hxm⟩ => ⟨x, hx, ?_⟩)
      (ih fun x hx => hc x (List.mem_append_right _ hx))⟩
    · rw [← hc x (List.mem_append_left _ hx)]; exact hcx
    · unfold MemSys.isModified at hxm ⊢
      rw [hc x (List.mem_append_left _ hx)]
      exact hxm

/-- A copy that leaves a cache off the path of an access takes nothing from it. -/
theorem Holds.dropCopy_off {cfg : Config} {ms : MemSys} {acc : Access} {cache pa : Nat} {vs : List Byte}
    (hp : cache ∉ pathCaches cfg acc (blockBase cfg pa)) (h : Holds cfg ms pa vs (hopsOf cfg acc (blockBase cfg pa))) :
    Holds cfg (ms.dropCopy cache (blockBase cfg pa)) pa vs (hopsOf cfg acc (blockBase cfg pa)) :=
  Holds.congr_path (ms := ms) (ms' := ms.dropCopy cache (blockBase cfg pa)) rfl
    (fun _ hx => MemSys.copyAt_dropCopy_other _ (.inl fun e => hp (e ▸ hx))) h

/-- A transfer leaves every path what it held, and its bytes. -/
theorem Holds.transfer_any {cfg : Config} {pa : Nat} {data : List Byte} {hops hops' : List Hop} {vs : List Byte}
    {ms : MemSys} (hw : ms.wf cfg = true) (hl : data.length = blockSize cfg) (h : Holds cfg ms pa vs hops) :
    Holds cfg (MemSys.transfer cfg (blockBase cfg pa) data hops' ms) pa (data.getD (pa % blockSize cfg) 0#8 :: vs) hops := by
  have hcases := MemSys.copyAt_transfer_cases (cfg := cfg) (b := blockBase cfg pa) (data := data) hops' ms
  refine h.mono (fun hm => ?_) (fun x c' hc' => ?_) fun x c hc hm => ?_
  · rcases MemSys.transfer_mem_cases (cfg := cfg) (b := blockBase cfg pa) (data := data) hops' ms with h' | h' <;> rw [h']
    · exact List.mem_cons_of_mem _ hm
    · rw [readBytes_getD_write (MemSys.wf_mem hw) hl]
      exact List.mem_cons_self
  · rcases hcases x with h' | h' <;> rw [h'] at hc'
    · exact ⟨c', hc', List.mem_cons_of_mem _⟩
    · obtain ⟨c, h1, rfl⟩ := Option.map_eq_some_iff.mp hc'
      exact ⟨c, h1, fun _ => List.mem_cons_self⟩
  · rcases hcases x with h' | h'
    · exact ⟨c, by rw [h', hc], hm⟩
    · exact ⟨_, by rw [h', hc]; rfl, MemSys.isModified_tracks hw hc hm⟩

/-- A modified copy that goes outward takes nothing from a path its cache is on. -/
theorem Holds.outward {cfg : Config} {ms : MemSys} {acc : Access} {cache pa : Nat} {c : Copy} {vs : List Byte}
    (hc : cfg.wf = true) (hw : ms.wf cfg = true) (hcopy : ms.copyAt cache (blockBase cfg pa) = some c)
    (hp : cache ∈ pathCaches cfg acc (blockBase cfg pa))
    (h : Holds cfg ms pa vs (hopsOf cfg acc (blockBase cfg pa))) :
    Holds cfg (MemSys.transfer cfg (blockBase cfg pa) c.data (outwardHops cfg cache (blockBase cfg pa))
      (ms.dropCopy cache (blockBase cfg pa))) pa vs (hopsOf cfg acc (blockBase cfg pa)) := by
  obtain ⟨d, hd, hx⟩ := List.mem_flatMap.mp hp
  obtain ⟨before, after, hs⟩ := List.append_of_mem hd
  have hlen := MemSys.copyAt_length hw hcopy
  have hout := outwardHops_eq hc hs (hopCaches_subset hx)
  rw [hout]
  -- the caches of the path are named once each
  have hnd := (hopsOf_wf hc acc (blockBase cfg pa)).1
  rw [hs, List.flatMap_append, List.flatMap_cons] at hnd
  have hrest := Holds.transfer (cfg := cfg) (pa := pa) (data := c.data) after
    (ms := ms.dropCopy cache (blockBase cfg pa)) (MemSys.wf_mem (ms := ms.dropCopy cache _) (MemSys.dropCopy_wf hw)) hlen
  -- a cache of the path before those domains keeps its copy, or is the one that loses it
  have hother : ∀ y e, y ≠ cache → y ∈ hopMembers e → e ∈ before ++ [d] →
      (MemSys.transfer cfg (blockBase cfg pa) c.data after (ms.dropCopy cache (blockBase cfg pa))).copyAt y
        (blockBase cfg pa) = ms.copyAt y (blockBase cfg pa) := by
    intro y e hy hye he
    rw [MemSys.copyAt_transfer_outside, MemSys.copyAt_dropCopy_other _ (.inl hy)]
    intro d' hd' hyd
    rw [← List.append_assoc] at hnd
    refine List.disjoint_of_nodup_append hnd (a := y) ?_ (List.mem_flatMap.mpr ⟨d', hd', hopCaches_subset hyd⟩)
    rcases List.mem_append.mp he with he | he
    · exact List.mem_append_left _ (List.mem_flatMap.mpr ⟨e, he, hye⟩)
    · simp only [List.mem_singleton] at he
      exact List.mem_append_right _ (he ▸ hye)
  have hself : (MemSys.transfer cfg (blockBase cfg pa) c.data after (ms.dropCopy cache (blockBase cfg pa))).copyAt cache
      (blockBase cfg pa) = none := by
    rw [MemSys.copyAt_transfer_isNone]
    exact MemSys.copyAt_dropCopy_same hw
  have hne : ∀ y e, y ∈ hopMembers e → e ∈ before → y ≠ cache := by
    rintro y e hye he rfl
    exact List.disjoint_of_nodup_append hnd (List.mem_flatMap.mpr ⟨e, he, hye⟩)
      (List.mem_append_left _ (hopCaches_subset hx))
  rw [hs] at h ⊢
  clear hs hout hd hnd
  induction before with
  | nil =>
    have hv : c.data.getD (pa % blockSize cfg) 0#8 ∈ vs := h.1 cache hx c hcopy
    refine ⟨fun y hy c' hc' => ?_, .inr (hrest.subset fun v hv' => List.mem_singleton.mp hv' ▸ hv)⟩
    by_cases hyc : y = cache
    · rw [hyc, hself] at hc'
      simp at hc'
    · rw [hother y d hyc (hopCaches_subset hy) (by simp)] at hc'
      exact h.1 y hy c' hc'
  | cons e es ih =>
    refine ⟨fun y hy c' hc' => ?_, h.2.imp ?_ fun h2 => ih h2 ?_ ?_⟩
    · rw [hother y e (hne y e (hopCaches_subset hy) (by simp)) (hopCaches_subset hy) (by simp)] at hc'
      exact h.1 y hy c' hc'
    · rintro ⟨y, hy, hm⟩
      refine ⟨y, hy, ?_⟩
      rw [MemSys.isModified, hother y e (hne y e (hopCaches_subset hy) (by simp)) (hopCaches_subset hy) (by simp)]
      exact hm
    · exact fun y k hy hyk hk => hother y k hy hyk (by simp only [List.cons_append, List.mem_cons]; exact .inr hk)
    · exact fun y k hyk hk => hne y k hyk (by simp [hk])

/-! ### Writes that arrive (rules R82, R100) -/

/-- A write along the path of an access arrives there. -/
theorem MemSys.arrives_refl (cfg : Config) (ms : MemSys) (b : Nat) (hops : List Hop) :
    ms.arrives cfg b hops hops = true := by
  cases hops <;> simp [MemSys.arrives]

/-- Whether a write arrives rests on which caches that track the modified state hold the block. -/
theorem MemSys.arrives_congr {cfg : Config} {ms ms' : MemSys} {b : Nat} {seen : List Hop} (hops : List Hop)
    (h : ∀ caches, ms'.absorbs cfg caches b = ms.absorbs cfg caches b) :
    ms'.arrives cfg b seen hops = ms.arrives cfg b seen hops := by
  induction hops with
  | nil => rfl
  | cons k hs ih => simp only [MemSys.arrives, h, ih]

/-- A data write takes the block from no cache that tracks the modified state. -/
theorem MemSys.absorbs_writeAlong {cfg : Config} {tick pa b : Nat} {v : Byte} (hops : List Hop) {ms : MemSys}
    (hw : ms.wf cfg = true) (caches : List Nat) :
    (MemSys.writeAlong cfg tick pa v hops ms).absorbs cfg caches b = ms.absorbs cfg caches b := by
  unfold MemSys.absorbs
  congr 1
  funext x
  by_cases hb : b = blockBase cfg pa
  · subst hb
    rcases MemSys.copyAt_writeAlong_cases (tick := tick) (v := v) hops hw x with h | h <;> rw [h]
    cases ht : tracks cfg x with
    | false => rfl
    | true => cases ms.copyAt x (blockBase cfg pa) <;> simp [writtenCopy_tracks ht]
  · rw [MemSys.copyAt_writeAlong_block _ hb]

theorem MemSys.absorbs_writeCopies {cfg : Config} {tick pa : Nat} {v : Byte} (l : List Nat) {ms : MemSys}
    (hw : ms.wf cfg = true) (caches : List Nat) :
    (l.foldl (MemSys.writeCopy cfg tick pa v) ms).absorbs cfg caches (blockBase cfg pa) =
      ms.absorbs cfg caches (blockBase cfg pa) := by
  unfold MemSys.absorbs
  congr 1
  funext x
  rw [MemSys.copyAt_writeCopies l hw]
  cases ht : tracks cfg x with
  | false => rfl
  | true =>
    split
    · cases ms.copyAt x (blockBase cfg pa) <;> simp [writtenCopy_tracks ht]
    · rfl

/-- What a path holds rests on which caches its first domain has, in whatever order. -/
theorem Holds.of_members {cfg : Config} {ms : MemSys} {pa : Nat} {vs : List Byte} {h k : Hop} {hops : List Hop}
    (he : ∀ x, x ∈ hopCaches (hardwareCoherent cfg (blockBase cfg pa)) h ↔
      x ∈ hopCaches (hardwareCoherent cfg (blockBase cfg pa)) k)
    (hh : Holds cfg ms pa vs (k :: hops)) : Holds cfg ms pa vs (h :: hops) :=
  ⟨fun x hx => hh.1 x ((he x).mp hx), hh.2.imp (fun ⟨x, hx, hm⟩ => ⟨x, (he x).mpr hx, hm⟩) id⟩

/-- A write that arrives on the path of an access is what the access finds there, and nothing else. -/
theorem Holds.writeAlong_arrives {cfg : Config} {tick pa : Nat} {v : Byte} {acc acc' : Access} {ms : MemSys}
    (hc : cfg.wf = true) (hw : ms.wf cfg = true)
    (h : ms.arrives cfg (blockBase cfg pa) (hopsOf cfg acc (blockBase cfg pa)) (hopsOf cfg acc' (blockBase cfg pa)) = true) :
    Holds cfg (MemSys.writeAlong cfg tick pa v (hopsOf cfg acc' (blockBase cfg pa)) ms) pa [v]
      (hopsOf cfg acc (blockBase cfg pa)) := by
  -- the claim for every end of the path of the write
  suffices key : ∀ (hops before : List Hop) (ms : MemSys), ms.wf cfg = true →
      hopsOf cfg acc' (blockBase cfg pa) = before ++ hops →
      ms.arrives cfg (blockBase cfg pa) (hopsOf cfg acc (blockBase cfg pa)) hops = true →
      Holds cfg (MemSys.writeAlong cfg tick pa v hops ms) pa [v] (hopsOf cfg acc (blockBase cfg pa)) from
    key _ [] ms hw rfl h
  intro hops
  induction hops with
  | nil =>
    intro before ms hw _ ha
    simp only [MemSys.arrives, List.isEmpty_iff] at ha
    rw [ha]
    exact Holds.writeAlong_same [] hw
  | cons k hs ih =>
    intro before ms hw hs' ha
    simp only [MemSys.arrives, Bool.or_eq_true, Bool.and_eq_true, Bool.not_eq_true'] at ha
    rcases ha with ha | ⟨hn, ha⟩
    · -- the two paths meet here
      cases hseen : hopsOf cfg acc (blockBase cfg pa) with
      | nil => simp [hseen] at ha
      | cons d rest =>
        simp only [hseen, List.head?_cons, Option.any_some, Bool.and_eq_true, beq_iff_eq, Bool.or_eq_true] at ha
        obtain ⟨hrest, hmem⟩ := hopsOf_converge hc (before := []) (hseen.trans rfl) hs' ha.1
        rw [hrest]
        refine Holds.of_members (fun x => ?_) (Holds.writeAlong_same (k :: hs) hw)
        rcases ha.2 with hco | hd
        · simpa [hopCaches, hco, hopMembers] using hmem x
        · cases hco : hardwareCoherent cfg (blockBase cfg pa) with
          | true => simpa [hopCaches, hopMembers] using hmem x
          | false => simp [hopCaches, hd]
    · simp only [MemSys.writeAlong, hn, Bool.false_eq_true, if_false]
      refine ih (before ++ [k]) _ (MemSys.writeCopies_wf _ hw) (by simp [hs']) ?_
      rw [MemSys.arrives_congr hs fun caches => MemSys.absorbs_writeCopies _ hw caches]
      exact ha

/-- A write whose bytes have their place in the order of the hart's loads gives them latest stores (rules R99, R100). -/
theorem latestAfterWrite_ordered {s : State} {acc : Access} {pa memType i : Nat} {bs : List Byte} (hc : s.cfg.wf = true)
    (hw : s.ms.wf s.cfg = true) (hm : memType ∈ memTypesOf s.cfg) (hi : i < bs.length)
    (ho : ordered s acc (pa + i) memType = true) :
    { address := pa + i, kind := .load, memType := memType, values := [bs[i]] } ∈
      latestAfterWrite s (MemSys.writeBytes s.cfg s.tick acc pa bs s.ms) acc pa bs := by
  refine mem_latestAfterWrite.mpr ⟨LatestByte.held_iff.mpr ?_,
    .inl (mem_latestOfWrite.mpr ⟨hm, rfl, i, hi, rfl, by simp [hi], ho⟩)⟩
  unfold ordered at ho
  show Holds s.cfg _ (pa + i) [bs[i]] (hopsOf s.cfg (hartAccess .load memType) (blockBase s.cfg (pa + i)))
  generalize s.ms = ms at hw ho ⊢
  induction bs generalizing pa ms i with
  | nil => simp at hi
  | cons b bs ih =>
    cases i with
    | zero => exact Holds.writeBytes_before bs (MemSys.writeByte_wf hw) (by omega) (Holds.writeAlong_arrives hc hw ho)
    | succ i =>
      have hp : pa + (i + 1) = pa + 1 + i := by omega
      rw [hp] at ho ⊢
      exact ih (by simpa using hi) _ (MemSys.writeByte_wf hw)
        ((MemSys.arrives_congr _ fun caches => MemSys.absorbs_writeAlong _ hw caches).trans ho)

/-! ### Paths without a Modified copy -/

/-- A path whose copies all hold one of some bytes that memory holds one of too holds them. -/
theorem Holds.of_all {cfg : Config} {ms : MemSys} {pa : Nat} {vs : List Byte} {hops : List Hop}
    (hm : Memory.read ms.mem pa ∈ vs)
    (hc : ∀ x ∈ hops.flatMap (hopCaches (hardwareCoherent cfg (blockBase cfg pa))), ∀ c,
      ms.copyAt x (blockBase cfg pa) = some c → c.data.getD (pa % blockSize cfg) 0#8 ∈ vs) : Holds cfg ms pa vs hops := by
  induction hops with
  | nil => exact hm
  | cons d hs ih =>
    rw [List.flatMap_cons] at hc
    exact ⟨fun x hx => hc x (List.mem_append_left _ hx), .inr (ih fun x hx => hc x (List.mem_append_right _ hx))⟩

/-- Where no copy on the path is Modified, every copy of it holds one of the bytes, and so does memory. -/
theorem Holds.all {cfg : Config} {ms : MemSys} {pa : Nat} {vs : List Byte} {hops : List Hop} (h : Holds cfg ms pa vs hops)
    (hn : ∀ x ∈ hops.flatMap (hopCaches (hardwareCoherent cfg (blockBase cfg pa))),
      ms.isModified x (blockBase cfg pa) = false) :
    Memory.read ms.mem pa ∈ vs ∧ ∀ x ∈ hops.flatMap (hopCaches (hardwareCoherent cfg (blockBase cfg pa))), ∀ c,
      ms.copyAt x (blockBase cfg pa) = some c → c.data.getD (pa % blockSize cfg) 0#8 ∈ vs := by
  induction hops with
  | nil => exact ⟨h, by simp⟩
  | cons d hs ih =>
    rw [List.flatMap_cons] at hn ⊢
    rcases h.2 with ⟨x, hx, hm⟩ | hr
    · rw [hn x (List.mem_append_left _ hx)] at hm
      simp at hm
    · obtain ⟨h1, h2⟩ := ih hr fun x hx => hn x (List.mem_append_right _ hx)
      refine ⟨h1, fun x hx => ?_⟩
      rcases List.mem_append.mp hx with hx | hx
      · exact h.1 x hx
      · exact h2 x hx

theorem MemSys.firstModified_none {ms : MemSys} {l : List Nat} {b : Nat} :
    ms.firstModified l b = none ↔ ∀ x ∈ l, ms.isModified x b = false := by
  simp only [MemSys.firstModified, List.findSome?_eq_none_iff]
  refine forall₂_congr fun x _ => ?_
  unfold MemSys.isModified
  cases ms.copyAt x b with
  | none => simp
  | some c => cases h : c.modified <;> simp [h]

theorem MemSys.firstModified_append (ms : MemSys) (l l' : List Nat) (b : Nat) :
    ms.firstModified (l ++ l') b = (ms.firstModified l b).or (ms.firstModified l' b) := by
  simp [MemSys.firstModified, List.findSome?_append]

/-- The first Modified copy of a path that holds some bytes holds one of them. -/
theorem Holds.firstModified {cfg : Config} {ms : MemSys} {pa : Nat} {vs : List Byte} {hops : List Hop} {d : List Byte}
    (h : Holds cfg ms pa vs hops)
    (hd : ms.firstModified (hops.flatMap (hopCaches (hardwareCoherent cfg (blockBase cfg pa)))) (blockBase cfg pa) =
      some d) : d.getD (pa % blockSize cfg) 0#8 ∈ vs := by
  induction hops with
  | nil => simp [MemSys.firstModified] at hd
  | cons k hs ih =>
    rw [List.flatMap_cons, MemSys.firstModified_append] at hd
    cases hf : ms.firstModified (hopCaches (hardwareCoherent cfg (blockBase cfg pa)) k) (blockBase cfg pa) with
    | some e =>
      rw [hf, Option.some_or] at hd
      injection hd with hd
      obtain ⟨x, hx, c, hc, -, rfl⟩ := MemSys.firstModified_mem hf
      rw [← hd]
      exact h.1 x hx c hc
    | none =>
      rw [hf, Option.none_or] at hd
      rcases h.2 with ⟨x, hx, hm⟩ | hr
      · rw [MemSys.firstModified_none.mp hf x hx] at hm
        simp at hm
      · exact ih hr hd

/-- A path holds what it held where the copies of the block and the byte of memory are the same. -/
theorem Holds.congr {cfg : Config} {ms ms' : MemSys} {pa : Nat} {vs : List Byte} {hops : List Hop}
    (h : Holds cfg ms pa vs hops) (hm : Memory.read ms'.mem pa = Memory.read ms.mem pa)
    (hc : ∀ x, ms'.copyAt x (blockBase cfg pa) = ms.copyAt x (blockBase cfg pa)) : Holds cfg ms' pa vs hops :=
  Holds.mono (ms := ms) (fun h => hm ▸ h) (fun x c' h' => ⟨c', by rw [← hc x]; exact h', id⟩)
    (fun x c h' hm => ⟨c, by rw [hc x]; exact h', hm⟩) h

/-! ### What a clean or a flush keeps (rule R152 (a)) -/

/-- The optional transfers of an operation hide none of the latest stores `bound`. -/
theorem MemSys.gives_held {cfg : Config} {tick : Nat} {op : CacheOp} {set : List Nat} {b : Nat}
    {data : Option (List Byte)} {bound : List LatestByte} (l : List Nat) {ms : MemSys} {e : LatestByte} (he : e ∈ bound)
    (h : e.held cfg ms = true) : e.held cfg (ms.gives cfg tick op set b data bound l) = true :=
  foldl_keeps (fun ms : MemSys => e.held cfg ms = true) _ (fun ms c h => by
    rcases MemSys.give_cases cfg tick op set b data bound ms c with ⟨_, _, -, -, -, -, -, -, h', -⟩ | h'
    · exact List.all_eq_true.mp h' e he
    · rw [h']; exact h) l ms h

/-- An operation leaves another block where an access finds it. -/
theorem Holds.manage_block {cfg : Config} {tick : Nat} {op : CacheOp} {set : List Nat} {beyond : List Hop} {b pa : Nat}
    {bound : List LatestByte} {vs : List Byte} {hops : List Hop} {ms : MemSys} (hw : ms.wf cfg = true)
    (ha : b % blockSize cfg = 0) (hb : blockBase cfg pa ≠ b) (h : Holds cfg ms pa vs hops) :
    Holds cfg (MemSys.manage cfg tick op set beyond b bound ms) pa vs hops := by
  refine h.congr (MemSys.read_manage_other hw ?_) fun x => MemSys.copyAt_manage_block hb
  by_contra hcon
  simp only [not_or, not_lt, not_le] at hcon
  refine hb ?_
  have := blockBase_add cfg ha (i := pa - b) (by omega)
  rwa [show b + (pa - b) = pa by omega] at this

/-- A clean or a flush leaves every path what it held, and the bytes made visible at the PoC. -/
theorem Holds.manageAt {cfg : Config} {tick : Nat} {op : CacheOp} {acc acc' : Access} {pa a : Nat} {poc : Poc}
    {bound : List LatestByte} {vs : List Byte} {ms : MemSys} (hc : cfg.wf = true) (hw : ms.wf cfg = true)
    (hop : op ≠ .invalidate) (hb : blockBase cfg a = blockBase cfg pa)
    (hg : Holds cfg (ms.gives cfg tick op (cacheSet cfg acc pa poc) (blockBase cfg pa)
      (ms.transferredAt cfg tick op acc pa poc bound) bound (cacheSet cfg acc pa poc)) a vs (hopsOf cfg acc' (blockBase cfg a))) :
    Holds cfg (MemSys.manageAt cfg tick op acc pa poc bound ms) a
      (match ms.transferredAt cfg tick op acc pa poc bound with
        | none => vs
        | some d => d.getD (a % blockSize cfg) 0#8 :: vs) (hopsOf cfg acc' (blockBase cfg a)) := by
  have hmanage := MemSys.copyAt_manage (tick := tick) (op := op) (set := cacheSet cfg acc pa poc)
    (beyond := (pathOf cfg acc (blockBase cfg pa)).beyondPoc) (b := blockBase cfg pa) (bound := bound) hw
  have hmem := MemSys.manage_mem (cfg := cfg) (tick := tick) (op := op) (set := cacheSet cfg acc pa poc)
    (beyond := (pathOf cfg acc (blockBase cfg pa)).beyondPoc) (b := blockBase cfg pa) (bound := bound) (ms := ms)
  have hgw := MemSys.gives_wf (tick := tick) (op := op) (set := cacheSet cfg acc pa poc) (b := blockBase cfg pa)
    (data := ms.transferredAt cfg tick op acc pa poc bound) (bound := bound) (cacheSet cfg acc pa poc) hw
  have hgset : ∀ x ∈ cacheSet cfg acc pa poc,
      (ms.gives cfg tick op (cacheSet cfg acc pa poc) (blockBase cfg pa) (ms.transferredAt cfg tick op acc pa poc bound) bound
        (cacheSet cfg acc pa poc)).copyAt x (blockBase cfg pa) = ms.copyAt x (blockBase cfg pa) := fun x hx =>
    MemSys.copyAt_gives _ (.inl hx)
  simp only [MemSys.manageAt, MemSys.transferredAt] at hg hgw hgset ⊢
  rw [hb] at hg ⊢
  generalize hset : cacheSet cfg acc pa poc = set at *
  generalize hG : ms.gives cfg tick op set (blockBase cfg pa) (ms.transferred cfg tick op set (blockBase cfg pa) bound) bound set
    = G at *
  generalize hF : MemSys.manage cfg tick op set (pathOf cfg acc (blockBase cfg pa)).beyondPoc (blockBase cfg pa) bound ms
    = F at *
  unfold MemSys.visible at hmanage hmem
  cases hd : ms.transferred cfg tick op set (blockBase cfg pa) bound with
  | none =>
    simp only [hd] at hmanage hmem hG ⊢
    have hun : ∀ x ∈ set, ms.isModified x (blockBase cfg pa) = false := fun x hx => by
      rw [Bool.eq_false_iff]
      intro hm
      obtain ⟨d, h⟩ := MemSys.transferred_some (tick := tick) (fun h => absurd h hop) ⟨x, hx, hm⟩
      rw [hd] at h
      simp at h
    simp only [hG] at hmanage hmem
    refine Holds.mono (ms := G) (fun h => hmem ▸ h) (fun x c' hc' => ?_) (fun x c hcx hm => ?_) hg
    · rw [hb, hmanage] at hc'
      rw [hb]
      split at hc'
      · obtain ⟨c, h1, h2⟩ := Option.bind_eq_some_iff.mp hc'
        exact ⟨c, h1, fun h => by rw [settledCopy_data h2]; exact h⟩
      · exact ⟨c', hc', id⟩
    · rw [hb] at hcx ⊢
      rw [hmanage, if_neg]
      · exact ⟨c, hcx, hm⟩
      · intro hx
        have h := hun x hx
        rw [hgset x hx] at hcx
        rw [Bool.eq_false_iff] at h
        exact h (MemSys.isModified_iff.mpr ⟨c, hcx, hm⟩)
  | some d =>
    simp only [hd] at hmanage hmem hG ⊢
    simp only [hG] at hmanage hmem
    have hlen := MemSys.transferred_length hw hd
    generalize hT : MemSys.transfer cfg (blockBase cfg pa) d (pathOf cfg acc (blockBase cfg pa)).beyondPoc G = T at *
    have hcases := MemSys.copyAt_transfer_cases (cfg := cfg) (b := blockBase cfg pa) (data := d)
      (pathOf cfg acc (blockBase cfg pa)).beyondPoc G
    rw [hT] at hcases
    have hin : ∀ x ∈ set, ∀ c, F.copyAt x (blockBase cfg pa) = some c → c.data = d := fun x hx c hcx => by
      rw [hmanage, if_pos hx] at hcx
      obtain ⟨c₀, -, h2⟩ := Option.bind_eq_some_iff.mp hcx
      simpa using settledCopy_data h2
    have hout : ∀ x, x ∉ set → F.copyAt x (blockBase cfg pa) = G.copyAt x (blockBase cfg pa) ∨
        F.copyAt x (blockBase cfg pa) = (G.copyAt x (blockBase cfg pa)).map (transferredCopy cfg (blockBase cfg pa) d x) :=
      fun x hx => by
        rw [hmanage, if_neg hx]
        exact hcases x
    have hread : Memory.read F.mem a = Memory.read G.mem a ∨ Memory.read F.mem a = d.getD (a % blockSize cfg) 0#8 := by
      rw [hmem, ← hT]
      rcases MemSys.transfer_mem_cases (cfg := cfg) (b := blockBase cfg pa) (data := d)
        (pathOf cfg acc (blockBase cfg pa)).beyondPoc G with h | h <;> rw [h]
      · exact .inl rfl
      · exact .inr (by rw [← hb]; exact readBytes_getD_write (MemSys.wf_mem hgw) hlen)
    -- the claim for every end of the path
    suffices key : ∀ (before hops : List Hop), hopsOf cfg acc' (blockBase cfg pa) = before ++ hops →
        Holds cfg G a vs hops → Holds cfg F a (d.getD (a % blockSize cfg) 0#8 :: vs) hops from key [] _ rfl hg
    intro before hops
    induction hops generalizing before with
    | nil =>
      intro _ h
      rcases hread with h' | h'
      · exact List.mem_cons_of_mem _ (h' ▸ h)
      · exact h' ▸ List.mem_cons_self
    | cons k hs ih =>
      intro hs' hk
      refine ⟨fun x hx c hcx => ?_, ?_⟩
      · rw [hb] at hcx
        by_cases hxs : x ∈ set
        · exact hin x hxs c hcx ▸ List.mem_cons_self
        · rcases hout x hxs with h | h <;> rw [h] at hcx
          · exact List.mem_cons_of_mem _ (hk.1 x hx c (by rw [hb]; exact hcx))
          · obtain ⟨_, -, rfl⟩ := Option.map_eq_some_iff.mp hcx
            exact List.mem_cons_self
      · rcases hk.2 with ⟨x, hx, hxm⟩ | hr
        · rw [hb] at hx hxm
          by_cases hxs : x ∈ set
          · -- the path goes on as that of the operation does
            right
            have hmem' := hxs
            rw [← hset] at hmem'
            cases poc
            obtain ⟨j, hj, hxj⟩ := List.mem_flatMap.mp hmem'
            obtain ⟨b', a', hsplit⟩ := List.append_of_mem hj
            have hsplit' : hopsOf cfg acc (blockBase cfg pa) =
                b' ++ j :: (a' ++ (pathOf cfg acc (blockBase cfg pa)).beyondPoc) := by simp [hopsOf, hsplit]
            have e1 := outwardHops_eq hc hsplit' (hopCaches_subset hxj)
            rw [outwardHops_eq hc hs' (hopCaches_subset hx)] at e1
            rw [e1]
            have hnd := (hopsOf_wf hc acc (blockBase cfg pa)).1
            rw [hopsOf, List.flatMap_append] at hnd
            -- the domains beyond PoC-memory hold the bytes made visible there
            have hbeyond : Holds cfg F a [d.getD (a % blockSize cfg) 0#8] (pathOf cfg acc (blockBase cfg pa)).beyondPoc := by
              have h := Holds.transfer (cfg := cfg) (pa := a) (data := d) (pathOf cfg acc (blockBase cfg pa)).beyondPoc
                (ms := G) (MemSys.wf_mem hgw) hlen
              rw [hb, hT] at h
              refine h.congr_path (by rw [hmem]) fun y hy => ?_
              rw [hb] at hy ⊢
              rw [hmanage, if_neg]
              intro hys
              rw [← hset] at hys
              obtain ⟨j', hj', hyj⟩ := List.mem_flatMap.mp hys
              obtain ⟨k', hk', hyk⟩ := List.mem_flatMap.mp hy
              exact List.disjoint_of_nodup_append hnd (List.mem_flatMap.mpr ⟨j', hj', hopCaches_subset hyj⟩)
                (List.mem_flatMap.mpr ⟨k', hk', hopCaches_subset hyk⟩)
            have hsub : ∀ h ∈ a', ∀ y ∈ hopCaches (hardwareCoherent cfg (blockBase cfg pa)) h, y ∈ set := fun h hh y hy => by
              rw [← hset]
              exact List.mem_flatMap.mpr ⟨h, by rw [hsplit]; simp [hh], hy⟩
            clear hsplit hsplit' e1
            induction a' with
            | nil => exact hbeyond.subset fun v hv => List.mem_singleton.mp hv ▸ List.mem_cons_self
            | cons h hs ih =>
              refine ⟨fun y hy c hcy => ?_, .inr (ih fun h' hh => hsub h' (by simp [hh]))⟩
              rw [hb] at hy hcy
              exact hin y (hsub h (by simp) y hy) c hcy ▸ List.mem_cons_self
          · refine .inl ⟨x, by rw [hb]; exact hx, ?_⟩
            rw [hb]
            obtain ⟨c, h1, h2⟩ := MemSys.isModified_iff.mp hxm
            rcases hout x hxs with h | h
            · exact MemSys.isModified_iff.mpr ⟨c, by rw [h, h1], h2⟩
            · exact MemSys.isModified_iff.mpr ⟨_, by rw [h, h1]; rfl, MemSys.isModified_tracks hgw h1 h2⟩
        · exact .inr (ih (before ++ [k]) (by simp [hs']) hr)

/-- No clean or flush takes a latest store from the accesses that must return it (rules R99, R152 (a)). -/
theorem manageBlock_keeps {s : State} {op : CacheOp} {acc : Access} {pa : Nat} {poc : Poc} {e : LatestByte}
    (hc : s.cfg.wf = true) (hw : s.ms.wf s.cfg = true) (hl : s.latestWf = true) (hop : op ≠ .invalidate)
    (he : e ∈ s.latest) :
    e.bring (whereNeeded s.cfg (manageBlock s op acc pa poc).ms
      (blockBrings s.cfg (blockBase s.cfg pa) (s.ms.transferredAt s.cfg s.tick op acc pa poc s.latest)) e) ∈
        (manageBlock s op acc pa poc).latest := by
  refine List.mem_filter.mpr ⟨mem_bringAll.mpr ⟨e, he, rfl⟩, LatestByte.held_whereNeeded (LatestByte.held_iff.mpr ?_)⟩
  have hh := (State.latestWf_iff.mp hl e he).2.2
  simp only [LatestByte.bring_address, LatestByte.bring_access]
  by_cases hb : blockBase s.cfg e.address = blockBase s.cfg pa
  · have hg := LatestByte.held_iff.mp (MemSys.gives_held (tick := s.tick) (op := op) (set := cacheSet s.cfg acc pa poc)
      (b := blockBase s.cfg pa) (data := s.ms.transferredAt s.cfg s.tick op acc pa poc s.latest) (cacheSet s.cfg acc pa poc) he hh)
    refine (hg.manageAt hc hw hop hb).subset fun v hv => LatestByte.mem_bring.mpr ?_
    simp only [blockBrings, hb, if_true]
    cases ht : s.ms.transferredAt s.cfg s.tick op acc pa poc s.latest with
    | none => exact .inl (by simpa [ht] using hv)
    | some d =>
      simp only [ht, List.mem_cons] at hv
      exact hv.symm.imp id fun h => by rw [h]; rfl
  · refine Holds.subset (fun v hv => LatestByte.mem_bring.mpr (.inl hv)) ?_
    exact (LatestByte.held_iff.mp hh).manage_block hw (blockBase_mod s.cfg pa) hb

/-! ### What `FENCE.I` keeps (rule R103) -/

/-- A write-back along one path: another holds what it held, and the bytes written back. -/
theorem Holds.writeBack {cfg : Config} {ms : MemSys} {acc acc' : Access} {pa : Nat} {vs : List Byte} {d : List Byte}
    (hcfg : cfg.wf = true) (hw : ms.wf cfg = true)
    (hd : ms.firstModified (pathCaches cfg acc (blockBase cfg pa)) (blockBase cfg pa) = some d)
    (h : Holds cfg ms pa vs (hopsOf cfg acc' (blockBase cfg pa))) :
    Holds cfg (ms.writeBack (pathCaches cfg acc (blockBase cfg pa)) (blockBase cfg pa)) pa
      (d.getD (pa % blockSize cfg) 0#8 :: vs) (hopsOf cfg acc' (blockBase cfg pa)) := by
  have hm : Memory.read (ms.writeBack (pathCaches cfg acc (blockBase cfg pa)) (blockBase cfg pa)).mem pa =
      d.getD (pa % blockSize cfg) 0#8 := by
    rw [MemSys.writeBack_mem, hd]
    exact readBytes_getD_write (MemSys.wf_mem hw) (MemSys.firstModified_length hw hd)
  have hc : ∀ x ∈ pathCaches cfg acc (blockBase cfg pa), ∀ c,
      (ms.writeBack (pathCaches cfg acc (blockBase cfg pa)) (blockBase cfg pa)).copyAt x (blockBase cfg pa) = some c →
        c.data = d := fun x hx c hc => by
    rw [MemSys.copyAt_writeBack, hd] at hc
    simp only [hx, and_self, if_true] at hc
    obtain ⟨_, -, h2⟩ := Option.map_eq_some_iff.mp hc
    rw [← h2]
  have hout : ∀ x, x ∉ pathCaches cfg acc (blockBase cfg pa) →
      (ms.writeBack (pathCaches cfg acc (blockBase cfg pa)) (blockBase cfg pa)).copyAt x (blockBase cfg pa) =
        ms.copyAt x (blockBase cfg pa) := fun x hx => by
    rw [MemSys.copyAt_writeBack, hd]
    exact if_neg fun hh => hx hh.1
  generalize ms.writeBack (pathCaches cfg acc (blockBase cfg pa)) (blockBase cfg pa) = after at hm hc hout ⊢
  -- the claim for every end of the other path
  suffices key : ∀ (before hops : List Hop), hopsOf cfg acc' (blockBase cfg pa) = before ++ hops →
      Holds cfg ms pa vs hops → Holds cfg after pa (d.getD (pa % blockSize cfg) 0#8 :: vs) hops from key [] _ rfl h
  intro before hops
  induction hops generalizing before with
  | nil => exact fun _ _ => hm ▸ List.mem_cons_self
  | cons k hs ih =>
    intro hs' hk
    refine ⟨fun x hx c hcx => ?_, ?_⟩
    · by_cases hxp : x ∈ pathCaches cfg acc (blockBase cfg pa)
      · exact hc x hxp c hcx ▸ List.mem_cons_self
      · exact List.mem_cons_of_mem _ (hk.1 x hx c (hout x hxp ▸ hcx))
    · rcases hk.2 with ⟨x, hx, hxm⟩ | hr
      · by_cases hxp : x ∈ pathCaches cfg acc (blockBase cfg pa)
        · -- the two paths are the same from here on
          obtain ⟨j, hj, hxj⟩ := List.mem_flatMap.mp hxp
          obtain ⟨b', a', hsplit⟩ := List.append_of_mem hj
          have e1 := outwardHops_eq hcfg hsplit (hopCaches_subset hxj)
          rw [outwardHops_eq hcfg hs' (hopCaches_subset hx)] at e1
          refine .inr (Holds.of_all (hm ▸ List.mem_cons_self) fun y hy c hcy => hc y ?_ c hcy ▸ List.mem_cons_self)
          rw [pathCaches, hsplit, List.flatMap_append, List.flatMap_cons]
          exact List.mem_append_right _ (List.mem_append_right _ (e1 ▸ hy))
        · exact .inl ⟨x, hx, by rw [MemSys.isModified, hout x hxp]; exact hxm⟩
      · exact .inr (ih (before ++ [k]) (by simp [hs']) hr)

theorem MemSys.writeBack_of_none {ms : MemSys} {caches : List Nat} {b : Nat} (h : ms.firstModified caches b = none) :
    ms.writeBack caches b = ms := by
  simp [MemSys.writeBack, h]

/-- The byte of a copy shown to the fetches. -/
theorem syncedCopy_getD {cfg : Config} {pa : Nat} {v : Byte} {c c' : Copy} (hl : c.data.length = blockSize cfg)
    (h : syncedCopy cfg pa v c = some c') : c'.data.getD (pa % blockSize cfg) 0#8 = v := by
  have hd := syncedCopy_data h
  rw [hd]
  split
  · assumption
  · exact getD_set_same v (by rw [hl]; exact Nat.mod_lt _ (blockSize_pos cfg))

/-- Showing one byte to the fetches leaves every path what it holds there, and the byte shown; and what it holds at
another byte. -/
theorem Holds.syncCopies {cfg : Config} {ms : MemSys} {caches : List Nat} {pa pa' : Nat} {v : Byte} {vs : List Byte}
    {hops : List Hop} (hw : ms.wf cfg = true) (hv : pa' = pa → v ∈ vs) (h : Holds cfg ms pa vs hops) :
    Holds cfg (caches.foldl (MemSys.syncCopy cfg pa' v) ms) pa vs hops := by
  have hcopies := MemSys.copyAt_syncCopies (cfg := cfg) (pa := pa') (v := v) caches hw
  have hmem : (caches.foldl (MemSys.syncCopy cfg pa' v) ms).mem = ms.mem :=
    foldl_keeps (fun ms' : MemSys => ms'.mem = ms.mem) _ (fun _ c h => by simp [h]) caches ms rfl
  by_cases hb : blockBase cfg pa = blockBase cfg pa'
  · refine Holds.mono (ms := ms) (fun hm => by rw [hmem]; exact hm) (fun x c' hc' => ?_) (fun x c hc hm => ?_) h
    · rw [hcopies] at hc'
      split at hc'
      · obtain ⟨c, h1, h2⟩ := Option.bind_eq_some_iff.mp hc'
        refine ⟨c, h1, fun hv' => ?_⟩
        by_cases hp : pa' = pa
        · subst hp
          rw [syncedCopy_getD (MemSys.copyAt_length hw h1) h2]
          exact hv rfl
        · have hoff : pa' % blockSize cfg ≠ pa % blockSize cfg := by
            intro he
            have h1 := blockBase_add_offset cfg pa
            have h2 := blockBase_add_offset cfg pa'
            omega
          rw [syncedCopy_data h2]
          split
          · exact hv'
          · rw [getD_set_other _ _ hoff]; exact hv'
      · exact ⟨c', hc', id⟩
    · rw [hcopies]
      split
      · rw [hc, Option.bind_some, syncedCopy]
        split
        · exact ⟨c, rfl, hm⟩
        · exact ⟨{ c with data := c.data.set (pa' % blockSize cfg) v }, by simp [hm], hm⟩
      · exact ⟨c, hc, hm⟩
  · exact h.congr (by rw [hmem]) fun x => by rw [hcopies, if_neg fun hh => hb hh.2]

/-- A path all of whose copies were shown a byte holds what memory held, and that byte. -/
theorem Holds.syncCopies_path {cfg : Config} {ms : MemSys} {hops : List Hop} {pa : Nat} {v : Byte} {vs : List Byte}
    (hw : ms.wf cfg = true) (hm : Memory.read ms.mem pa ∈ vs) (hv : v ∈ vs) :
    Holds cfg ((hops.flatMap (hopCaches (hardwareCoherent cfg (blockBase cfg pa)))).foldl (MemSys.syncCopy cfg pa v) ms)
      pa vs hops := by
  have hmem : ((hops.flatMap (hopCaches (hardwareCoherent cfg (blockBase cfg pa)))).foldl (MemSys.syncCopy cfg pa v)
      ms).mem = ms.mem :=
    foldl_keeps (fun ms' : MemSys => ms'.mem = ms.mem) _ (fun _ c h => by simp [h]) _ ms rfl
  refine Holds.of_all (by rw [hmem]; exact hm) fun x hx c hcx => ?_
  rw [MemSys.copyAt_syncCopies _ hw, if_pos ⟨hx, rfl⟩] at hcx
  obtain ⟨c₀, h1, h2⟩ := Option.bind_eq_some_iff.mp hcx
  rw [syncedCopy_getD (MemSys.copyAt_length hw h1) h2]
  exact hv

theorem MemSys.syncCopies_mem (cfg : Config) (pa : Nat) (v : Byte) (l : List Nat) (ms : MemSys) :
    (l.foldl (MemSys.syncCopy cfg pa v) ms).mem = ms.mem :=
  foldl_keeps (fun ms' : MemSys => ms'.mem = ms.mem) _ (fun _ c h => by simp [h]) l ms rfl

/-- A whole block written to memory changes no byte of another. -/
theorem Memory.read_writeBlock_other {cfg : Config} {m : List Host.Cell} {b pa : Nat} {data : List Byte}
    (ha : b % blockSize cfg = 0) (hl : data.length = blockSize cfg) (hb : blockBase cfg pa ≠ b) :
    Memory.read (Memory.writeBytes m b data) pa = Memory.read m pa := by
  refine Memory.read_writeBytes_other _ _ (by_contra fun hcon => hb ?_)
  rw [hl] at hcon
  simp only [not_or, not_lt, not_le] at hcon
  have := blockBase_add cfg ha (i := pa - b) (by omega)
  rwa [show b + (pa - b) = pa by omega] at this

/-- Every block some cache holds is a block. -/
theorem MemSys.blocksHeld_aligned {cfg : Config} {ms : MemSys} (hw : ms.wf cfg = true) {b : Nat} (hb : b ∈ ms.blocksHeld) :
    b % blockSize cfg = 0 := by
  simp only [MemSys.blocksHeld, List.mem_eraseDups, List.mem_flatMap, List.mem_map] at hb
  obtain ⟨l, hl, c, hc, rfl⟩ := hb
  obtain ⟨i, hi⟩ := List.mem_iff_getElem?.mp hl
  simp only [MemSys.wf, Bool.and_eq_true] at hw
  obtain ⟨d, -, hwf⟩ := cachesWf_get hw.2 hi
  have key : ∀ (l : List Copy) (lo : Nat), Copies.wfFrom (blockSize cfg) d.tracksModified lo l = true → c ∈ l →
      c.block % blockSize cfg = 0 := by
    intro l
    induction l with
    | nil => intro lo _ h; simp at h
    | cons x xs ih =>
      intro lo h hm
      simp only [Copies.wfFrom, Bool.and_eq_true, beq_iff_eq] at h
      rcases List.mem_cons.mp hm with rfl | hm
      · exact h.1.1.1.2
      · exact ih _ h.2 hm
  exact key l 0 hwf hc

/-- After a write-back of a Modified copy on its path an access reads its bytes. -/
theorem MemSys.readByte_writeBack {cfg : Config} {ms : MemSys} {acc : Access} {pa : Nat} {d : List Byte}
    (hd : ms.firstModified (pathCaches cfg acc (blockBase cfg pa)) (blockBase cfg pa) = some d) :
    MemSys.readByte cfg (ms.writeBack (pathCaches cfg acc (blockBase cfg pa)) (blockBase cfg pa)) acc pa =
      d.getD (pa % blockSize cfg) 0#8 := by
  have hcopies := fun x => MemSys.copyAt_writeBack (ms := ms) (pathCaches cfg acc (blockBase cfg pa)) (blockBase cfg pa) x
    (blockBase cfg pa)
  simp only [hd] at hcopies
  unfold MemSys.readByte
  cases hf : (ms.writeBack (pathCaches cfg acc (blockBase cfg pa)) (blockBase cfg pa)).firstCopy
      (pathCaches cfg acc (blockBase cfg pa)) (blockBase cfg pa) with
  | some c =>
    obtain ⟨x, hx, hc⟩ := MemSys.firstCopy_mem hf
    rw [hcopies, if_pos ⟨hx, trivial⟩] at hc
    obtain ⟨_, -, rfl⟩ := Option.map_eq_some_iff.mp hc
    rfl
  | none =>
    obtain ⟨x, hx, c, hc, -, -⟩ := MemSys.firstModified_mem hd
    have := MemSys.firstCopy_none hf x hx
    rw [hcopies, if_pos ⟨hx, trivial⟩, hc] at this
    simp at this

/-- What a latest store of the loads that is shown brings the accesses to its own byte: the byte the loads then read. -/
theorem showBrings_self {s : State} {x e : LatestByte} (h : e.address = x.address) :
    showBrings s x e = some (MemSys.readByte s.cfg
      (s.ms.writeBack (pathCaches s.cfg (hartAccess .load x.memType) (blockBase s.cfg x.address)) (blockBase s.cfg x.address))
      (hartAccess .load x.memType) x.address) := by
  unfold showBrings
  simp only
  split
  · next d hd =>
    rw [MemSys.readByte_writeBack hd]
    simp [blockBrings, h, Memory.unwritten]
  · next hd =>
    rw [MemSys.writeBack_of_none hd]
    simp [bytesBring, h]

/-- A block written back along the path of an access takes no latest store from the accesses that must return it: what
it brings, they may return besides. -/
theorem LatestByte.held_writeBack {cfg : Config} {ms : MemSys} {acc : Access} {b : Nat} {e : LatestByte}
    (hc : cfg.wf = true) (hw : ms.wf cfg = true) (ha : b % blockSize cfg = 0) (h : e.held cfg ms = true) :
    (e.bring (blockBrings cfg b (ms.firstModified (pathCaches cfg acc b) b) e)).held cfg
      (ms.writeBack (pathCaches cfg acc b) b) = true := by
  rw [LatestByte.held_iff] at h ⊢
  simp only [LatestByte.bring_address, LatestByte.bring_access]
  cases hd : ms.firstModified (pathCaches cfg acc b) b with
  | none =>
    rw [MemSys.writeBack_of_none hd]
    exact h.subset fun v hv => LatestByte.mem_bring.mpr (.inl hv)
  | some d =>
    by_cases hb : blockBase cfg e.address = b
    · subst hb
      refine (h.writeBack hc hw hd).subset fun v hv => LatestByte.mem_bring.mpr ?_
      exact (List.mem_cons.mp hv).symm.imp id fun h => by simp [blockBrings, h, Memory.unwritten]
    · refine Holds.subset (fun v hv => LatestByte.mem_bring.mpr (.inl hv)) (h.congr ?_ fun y => ?_)
      · rw [MemSys.writeBack_mem, hd]
        exact Memory.read_writeBlock_other ha (MemSys.firstModified_length hw hd) hb
      · rw [MemSys.copyAt_writeBack, hd]
        exact if_neg fun hh => hb hh.2

/-- Showing a latest store to the fetches takes none from the accesses that must return it: what it brings, they may
return besides. -/
theorem LatestByte.held_showToFetches {s : State} {x e : LatestByte} (hc : s.cfg.wf = true) (hw : s.ms.wf s.cfg = true)
    (h : e.held s.cfg s.ms = true) :
    (e.bring (showBrings s x e)).held s.cfg (s.ms.showToFetches s.cfg x.memType x.address) = true := by
  have hback := LatestByte.held_writeBack (acc := hartAccess .load x.memType) hc hw
    (blockBase_mod s.cfg x.address) h
  rw [LatestByte.held_iff] at hback ⊢
  simp only [LatestByte.bring_address, LatestByte.bring_access] at hback ⊢
  refine Holds.syncCopies (MemSys.writeBack_wf _ _ hw) (fun hp => ?_) (hback.subset fun v hv => ?_)
  · exact LatestByte.mem_bring.mpr (.inr (showBrings_self hp.symm))
  · rw [LatestByte.mem_bring] at hv ⊢
    refine hv.imp id fun hv => ?_
    cases hd : s.ms.firstModified (pathCaches s.cfg (hartAccess .load x.memType) (blockBase s.cfg x.address))
        (blockBase s.cfg x.address) with
    | none => simp [hd, blockBrings] at hv
    | some d => simpa [showBrings, hd] using hv

/-- A latest store of the loads that is shown to the fetches stands for them too. -/
theorem LatestByte.held_showToFetches_fetch {s : State} {e : LatestByte} (hw : s.ms.wf s.cfg = true)
    (hk : e.kind = .load) (h : e.held s.cfg s.ms = true) :
    ({ e.bring (showBrings s e e) with kind := .fetch } : LatestByte).held s.cfg
      (s.ms.showToFetches s.cfg e.memType e.address) = true := by
  have hacc : e.access = hartAccess .load e.memType := by simp [LatestByte.access, hk]
  rw [LatestByte.held_iff] at h ⊢
  rw [hacc] at h
  show Holds s.cfg _ (e.bring (showBrings s e e)).address (e.bring (showBrings s e e)).values
    (hopsOf s.cfg (hartAccess .fetch (e.bring (showBrings s e e)).memType) _)
  simp only [LatestByte.bring_address, LatestByte.bring_memType]
  refine Holds.syncCopies_path (MemSys.writeBack_wf _ _ hw) ?_ (LatestByte.mem_bring.mpr (.inr (showBrings_self rfl)))
  rw [LatestByte.mem_bring]
  cases hd : s.ms.firstModified (pathCaches s.cfg (hartAccess .load e.memType) (blockBase s.cfg e.address))
      (blockBase s.cfg e.address) with
  | none =>
    rw [MemSys.writeBack_of_none hd]
    exact .inl (h.all (MemSys.firstModified_none.mp hd)).1
  | some d =>
    right
    rw [MemSys.writeBack_mem, hd]
    simp only [readBytes_getD_write (MemSys.wf_mem hw) (MemSys.firstModified_length hw hd)]
    simp [showBrings, hd, blockBrings, Memory.unwritten]

/-- Where the fetches hold the byte the loads read, a latest store of the loads stands for them too. -/
theorem LatestByte.held_of_fetchesHold {cfg : Config} {ms : MemSys} {e : LatestByte} (hk : e.kind = .load)
    (h : e.held cfg ms = true) (hf : ms.fetchesHold cfg e.memType e.address = true) :
    ({ e with kind := .fetch } : LatestByte).held cfg ms = true := by
  have hacc : e.access = hartAccess .load e.memType := by simp [LatestByte.access, hk]
  rw [LatestByte.held_iff] at h ⊢
  rw [hacc] at h
  exact (MemSys.heldAlong_iff.mp hf).subset fun v hv => List.mem_singleton.mp hv ▸ h.readByte

/-- The caches on the path of a load or a fetch are among those the hart's loads and fetches reach. -/
theorem pathCaches_subset_hartCaches {cfg : Config} {kind : AccessKind} {memType b x : Nat}
    (hk : kind = .load ∨ kind = .fetch) (hm : memType ∈ memTypesOf cfg)
    (hx : x ∈ pathCaches cfg (hartAccess kind memType) b) : x ∈ hartCaches cfg b := by
  simp only [hartCaches, List.mem_eraseDups, List.mem_flatMap]
  refine ⟨memType, hm, ?_⟩
  rcases hk with rfl | rfl <;> simp [hx]

/-- Where no cache of the hart holds a block, its loads and fetches read memory. -/
theorem MemSys.readByte_of_invalid {cfg : Config} {ms : MemSys} {kind : AccessKind} {memType pa : Nat}
    (hk : kind = .load ∨ kind = .fetch) (hm : memType ∈ memTypesOf cfg)
    (h : ∀ c ∈ hartCaches cfg (blockBase cfg pa), ms.copyAt c (blockBase cfg pa) = none) :
    MemSys.readByte cfg ms (hartAccess kind memType) pa = Memory.read ms.mem pa := by
  have hn : ms.firstCopy (pathCaches cfg (hartAccess kind memType) (blockBase cfg pa)) (blockBase cfg pa) = none :=
    List.findSome?_eq_none_iff.mpr fun c hc => h c (pathCaches_subset_hartCaches hk hm hc)
  simp only [MemSys.readByte, hn]

/-- Where the fetches of a block agree with the loads, they read each byte of it as the loads do. -/
theorem MemSys.readByte_of_fetchesAgree {cfg : Config} {ms : MemSys} {memType pa : Nat} (hm : memType ∈ memTypesOf cfg)
    (h : ms.fetchesAgree cfg (blockBase cfg pa) = true) :
    MemSys.readByte cfg ms (hartAccess .fetch memType) pa = MemSys.readByte cfg ms (hartAccess .load memType) pa := by
  simp only [MemSys.fetchesAgree, List.all_eq_true, beq_iff_eq, MemSys.view] at h
  have hread : ∀ kind, (ms.blockData cfg (pathCaches cfg (hartAccess kind memType) (blockBase cfg pa))
      (blockBase cfg pa)).getD (pa % blockSize cfg) Memory.unwritten = MemSys.readByte cfg ms (hartAccess kind memType) pa :=
    fun kind => MemSys.blockData_getD pa
  rw [← hread .fetch, ← hread .load, h memType hm]

/-- A block that leaves the caches of the hart takes no latest store from its loads and fetches: what it brings, they may
return besides. -/
theorem LatestByte.held_emptyBlock {cfg : Config} {ms : MemSys} {b : Nat} {e : LatestByte} (hw : ms.wf cfg = true)
    (ha : b % blockSize cfg = 0) (hk : e.kind = .load ∨ e.kind = .fetch) (hm : e.memType ∈ memTypesOf cfg)
    (h : e.held cfg ms = true) :
    (e.bring (blockBrings cfg b (ms.firstModified (hartCaches cfg b) b) e)).held cfg (ms.emptyBlock cfg b) = true := by
  rw [LatestByte.held_iff] at h ⊢
  simp only [LatestByte.bring_address, LatestByte.bring_access]
  have hcopies := MemSys.copyAt_emptyBlock (b := b) hw
  have hsub : ∀ x ∈ pathCaches cfg e.access (blockBase cfg e.address), x ∈ hartCaches cfg (blockBase cfg e.address) :=
    fun x hx => pathCaches_subset_hartCaches hk hm hx
  by_cases hb : blockBase cfg e.address = b
  · subst hb
    refine Holds.of_all ?_ fun x hx c hcx => ?_
    · rw [LatestByte.mem_bring]
      unfold MemSys.emptyBlock
      simp only
      cases hd : ms.firstModified (hartCaches cfg (blockBase cfg e.address)) (blockBase cfg e.address) with
      | none =>
        simp only [MemSys.dropCopies_mem]
        exact .inl (h.all fun x hx => MemSys.firstModified_none.mp hd x (hsub x hx)).1
      | some d =>
        right
        simp only [readBytes_getD_write (MemSys.wf_mem hw) (MemSys.firstModified_length hw hd)]
        simp [blockBrings, Memory.unwritten]
    · rw [hcopies, if_pos ⟨hsub x hx, rfl⟩] at hcx
      simp at hcx
  · refine Holds.subset (fun v hv => LatestByte.mem_bring.mpr (.inl hv)) (h.congr ?_ fun x => ?_)
    · unfold MemSys.emptyBlock
      simp only
      split
      · rw [MemSys.dropCopies_mem]
      · next d hd => exact Memory.read_writeBlock_other ha (MemSys.firstModified_length hw hd) hb
    · rw [hcopies, if_neg fun hh => hb hh.2]

/-- Showing a latest store to the fetches keeps every latest store. -/
theorem showToFetches_keeps {s : State} {x e : LatestByte} (hc : s.cfg.wf = true) (hw : s.ms.wf s.cfg = true)
    (hl : s.latestWf = true) (he : e ∈ s.latest) :
    e ∈ (showToFetches s x).latest ∨ e.bring (showBrings s x e) ∈ (showToFetches s x).latest := by
  unfold showToFetches
  split
  · exact .inl he
  · exact .inr (List.mem_filter.mpr ⟨mem_bringAll.mpr ⟨e, he, rfl⟩,
      LatestByte.held_showToFetches hc hw (State.latestWf_iff.mp hl e he).2.2⟩)

/-- A block written back along the path of the fetches keeps every latest store. -/
theorem cleanFetches_keeps {s : State} {x e : LatestByte} (hc : s.cfg.wf = true) (hw : s.ms.wf s.cfg = true)
    (hl : s.latestWf = true) (he : e ∈ s.latest) :
    e.bring (blockBrings s.cfg (blockBase s.cfg x.address) (modifiedFor s .fetch x) e) ∈ (cleanFetches s x).latest :=
  List.mem_filter.mpr ⟨mem_bringAll.mpr ⟨e, he, rfl⟩,
    LatestByte.held_writeBack hc hw (blockBase_mod _ _) (State.latestWf_iff.mp hl e he).2.2⟩

/-- A block that leaves the caches of the hart keeps every latest store. -/
theorem syncFetches_keeps {s : State} {b : Nat} {e : LatestByte} (hw : s.ms.wf s.cfg = true)
    (ha : b % blockSize s.cfg = 0) (hl : s.latestWf = true) (he : e ∈ s.latest) :
    e ∈ (syncFetches s b).latest ∨
      e.bring (blockBrings s.cfg b (s.ms.firstModified (hartCaches s.cfg b) b) e) ∈ (syncFetches s b).latest := by
  obtain ⟨hk, hm, hh⟩ := State.latestWf_iff.mp hl e he
  unfold syncFetches
  split
  · exact .inl he
  · exact .inr (List.mem_filter.mpr ⟨mem_bringAll.mpr ⟨e, he, rfl⟩, LatestByte.held_emptyBlock hw ha hk hm hh⟩)

end Sys2Proof.Machine
end

