-- ==== Sys2Proof/Laws/Newest.lean ====
section
/-!
SUPPORT. Which of several Modified copies a clean or a flush makes visible (rules R99, R152 (a)): one that is not older than
a store an access along the same path must return, so the operation brings that access nothing.
-/

namespace Sys2Proof.Machine

/-- A path that holds some bytes holds them up to its first domain with a Modified copy. -/
theorem Holds.upTo {cfg : Config} {ms : MemSys} {pa : Nat} {vs : List Byte} {before after : List Hop} {d : Hop}
    (h : Holds cfg ms pa vs (before ++ d :: after))
    (hb : ∀ k ∈ before, ∀ x ∈ hopCaches (hardwareCoherent cfg (blockBase cfg pa)) k,
      ms.isModified x (blockBase cfg pa) = false) :
    ∀ k ∈ before ++ [d], ∀ x ∈ hopCaches (hardwareCoherent cfg (blockBase cfg pa)) k, ∀ c,
      ms.copyAt x (blockBase cfg pa) = some c → c.data.getD (pa % blockSize cfg) 0#8 ∈ vs := by
  induction before with
  | nil => simpa using h.1
  | cons k ks ih =>
    have hnext : Holds cfg ms pa vs (ks ++ d :: after) := by
      rcases h.2 with ⟨x, hx, hm⟩ | h
      · rw [hb k (by simp) x hx] at hm; cases hm
      · exact h
    intro j hj
    rcases List.mem_cons.mp hj with rfl | hj
    · exact h.1
    · exact ih hnext (fun k hk => hb k (by simp [hk])) j hj

/-- The first domain of a path with a Modified copy, where there is one. -/
theorem MemSys.firstModifiedDomain_split {cfg : Config} {b x : Nat} {ms : MemSys} {hops : List Hop}
    (h : x ∈ hops.flatMap (hopCaches (hardwareCoherent cfg b))) (hm : ms.isModified x b = true) :
    ∃ before d after, hops = before ++ d :: after ∧
      ms.firstModifiedDomain cfg b hops = hopCaches (hardwareCoherent cfg b) d ∧
      (∀ k ∈ before, ∀ y ∈ hopCaches (hardwareCoherent cfg b) k, ms.isModified y b = false) ∧
      ∃ y ∈ hopCaches (hardwareCoherent cfg b) d, ms.isModified y b = true := by
  obtain ⟨k, hk, hx⟩ := List.mem_flatMap.mp h
  cases hf : hops.find? fun h => (hopCaches (hardwareCoherent cfg b) h).any (ms.isModified · b) with
  | none =>
    have := List.find?_eq_none.mp hf k hk
    simp only [List.any_eq_true, not_exists, not_and] at this
    exact absurd hm (this x hx)
  | some d =>
    obtain ⟨hd, before, after, hs, hbefore⟩ := List.find?_eq_some_iff_append.mp hf
    refine ⟨before, d, after, hs, by simp [MemSys.firstModifiedDomain, hf], fun k hk y hy => ?_, by simpa using hd⟩
    have := hbefore k hk
    simp only [Bool.not_eq_true', List.any_eq_false] at this
    simpa using this y hy

/-- A Modified copy on the path of an access which may not return what the copy holds lies after the first domain with a
Modified copy. -/
theorem LatestByte.beyond_first {cfg : Config} {ms : MemSys} {e : LatestByte} {b c : Nat} {copy : Copy}
    (h : e.held cfg ms = true) (hb : blockBase cfg e.address = b) (hc : c ∈ pathCaches cfg e.access b)
    (hm : ms.isModified c b = true) (hcopy : ms.copyAt c b = some copy)
    (hno : copy.data.getD (e.address % blockSize cfg) Memory.unwritten ∉ e.values) :
    ∃ before d after, hopsOf cfg e.access b = before ++ d :: after ∧
      ms.firstModifiedDomain cfg b (hopsOf cfg e.access b) = hopCaches (hardwareCoherent cfg b) d ∧
      (∃ y ∈ hopCaches (hardwareCoherent cfg b) d, ms.isModified y b = true) ∧
      c ∈ after.flatMap (hopCaches (hardwareCoherent cfg b)) := by
  subst hb
  obtain ⟨before, d, after, hs, hfirst, hbefore, hy⟩ := MemSys.firstModifiedDomain_split (cfg := cfg) hc hm
  refine ⟨before, d, after, hs, hfirst, hy, ?_⟩
  have hh := LatestByte.held_iff.mp h
  rw [hs] at hh
  obtain ⟨k, hk, hck⟩ := List.mem_flatMap.mp hc
  rw [hs] at hk
  by_cases hk' : k ∈ before ++ [d]
  · exact absurd (hh.upTo hbefore k hk' c hck copy hcopy) hno
  · exact List.mem_flatMap.mpr ⟨k, by simp_all, hck⟩

/-- A cache stands in one domain of a path. -/
theorem hopsOf_once {cfg : Config} (hw : cfg.wf = true) {acc : Access} {pa x : Nat} {front back : List Hop}
    (hs : hopsOf cfg acc pa = front ++ back) (hf : x ∈ front.flatMap (hopCaches (hardwareCoherent cfg pa)))
    (hb : x ∈ back.flatMap (hopCaches (hardwareCoherent cfg pa))) : False := by
  have hnd := (hopsOf_wf hw acc pa).1
  rw [hs, List.flatMap_append] at hnd
  have hsub : ∀ l : List Hop, x ∈ l.flatMap (hopCaches (hardwareCoherent cfg pa)) →
      x ∈ l.flatMap fun h => h.direct ++ h.indirect := fun l hl => by
    obtain ⟨h, hh, hx⟩ := List.mem_flatMap.mp hl
    refine List.mem_flatMap.mpr ⟨h, hh, ?_⟩
    unfold hopCaches at hx
    split at hx <;> simp_all
  exact List.disjoint_of_nodup_append hnd (hsub _ hf) (hsub _ hb)

theorem mem_hopMembers {coherent : Bool} {h : Hop} {x : Nat} (hx : x ∈ hopCaches coherent h) : x ∈ hopMembers h := by
  unfold hopCaches at hx
  cases coherent <;> simp_all [hopMembers]

/-- Two accesses that meet one cache meet it in domains of one name. -/
theorem hopsOf_domain_eq {cfg : Config} (hw : cfg.wf = true) {acc acc' : Access} {pa x : Nat} {h k : Hop}
    (hh : h ∈ hopsOf cfg acc pa) (hk : k ∈ hopsOf cfg acc' pa) (hx : x ∈ hopMembers h) (hy : x ∈ hopMembers k) :
    h.domain = k.domain := by
  obtain ⟨p, hp, hpr, pre, hps⟩ := hopsOf_suffix (List.ne_nil_of_mem hh)
  obtain ⟨q, hq, hqr, pre', hqs⟩ := hopsOf_suffix (List.ne_nil_of_mem hk)
  exact domain_eq hw hp hq hpr hqr (by rw [hps]; simp [hh]) (by rw [hqs]; simp [hk]) hx hy

/-- Accesses that enter together meet the same caches, domain by domain. -/
theorem entersTogether_split {cfg : Config} (hw : cfg.wf = true) {acc acc' : Access} {pa : Nat}
    (h : entersTogether cfg acc acc' pa) {before after : List Hop} {d : Hop}
    (hs : hopsOf cfg acc pa = before ++ d :: after) :
    ∃ before' d', hopsOf cfg acc' pa = before' ++ d' :: after ∧
      ∀ x, x ∈ hopCaches (hardwareCoherent cfg pa) d ↔ x ∈ hopCaches (hardwareCoherent cfg pa) d' := by
  unfold entersTogether at h
  split at h
  · next h0 h1 => rw [h0] at hs; simp at hs
  · next k ks k' ks' h0 h1 =>
    obtain ⟨ht, hm⟩ := hopsOf_converge hw (before := []) (before' := []) h0 h1 h.1
    rw [h0] at hs
    cases before with
    | nil =>
      obtain ⟨rfl, rfl⟩ := List.cons.inj hs
      refine ⟨[], k', by rw [h1, ht]; rfl, fun x => ?_⟩
      rcases h.2 with hc | hc
      · simpa [hopCaches, hopMembers, hc] using hm x
      · cases hco : hardwareCoherent cfg pa with
        | true => simpa [hopCaches, hopMembers] using hm x
        | false => simp [hopCaches, hc]
    | cons b bs =>
      obtain ⟨rfl, rfl⟩ := List.cons.inj hs
      exact ⟨k' :: bs, d, by rw [h1, ← ht]; rfl, fun _ => Iff.rfl⟩
  · exact h.elim
  · exact h.elim

theorem entersTogether_symm {cfg : Config} {acc acc' : Access} {pa : Nat} (h : entersTogether cfg acc acc' pa) :
    entersTogether cfg acc' acc pa := by
  unfold entersTogether at h ⊢
  split at h
  · next h0 h1 => simp [h0, h1]
  · next h0 h1 => simp only [h0, h1]; exact ⟨h.1.symm, h.2.imp id Eq.symm⟩
  · exact h.elim
  · exact h.elim

/-- The caches an access meets in any domain of its path up to PoC-memory are those of its cache set. -/
theorem mem_cacheSet {cfg : Config} {acc : Access} {pa x : Nat} {poc : Poc} :
    x ∈ cacheSet cfg acc pa poc ↔ x ∈ (pathOf cfg acc (blockBase cfg pa)).toPoc.flatMap
      (hopCaches (hardwareCoherent cfg (blockBase cfg pa))) := by
  cases poc; rfl

/-- Of the Modified copies of a cache set, the one the operation's own path meets first is not outdated. -/
theorem MemSys.exists_current {cfg : Config} (hw : cfg.wf = true) {acc : Access} {pa x : Nat} {poc : Poc}
    {bound : List LatestByte} {ms : MemSys} (hb : ∀ e ∈ bound, e.held cfg ms = true)
    (hx : x ∈ cacheSet cfg acc pa poc) (hm : ms.isModified x (blockBase cfg pa) = true) :
    ∃ c ∈ cacheSet cfg acc pa poc, ms.isModified c (blockBase cfg pa) = true ∧
      ms.outdated cfg (blockBase cfg pa) (cacheSet cfg acc pa poc) bound c = false := by
  obtain ⟨before, d, after, hs, -, hbefore, c, hc, hcm⟩ :=
    MemSys.firstModifiedDomain_split (cfg := cfg) (mem_cacheSet.mp hx) hm
  have hP : hopsOf cfg acc (blockBase cfg pa) =
      before ++ d :: (after ++ (pathOf cfg acc (blockBase cfg pa)).beyondPoc) := by simp [hopsOf, hs]
  refine ⟨c, mem_cacheSet.mpr (by rw [hs]; simp [hc]), hcm, ?_⟩
  rw [Bool.eq_false_iff]
  intro ho
  simp only [MemSys.outdated, List.any_eq_true, Bool.and_eq_true, beq_iff_eq, List.contains_iff_mem] at ho
  obtain ⟨e, he, ⟨⟨heb, hce⟩, hno⟩, y, hy, hys, hym⟩ := ho
  obtain ⟨copy, hcopy, -⟩ := MemSys.isModified_iff.mp hcm
  obtain ⟨qb, dq, qa, hQ, hfirst, -, hcq⟩ := LatestByte.beyond_first (hb e he) heb hce hcm hcopy
    (by simpa [hcopy] using hno)
  -- what that domain has of the set stands on the operation's path, not before the first Modified copy there
  obtain ⟨hy', hhy', hyy⟩ := List.mem_flatMap.mp (mem_cacheSet.mp hys)
  rw [hfirst] at hy
  have hin : hy' ∈ d :: after := by
    rw [hs] at hhy'
    rcases List.mem_append.mp hhy' with h | h
    · rw [hbefore hy' h y hyy] at hym; cases hym
    · exact h
  obtain ⟨f, g, hfg⟩ := List.append_of_mem hin
  have hP' : hopsOf cfg acc (blockBase cfg pa) =
      (before ++ f) ++ hy' :: (g ++ (pathOf cfg acc (blockBase cfg pa)).beyondPoc) := by
    rw [hopsOf, hs, hfg]; simp
  have hdom := hopsOf_domain_eq hw (h := hy') (k := dq) (by rw [hP']; simp) (by rw [hQ]; simp) (mem_hopMembers hyy)
    (mem_hopMembers hy)
  have hsame := (hopsOf_converge hw hP' hQ hdom).1
  rw [← hsame] at hcq
  cases f with
  | nil =>
    obtain ⟨rfl, rfl⟩ := List.cons.inj hfg
    exact hopsOf_once hw (front := before ++ [d]) (by rw [hP']; simp) (by simp [hc]) hcq
  | cons f fs =>
    obtain ⟨rfl, -⟩ := List.cons.inj hfg
    exact hopsOf_once hw (front := before ++ d :: fs ++ [hy']) (by rw [hP']; simp) (by simp [hc]) hcq

/-- What a clean or a flush makes visible at the PoC is what an access along the same path may return already. -/
theorem MemSys.transferredAt_current {cfg : Config} (hw : cfg.wf = true) {tick : Nat} {op : CacheOp} {acc : Access}
    {pa : Nat} {poc : Poc} {bound : List LatestByte} {ms : MemSys} {d : List Byte} {e : LatestByte}
    (hop : op ≠ .invalidate) (hb : ∀ e ∈ bound, e.held cfg ms = true)
    (ht : ms.transferredAt cfg tick op acc pa poc bound = some d) (he : e ∈ bound)
    (heb : blockBase cfg e.address = blockBase cfg pa) (hp : entersTogether cfg acc e.access (blockBase cfg pa)) :
    d.getD (e.address % blockSize cfg) Memory.unwritten ∈ e.values := by
  unfold MemSys.transferredAt MemSys.transferred at ht
  split at ht
  · simp at ht
  · next c hc =>
    have htr : ∀ x, x ∈ ms.transferring cfg tick op (cacheSet cfg acc pa poc) (blockBase cfg pa) ↔
        x ∈ cacheSet cfg acc pa poc ∧ ms.isModified x (blockBase cfg pa) = true := fun x => by
      cases op <;> simp_all [MemSys.transferring]
    have hc := pickCache_mem hc
    have hcs := (htr c).mp (MemSys.newest_subset hc)
    obtain ⟨w, hw1, hw2, hw3⟩ := MemSys.exists_current hw hb hcs.1 hcs.2
    have hcur : ms.outdated cfg (blockBase cfg pa) (cacheSet cfg acc pa poc) bound c = false := by
      have hmem : w ∈ (ms.transferring cfg tick op (cacheSet cfg acc pa poc) (blockBase cfg pa)).filter
          fun c => !ms.outdated cfg (blockBase cfg pa) (cacheSet cfg acc pa poc) bound c :=
        List.mem_filter.mpr ⟨(htr w).mpr ⟨hw1, hw2⟩, by simp [hw3]⟩
      simp only [MemSys.newest, List.isEmpty_iff, List.ne_nil_of_mem hmem, if_false] at hc
      simpa using (List.mem_filter.mp hc).2
    split at ht
    · simp at ht
    · next copy hcopy =>
      obtain rfl : copy.data = d := by simpa using ht
      by_contra hno
      -- the access meets the copy, after a Modified one of the set
      have hcP : c ∈ (hopsOf cfg acc (blockBase cfg pa)).flatMap (hopCaches (hardwareCoherent cfg (blockBase cfg pa))) := by
        rw [hopsOf, List.flatMap_append]
        exact List.mem_append_left _ (mem_cacheSet.mp hcs.1)
      have hcQ : c ∈ pathCaches cfg e.access (blockBase cfg pa) := by
        obtain ⟨k, hk, hck⟩ := List.mem_flatMap.mp hcP
        obtain ⟨f, g, hfg⟩ := List.append_of_mem hk
        obtain ⟨f', k', h1, h2⟩ := entersTogether_split hw hp hfg
        exact List.mem_flatMap.mpr ⟨k', by rw [h1]; simp, (h2 c).mp hck⟩
      obtain ⟨qb, dq, qa, hQ, hfirst, ⟨y, hy, hym⟩, hcq⟩ :=
        LatestByte.beyond_first (hb e he) heb hcQ hcs.2 hcopy hno
      obtain ⟨pb, dp, hP, hsame⟩ := entersTogether_split hw (entersTogether_symm hp) hQ
      have hyset : y ∈ cacheSet cfg acc pa poc := by
        have hy := (hsame y).mp hy
        refine mem_cacheSet.mpr ?_
        rw [hopsOf] at hP
        rcases List.append_eq_append_iff.mp hP with ⟨z, hz, -⟩ | ⟨z, hz, hz'⟩
        · refine (hopsOf_once hw (front := pb ++ [dp]) (x := c) (by rw [hopsOf, hP]; simp) ?_ hcq).elim
          rw [hz]
          have := mem_cacheSet.mp hcs.1
          simp only [List.flatMap_append, List.mem_append]
          exact .inl (.inl this)
        · cases z with
          | nil =>
            refine (hopsOf_once hw (front := pb ++ [dp]) (x := c) (by rw [hopsOf, hP]; simp) ?_ hcq).elim
            have := mem_cacheSet.mp hcs.1
            rw [hz, List.append_nil] at this
            simp only [List.flatMap_append, List.mem_append]
            exact .inl this
          | cons z zs =>
            obtain ⟨rfl, -⟩ := List.cons.inj hz'
            rw [hz]
            exact List.mem_flatMap.mpr ⟨dp, by simp, hy⟩
      rw [Bool.eq_false_iff] at hcur
      refine hcur ?_
      simp only [MemSys.outdated, List.any_eq_true, Bool.and_eq_true, beq_iff_eq, List.contains_iff_mem]
      exact ⟨e, he, ⟨⟨heb, hcQ⟩, by simpa [hcopy] using hno⟩, y, by rw [hfirst]; exact hy, hyset, hym⟩

/-- A clean or a flush leaves an access of another block, and one along the same path, what it may return. -/
theorem manageBlock_brings_nothing {s : State} {op : CacheOp} {acc : Access} {pa : Nat} {poc : Poc} {e : LatestByte}
    (hc : s.cfg.wf = true) (hw : s.ms.wf s.cfg = true) (hl : s.latestWf = true) (hop : op ≠ .invalidate)
    (h : blockBase s.cfg e.address ≠ blockBase s.cfg pa ∨ entersTogether s.cfg acc e.access (blockBase s.cfg pa))
    (he : e ∈ s.latest) : e ∈ (manageBlock s op acc pa poc).latest := by
  have hk := manageBlock_keeps (acc := acc) (pa := pa) (poc := poc) hc hw hl hop he
  suffices h' : ∀ v, blockBrings s.cfg (blockBase s.cfg pa)
      (s.ms.transferredAt s.cfg s.tick op acc pa poc s.latest) e = some v → v ∈ e.values by
    have hb : e.bring (whereNeeded s.cfg (manageBlock s op acc pa poc).ms
        (blockBrings s.cfg (blockBase s.cfg pa) (s.ms.transferredAt s.cfg s.tick op acc pa poc s.latest)) e) = e := by
      unfold whereNeeded
      split
      · rfl
      · cases hv : blockBrings s.cfg (blockBase s.cfg pa)
            (s.ms.transferredAt s.cfg s.tick op acc pa poc s.latest) e with
        | none => rfl
        | some v => simp [LatestByte.bring, h' v hv]
    rwa [hb] at hk
  intro v hv
  unfold blockBrings at hv
  split at hv
  · next hb =>
    obtain ⟨d, hd, rfl⟩ := Option.map_eq_some_iff.mp hv
    exact MemSys.transferredAt_current hc hop (fun e he => (State.latestWf_iff.mp hl e he).2.2) hd he hb
      (h.resolve_left fun hne => hne hb)
  · simp at hv

end Sys2Proof.Machine
end

