-- ==== Sys2Proof/Laws/OffPath.lean ====
section
/-!
SUPPORT. No allocation, deallocation, management operation or hint makes a block Modified off the path of the hart's
loads that was not so before (rules R65, R66, R99, R100; log entry 45): what such a copy holds another domain wrote.
-/

namespace Sys2Proof.Machine

/-- Between two caches that a Modified block may be transferred between, the second is off a path of the hart's loads only
where the first is. -/
theorem MemSys.takesOut_false {cfg : Config} {ms : MemSys} {b c d memType : Nat}
    (h : ms.takesOut cfg b (some c) (some d) = false) (hm : memType ∈ memTypesOf cfg) (hc : ms.isModified c b = true)
    (ht : tracks cfg d = true) (hd : d ∉ pathCaches cfg (hartAccess .load memType) b) :
    c ∉ pathCaches cfg (hartAccess .load memType) b := by
  intro hcp
  simp only [MemSys.takesOut, hc, ht, Bool.true_and, leavesLoads, List.any_eq_false] at h
  have := h memType hm
  simp [hcp, hd] at this

/-- What is Modified off the path was so before if every copy that is Modified off it says so. -/
theorem MemSys.ModifiedOffLoads.of_copies {cfg : Config} {ms ms' : MemSys} {memType b : Nat}
    (hk : ∀ x, ms'.isModified x b = true → x ∉ pathCaches cfg (hartAccess .load memType) b →
      ms.ModifiedOffLoads cfg memType b)
    (h : ms'.ModifiedOffLoads cfg memType b) : ms.ModifiedOffLoads cfg memType b := by
  obtain ⟨x, hx, hm⟩ := h
  exact hk x hm hx

theorem MemSys.ModifiedOffLoads.allocate {cfg : Config} {ms : MemSys} {cache b b' memType : Nat} {source : Option Nat}
    {asModified : Bool} (hw : ms.wf cfg = true) (hm : memType ∈ memTypesOf cfg)
    (ht : ms.takesOut cfg b source (if asModified then some cache else none) = false)
    (h : (MemSys.allocate cfg cache b source asModified ms).ModifiedOffLoads cfg memType b') :
    ms.ModifiedOffLoads cfg memType b' := by
  refine h.of_copies fun x hx hp => ?_
  by_cases hsame : x = cache ∧ b' = b
  · obtain ⟨rfl, rfl⟩ := hsame
    rcases MemSys.copyAt_allocate_same (cache := x) (b := b') (source := source) (m := asModified) hw with ⟨-, hc⟩ | hc
    · obtain ⟨c, h1, h2⟩ := MemSys.isModified_iff.mp hx
      rw [hc] at h1
      injection h1 with h1
      subst h1
      unfold MemSys.allocated at h2
      split at h2
      · simp at h2
      · next c hs =>
        simp only [Bool.and_eq_true] at h2
        obtain ⟨y, rfl, hy⟩ := Option.bind_eq_some_iff.mp hs
        have hym : ms.isModified y b' = true := MemSys.isModified_iff.mpr ⟨c, hy, h2.2⟩
        rw [h2.1.1, if_pos rfl] at ht
        exact ⟨y, MemSys.takesOut_false ht hm hym h2.1.2 hp, hym⟩
    · exact ⟨x, hp, hc ▸ hx⟩
  · refine ⟨x, hp, ?_⟩
    rwa [MemSys.isModified, MemSys.copyAt_allocate_other (by omega)] at hx

/-- A transfer toward memory makes a block Modified in caches it reaches alone. -/
theorem MemSys.isModified_transfer {cfg : Config} {b b' : Nat} {data : List Byte} {hops : List Hop} {ms : MemSys} {x : Nat}
    (h : (MemSys.transfer cfg b data hops ms).isModified x b' = true) :
    ms.isModified x b' = true ∨ b' = b ∧ ∃ k ∈ hops, x ∈ hopCaches (hardwareCoherent cfg b) k := by
  by_cases hb : b' = b
  · subst hb
    by_cases hin : ∃ k ∈ hops, x ∈ hopCaches (hardwareCoherent cfg b') k
    · exact .inr ⟨rfl, hin⟩
    · left
      rwa [MemSys.isModified, MemSys.copyAt_transfer_outside _ fun k hk hx => hin ⟨k, hk, hx⟩] at h
  · left
    rwa [MemSys.isModified, MemSys.copyAt_transfer_block _ hb] at h

theorem MemSys.isModified_dropCopy {cfg : Config} {ms : MemSys} {cache b x b' : Nat} (hw : ms.wf cfg = true)
    (h : (ms.dropCopy cache b).isModified x b' = true) : ms.isModified x b' = true := by
  by_cases hs : x = cache ∧ b' = b
  · obtain ⟨rfl, rfl⟩ := hs
    rw [MemSys.isModified, MemSys.copyAt_dropCopy_same hw] at h
    simp at h
  · rwa [MemSys.isModified, MemSys.copyAt_dropCopy_other _ (by omega)] at h

theorem MemSys.ModifiedOffLoads.deallocate {cfg : Config} {ms : MemSys} {cache b b' memType : Nat}
    {destination : Destination} (hc : cfg.wf = true) (hw : ms.wf cfg = true) (hm : memType ∈ memTypesOf cfg)
    (ht : ms.takesOut cfg b (some cache) destination.cache? = false)
    (h : (MemSys.deallocate cfg cache b destination ms).ModifiedOffLoads cfg memType b') :
    ms.ModifiedOffLoads cfg memType b' := by
  refine h.of_copies fun x hx hp => ?_
  unfold MemSys.deallocate at hx
  split at hx
  · exact ⟨x, hp, hx⟩
  · next c hcopy =>
    split at hx
    · next hmay =>
      cases destination with
      | dropped => exact ⟨x, hp, MemSys.isModified_dropCopy hw hx⟩
      | memory => exact ⟨x, hp, MemSys.isModified_dropCopy hw (ms := ms) (cache := cache) (b := b) hx⟩
      | outward =>
        rcases MemSys.isModified_transfer hx with hx | ⟨rfl, k, hk, hxk⟩
        · exact ⟨x, hp, MemSys.isModified_dropCopy hw hx⟩
        · have hmod : c.modified = true := by simpa [MemSys.mayDeallocate, hcopy] using hmay
          refine ⟨cache, fun hcp => hp ?_, MemSys.isModified_iff.mpr ⟨c, hcopy, hmod⟩⟩
          obtain ⟨j, hj, hcj⟩ := List.mem_flatMap.mp hcp
          obtain ⟨before, after, hs⟩ := List.append_of_mem hj
          rw [outwardHops_eq hc hs (hopCaches_subset hcj)] at hk
          exact List.mem_flatMap.mpr ⟨k, by rw [hs]; simp [hk], hxk⟩
      | cache d =>
        have hx : ((ms.dropCopy cache b).putCopy d { c with modified := c.modified && tracks cfg d }).isModified x b' =
            true := by
          simp only at hx
          split at hx <;> exact hx
        have hblock : c.block = b := (MemSys.copyAt_block hcopy).1
        by_cases hs : x = d ∧ b' = b
        · obtain ⟨rfl, rfl⟩ := hs
          have hlt : x < (ms.dropCopy cache b').caches.length := by
            have hmay' : x < cfg.caches.length := by
              simp only [MemSys.mayDeallocate, hcopy, Bool.and_eq_true, decide_eq_true_eq] at hmay
              exact hmay.1.1.2
            have := MemSys.dropCopy_wf (cache := cache) (b := b') hw
            simp only [MemSys.wf, Bool.and_eq_true] at this
            rwa [cachesWf_length this.2]
          have hsame := MemSys.copyAt_putCopy_same (ms.dropCopy cache b')
            { c with modified := c.modified && tracks cfg x } hlt
          simp only [hblock] at hsame hx
          rw [MemSys.isModified, hsame] at hx
          simp only [Bool.and_eq_true] at hx
          have hcm : ms.isModified cache b' = true := MemSys.isModified_iff.mpr ⟨c, hcopy, hx.1⟩
          exact ⟨cache, MemSys.takesOut_false ht hm hcm hx.2 hp, hcm⟩
        · refine ⟨x, hp, MemSys.isModified_dropCopy hw (cache := cache) (b := b) ?_⟩
          rwa [MemSys.isModified, MemSys.copyAt_putCopy_other _ _ (by simp only [hblock]; omega)] at hx
    · exact ⟨x, hp, hx⟩

/-- A data write makes a block Modified in caches it reaches alone. -/
theorem MemSys.isModified_writeAlong {cfg : Config} {tick pa : Nat} {v : Byte} {hops : List Hop} {ms : MemSys} {x b : Nat}
    (hw : ms.wf cfg = true) (h : (MemSys.writeAlong cfg tick pa v hops ms).isModified x b = true) :
    ms.isModified x b = true ∨
      b = blockBase cfg pa ∧ ∃ k ∈ hops, x ∈ hopCaches (hardwareCoherent cfg (blockBase cfg pa)) k := by
  by_cases hb : b = blockBase cfg pa
  · subst hb
    induction hops generalizing ms with
    | nil => exact .inl h
    | cons k hs ih =>
      by_cases hx : x ∈ hopCaches (hardwareCoherent cfg (blockBase cfg pa)) k
      · exact .inr ⟨rfl, k, by simp, hx⟩
      · have hsame := MemSys.copyAt_writeCopies (tick := tick) (pa := pa) (v := v)
          (hopCaches (hardwareCoherent cfg (blockBase cfg pa)) k) hw x
        rw [if_neg hx] at hsame
        simp only [MemSys.writeAlong] at h
        split at h
        · left
          rwa [MemSys.isModified, hsame] at h
        · rcases ih (MemSys.writeCopies_wf _ hw) h with h | ⟨-, j, hj, hxj⟩
          · left
            rwa [MemSys.isModified, hsame] at h
          · exact .inr ⟨rfl, j, by simp [hj], hxj⟩
  · left
    rwa [MemSys.isModified, MemSys.copyAt_writeAlong_block _ hb] at h

/-- A store or a `CBO.ZERO` of the hart through a page of the same memory type, whose path is that of its loads. -/
theorem MemSys.ModifiedOffLoads.writeBytes {cfg : Config} {tick memType b : Nat} {kind : AccessKind} (bs : List Byte)
    (hc : cfg.wf = true) (hk : kind = .store ∨ kind = .zero) {pa : Nat} {ms : MemSys} (hw : ms.wf cfg = true)
    (h : (MemSys.writeBytes cfg tick (hartAccess kind memType) pa bs ms).ModifiedOffLoads cfg memType b) :
    ms.ModifiedOffLoads cfg memType b := by
  induction bs generalizing pa ms with
  | nil => exact h
  | cons v vs ih =>
    refine (ih (MemSys.writeByte_wf hw) h).of_copies fun x hx hp => ?_
    rcases MemSys.isModified_writeAlong hw hx with hx | ⟨rfl, k, hkm, hxk⟩
    · exact ⟨x, hp, hx⟩
    · refine absurd (List.mem_flatMap.mpr ⟨k, ?_, hxk⟩) hp
      rwa [hopsOf_kinds hc (acc := hartAccess kind memType) (acc' := hartAccess .load memType) (blockBase cfg pa) rfl rfl
        (by rcases hk with rfl | rfl <;> simp [hartAccess]) (by simp [hartAccess])]

theorem MemSys.isModified_writeBack {ms : MemSys} {caches : List Nat} {b x b' : Nat}
    (h : (ms.writeBack caches b).isModified x b' = true) : ms.isModified x b' = true := by
  obtain ⟨c, h1, h2⟩ := MemSys.isModified_iff.mp h
  rw [MemSys.copyAt_writeBack] at h1
  split at h1
  · exact MemSys.isModified_iff.mpr ⟨c, h1, h2⟩
  · split at h1
    · obtain ⟨_, -, rfl⟩ := Option.map_eq_some_iff.mp h1
      simp at h2
    · exact MemSys.isModified_iff.mpr ⟨c, h1, h2⟩

theorem MemSys.isModified_showToFetches {cfg : Config} {ms : MemSys} {memType pa x b : Nat} (hw : ms.wf cfg = true)
    (h : (MemSys.showToFetches cfg memType pa ms).isModified x b = true) : ms.isModified x b = true := by
  obtain ⟨c, h1, h2⟩ := MemSys.isModified_iff.mp h
  unfold MemSys.showToFetches at h1
  rw [MemSys.copyAt_syncCopies _ (MemSys.writeBack_wf _ _ hw)] at h1
  split at h1
  · obtain ⟨c₀, h3, h4⟩ := Option.bind_eq_some_iff.mp h1
    refine MemSys.isModified_writeBack (MemSys.isModified_iff.mpr ⟨c₀, h3, ?_⟩)
    unfold syncedCopy at h4
    split at h4
    · injection h4 with h4
      rw [h4, h2]
    · split at h4
      · assumption
      · simp at h4
  · exact MemSys.isModified_writeBack (MemSys.isModified_iff.mpr ⟨c, h1, h2⟩)

theorem MemSys.isModified_emptyBlock {cfg : Config} {ms : MemSys} {b x b' : Nat} (hw : ms.wf cfg = true)
    (h : (ms.emptyBlock cfg b).isModified x b' = true) : ms.isModified x b' = true := by
  obtain ⟨c, h1, h2⟩ := MemSys.isModified_iff.mp h
  rw [MemSys.copyAt_emptyBlock hw] at h1
  split at h1
  · simp at h1
  · exact MemSys.isModified_iff.mpr ⟨c, h1, h2⟩

/-- `FENCE.I` makes no block Modified anywhere. -/
theorem fenceInstructions_isModified {s : State} {x b : Nat} (hc : s.cfg.wf = true) (hs : s.ms.Sound s.cfg)
    (h : (fenceInstructions s).ms.isModified x b = true) : s.ms.isModified x b = true :=
  (fenceInstructions_keeps (fun t => t.cfg = s.cfg ∧ t.ms.Sound s.cfg ∧
      (t.ms.isModified x b = true → s.ms.isModified x b = true))
    (fun t e ht => by
      refine ⟨(showToFetches_cfg t e).trans ht.1, ?_, fun h => ht.2.2 ?_⟩ <;> unfold showToFetches at * <;> rw [ht.1] at *
      · split
        · exact ht.2.1
        · exact ht.2.1.showToFetches hc
      · split at h
        · exact h
        · exact MemSys.isModified_showToFetches ht.2.1.wf h)
    (fun t e ht => ⟨(cleanFetches_cfg t e).trans ht.1, ht.1 ▸ (ht.1 ▸ ht.2.1 : t.ms.Sound t.cfg).writeBack (ht.1 ▸ hc),
      fun h => ht.2.2 (MemSys.isModified_writeBack h)⟩)
    (fun t b' ht => by
      refine ⟨(syncFetches_cfg t b').trans ht.1, ?_, fun h => ht.2.2 ?_⟩ <;> unfold syncFetches at * <;> rw [ht.1] at *
      · split
        · exact ht.2.1
        · exact ht.2.1.emptyBlock b'
      · split at h
        · exact h
        · exact MemSys.isModified_emptyBlock ht.2.1.wf h)
    (fun _ _ ht => ht) (s := s) ⟨rfl, hs, id⟩).2.2 h

theorem MemSys.ModifiedOffLoads.gives {cfg : Config} {tick : Nat} {op : CacheOp} {set : List Nat} {b b' memType : Nat}
    {data : Option (List Byte)} {bound : List LatestByte} (l : List Nat) {ms : MemSys} (hw : ms.wf cfg = true)
    (hm : memType ∈ memTypesOf cfg)
    (h : (ms.gives cfg tick op set b data bound l).ModifiedOffLoads cfg memType b') :
    ms.ModifiedOffLoads cfg memType b' := by
  have key := foldl_keeps (fun ms' : MemSys => ms'.wf cfg = true ∧
      (ms'.ModifiedOffLoads cfg memType b' → ms.ModifiedOffLoads cfg memType b'))
    (MemSys.give cfg tick op set b data bound) (fun ms' c hh => by
      refine ⟨MemSys.give_wf c hh.1, fun h => hh.2 ?_⟩
      rcases MemSys.give_cases cfg tick op set b data bound ms' c with ⟨t, _, -, -, -, -, ht, -, -, h'⟩ | h'
      · rw [h'] at h
        exact h.allocate hh.1 hm ht
      · rwa [h'] at h) l ms ⟨hw, id⟩
  exact key.2 h

theorem settledCopy_modified {cfg : Config} {tick : Nat} {op : CacheOp} {data : Option (List Byte)} {cache : Nat}
    {c c' : Copy} (h : settledCopy cfg tick op data cache c = some c') : c'.modified = false := by
  cases op <;> simp only [settledCopy] at h
  · simp at h
  · split at h
    · simp at h
    · injection h with h
      rw [← h]
  · simp at h

/-- An invalidate, a clean or a flush of any agent. -/
theorem MemSys.ModifiedOffLoads.manageAt {cfg : Config} {tick : Nat} {op : CacheOp} {acc : Access} {pa b memType : Nat}
    {poc : Poc} {bound : List LatestByte} {ms : MemSys} (hc : cfg.wf = true) (hw : ms.wf cfg = true)
    (hm : memType ∈ memTypesOf cfg)
    (h : (MemSys.manageAt cfg tick op acc pa poc bound ms).ModifiedOffLoads cfg memType b) :
    ms.ModifiedOffLoads cfg memType b := by
  refine h.of_copies fun x hx hp => ?_
  by_cases hb : b = blockBase cfg pa
  · subst hb
    obtain ⟨c', hx, hxm⟩ := MemSys.isModified_iff.mp hx
    rw [MemSys.manageAt, MemSys.copyAt_manage hw] at hx
    split at hx
    · obtain ⟨_, -, h2⟩ := Option.bind_eq_some_iff.mp hx
      rw [settledCopy_modified h2] at hxm
      simp at hxm
    · have hx : (ms.visible cfg tick op (cacheSet cfg acc pa poc) (pathOf cfg acc (blockBase cfg pa)).beyondPoc
          (blockBase cfg pa) bound).isModified x (blockBase cfg pa) = true := MemSys.isModified_iff.mpr ⟨c', hx, hxm⟩
      unfold MemSys.visible at hx
      split at hx
      · exact MemSys.ModifiedOffLoads.gives _ hw hm ⟨x, hp, hx⟩
      · next d hd =>
        rcases MemSys.isModified_transfer hx with hx | ⟨-, k, hk, hxk⟩
        · exact MemSys.ModifiedOffLoads.gives _ hw hm ⟨x, hp, hx⟩
        · obtain ⟨c, hcs, copy, h1, h2, -⟩ := MemSys.transferred_mem hd
          refine ⟨c, fun hcp => hp ?_, MemSys.isModified_iff.mpr ⟨copy, h1, h2⟩⟩
          -- the paths of the operation and of the loads are the same from that cache on
          cases poc
          obtain ⟨j, hj, hcj⟩ := List.mem_flatMap.mp hcs
          obtain ⟨b₁, a₁, hs₁⟩ := List.append_of_mem hj
          obtain ⟨i, hi, hci⟩ := List.mem_flatMap.mp hcp
          obtain ⟨b₂, a₂, hs₂⟩ := List.append_of_mem hi
          have hs₁' : hopsOf cfg acc (blockBase cfg pa) =
              b₁ ++ j :: (a₁ ++ (pathOf cfg acc (blockBase cfg pa)).beyondPoc) := by simp [hopsOf, hs₁]
          have he := outwardHops_eq hc hs₁' (hopCaches_subset hcj)
          rw [outwardHops_eq hc hs₂ (hopCaches_subset hci)] at he
          exact List.mem_flatMap.mpr ⟨k, by rw [hs₂, he]; simp [hk], hxk⟩
  · refine ⟨x, hp, ?_⟩
    rwa [MemSys.isModified, MemSys.manageAt, MemSys.copyAt_manage_block hb] at hx

/-- What a hint does. -/
theorem hintMove_modifiedOffLoads {s : State} {kind : HintKind} {cache memType pa memType' b : Nat} (hc : s.cfg.wf = true)
    (hw : s.ms.wf s.cfg = true) (hm : memType' ∈ memTypesOf s.cfg)
    (ha : hintAllowed s kind cache pa (hintMove s kind cache memType pa) = true)
    (h : (hintMove s kind cache memType pa).ModifiedOffLoads s.cfg memType' b) :
    s.ms.ModifiedOffLoads s.cfg memType' b := by
  simp only [hintAllowed, Bool.and_eq_true, Bool.not_eq_true'] at ha
  have key : ∀ acc, (MemSys.allocateOnPath s.cfg acc cache (blockBase s.cfg pa) s.ms).ModifiedOffLoads s.cfg memType' b →
      s.ms.ModifiedOffLoads s.cfg memType' b := fun acc h => by
    rcases MemSys.allocateOnPath_cases s.cfg acc cache (blockBase s.cfg pa) s.ms with ⟨-, h'⟩ | h' <;> rw [h'] at h
    · refine h.allocate hw hm ?_
      simp only [Bool.false_eq_true, if_false]
      unfold MemSys.takesOut
      split <;> rename_i h1 <;> simp_all
    · exact h
  cases kind with
  | demote => exact MemSys.ModifiedOffLoads.deallocate hc hw hm ha.1.2 h
  | prefetchR => exact key _ h
  | prefetchW => exact key _ h
  | prefetchI => exact key _ h

end Sys2Proof.Machine
end

