-- ==== Sys2Proof/Laws/PerInstr.lean ====
section
/-!
SUPPORT. Statements made of every instruction, one lemma per constructor. `TableMatch`: an instruction's word matches the
row that spec/opcode_table.json gives its mnemonic (rule R124), and an instruction without a word is not well formed.
-/

namespace Sys2Proof.Laws.TableMatch

/-- `mask` and `match` of the instruction's row of spec/opcode_table.json; none for `CBO.SIZE`. -/
def row : Instr → Option (InstrWord × InstrWord)
  | .cboInval _ _ => some (0xFFF07FFF#32, 0x0000000B#32)
  | .cboClean _ _ => some (0xFFF07FFF#32, 0x0010000B#32)
  | .cboFlush _ _ => some (0xFFF07FFF#32, 0x0020000B#32)
  | .cboZero _ _ => some (0xF9F07FFF#32, 0x0040000B#32)
  | .prefetchR _ _ => some (0xF9F07FFF#32, 0x0080000B#32)
  | .prefetchW _ _ => some (0xF9F07FFF#32, 0x0090000B#32)
  | .prefetchI _ _ => some (0xF9F07FFF#32, 0x00A0000B#32)
  | .demote _ _ => some (0xF9F07FFF#32, 0x00B0000B#32)
  | .cboSize => none

/-- The instruction's word and its row agree: a word that matches under the mask, or no word and no row. -/
def Statement (i : Instr) : Prop :=
  (∀ w m v, encodeWord i = some w → row i = some (m, v) → w &&& m = v) ∧
    ((encodeWord i).isSome = i.wf) ∧ ((row i).isSome = i.wf)

/-- What the lemmas below check of a word. -/
theorem of_word {i : Instr} {w m v : InstrWord} (hw : encodeWord i = some w) (hr : row i = some (m, v)) (hf : i.wf = true)
    (h : w &&& m = v) : Statement i :=
  ⟨fun w' m' v' h1 h2 => by
    rw [hw] at h1
    rw [hr] at h2
    injection h1 with h1
    injection h2 with h2
    rw [← h1, ← (Prod.mk.inj h2).1, ← (Prod.mk.inj h2).2]
    exact h,
   by rw [hw, hf]; rfl, by rw [hr, hf]; rfl⟩

theorem cboInval (rs1 : RegIdx) (poc : Poc) : Statement (.cboInval rs1 poc) :=
  of_word rfl rfl rfl (by cases poc; revert rs1; decide)

theorem cboClean (rs1 : RegIdx) (poc : Poc) : Statement (.cboClean rs1 poc) :=
  of_word rfl rfl rfl (by cases poc; revert rs1; decide)

theorem cboFlush (rs1 : RegIdx) (poc : Poc) : Statement (.cboFlush rs1 poc) :=
  of_word rfl rfl rfl (by cases poc; revert rs1; decide)

theorem cboZero (rs1 : RegIdx) (level : Level) : Statement (.cboZero rs1 level) :=
  of_word rfl rfl rfl (by cases level <;> revert rs1 <;> decide)

theorem prefetchR (rs1 : RegIdx) (level : Level) : Statement (.prefetchR rs1 level) :=
  of_word rfl rfl rfl (by cases level <;> revert rs1 <;> decide)

theorem prefetchW (rs1 : RegIdx) (level : Level) : Statement (.prefetchW rs1 level) :=
  of_word rfl rfl rfl (by cases level <;> revert rs1 <;> decide)

theorem prefetchI (rs1 : RegIdx) (level : Level) : Statement (.prefetchI rs1 level) :=
  of_word rfl rfl rfl (by cases level <;> revert rs1 <;> decide)

theorem demote (rs1 : RegIdx) (level : Level) : Statement (.demote rs1 level) :=
  of_word rfl rfl rfl (by cases level <;> revert rs1 <;> decide)

theorem cboSize : Statement .cboSize :=
  ⟨fun _ _ _ h => by simp [encodeWord] at h, rfl, rfl⟩

end Sys2Proof.Laws.TableMatch
end

