-- ==== Sys2Proof/Laws/Translation.lean ====
section
/-!
SUPPORT. What a translation that succeeds says of the leaf PTEs it found, and what the checks of `CBO.INVAL` add to it; and
what joint permission needs.
-/

namespace Sys2Proof.Machine

/-- A walk that succeeds ends at a valid leaf that is not reserved, permits the access, and is what a read of the table
gave. -/
theorem walk_ok {cfg : Config} {p : PageFormat} {fetchPte : Nat → Except XlateError (Nat × Nat)} {permits : Nat → Bool}
    {fault : XlateError} {va n table : Nat} {leaf : Leaf} (h : walk cfg p fetchPte permits fault va n table = .ok leaf) :
    pteBit leaf.pte 0 = true ∧ pteReserved cfg p leaf.pte = false ∧ pteLeaf leaf.pte = true ∧ permits leaf.pte = true ∧
      ∃ a, fetchPte a = .ok (leaf.pte, leaf.pteAddr) := by
  induction n generalizing table with
  | zero => simp [walk] at h
  | succ n ih =>
    simp only [walk] at h
    split at h
    · simp at h
    · next pte pteAddr hf =>
      split at h
      · simp at h
      · next hv =>
        split at h
        · next hl =>
          split at h
          · simp at h
          · next hp =>
            injection h with h
            subst h
            simp only [Bool.not_eq_true, Bool.or_eq_true, Bool.not_eq_eq_eq_not, not_or] at hv hp
            exact ⟨by simpa using hv.1, by simpa using hv.2, hl, by simpa using hp.2, _, hf⟩
        · split at h
          · simp at h
          · exact ih h

/-- The check of a leaf is one thing, the walk to it another: a walk is the walk without the check, and then the check.
-/
theorem walk_permits {cfg : Config} {p : PageFormat} {fetchPte : Nat → Except XlateError (Nat × Nat)}
    {permits : Nat → Bool} {fault : XlateError} {va n table : Nat} :
    walk cfg p fetchPte permits fault va n table =
      match walk cfg p fetchPte (fun _ => true) fault va n table with
      | .ok leaf => if permits leaf.pte then .ok leaf else .error fault
      | .error e => .error e := by
  induction n generalizing table with
  | zero => rfl
  | succ n ih =>
    simp only [walk]
    split
    · rfl
    · split
      · rfl
      · split
        · next pte pteAddr _ _ _ =>
          cases hm : (ptePpn p pte % 2 ^ (p.indexBits * n) != 0) with
          | true => simp
          | false => cases hp : permits pte <;> simp [hp]
        · split
          · rfl
          · exact ih

/-- What a leaf grants, in the terms of the rules (rules R222, R223, R225, R227, R231). -/
structure LeafGrants (kind : AccessKind) (user sum : Bool) (pte : Nat) : Prop where
  readOrExecute : kind = .management ∨ kind = .hint → pteBit pte 1 = true ∨ pteBit pte 3 = true
  write : kind = .zero → pteBit pte 2 = true
  userPage : user = true → pteBit pte 4 = true
  supervisorPage : user = false → pteBit pte 4 = true → sum = true

theorem firstPermits_grants {cfg : Config} {kind : AccessKind} {user sum mxr : Bool} {pte : Nat}
    (h : firstPermits cfg kind user sum mxr pte = true) : LeafGrants kind user sum pte := by
  simp only [firstPermits, Bool.and_eq_true] at h
  refine ⟨?_, ?_, ?_, ?_⟩
  · rintro (rfl | rfl) <;> simpa [leafPermits] using h.1.2
  · rintro rfl; simpa [leafPermits] using h.1.2
  · rintro rfl; simpa [userRule] using h.1.1
  · rintro rfl hu
    have := h.1.1
    cases sum
    · simp [userRule, hu] at this
    · rfl

theorem guestPermits_grants {cfg : Config} {kind : AccessKind} {mxr : Bool} {pte : Nat}
    (h : guestPermits cfg kind mxr pte = true) : LeafGrants kind true false pte := by
  simp only [guestPermits, Bool.and_eq_true] at h
  refine ⟨?_, ?_, fun _ => h.1.1, by simp⟩
  · rintro (rfl | rfl) <;> simpa [leafPermits] using h.1.2
  · rintro rfl; simpa [leafPermits] using h.1.2

/-- A first stage that maps an access and is not Bare found the leaf of a walk. -/
theorem firstStage_ok {s : State} {atp : Word} {fetchPte : PageFormat → Nat → Except XlateError (Nat × Nat)}
    {kind : AccessKind} {user sum mxr : Bool} {ea : Word} {m : Mapped}
    (h : firstStage s atp fetchPte kind user sum mxr ea = .ok m) (hb : atpBare s.cfg.xlen atp = false) :
    ∃ p leaf, pageFormat s.cfg.xlen (atpMode s.cfg.xlen atp) false = some p ∧
      walk s.cfg p (fetchPte p) (firstPermits s.cfg kind user sum mxr) .page ea.toNat p.levels
        (atpRoot s.cfg.xlen atp) = .ok leaf ∧ m = Mapped.ofLeaf s.cfg p kind leaf := by
  unfold firstStage at h
  simp only [hb, Bool.false_eq_true, if_false] at h
  split at h
  · simp at h
  · next p hp =>
    split at h
    · simp at h
    · split at h
      · simp at h
      · next leaf hw =>
        injection h with h
        exact ⟨p, leaf, hp, hw, h.symm⟩

/-- A G-stage that maps an access and is not Bare found the leaf of a walk. -/
theorem guestStage_ok {s : State} {kind : AccessKind} {mxr : Bool} {gpa : Nat} {m : Mapped}
    (h : guestStage s kind mxr gpa = .ok m) (hb : atpBare s.cfg.xlen s.csr.hgatp = false) :
    ∃ p leaf, pageFormat s.cfg.xlen (atpMode s.cfg.xlen s.csr.hgatp) true = some p ∧
      walk s.cfg p (readPte s p) (guestPermits s.cfg kind mxr) (.guest gpa) gpa p.levels
        (atpRoot s.cfg.xlen s.csr.hgatp) = .ok leaf ∧ m = Mapped.ofLeaf s.cfg p kind leaf := by
  unfold guestStage at h
  simp only [hb, Bool.false_eq_true, if_false] at h
  split at h
  · simp at h
  · next p hp =>
    split at h
    · simp at h
    · split at h
      · simp at h
      · next leaf hw =>
        injection h with h
        exact ⟨p, leaf, hp, hw, h.symm⟩

/-! ### What each stage maps -/

/-- A leaf a walk meets is one a read of the table gave, valid, not reserved, with `R` or `X`. -/
theorem WalkMeets.leaf {s : State} {atp : Word} {guest : Bool}
    {fetchPte : PageFormat → Nat → Except XlateError (Nat × Nat)} {va : Nat} {leaf : Leaf}
    (h : WalkMeets s atp guest fetchPte va leaf) :
    pteBit leaf.pte 0 = true ∧ (pteBit leaf.pte 1 = true ∨ pteBit leaf.pte 3 = true) ∧
      ∃ p a, fetchPte p a = .ok (leaf.pte, leaf.pteAddr) ∧ pteReserved s.cfg p leaf.pte = false := by
  obtain ⟨p, -, -, hw⟩ := h
  obtain ⟨h1, h2, h3, -, a, h5⟩ := walk_ok hw
  exact ⟨h1, by simpa [pteLeaf] using h3, p, a, h5, h2⟩

/-- A first stage that is not Bare: by the leaf the walk meets. -/
theorem firstStage_meets {s : State} {atp : Word} {fetchPte : PageFormat → Nat → Except XlateError (Nat × Nat)}
    {kind : AccessKind} {user sum mxr : Bool} {ea : Word} {leaf : Leaf} (hb : atpBare s.cfg.xlen atp = false)
    (h : WalkMeets s atp false fetchPte ea.toNat leaf) :
    if firstPermits s.cfg kind user sum mxr leaf.pte then
      ∃ m, firstStage s atp fetchPte kind user sum mxr ea = .ok m ∧ m.address = leaf.address ∧
        m.w = some (pteBit leaf.pte 2)
    else firstStage s atp fetchPte kind user sum mxr ea = .error .page := by
  obtain ⟨p, hp, hc, hw⟩ := h
  simp only [Bool.false_eq_true, if_false] at hw
  simp only [firstStage, hb, Bool.false_eq_true, if_false, hp, hc, Bool.not_true]
  rw [walk_permits, hw]
  cases hperm : firstPermits s.cfg kind user sum mxr leaf.pte <;> simp [hperm, Mapped.ofLeaf]

theorem firstStage_iff {s : State} {atp : Word} {fetchPte : PageFormat → Nat → Except XlateError (Nat × Nat)}
    {kind : AccessKind} {user sum mxr : Bool} {ea : Word} {pa : Nat} {w : Option Bool} :
    (∃ m, firstStage s atp fetchPte kind user sum mxr ea = .ok m ∧ m.address = pa ∧ m.w = w) ↔
      FirstStageMaps s atp fetchPte kind user sum mxr ea.toNat pa w := by
  unfold FirstStageMaps
  cases hb : atpBare s.cfg.xlen atp with
  | true =>
    simp only [firstStage, hb, if_true, true_and, Bool.true_eq_false, false_and, or_false]
    exact ⟨by rintro ⟨m, h, rfl, rfl⟩; cases h; exact ⟨rfl, rfl⟩, fun h => ⟨_, rfl, h.1.symm, h.2.symm⟩⟩
  | false =>
    simp only [Bool.false_eq_true, false_and, false_or, true_and]
    constructor
    · rintro ⟨m, hm, rfl, rfl⟩
      obtain ⟨p, leaf, hp, hw, rfl⟩ := firstStage_ok hm hb
      have hc : canonical s.cfg.xlen p false ea.toNat = true := by
        cases hc : canonical s.cfg.xlen p false ea.toNat
        · simp [firstStage, hb, hp, hc] at hm
        · rfl
      have hperm := (walk_ok hw).2.2.2.1
      rw [walk_permits] at hw
      split at hw
      · next l hl =>
        split at hw
        · injection hw with hw; subst hw
          exact ⟨l, ⟨p, hp, hc, by simpa using hl⟩, hperm, rfl, rfl⟩
        · simp at hw
      · simp at hw
    · rintro ⟨leaf, hm, hperm, rfl, rfl⟩
      have := firstStage_meets (kind := kind) (user := user) (sum := sum) (mxr := mxr) hb hm
      simpa [hperm] using this

/-- The G-stage where it is not Bare: by the leaf the walk meets. -/
theorem guestStage_meets {s : State} {kind : AccessKind} {mxr : Bool} {gpa : Nat} {leaf : Leaf}
    (hb : atpBare s.cfg.xlen s.csr.hgatp = false) (h : WalkMeets s s.csr.hgatp true (readPte s) gpa leaf) :
    if guestPermits s.cfg kind mxr leaf.pte then
      ∃ m, guestStage s kind mxr gpa = .ok m ∧ m.address = leaf.address ∧ m.w = some (pteBit leaf.pte 2)
    else guestStage s kind mxr gpa = .error (.guest gpa) := by
  obtain ⟨p, hp, hc, hw⟩ := h
  simp only [if_true] at hw
  simp only [guestStage, hb, Bool.false_eq_true, if_false, hp, hc, Bool.not_true]
  rw [walk_permits, hw]
  cases hperm : guestPermits s.cfg kind mxr leaf.pte <;> simp [hperm, Mapped.ofLeaf]

theorem guestStage_iff {s : State} {kind : AccessKind} {mxr : Bool} {gpa pa : Nat} {w : Option Bool} :
    (∃ m, guestStage s kind mxr gpa = .ok m ∧ m.address = pa ∧ m.w = w) ↔ GuestStageMaps s kind mxr gpa pa w := by
  unfold GuestStageMaps
  cases hb : atpBare s.cfg.xlen s.csr.hgatp with
  | true =>
    simp only [guestStage, hb, if_true, true_and, Bool.true_eq_false, false_and, or_false]
    exact ⟨by rintro ⟨m, h, rfl, rfl⟩; cases h; exact ⟨rfl, rfl⟩, fun h => ⟨_, rfl, h.1.symm, h.2.symm⟩⟩
  | false =>
    simp only [Bool.false_eq_true, false_and, false_or, true_and]
    constructor
    · rintro ⟨m, hm, rfl, rfl⟩
      obtain ⟨p, leaf, hp, hw, rfl⟩ := guestStage_ok hm hb
      have hc : canonical s.cfg.xlen p true gpa = true := by
        cases hc : canonical s.cfg.xlen p true gpa
        · simp [guestStage, hb, hp, hc] at hm
        · rfl
      have hperm := (walk_ok hw).2.2.2.1
      rw [walk_permits] at hw
      split at hw
      · next l hl =>
        split at hw
        · injection hw with hw; subst hw
          exact ⟨l, ⟨p, hp, hc, by simpa using hl⟩, hperm, rfl, rfl⟩
        · simp at hw
      · simp at hw
    · rintro ⟨leaf, hm, hperm, rfl, rfl⟩
      have := guestStage_meets (kind := kind) (mxr := mxr) hb hm
      simpa [hperm] using this

/-- What the checks of `CBO.INVAL` add to a translation that meets the ordinary requirements (rules R224, R226, R244). -/
theorem translate_inval {s : State} {kind : AccessKind} {eff : Mode} {ea : Word} {tr : Xlate}
    (h : translate s kind false eff ea = .ok tr) :
    match (motive := Mode → Prop) eff with
    | .m => translate s kind true eff ea = .ok tr
    | .s => translate s kind true eff ea = .ok tr
    | .u => translate s kind true eff ea = if invalPass s.csr.scmocontrol tr.wS then .ok tr else .error .page
    | .vs => ∃ gpa, translate s kind true eff ea =
        if invalPass s.csr.hcmocontrol tr.wG then .ok tr else .error (.guest gpa)
    | .vu => ∃ gpa, translate s kind true eff ea =
        if !invalPass s.csr.vscmocontrol tr.wVS then .error .page
        else if invalPass s.csr.hcmocontrol tr.wG then .ok tr else .error (.guest gpa) := by
  cases eff with
  | m => exact h
  | s => simpa [translate, hostTranslate] using h
  | u =>
    simp only [translate, hostTranslate] at h ⊢
    split at h
    · simp at h
    · next m hf =>
      simp only [Bool.false_and, Bool.false_eq_true, if_false] at h
      injection h with h
      subst h
      cases invalPass s.csr.scmocontrol m.w <;> simp
  | vs =>
    simp only [translate, guestTranslate] at h ⊢
    split at h
    · simp at h
    · next m hf =>
      simp only [Bool.false_and, Bool.false_eq_true, if_false] at h
      split at h
      · simp at h
      · next g hg =>
        injection h with h
        subst h
        refine ⟨m.address, ?_⟩
        cases invalPass s.csr.hcmocontrol g.w <;> simp
  | vu =>
    simp only [translate, guestTranslate] at h ⊢
    split at h
    · simp at h
    · next m hf =>
      simp only [Bool.false_and, Bool.false_eq_true, if_false] at h
      split at h
      · simp at h
      · next g hg =>
        injection h with h
        subst h
        refine ⟨m.address, ?_⟩
        cases invalPass s.csr.vscmocontrol m.w <;> cases invalPass s.csr.hcmocontrol g.w <;> simp

/-- A translation with the checks of `CBO.INVAL` succeeds only where the one without them does, with the same result. -/
theorem translate_of_inval {s : State} {kind : AccessKind} {eff : Mode} {ea : Word} {tr : Xlate}
    (h : translate s kind true eff ea = .ok tr) : translate s kind false eff ea = .ok tr := by
  cases eff with
  | m => exact h
  | s => simpa [translate, hostTranslate] using h
  | u =>
    simp only [translate, hostTranslate] at h ⊢
    split at h
    · simp at h
    · next hf => split at h <;> simp_all
  | vs =>
    simp only [translate, guestTranslate] at h ⊢
    split at h
    · simp at h
    · next hf =>
      split at h
      · simp at h
      · split at h
        · simp at h
        · next hg => split at h <;> simp_all
  | vu =>
    simp only [translate, guestTranslate] at h ⊢
    split at h
    · simp at h
    · next hf =>
      split at h
      · simp at h
      · split at h
        · simp at h
        · next hg => split at h <;> simp_all

/-- Joint permission needs the PMP and the PMAs of the address, which a vacant one has none of (rules R60, R236). -/
theorem jointDenied_iff {s : State} {eff : Mode} {perm : Permission} {pa : Nat} :
    JointDenied s eff perm pa ↔ joint s eff perm pa = false := by
  simp only [JointDenied, joint, Bool.and_eq_false_iff, pmaAllows]
  refine or_congr Iff.rfl ?_
  cases regionOf s.cfg pa with
  | none => simp
  | some r => cases perm <;> simp [Region.grants]

end Sys2Proof.Machine
end

