-- ==== Sys2Proof/Tests/Slice0.lean ====
section
/-!
SUPPORT. The model's own tests: each ill-formed term refused, words decoded as spec/95_test_vectors.md section 2.1 says,
small one-step tests from the vectors of sections 2.2 to 2.12 (the vector is named at each), and for every obligation with
hypotheses a state and operands that meet them. Expected results are those of the vectors or are worked out from the rules
named; `REF-OP` is `Config.refOp`.
-/

namespace Sys2Proof.Tests

open Machine

/-! ### States and readings -/

/-- `REF-OP` after reset, `x10` set. -/
def base (ea : Word) : State := writeX { State.reset with cfg := Config.refOp } 10 ea

/-- In a mode, with `mcmocontrol` and `scmocontrol`. -/
def inMode (s : State) (mode : Mode) (m sc : Word) : State :=
  { s with mode := mode, csr := { s.csr with mcmocontrol := m, scmocontrol := sc } }

/-- A PMP that grants everything to every mode (D19): one NAPOT entry over all of memory. -/
def openPmp (s : State) : State :=
  { s with pmp := [{ r := true, w := true, x := true, a := 3#2, l := false, addr := 0x3FFFFFFFFFFFFF#64 }] }

/-- The 64 bytes of a block, all `v`. -/
def block (v : Byte) : List Byte := List.replicate 64 v

/-- The block at `0x8000_1000`: `0x11` in memory, and a copy of `0xDD` in the hart's cache (section 2.5). -/
def cached (s : State) (modified : Bool) : State :=
  { s with ms := { mem := Memory.writeBytes [] 0x80001000 (block 0x11#8),
                   caches := [[{ block := 0x80001000, modified := modified, data := block 0xDD#8 }]] } }

/-- The state a result leaves, if it is a next state. -/
def after : Result → Option State
  | .next t => some t
  | .fault _ => none
  | .refused _ => none

/-- The refusal a result is. -/
def refusalOf : Result → Option Refusal
  | .next _ => none
  | .fault _ => none
  | .refused r => some r

/-- The cause an M-mode trap recorded. -/
def causeOf (r : Result) : Option Word := (after r).map fun t => t.csr.mcause

/-- What a result leaves of a block in the hart's cache: whether it is Modified, and its first byte. -/
def copyOf (b : Nat) (r : Result) : Option (Option (Bool × Byte)) :=
  (after r).map fun t => (t.ms.copyAt 0 b).map fun c => (c.modified, c.data.getD 0 0#8)

/-- The byte of memory at an address after a result. -/
def memOf (a : Nat) (r : Result) : Option Byte := (after r).map fun t => Memory.read t.ms.mem a

/-- The program counter after a result. -/
def pcOf (r : Result) : Option Word := (after r).map fun t => t.pc

/-! ### Well-formed terms -/

/-- The one ill-formed term has no encoding, so nothing decodes to it (rules R134, R200). -/
theorem test_wellFormed_refuses_cboSize : Instr.cboSize.wf = false ∧ encode .cboSize = none := by decide

theorem test_wellFormed_accepts_the_others :
    (Instr.cboInval 31 .memory).wf ∧ (Instr.cboZero 0 .l3).wf ∧ (Instr.demote 1 .default).wf := by decide

/-! ### Decoding (section 2.1), the words written out bit by bit: `00000 sel op rs1 000 00000 0001011` -/

theorem test_decode_management :
    decodeWord 0b00000000000001010000000000001011#32 = .ok (.cboInval 10 .memory) ∧
    decodeWord 0b00000000000101010000000000001011#32 = .ok (.cboClean 10 .memory) ∧
    decodeWord 0b00000000001001010000000000001011#32 = .ok (.cboFlush 10 .memory) ∧
    decodeWord 0b00000000001011111000000000001011#32 = .ok (.cboFlush 31 .memory) := by decide

theorem test_decode_write :
    decodeWord 0b00000000010001010000000000001011#32 = .ok (.cboZero 10 .default) ∧
    decodeWord 0b00000010010001010000000000001011#32 = .ok (.cboZero 10 .l1) := by decide

theorem test_decode_hints :
    decodeWord 0b00000010100001011000000000001011#32 = .ok (.prefetchR 11 .l1) ∧
    decodeWord 0b00000100100101011000000000001011#32 = .ok (.prefetchW 11 .l2) ∧
    decodeWord 0b00000110101001011000000000001011#32 = .ok (.prefetchI 11 .l3) ∧
    decodeWord 0b00000000101101011000000000001011#32 = .ok (.demote 11 .default) := by decide

theorem test_decode_reserved :
    decodeWord 0x0215000B#32 = .error .reservedPoc ∧ decodeWord 0x0035000B#32 = .error .reservedOp ∧
    decodeWord 0x00C5000B#32 = .error .reservedOp ∧ decodeWord 0x0805000B#32 = .error .reservedHigh ∧
    decodeWord 0x0005100B#32 = .error .reservedFunct ∧ decodeWord 0x0005008B#32 = .error .reservedRd ∧
    decodeWord 0x00000013#32 = .error .otherOpcode := by decide

theorem test_bytes_in_memory : encode (.cboClean 10 .memory) = some [0x0B#8, 0x00#8, 0x15#8, 0x00#8] := by decide

theorem test_decodeTableWord : decodeTableWord 32 0x0245000B = some (.cboZero 10 .l1) := by decide

/-! ### Fields and blocks (sections 2.2, 2.3) -/

theorem test_warl : legalizeCmo Config.ref.mcmo 0xFFFFFFFFFFFFFFFF#64 = 0xF03#64 ∧
    legalizeCmo Config.ref.mcmo 0x0FC#64 = 0#64 ∧ legalizeCmo Config.ref.mcmo 0x1E01#64 = 0xE01#64 := by decide

theorem test_block : blockBase Config.ref 0x8000103F = 0x80001000 ∧ blockBase Config.ref 0x80001040 = 0x80001040 ∧
    blockBase Config.ref 0x80002010 = 0x80002000 := by decide

/-! ### The instructions, one step each -/

set_option maxRecDepth 100000

/-- V-ST1: the modified block is in memory, the copy is Unmodified, `pc` is the next instruction's. -/
theorem test_clean_modified :
    let r := exec (.cboClean 10 .memory) (cached (base 0x80001008#64) true)
    memOf 0x80001000 r = some 0xDD#8 ∧ memOf 0x8000103F r = some 0xDD#8 ∧ memOf 0x80001040 r = some 0x00#8 ∧
      copyOf 0x80001000 r = some (some (false, 0xDD#8)) ∧ pcOf r = some 0x80000004#64 := by decide

/-- V-ILL2: in S-mode `mcmocontrol` alone decides, cause 2; the trap value is the word (V-Z6's form). -/
theorem test_clean_illegal :
    let s := inMode (cached (base 0x80001008#64) true) .s 0x0#64 0x1#64
    let r := exec (.cboClean 10 .memory) { s with word := 0x0015000B }
    causeOf r = some 2#64 ∧ (after r).map (fun t => (t.csr.mtval, t.csr.mepc, t.mode)) =
      some (0x0015000B#64, 0x80000000#64, .m) ∧ memOf 0x80001000 r = some 0x11#8 := by decide

/-- V-ST4. -/
theorem test_flush_modified :
    let r := exec (.cboFlush 10 .memory) (cached (base 0x80001008#64) true)
    memOf 0x80001000 r = some 0xDD#8 ∧ copyOf 0x80001000 r = some none ∧ pcOf r = some 0x80000004#64 := by decide

/-- The PMP of V-AF7: nothing on `0x8000_4030`, everything elsewhere. -/
def holedPmp (s : State) : State :=
  { s with pmp := [{ r := false, w := false, x := false, a := 2#2, l := false, addr := 0x2000100C#64 },
                   { r := true, w := true, x := true, a := 3#2, l := false, addr := 0x3FFFFFFFFFFFFF#64 }] }

/-- V-AF7: one address of the block lacks both permissions; the trap value is the unrounded address (rule R252). -/
theorem test_flush_accessFault :
    let r := exec (.cboFlush 10 .memory) (inMode (holedPmp (base 0x80004010#64)) .s 0xF03#64 0x0#64)
    causeOf r = some 7#64 ∧ (after r).map (fun t => t.csr.mtval) = some 0x80004010#64 := by decide

/-- V-ST7: in M-mode always an invalidate; memory keeps its bytes, and the block's loads are UNSPECIFIED (rule R95). -/
theorem test_inval_modified :
    let r := exec (.cboInval 10 .memory) (cached (base 0x80001008#64) true)
    memOf 0x80001000 r = some 0x11#8 ∧ copyOf 0x80001000 r = some none ∧
      (after r).map (fun t => (t.unspecified.length, t.unspecified.head?)) = some (64, some 0x80001000) := by decide

/-- Sv39 from `satp`: one leaf that maps the gigabyte at `0x8000_0000` to itself, its PTE at `0x8000_3010`. -/
def paged (s : State) (flags : Nat) : State :=
  { s with
    csr := { s.csr with satp := 0x8000000000080003#64 },
    ms := { s.ms with mem := Memory.writeBytes s.ms.mem 0x80003010 (toBytesLE (0x20000000 + flags) 8) } }

/-- V-INV9 and V-INV11: in U-mode with `w` 0, `INVW0E` and `INVW0I` decide: a flush, and a page fault. -/
theorem test_inval_byLeafW :
    let s := paged (openPmp (cached (base 0x80001008#64) true)) 0xD3
    let flushed := exec (.cboInval 10 .memory) (inMode s .u 0xF03#64 0xE01#64)
    memOf 0x80001000 flushed = some 0xDD#8 ∧ copyOf 0x80001000 flushed = some none ∧
      causeOf (exec (.cboInval 10 .memory) (inMode s .u 0xF03#64 0xC01#64)) = some 15#64 := by decide

/-- V-Z1: the block is allocated and all zero in the cache, Modified; memory still holds the old bytes. -/
theorem test_zero_allocates :
    let s := base 0x80002010#64
    let r := exec (.cboZero 10 .default)
      { s with ms := { mem := Memory.writeBytes [] 0x80002000 (block 0xAA#8), caches := [[]] } }
    copyOf 0x80002000 r = some (some (true, 0x00#8)) ∧ memOf 0x80002000 r = some 0xAA#8 ∧
      (after r).map (fun t => (hartLoadByte t 0 0x80002000, hartLoadByte t 0 0x8000203F)) = some (0x00#8, 0x00#8) := by
  decide

/-- V-AF1: a block writable in its first half alone is not partly zeroed. -/
theorem test_zero_accessFault :
    let s := inMode (base 0x80004010#64) .s 0xF03#64 0x0#64
    let r := exec (.cboZero 10 .default)
      { s with
        pmp := [{ r := true, w := true, x := false, a := 3#2, l := false, addr := 0x20001003#64 },
                { r := true, w := false, x := false, a := 3#2, l := false, addr := 0x2000100B#64 }],
        ms := { mem := Memory.writeBytes [] 0x80004000 (block 0xAA#8), caches := [[]] } }
    causeOf r = some 7#64 ∧ memOf 0x80004000 r = some 0xAA#8 ∧ copyOf 0x80004000 r = some none := by decide

/-- V-H1 and V-ILL14: in U-mode with every `xcmocontrol` bit clear a prefetch retires and, under `REF-OP`, does nothing.
-/
theorem test_prefetchR :
    let s := inMode (openPmp (base 0x80001008#64)) .u 0x0#64 0x0#64
    let r := exec (.prefetchR 10 .l1) s
    pcOf r = some 0x80000004#64 ∧ (after r).map (fun t => (t.ms, t.x, t.csr)) = some (s.ms, s.x, s.csr) := by decide

/-- A prefetch that acts (rule R75) allocates its block, never as Modified. -/
theorem test_prefetchR_allocates :
    let s := cached (base 0x80001008#64) false
    let r := exec (.prefetchR 10 .l1)
      { s with cfg := { s.cfg with hintAction := .yes }, ms := { s.ms with caches := [[]] } }
    copyOf 0x80001000 r = some (some (false, 0x11#8)) ∧ memOf 0x80001000 r = some 0x11#8 := by decide

/-- V-H2: no translation, no page fault. -/
theorem test_prefetchW_unmapped :
    let r := exec (.prefetchW 10 .l2) (inMode (paged (openPmp (base 0x80001008#64)) 0xD2) .u 0x0#64 0x0#64)
    pcOf r = some 0x80000004#64 := by decide

/-- V-H3: the PMP denies everything, no access fault. -/
theorem test_prefetchI_denied :
    let r := exec (.prefetchI 10 .l3) (inMode (base 0x80001008#64) .s 0x0#64 0x0#64)
    pcOf r = some 0x80000004#64 := by decide

/-- V-H4 under `REF-OP`: the modified block stays and loads return its bytes. -/
theorem test_demote_modified :
    let r := exec (.demote 10 .default) (cached (base 0x80001008#64) true)
    copyOf 0x80001000 r = some (some (true, 0xDD#8)) ∧ pcOf r = some 0x80000004#64 ∧
      (after r).map (fun t => hartLoadByte t 0 0x8000103F) = some 0xDD#8 := by decide

/-- `CBO.SIZE` is refused by name (rule R200). -/
theorem test_cboSize : refusalOf (exec .cboSize State.reset) = some .cboSizeUndefined := by decide

/-! ### Triggers, registers, the step -/

/-- A `type=6` trigger enabled in M-mode, with `match`, `store` and `load` as given. -/
def watch (s : State) (low : Nat) (address : Word) : State :=
  { s with triggers := [{ tdata1 := BitVec.ofNat 64 (0x6000000000000040 + low), tdata2 := address }] }

/-- V-TRG1 (store bit, exact match) and V-TRG2 (load bit, NAPOT over the block, then an exact match that misses). -/
theorem test_triggers_management :
    causeOf (exec (.cboClean 10 .memory) (watch (base 0x80001008#64) 0x2 0x80001008#64)) = some 3#64 ∧
    causeOf (exec (.cboFlush 10 .memory) (watch (base 0x80001030#64) 0x81 0x8000101F#64)) = some 3#64 ∧
    pcOf (exec (.cboFlush 10 .memory) (watch (base 0x80001030#64) 0x1 0x80001000#64)) = some 0x80000004#64 := by decide

/-- V-TRG3 and V-TRG4: no load bit fires on `CBO.ZERO`; a hint fires where it is classified as both. -/
theorem test_triggers_others :
    let s := watch (base 0x80001008#64) 0x2 0x80001008#64
    pcOf (exec (.cboZero 10 .default) (watch (base 0x80001008#64) 0x1 0x80001008#64)) = some 0x80000004#64 ∧
    causeOf (exec (.prefetchR 10 .default) { s with cfg := { s.cfg with hintTrigger := .loadAndStore } }) = some 3#64 ∧
    pcOf (exec (.prefetchR 10 .default) s) = some 0x80000004#64 := by decide

/-- A word placed where the next instruction is fetched runs as the first instruction after reset: `cbo.clean (x0)`,
whose address 0 is vacant in `REF` (V-AF10). -/
theorem test_step_runs_the_word_placed :
    causeOf (step (State.reset.withFetchWord 32 0x0010000B)) = some 7#64 ∧
    pcOf (step (State.reset.withFetchWord 32 0x00A0000B)) = some 0x80000004#64 := by decide

/-- The CSR instructions reach `mcmocontrol` (rule R39): `csrrw x5, mcmocontrol, x10`. -/
theorem test_csr_write :
    (after (step ((base 0xFFFF#64).withFetchWord 32 0x7C0512F3))).map (fun t => (t.csr.mcmocontrol, readX t 5)) =
      some (0xF03#64, 0#64) := by decide

/-- Section 2.6: after an invalidate a byte stored to is the store's (V-LD5: `sb x11,0(x10)` is `0x00B50023`). -/
theorem test_store_ends_unspecified :
    let s := { base 0x80001000#64 with unspecified := [0x80001000, 0x80001001] }
    (after (step (s.withFetchWord 32 0x00B50023))).map (fun t => t.unspecified) = some [0x80001001] := by decide

/-! ### Witnesses: for every obligation with hypotheses, a state and operands that meet them, clause by clause -/

theorem test_hyp_DecodeEncodeAgree : (Instr.prefetchI 31 .l3).wf = true ∧ (Instr.cboInval 0 .memory).wf = true := by decide

theorem test_hyp_EncodeDecodeAgree : decodeWord 0x06A5800B#32 = .ok (.prefetchI 11 .l3) := by decide

/-- An encoding of the test's own beside `ENC_REF`: six bytes, `rs1` in bits 11 to 7, the level in bits 41 and 40.
Obligations `ReferenceEncodingIsEncRef`, `EveryEncodingHasEveryInstruction`, `CmoWordsAreNoBaseInstructions`. -/
def otherEncoding : Encoding :=
  { ilen := 6,
    rows := [{ op := .inval, mask := 0xFFF0007F, value := 0x1F, rs1 := .bits 7, sel := .const 0 },
             { op := .clean, mask := 0xFFF0007F, value := 0x10001F, rs1 := .bits 7, sel := .const 0 },
             { op := .flush, mask := 0xFFF0007F, value := 0x20001F, rs1 := .bits 7, sel := .const 0 },
             { op := .zero, mask := 0xFFF0007F, value := 0x30001F, rs1 := .bits 7, sel := .bits 40 },
             { op := .prefetchR, mask := 0xFFF0007F, value := 0x40001F, rs1 := .bits 7, sel := .bits 40 },
             { op := .prefetchW, mask := 0xFFF0007F, value := 0x50001F, rs1 := .bits 7, sel := .bits 40 },
             { op := .prefetchI, mask := 0xFFF0007F, value := 0x60001F, rs1 := .bits 7, sel := .bits 40 },
             { op := .demote, mask := 0xFFF0007F, value := 0x70001F, rs1 := .bits 7, sel := .bits 40 }] }

theorem test_hyp_encodings :
    Encoding.ref.wf .rv64 false = true ∧ otherEncoding.wf .rv32 true = true ∧ (Instr.demote 31 .l2).wf = true ∧
    Encoding.ref.decode 4 (0x00B5800B#32).toNat = some (.demote 11 .default) ∧
    otherEncoding.decode 6 0x20000700F9F = some (.demote 31 .l2) := by decide

/-- Ill-formed encodings are refused: two rows of one word, an instruction without a word, operands over fixed bits, a
word of the base ISA's (`ADDI`, opcode `0010011`), a length that is not the first byte's. -/
theorem test_encoding_wf_refuses :
    rowsDisjoint (Encoding.ref.rows ++ [.refLevel .zero 0b00100]) = false ∧
    Encoding.complete { Encoding.ref with rows := Encoding.ref.rows.tail } = false ∧
    EncRow.wf .rv64 false 4 { EncRow.refPoc .inval 0 with rs1 := .bits 10 } = false ∧
    EncRow.wf .rv64 false 4 { EncRow.refPoc .inval 0 with value := 0x13 } = false ∧
    EncRow.wf .rv64 false 6 (EncRow.refPoc .inval 0) = false := by decide

/-- Rule R122 (c) bars the words of the hart's other instructions and no more: a `funct7` the opcode `OP` does not use is
free, and the words of `HLV.B` are where there is no H-extension. -/
theorem test_encoding_wf_by_words :
    Encoding.wf .rv64 true
      { Encoding.ref with rows := Encoding.ref.rows.map fun r => { r with value := r.value + 0x08000028 } } = true ∧
    EncRow.wf .rv64 false 4 { EncRow.refPoc .inval 0 with value := 0x60004073 } = true ∧
    EncRow.wf .rv64 true 4 { EncRow.refPoc .inval 0 with value := 0x60004073 } = false := by decide

/-- The state with a word placed for the next fetch. -/
def placed (w : Nat) : State := (base 0x80001008#64).withFetchWord 32 w

/-- The bytes of the instruction at `pc`, where they can be fetched. -/
def fetched (s : State) : Option (List Byte) :=
  match fetchInstruction s with
  | .ok bytes => some bytes
  | .error _ => none

theorem test_hyp_StepRunsTheDecodedInstruction :
    (placed 0x0015000B).moves = [] ∧ triggerHit (placed 0x0015000B) TriggerClass.fetch (placed 0x0015000B).pc = none ∧
    fetched (placed 0x0015000B) = some [0x0B#8, 0x00#8, 0x15#8, 0x00#8] ∧
    Encoding.ref.decode 4 (ofBytesLE [0x0B#8, 0x00#8, 0x15#8, 0x00#8]) = some (.cboClean 10 .memory) ∧
    ({ placed 0x0015000B with moves := [.hart] } : State).moves.head? = some .hart := by decide

theorem test_hyp_ReservedWordIsIllegal :
    triggerHit (placed 0x0035000B) TriggerClass.fetch (placed 0x0035000B).pc = none ∧
    fetched (placed 0x0035000B) = some [0x0B#8, 0x00#8, 0x35#8, 0x00#8] ∧
    ofBytesLE [0x0B#8, 0x00#8, 0x35#8, 0x00#8] % 128 = 0b0001011 ∧
    Encoding.ref.decode 4 (ofBytesLE [0x0B#8, 0x00#8, 0x35#8, 0x00#8]) = none := by decide

/-- A write by the device of `REF` (agent 1) comes next. -/
def deviceWrites : State := { base 0x0#64 with moves := [.agentWrite 1 0x80001000 0x55#8] }

theorem test_hyp_OtherMovesKeepTheHart : deviceWrites.moves = Move.agentWrite 1 0x80001000 0x55#8 :: [] ∧
    (after (step deviceWrites)).map (fun t => Memory.read t.ms.mem 0x80001000) = some 0x55#8 := by decide

/-- A `PREFETCH.W` of another hart on the block of a reservation may end it (rules R102, R185); one on another block does
not. -/
theorem test_hint_of_another_hart :
    let s := fun a => { base 0x0#64 with
      cfg := { Config.refOp with breaksReservation := .yes }, reservation := some 0x80001000, moves := [.agentHint 1 a] }
    (after (step (s 0x80001020))).map (·.reservation) = some none ∧
    (after (step (s 0x80001040))).map (·.reservation) = some (some 0x80001000) := by decide

/-- A state meets the invariant: `base`, with the H-extension or without. -/
def hyper (ea : Word) : State :=
  openPmp (writeX { State.reset with cfg := { Config.refOp with hasH := true } } 10 ea)

/-- Obligations `XcmocontrolAccessByMode`, `StepKeepsTheInvariant`, and every other with the premise `State.Inv`. -/
theorem test_hyp_Inv : (base 0x80001008#64).Inv ∧ (hyper 0x80001008#64).Inv ∧
    (cached (base 0x80001008#64) true).Inv :=
  ⟨⟨by decide, by decide, by decide, by decide, by decide, by decide, by decide⟩,
   ⟨by decide, by decide, by decide, by decide, by decide, by decide, by decide⟩,
   ⟨by decide, by decide, by decide, by decide, by decide, by decide, by decide⟩⟩

theorem test_hyp_XcmocontrolHoldsLegalValues : CsrId.scmocontrol.isCmo = true ∧ CsrId.hcmocontrol ≠ .scmocontrol ∧
    CsrId.hcmocontrol.isCmo = true := by decide

theorem test_hyp_XcmocontrolFieldsStandAtTheirBits : Config.ref.mcmo.legalize = [] := by decide

/-- The rows V-ILL2 to V-ILL12 that are illegal, and an executable one of each mode. -/
theorem test_hyp_ManagementIllegalByCbme :
    let regs := fun (m s h vs : Word) =>
      { Csrs.reset with mcmocontrol := m, scmocontrol := s, hcmocontrol := h, vscmocontrol := vs }
    illegalCbme (regs 0 0 0 0) .m = false ∧ illegalCbme (regs 0 1 0 0) .s = true ∧
    illegalCbme (regs 1 0 0 0) .s = false ∧ illegalCbme (regs 1 0 0 0) .u = true ∧
    illegalCbme (regs 0 1 0 0) .u = true ∧ illegalCbme (regs 1 1 0 0) .u = false ∧
    illegalCbme (regs 1 0 1 0) .vs = false ∧ illegalCbme (regs 1 1 0 1) .vs = true ∧
    illegalCbme (regs 1 0 1 1) .vu = false ∧ illegalCbme (regs 1 1 1 0) .vu = true ∧
    illegalCbme (regs 1 1 0 1) .vu = true ∧ illegalCbme (regs 0 1 1 1) .vu = true := by decide

/-- V-ILL13: `CBWE` is a bit of its own. -/
theorem test_hyp_ZeroIllegalByCbwe :
    causeOf (exec (.cboZero 10 .default) (inMode (openPmp (base 0x80001008#64)) .u 0x1#64 0x1#64)) = some 2#64 ∧
    pcOf (exec (.cboZero 10 .default) (inMode (openPmp (base 0x80001008#64)) .u 0x3#64 0x3#64)) =
      some 0x80000004#64 := by decide

theorem test_hyp_OnlyTheExceptionsOfItsClass :
    (after (exec (.cboInval 10 .memory) (base 0x80001008#64))).isSome = true ∧
    (after (exec (.demote 10 .l1) (base 0x80001008#64))).isSome = true := by decide

/-- `mstatus` with `MPRV` and a value of `MPP`. -/
def mprv (s : State) (level : BitVec 2) : State :=
  { s with csr := { s.csr with mstatus := setBit (setMpp s.csr.mstatus level) 17 true } }

theorem test_hyp_EffectiveModeByMprv :
    (base 0x0#64).csr.mstatus.getLsbD 17 = false ∧ (mprv (base 0x0#64) 0#2).csr.mstatus.getLsbD 17 = true ∧
    mpp (mprv (base 0x0#64) 3#2).csr.mstatus = 3#2 ∧ mpp (mprv (base 0x0#64) 1#2).csr.mstatus = 1#2 ∧
    effMode (mprv (base 0x0#64) 1#2) = .s ∧ effMode (mprv (base 0x0#64) 0#2) = .u := by decide

/-- A guest: `vsatp` and `hgatp` each map the gigabyte at `0x8000_0000` to itself by one leaf, the PTE of the first at
`0x8000_3010`, of the second at `0x8000_4010`. -/
def guest (mode : Mode) (vsFlags gFlags : Nat) (m h vs : Word) : State :=
  let s := hyper 0x80001008#64
  let pte := fun (flags : Nat) => toBytesLE (0x20000000 + flags) 8
  { s with
    mode := mode,
    csr := { s.csr with
      vsatp := 0x8000000000080003#64, hgatp := 0x8000000000080004#64,
      mcmocontrol := m, hcmocontrol := h, vscmocontrol := vs },
    ms := { mem := Memory.writeBytes (Memory.writeBytes [] 0x80003010 (pte vsFlags)) 0x80004010 (pte gFlags),
            caches := [[]] } }

/-- The address a guest access ends at, with the `W` bits of its two leaves. -/
def mapped (s : State) : Option (Nat × Option Bool × Option Bool × Option Bool) :=
  match translate s .management false (effMode s) (effectiveAddress s 10) with
  | .ok t => some (t.pa, t.wVS, t.wS, t.wG)
  | .error _ => none

/-- A state whose registers all let `CBO.INVAL` on by no bit, in each governed mode, with a translation. -/
theorem test_hyp_HigherRegistersOnlyRestrict :
    mapped (inMode (paged (openPmp (base 0x80001008#64)) 0xD3) .u 0x1#64 0x1#64) =
      some (0x80001008, none, some false, none) ∧
    mapped (guest .vu 0xD7 0xD3 0x1#64 0x1#64 0x1#64) = some (0x80001008, some true, none, some false) ∧
    (0x1#64).getLsbD 9 = false ∧ (0x1#64).getLsbD 11 = false ∧ (0x0#64).getLsbD 0 = false ∧ (0x1#64).getLsbD 1 = false ∧
    causeOf (exec (.cboInval 10 .memory) (guest .vu 0xD7 0xD3 0x1#64 0x1#64 0x1#64)) = some 15#64 := by decide

/-- A walk of `satp` in `paged` with the check given: the PTE found. -/
def leafOf (s : State) (permits : Nat → Bool) : Option Nat :=
  match pageFormat .rv64 8 false with
  | none => none
  | some p =>
    match walk s.cfg p (readPte s p) permits .page 0x80001008 p.levels (atpRoot .rv64 s.csr.satp) with
    | .ok leaf => some leaf.pte
    | .error _ => none

/-- The same of `hgatp` in `guest`. -/
def guestLeafOf (s : State) (permits : Nat → Bool) : Option Nat :=
  match pageFormat .rv64 8 true with
  | none => none
  | some p =>
    match walk s.cfg p (readPte s p) permits (.guest 0x80001008) 0x80001008 p.levels (atpRoot .rv64 s.csr.hgatp) with
    | .ok leaf => some leaf.pte
    | .error _ => none

/-- Stages that map the access, and leaves that do not grant it: without `W` for `CBO.ZERO`, without `U` for a guest. -/
theorem test_hyp_LeafGrantsTheAccess :
    let s := inMode (paged (openPmp (base 0x80001008#64)) 0xD3) .u 0x1#64 0x1#64
    let g := guest .vu 0xD7 0xC3 0x1#64 0x1#64 0x1#64
    atpBare .rv64 s.csr.satp = false ∧ atpBare .rv64 g.csr.hgatp = false ∧ atpMode .rv64 s.csr.satp = 8 ∧
    firstPermits s.cfg .zero true false false 0x200000D3 = false ∧ guestPermits g.cfg .management false 0x200000C3 = false ∧
    mapped { g with csr := { g.csr with vsatp := 0#64, hgatp := 0#64 } } = some (0x80001008, none, none, none) ∧
    (firstStage s s.csr.satp (readPte s) .management true false false 0x80001008#64).toOption.isSome = true ∧
    leafOf s (fun _ => true) = some 0x200000D3 ∧ pteBit 0x200000D3 2 = false ∧
    (firstStage s s.csr.satp (readPte s) .zero true false false 0x80001008#64).toOption = none ∧
    (guestStage (guest .vu 0xD7 0xD3 0x1#64 0x1#64 0x1#64) .management false 0x80001008).toOption.isSome = true ∧
    guestLeafOf g (fun _ => true) = some 0x200000C3 ∧ pteBit 0x200000C3 4 = false ∧
    (guestStage g .management false 0x80001008).toOption = none := by decide

/-- The walk of `satp` meets that leaf. -/
theorem test_hyp_WalkMeets :
    let s := inMode (paged (openPmp (base 0x80001008#64)) 0xD3) .u 0x1#64 0x1#64
    WalkMeets s s.csr.satp false (readPte s) 0x80001008 { address := 0x80001008, pte := 0x200000D3, pteAddr := 0x80003010 } :=
  ⟨{ levels := 3, pteBytes := 8, indexBits := 9, rootExtra := 0 }, by decide, by decide, by decide⟩

/-- One failure of each kind: an invalid PTE, an invalid G-stage PTE, a table in vacant memory. -/
theorem test_hyp_FailedTranslationFaults :
    let page := inMode (paged (openPmp (base 0x80001008#64)) 0xD2) .u 0x3#64 0x3#64
    let gst := guest .vu 0xD7 0xD2 0x3#64 0x3#64 0x3#64
    let table := { page with csr := { page.csr with satp := 0x8000000000000003#64 } }
    illegalCbme page.csr .u = false ∧ triggerHit page TriggerClass.management 0x80001008#64 = none ∧
    translate page .management false .u 0x80001008#64 = .error .page ∧
    translate page .zero false .u 0x80001008#64 = .error .page ∧
    translate gst .management true .vu 0x80001008#64 = .error (.guest 0x80003010) ∧
    translate table .management false .u 0x80001008#64 = .error .access ∧
    causeOf (exec (.cboClean 10 .memory) table) = some 7#64 ∧ causeOf (exec (.cboInval 10 .memory) gst) = some 23#64 := by
  decide

/-- Obligations `ManagementNeedsJointReadOrExecute`, `ZeroNeedsFullJointWrite`. -/
theorem test_hyp_PermissionFaults :
    let s := inMode (holedPmp (base 0x80004010#64)) .s 0xF03#64 0x0#64
    illegalCbme s.csr .s = false ∧ illegalCbwe s.csr .s = false ∧
    triggerHit s TriggerClass.management 0x80004010#64 = none ∧ triggerHit s TriggerClass.zero 0x80004010#64 = none ∧
    mapped s = some (0x80004010, none, none, none) ∧ pmaConstraint s.cfg 0x80004010 = true ∧
    0x80004030 ∈ blockAddresses s.cfg 0x80004010 ∧ ∀ perm ∈ [Permission.read, .write, .execute],
      pmpAllows false perm 0x80004030 0#64 s.pmp false = false := by decide

/-- The same where the PMP allows and the address is vacant, which M-mode meets (rules R60, R236). -/
theorem test_hyp_PermissionFaults_vacant :
    let s := base 0x10#64
    triggerHit s TriggerClass.management 0x10#64 = none ∧ mapped s = some (0x10, none, none, none) ∧
    pmaConstraint s.cfg 0x10 = true ∧ regionOf s.cfg 0x10 = none ∧ pmpAllows true .read 0x10 0#64 s.pmp false = true ∧
    causeOf (exec (.cboClean 10 .memory) s) = some 7#64 ∧ causeOf (exec (.cboZero 10 .default) s) = some 7#64 := by decide

/-- A region of the kind that rule R235 leaves UNSPECIFIED: write without read. -/
theorem test_hyp_MxrHasNoEffect :
    let s := base 0x80001008#64
    let odd := { s with cfg := { s.cfg with regions := [{ Config.refMemory with r := false }] } }
    (after (exec (.cboClean 10 .memory) s)).isSome = true ∧
    refusalOf (exec (.cboClean 10 .memory) odd) = some .pmaConstraintViolated := by decide

/-- The hypotheses of `InvalDeniedByInvwe`, for `x10`. -/
def permitted (s : State) : Bool :=
  !illegalCbme s.csr s.mode && (triggerHit s TriggerClass.management (effectiveAddress s 10)).isNone &&
    match translate s .management false (effMode s) (effectiveAddress s 10) with
    | .ok t => pmaConstraint s.cfg t.pa && allJointRorX s (effMode s) t.pa
    | .error _ => false

/-- S and U rows: V-INV2, V-INV4, V-INV11, V-INV13, V-INV10. -/
theorem test_hyp_InvalDeniedByInvwe_host :
    let s := openPmp (base 0x80001008#64)
    let r := fun u => exec (.cboInval 10 .memory) u
    permitted s = true ∧ permitted (inMode s .s 0x1#64 0x0#64) = true ∧
    causeOf (r (inMode s .s 0x1#64 0x0#64)) = some 7#64 ∧ pcOf (r (inMode s .s 0xC01#64 0x0#64)) = some 0x80000004#64 ∧
    permitted (inMode (paged s 0xD3) .u 0xF03#64 0xC01#64) = true ∧
    causeOf (r (inMode (paged s 0xD3) .u 0xF03#64 0xC01#64)) = some 15#64 ∧
    causeOf (r (inMode (paged s 0xD7) .u 0x1#64 0xF01#64)) = some 7#64 ∧
    pcOf (r (inMode (paged s 0xD7) .u 0xF03#64 0xE01#64)) = some 0x80000004#64 := by decide

/-- VS and VU rows: V-INV15, V-INV17, V-INV18, V-INV19, and a denial by `mcmocontrol` alone in each mode. -/
theorem test_hyp_InvalDeniedByInvwe_guest :
    let r := fun u => exec (.cboInval 10 .memory) u
    permitted (guest .vs 0xCF 0xDF 0xF03#64 0x1#64 0x0#64) = true ∧
    causeOf (r (guest .vs 0xCF 0xDF 0xF03#64 0x1#64 0x0#64)) = some 23#64 ∧
    causeOf (r (guest .vs 0xCF 0xDF 0x1#64 0xF01#64 0x0#64)) = some 7#64 ∧
    pcOf (r (guest .vs 0xCF 0xDF 0xF03#64 0xF01#64 0x0#64)) = some 0x80000004#64 ∧
    permitted (guest .vu 0xDF 0xDF 0xF03#64 0xF01#64 0x1#64) = true ∧
    causeOf (r (guest .vu 0xDF 0xDF 0xF03#64 0xF01#64 0x1#64)) = some 15#64 ∧
    causeOf (r (guest .vu 0xDF 0xDF 0x1#64 0x1#64 0xF01#64)) = some 23#64 ∧
    causeOf (r (guest .vu 0xDF 0xDF 0x1#64 0xF01#64 0xF01#64)) = some 7#64 ∧
    pcOf (r (guest .vu 0xDB 0xDF 0xF03#64 0xF01#64 0xF01#64)) = some 0x80000004#64 := by decide

/-- V-INV4 invalidates, V-INV3 flushes; in effective M-mode the last hypothesis is met by the mode. -/
theorem test_hyp_InvalOperationByInvwi :
    let s := openPmp (cached (base 0x80001008#64) true)
    permitted (inMode s .s 0xC01#64 0x0#64) = true ∧
    invalPass 0xC01#64 (some (someJointW (inMode s .s 0xC01#64 0x0#64) .s 0x80001008)) = true ∧
    memOf 0x80001000 (exec (.cboInval 10 .memory) (inMode s .s 0xC01#64 0x0#64)) = some 0x11#8 ∧
    memOf 0x80001000 (exec (.cboInval 10 .memory) (inMode s .s 0x801#64 0x0#64)) = some 0xDD#8 ∧ effMode s = .m := by
  decide

/-- The hypotheses of the completion statements, at one state. Obligations `CleanAndFlushComplete`, `InvalCompletes`,
`ZeroCompletes`. -/
theorem test_hyp_Completes :
    let s := base 0x80001008#64
    let t : Xlate := { pa := 0x80001008, wVS := none, wS := none, wG := none, memType := 0, pteWrites := [] }
    permitted s = true ∧ illegalCbwe s.csr s.mode = false ∧
    triggerHit s TriggerClass.zero (effectiveAddress s 10) = none ∧
    translate s .management true (effMode s) (effectiveAddress s 10) = .ok t ∧
    translate s .zero false (effMode s) (effectiveAddress s 10) = .ok t ∧
    fullJointW s (effMode s) 0x80001008 = true ∧ zeroable s.cfg 0 0x80001008 = true ∧ effMode s = .m := by decide

/-- The refusal of `ZeroCompletes`: an uncacheable region. -/
theorem test_hyp_ZeroCompletes_refusal :
    let s := base 0x80001008#64
    let u := { s with cfg := { s.cfg with regions := [{ Config.refMemory with cacheable := false }] } }
    pmaConstraint u.cfg 0x80001008 = true ∧ fullJointW u .m 0x80001008 = true ∧ zeroable u.cfg 0 0x80001008 = false ∧
    refusalOf (exec (.cboZero 10 .default) u) = some .zeroOnDeviceOrUncacheable := by decide

/-- Hints: NOPs or no trigger that could be drawn, no trigger, a translation that fails, a byte without permission.
Obligations `HintsComplete`, `HintWithoutPermissionDoesNothing`, `PrefetchKeepsReads`. -/
theorem test_hyp_Hints :
    let s := base 0x80001008#64
    let holed := inMode (holedPmp (base 0x80004010#64)) .s 0x0#64 0x0#64
    s.cfg.hintTrigger = .neither ∧ s.cfg.hintAction = .no ∧
    s.triggers.all (fun t => !triggerUnspecified .rv64 t TriggerClass.management) = true ∧
    triggerHit s (TriggerClass.hint s.cfg) 0x80001008#64 = none ∧
    translate (inMode (paged (openPmp s) 0xD2) .u 0x0#64 0x0#64) .hint false .u 0x80001008#64 = .error .page ∧
    translate holed .hint false .s 0x80004010#64 =
      .ok { pa := 0x80004010, wVS := none, wS := none, wG := none, memType := 0, pteWrites := [] } ∧
    0x80004030 ∈ blockAddresses holed.cfg 0x80004010 ∧ joint holed .s .read 0x80004030 = false ∧
    joint holed .s .execute 0x80004030 = false ∧ (after (exec (.prefetchI 10 .l1) s)).isSome = true := by decide

theorem test_hyp_DemoteLosesNoData :
    let s := cached (base 0x80001008#64) true
    s.ms.copyAt 0 0x80001000 = some { block := 0x80001000, modified := true, data := block 0xDD#8 } ∧
    (List.range 1).filter (s.ms.isModified · 0x80001000) = [0] ∧ s.ms.caches.length = 1 ∧
    translate s .hint false (effMode s) (effectiveAddress s 10) =
      .ok { pa := 0x80001008, wVS := none, wS := none, wG := none, memType := 0, pteWrites := [] } ∧
    (after (exec (.demote 10 .default) s)).isSome = true := by decide

theorem test_hyp_LevelIsIgnored : Config.refOp.levelHonoured = false ∧ illegalCbwe Csrs.reset .m = false := by decide

/-- The caches of `REF` hold a Modified block, or nothing; nothing lies beyond PoC-memory; each choice is a parameter's
value. Obligations `InvalidateOperation`, `CleanOperation`, `FlushOperation`, `OnlyModifiedBlocksReachMemory`. -/
theorem test_hyp_CacheOperations :
    let s := cached (base 0x80001008#64) true
    let acc := hartAccess .management 0
    s.ms.wf s.cfg = true ∧ cacheSet s.cfg acc 0x80001008 .memory = [0] ∧ s.ms.isModified 0 0x80001000 = true ∧
    (pathOf s.cfg acc 0x80001000).beyondPoc = [] ∧ s.cfg.invalTransfers = .no ∧ s.cfg.cleanInvalidates = .no ∧
    s.ms.copyAt 0 0x80001040 = none ∧ s.ms.mayDeallocate s.cfg 0 0x80001000 .memory = true ∧ s.cfg.wf = true ∧
    s.ms.mayDeallocate s.cfg 0 0x80001000 .dropped = false ∧ s.ms.isModified 0 0x80001040 = false ∧
    (cached s false).ms.isModified 0 0x80001000 = false ∧ ((cached s false).ms.copyAt 0 0x80001000).isSome = true := by
  decide

/-- A well-formed configuration whose first cache does not track the modified state and whose second does; a third cache
is on no path. Every optional transfer is made. -/
def twoCaches : Config :=
  { Config.refOp with
    caches := [{ tracksModified := false }, { tracksModified := true }, { tracksModified := true }],
    invalTransfers := .yes, cleanInvalidates := .yes, cacheTransfers := .yes,
    paths := [{ Config.refHartPath with toPoc := [{ domain := 0, direct := [0], indirect := [] },
                                                  { domain := 1, direct := [1], indirect := [] }] }] }

/-- The block is in the first two caches. -/
def twoCopies : MemSys :=
  { mem := [], caches := [[{ block := 0x80001000, modified := false, data := block 0xDD#8 }],
                          [{ block := 0x80001000, modified := true, data := block 0xDD#8 }], []] }

/-- Obligations `DataWriteMakesModified`, `UntrackedWriteGoesOn`, `ReadAfterWrite` (both premises), and the choices
`yes` of `InvalidateOperation` and `CleanOperation`. -/
theorem test_hyp_DataWrites :
    twoCaches.wf = true ∧ twoCopies.wf twoCaches = true ∧
    hopsOf twoCaches (hartAccess .store 0) 0x80001000 = [{ domain := 0, direct := [0], indirect := [] }] ++
      { domain := 1, direct := [1], indirect := [] } :: [] ∧
    twoCopies.absorbs twoCaches [0] 0x80001000 = false ∧ tracks twoCaches 0 = false ∧ tracks twoCaches 1 = true ∧
    0 ∈ hopCaches false { domain := 0, direct := [0], indirect := [] } ∧
    1 ∈ hopCaches false { domain := 1, direct := [1], indirect := [] } ∧
    (twoCopies.copyAt 0 0x80001000).isSome = true ∧ (twoCopies.copyAt 1 0x80001000).isSome = true ∧
    hopsOf twoCaches (hartAccess .load 0) 0x80001000 = hopsOf twoCaches (hartAccess .store 0) 0x80001000 ∧
    (hartAccess .load 0).kind ∈ [AccessKind.load, .store, .zero] ∧ twoCaches.cacheTransfers ≠ .no ∧
    twoCaches.invalTransfers = .yes ∧ twoCaches.cleanInvalidates = .yes := by decide

/-- A block goes from any cache to any other (rules R65, R66): the third cache takes it from the second, or from memory,
and gets it as Modified on a deallocation; the first, which does not track that state, gets it as Unmodified, and memory
its bytes, as memory does where it goes outward (log entry 16). Obligations `AllocationBringsTheSource`,
`OnlyModifiedBlocksReachMemory`. -/
theorem test_moves_between_caches :
    twoCopies.wf twoCaches = true ∧ mayBeCached twoCaches 0x80001000 = true ∧ twoCopies.copyAt 2 0x80001000 = none ∧
    twoCopies.mayAllocate twoCaches 2 0x80001000 (some 1) = true ∧
    twoCopies.mayAllocate twoCaches 2 0x80001000 none = true ∧
    ((MemSys.allocate twoCaches 2 0x80001000 none true twoCopies).copyAt 2 0x80001000).map
      (fun c => (c.modified, c.data.head?)) = some (false, some 0x00#8) ∧
    ((MemSys.allocate twoCaches 2 0x80001000 (some 1) true twoCopies).copyAt 2 0x80001000).map
      (fun c => (c.modified, c.data.head?)) = some (true, some 0xDD#8) ∧
    twoCopies.mayDeallocate twoCaches 1 0x80001000 (.cache 2) = true ∧
    twoCopies.mayDeallocate twoCaches 0 0x80001000 .memory = false ∧
    ((MemSys.deallocate twoCaches 1 0x80001000 (.cache 2) twoCopies).copyAt 2 0x80001000).map (·.modified) = some true ∧
    ((MemSys.deallocate twoCaches 1 0x80001000 (.cache 0) twoCopies).copyAt 0 0x80001000).map (·.modified) = some false ∧
    Memory.read (MemSys.deallocate twoCaches 1 0x80001000 (.cache 0) twoCopies).mem 0x80001000 = 0xDD#8 ∧
    Memory.read (MemSys.deallocate twoCaches 1 0x80001000 .outward twoCopies).mem 0x80001000 = 0xDD#8 := by decide

/-- A coherent domain of two private caches, of two harts: agreement is asked of their copies (rule R79). -/
def coherent : Config :=
  { Config.refOp with
    caches := [{ tracksModified := true }, { tracksModified := true }],
    regions := [{ Config.refMemory with hardwareCoherent := true }],
    paths := [{ Config.refHartPath with toPoc := [{ domain := 0, direct := [0], indirect := [1] }] },
              { Config.refHartPath with agent := 1, toPoc := [{ domain := 0, direct := [1], indirect := [0] }] }] }

/-- A store of one hart reaches the copy of the other; caches of one domain that differ are no state of the machine. -/
theorem test_coherent_domain :
    let copy := fun v : Byte => ({ block := 0x80001000, modified := false, data := block v } : Copy)
    let same : MemSys := { mem := [], caches := [[copy 0x11#8], [copy 0x11#8]] }
    coherent.wf = true ∧ same.domainsAgree coherent = true ∧
    ({ same with caches := [[copy 0x11#8], [copy 0x22#8]] } : MemSys).domainsAgree coherent = false ∧
    (MemSys.writeByte coherent 0 (hartAccess .store 0) 0x80001000 0x55#8 same).domainsAgree coherent = true ∧
    MemSys.readByte coherent (MemSys.writeByte coherent 0 (hartAccess .store 0) 0x80001000 0x55#8 same)
      (agentAccess 1 .load) 0x80001000 = 0x55#8 := by decide

/-- The number of no `xcmocontrol` register is that of a standard CSR (`mie`, `misa`, `cycle`, `hpmcounter31h`) or of
another of the four (D4). -/
theorem test_csr_numbers :
    csrNumbersDistinct Config.refOp = true ∧
    ∀ n ∈ [0x304#12, 0x301#12, 0xC00#12, 0xC9F#12, Config.refOp.scmo.number],
      csrNumbersDistinct { Config.refOp with mcmo := { Config.refOp.mcmo with number := n } } = false := by decide

/-- Two rules with one domain of different caches, a path that goes through a domain twice, loads that take another path
than stores, and paths that share a domain and part beyond it, are refused (rules R79, R80, R99, R82). -/
theorem test_config_wf_refuses :
    domainsWf { coherent with
      paths := [{ Config.refHartPath with toPoc := [{ domain := 0, direct := [0], indirect := [1] }] },
                { Config.refHartPath with agent := 1, toPoc := [{ domain := 0, direct := [1], indirect := [] }] }] } = false ∧
    PathRule.wf twoCaches { Config.refHartPath with
      toPoc := [{ domain := 0, direct := [0], indirect := [] }, { domain := 0, direct := [1], indirect := [] }] } = false ∧
    PathRule.kindsWf { Config.refHartPath with kinds := [.store] } = false ∧
    convergesInDomains { twoCaches with
      paths := { Config.refHartPath with agent := 1, toPoc := [{ domain := 0, direct := [0], indirect := [] }] }
        :: twoCaches.paths } = false := by decide

/-- The hart has stored a byte, and a cache is to allocate another block. -/
def stored : State :=
  hartWrite { cached (base 0x0#64) false with moves := [.allocate 0 0x80001040 none false] } .store 0 0x80001000 [0x55#8]

theorem test_hyp_stored_Inv : stored.Inv :=
  ⟨by decide, by decide, by decide, by decide, by decide, by decide, by decide⟩

/-- A stored byte is among the latest; moves that keep it are made, sending the modified block to memory or outward among
them, and one that takes it out of the hart's reach is not (log entry 45). Obligations `LatestStoresAreRead`,
`FenceMakesFetchesSeeStores`. -/
theorem test_hyp_LatestStores :
    let s := stored
    let e : LatestByte := { address := 0x80001000, kind := .load, memType := 0, values := [0x55#8] }
    s.latest = [e] ∧ hartLoadByte s 0 0x80001000 = 0x55#8 ∧ (after (step s)).isSome = true ∧
    offPath s 0 0x80001000 e = false ∧ (s.ms.copyAt 0 0x80001000).map (·.modified) = some true ∧
    (after (step { s with moves := [.deallocate 0 0x80001000 .memory] })).isSome = true ∧
    (after (step { s with moves := [.deallocate 0 0x80001000 .outward] })).map (fun t =>
      (t.ms.copyAt 0 0x80001000, Memory.read t.ms.mem 0x80001000, t.latest)) = some (none, 0x55#8, [e]) ∧
    (after (exec (.demote 10 .default) s)).isSome = true ∧ 0 ∈ memTypesOf s.cfg ∧
    (after (step { s with
      cfg := twoCaches,
      ms := { mem := [], caches := [[], [{ block := 0x80001000, modified := true, data := block 0x55#8 }], []] },
      moves := [.deallocate 1 0x80001000 (.cache 2)] })) = none := by decide

/-- Obligation `LatestStoresAreRead`, the clauses on later stores, on clean and flush, and on what comes besides. -/
theorem test_hyp_LatestStores_later :
    let s := stored
    let e : LatestByte := { address := 0x80001000, kind := .load, memType := 0, values := [0x55#8] }
    supersedes s (hartAccess .store 0) 0x80001001 4 e = false ∧ supersedes s (hartAccess .store 0) 0x80000FFD 4 e = true ∧
    supersedes s (hartAccess .store 0) 0x80000FFC 4 e = false ∧ bytesBring 0x80000FFD [0#8, 1#8, 2#8, 3#8] e = some 3#8 ∧
    e.bring (some 3#8) = { e with values := [3#8, 0x55#8] } ∧ e.bring (some 0x55#8) = e ∧
    (manageBlock s .clean (hartAccess .management 0) 0x80001000 .memory).latest = [e] ∧
    (manageBlock s .flush (hartAccess .management 0) 0x80001000 .memory).latest = [e] := by decide

/-- The hart's loads and stores go through cache 0; the copies another agent keeps, in a domain of its own, are in cache
1; a third agent has no caches. -/
def apart : Config :=
  { coherent with
    regions := [Config.refMemory],
    paths := [Config.refHartPath,
              { Config.refHartPath with agent := 1, toPoc := [{ domain := 1, direct := [1], indirect := [] }] },
              { Config.refHartPath with agent := 2, toPoc := [] }] }

/-- A copy of the block at `0x8000_1000`. -/
def copyWith (modified : Bool) (v : Byte) : Copy := { block := 0x80001000, modified := modified, data := block v }

/-- The hart's load of the block's first byte must return `v`. -/
def mustReturn (v : Byte) : LatestByte := { address := 0x80001000, kind := .load, memType := 0, values := [v] }

/-- The agent of another domain writes its block back over the hart's store; the hart's unmodified copy may then be
dropped, and its load return either (rules R66, R80). -/
theorem test_drop_after_a_foreign_write_back :
    let s := { base 0x0#64 with
      cfg := apart,
      ms := { mem := Memory.writeBytes [] 0x80001000 (block 0x55#8), caches := [[copyWith false 0x55#8], [copyWith true 0x22#8]] },
      latest := [mustReturn 0x55#8],
      moves := [.deallocate 1 0x80001000 .memory, .deallocate 0 0x80001000 .dropped] }
    s.cfg.wf = true ∧ s.latestWf = true ∧
    (after (step s)).map (·.latest) = some [{ mustReturn 0x55#8 with values := [0x22#8, 0x55#8] }] ∧
    ((after (step s)).bind fun t => after (step t)).map (fun t => hartLoadByte t 0 0x80001000) = some 0x22#8 := by decide

/-- A cache off the path of the hart's loads takes the block of the hart's store as Unmodified, not as Modified: it could
write that store back over a later one (rules R99, R100, R103). -/
theorem test_modified_stays_on_the_path :
    let s := hartWrite { base 0x0#64 with
      cfg := apart, ms := { mem := [], caches := [[copyWith false 0x11#8], []] } } .store 0 0x80001000 [0x55#8]
    leavesLoads s.cfg 0x80001000 0 1 = true ∧ s.ms.mayAllocate s.cfg 1 0x80001000 (some 0) = true ∧
    after (otherMove s (.allocate 1 0x80001000 (some 0) true)) = none ∧
    (after (otherMove s (.allocate 1 0x80001000 (some 0) false))).isSome = true ∧
    after (otherMove s (.deallocate 0 0x80001000 (.cache 1))) = none := by decide

/-- Obligation `LatestStoresAreRead`, the clause on blocks Modified off the path: the other agent's write makes one so. -/
theorem test_hyp_ModifiedOffLoads :
    let s := { base 0x0#64 with cfg := apart, ms := { mem := [], caches := [[], [copyWith false 0x11#8]] } }
    MemSys.ModifiedOffLoads s.cfg (agentStore s (agentAccess 1 .store) 0x80001000 [0x22#8]).ms 0 0x80001000 :=
  ⟨1, by decide, by decide⟩

/-- The hart's loads and stores meet cache 0 and then cache 1, each in a domain of its own; an agent has no caches. -/
def nested : Config :=
  { apart with
    paths := [{ Config.refHartPath with toPoc := [{ domain := 0, direct := [0], indirect := [] },
                                                  { domain := 1, direct := [1], indirect := [] }] },
              { Config.refHartPath with agent := 2, toPoc := [] }] }

/-- The hart's store is Modified in cache 0 over an older copy in cache 1, and the agent writes memory: the block goes
outward, not past the older copy to memory (rule R99). -/
theorem test_no_write_back_past_an_older_copy :
    let s := { base 0x0#64 with
      cfg := nested, ms := { mem := [], caches := [[copyWith true 0x55#8], [copyWith false 0x11#8]] },
      latest := [mustReturn 0x55#8] }
    let written := agentStore s (agentAccess 2 .store) 0x80001000 [0x22#8]
    nested.wf = true ∧ s.latestWf = true ∧
    ordered s (agentAccess 2 .store) 0x80001000 0 = false ∧
    written.latest = [{ mustReturn 0x55#8 with values := [0x22#8, 0x55#8] }] ∧
    after (otherMove written (.deallocate 0 0x80001000 .memory)) = none ∧
    (after (otherMove written (.deallocate 0 0x80001000 .outward))).map (hartLoadByte · 0 0x80001000) =
      some 0x55#8 := by decide

/-- A flush that meets two Modified copies on the path makes the one visible that the hart's load must return, and brings
nothing (rules R99, R152 (a)). Obligation `LatestStoresAreRead`. -/
theorem test_flush_shows_the_latest_store :
    let s := { base 0x0#64 with
      cfg := nested, ms := { mem := [], caches := [[copyWith true 0x55#8], [copyWith true 0x11#8]] },
      latest := [mustReturn 0x55#8] }
    let flushed := manageBlock s .flush (hartAccess .management 0) 0x80001000 .memory
    s.latestWf = true ∧ cacheSet s.cfg (hartAccess .management 0) 0x80001000 .memory = [0, 1] ∧
    flushed.latest = s.latest ∧ Memory.read flushed.ms.mem 0x80001000 = 0x55#8 := by decide

/-- Loads, stores and management instructions of the hart begin in one domain. -/
theorem test_hyp_entersTogether :
    entersTogether nested (hartAccess .management 0) (mustReturn 0x55#8).access 0x80001000 := ⟨rfl, .inr rfl⟩

/-- Pages of type 0 lead through cache 0 and then cache 2, pages of type 1 through cache 1 and then cache 2, or straight to
memory. -/
def twoTypes (uncached : Bool) : Config :=
  let path := fun (t c : Nat) => { Config.refHartPath with
    memTypes := [t], toPoc := [{ domain := c, direct := [c], indirect := [] }, { domain := 2, direct := [2], indirect := [] }] }
  { coherent with
    caches := List.replicate 3 { tracksModified := true }, regions := [Config.refMemory], memTypes := [(1, !uncached)],
    paths := [path 0 0, if uncached then { path 1 1 with toPoc := [] } else path 1 1] }

/-- Stores of the hart through pages of two types, the older of type 0 Modified beyond the newer: a flush through a page of
type 0 makes the newer visible, whatever the loads of type 1 must return (rules R99, R100, R152 (a)). -/
theorem test_flush_shows_the_latest_store_of_its_type :
    let flushed := fun (uncached : Bool) (one : List Copy) (mem : Byte) => manageBlock { base 0x0#64 with
      cfg := twoTypes uncached,
      ms := { mem := Memory.writeBytes [] 0x80001000 (block mem),
              caches := [[copyWith true 0x55#8], one, [copyWith true 0x11#8]] },
      latest := [{ mustReturn 0x77#8 with memType := 1 }, { mustReturn 0x55#8 with values := [0x77#8, 0x55#8] }] }
      .flush (hartAccess .management 0) 0x80001000 .memory
    (twoTypes false).wf = true ∧ (twoTypes true).wf = true ∧
    hartLoadByte (flushed false [copyWith true 0x77#8] 0x0#8) 0 0x80001000 = 0x55#8 ∧
    hartLoadByte (flushed false [copyWith true 0x77#8] 0x0#8) 1 0x80001000 = 0x77#8 ∧
    hartLoadByte (flushed true [] 0x77#8) 0 0x80001000 = 0x55#8 := by decide

/-- After the agent's write and the hart's write-back, cache 0 takes the block from memory, and not an older copy of the
other domain: the load returns one of the two stores (rule R100). -/
theorem test_no_older_copy_after_a_foreign_write :
    let s := { base 0x0#64 with
      cfg := apart, ms := { mem := [], caches := [[copyWith true 0x55#8], [copyWith false 0x11#8]] },
      latest := [mustReturn 0x55#8] }
    let back := (after (otherMove (agentStore s (agentAccess 2 .store) 0x80001000 [0x22#8])
      (.deallocate 0 0x80001000 .memory)))
    s.latestWf = true ∧ (back.bind fun t => after (otherMove t (.allocate 0 0x80001000 (some 1) false))) = none ∧
    (back.bind fun t => after (otherMove t (.allocate 0 0x80001000 none false))).map (hartLoadByte · 0 0x80001000) =
      some 0x55#8 := by decide

/-- Fetches have a cache of their own, cache 1, loads and stores cache 0. -/
def splitCaches : Config :=
  { coherent with
    regions := [Config.refMemory],
    paths := [{ Config.refHartPath with kinds := [.fetch], toPoc := [{ domain := 1, direct := [1], indirect := [] }] },
              Config.refHartPath] }

/-- The hart has stored `0x55` in a block whose copies hold `0x11`; the fetches' copy is then replaced. -/
def split (fetched : List Byte) : State :=
  let copy := fun (d : List Byte) => ({ block := 0x80001000, modified := false, data := d } : Copy)
  let s := hartWrite { base 0x0#64 with cfg := splitCaches, ms := { mem := [], caches := [[copy (block 0x11#8)], []] } }
    .store 0 0x80001000 [0x55#8]
  { s with ms := s.ms.putCopy 1 (copy fetched) }

/-- `FENCE.I` where the fetches' cache holds old bytes (rule R103): they then see the store. -/
theorem test_fence_i :
    let s := split (block 0x11#8)
    splitCaches.wf = true ∧ MemSys.readByte s.cfg s.ms (hartAccess .fetch 0) 0x80001000 = 0x11#8 ∧
    (after (execBase 0x0000100F#32 s)).map (fun t =>
      (MemSys.readByte s.cfg t.ms (hartAccess .fetch 0) 0x80001000, hartLoadByte t 0 0x80001000)) =
        some (0x55#8, 0x55#8) := by decide

/-- The fetches' copy already holds the store and memory does not: after `FENCE.I` that copy may leave its cache, and the
fetches see the store still (rules R66, R103). -/
theorem test_fence_i_then_drop :
    let s := split ((block 0x11#8).set 0 0x55#8)
    ((after (execBase 0x0000100F#32 s)).bind fun t => after (otherMove t (.deallocate 1 0x80001000 .dropped))).map (fun t =>
      (MemSys.readByte s.cfg t.ms (hartAccess .fetch 0) 0x80001000, hartLoadByte t 0 0x80001000)) =
        some (0x55#8, 0x55#8) := by decide

/-- A store, `FENCE.I`, a second store: the fetches' cache may drop its copy and take memory's, and no copy of another
domain from before the first store (rule R103). -/
theorem test_fence_i_binds_later_fetches :
    let s := { base 0x0#64 with
      cfg := { splitCaches with
        caches := splitCaches.caches ++ [{ tracksModified := true }],
        paths := { Config.refHartPath with agent := 1, toPoc := [{ domain := 2, direct := [2], indirect := [] }] }
          :: splitCaches.paths },
      ms := { mem := [], caches := [[copyWith false 0x11#8], [copyWith false 0x11#8], [copyWith false 0x11#8]] } }
    let fenced := after (execBase 0x0000100F#32 (hartWrite s .store 0 0x80001000 [0x55#8]))
    let refetched := fun (source : Option Nat) => ((fenced.map fun t => hartWrite t .store 0 0x80001000 [0x66#8]).bind
      fun t => after (otherMove t (.allocate 1 0x80001000 source false))).map
      fun t => MemSys.readByte t.cfg t.ms (hartAccess .fetch 0) 0x80001000
    s.cfg.wf = true ∧ (fenced.map fun t => t.ms.copyAt 1 0x80001000) = some none ∧
    refetched (some 2) = none ∧ refetched none = some 0x55#8 ∧ refetched (some 0) = some 0x66#8 := by decide

/-- `FENCE.I` where memory holds the latest store already: the older Modified copy beyond the hart's own, which could be
written back over it, goes (rule R103). -/
theorem test_fence_i_cleans_the_path_of_loads :
    let s := { base 0x0#64 with
      cfg := { nested with
        caches := nested.caches ++ [{ tracksModified := true }],
        paths := { Config.refHartPath with kinds := [.fetch], toPoc := [{ domain := 2, direct := [2], indirect := [] }] }
          :: nested.paths },
      ms := { mem := Memory.writeBytes [] 0x80001000 (block 0x55#8),
              caches := [[copyWith true 0x55#8], [copyWith true 0x11#8], []] },
      latest := [mustReturn 0x55#8] }
    s.cfg.wf = true ∧ s.latestWf = true ∧
    (after (execBase 0x0000100F#32 s)).map (fun t =>
      (t.ms.copyAt 0 0x80001000, t.ms.copyAt 1 0x80001000, Memory.read t.ms.mem 0x80001000)) =
        some (some (copyWith false 0x55#8), some (copyWith false 0x55#8), 0x55#8) := by decide

/-- `FENCE.I` where the fetches' cache holds another domain's Modified block: it goes to memory with the hart's store in it
(rules R66, R103). -/
theorem test_fence_i_cleans_the_path_of_fetches :
    let s := { split (block 0x22#8) with latest := [mustReturn 0x55#8] }
    let t := after (execBase 0x0000100F#32 { s with ms := s.ms.putCopy 1 (copyWith true 0x22#8) })
    s.latestWf = true ∧ (t.map fun t => t.ms.isModified 1 0x80001000) = some false ∧
    t.map (fun t => (Memory.read t.ms.mem 0x80001000, Memory.read t.ms.mem 0x80001001,
      MemSys.readByte t.cfg t.ms (hartAccess .fetch 0) 0x80001000, hartLoadByte t 0 0x80001000)) =
        some (0x55#8, 0x22#8, 0x55#8, 0x55#8) := by decide

theorem test_hyp_LoadAfterInvalidateIsFree :
    let s := { State.reset with unspecified := [0x80001000] }
    0x80001000 ∈ s.unspecified ∧ s.cfg.loadAfterInvalDrawn = true ∧ 0x80001001 ∉ s.unspecified := by decide

/-- The three handlers: by default M, `medeleg` from U to S, `hedeleg` from VU on to VS. Obligations
`TrapEntryWritesTheTrapRegisters`, `DelegationByCause`. -/
theorem test_hyp_TrapTargets :
    let c := { Csrs.reset with medeleg := 0x8000#64, hedeleg := 0x8000#64 }
    trapTarget (base 0x0#64) .storePage = .m ∧
    trapTarget { base 0x0#64 with csr := c, mode := .u } .storePage = .s ∧
    trapTarget { hyper 0x0#64 with csr := c, mode := .vu } .storePage = .vs ∧
    trapTarget { hyper 0x0#64 with csr := { c with medeleg := 0x808000#64, hedeleg := 0x808000#64 }, mode := .vu }
      .storeGuestPage = .s := by decide

/-- A CMO instruction that traps on an address, and one that is illegal. -/
theorem test_hyp_TrapValueIsInTheBlock :
    let s := inMode (base 0x80004010#64) .s 0x1#64 0x0#64
    (Instr.cboClean 10 .memory).parts = some (.clean, 10, 0) ∧ s.cfg.wf = true ∧ s.cfg.tval = .info ∧
    (after (exec (.cboClean 10 .memory) s)).map (fun t => (t.csr.mcause, t.csr.mtval)) = some (7#64, 0x80004010#64) ∧
    causeOf (exec (.cboZero 10 .default) s) = some 2#64 := by decide

theorem test_hyp_ExceptionsArePrecise :
    Takes State.reset .breakpoint
      (.next (takeTrap State.reset { cause := .breakpoint, tval := 0#64, gpa := 0, gva := false })) := ⟨_, _, _, rfl⟩

theorem test_hyp_ReturnAfterTrap :
    let s := inMode (base 0x0#64) .u 0x0#64 0x0#64
    s.modeLegal = true ∧ instrAligned s.cfg s.pc = true ∧ truncX s.cfg s.pc = s.pc ∧ trapTarget s .storeAccess = .m := by decide

/-- Obligations `TriggerClassOfCmoInstructions`, `TriggerBreaksBeforeTheOperation`, each clause. -/
theorem test_hyp_Triggers :
    let h := { Config.refOp with hintTrigger := .loadAndStore }
    let s := watch (base 0x80001008#64) 0x2 0x80001008#64
    let t : Trigger := { tdata1 := 0x6000000000000042#64, tdata2 := 0x80001008#64 }
    s.triggers = [t] ∧ triggerType .rv64 t = 6 ∧ triggerInMode .rv64 t .m = true ∧ triggerOnData .rv64 t = false ∧
    triggerMatches t 0x80001008#64 = true ∧ triggerMatches t 0x80001009#64 = false ∧ triggerInMode .rv64 t .s = false ∧
    triggerHit { s with mode := .s } TriggerClass.management 0x80001008#64 = none ∧
    triggerHit s TriggerClass.management 0x80001009#64 = none ∧ illegalCbme s.csr s.mode = false ∧
    triggerHit s TriggerClass.management (effectiveAddress s 10) = some .breakpoint ∧
    triggerHit s TriggerClass.zero (effectiveAddress s 10) = some .breakpoint ∧ illegalCbwe s.csr s.mode = false ∧
    triggerHit { s with cfg := h } (TriggerClass.hint h) (effectiveAddress s 10) = some .breakpoint := by decide

/-- The triggers whose effect on a CMO instruction is drawn, whatever its class: a `type=2` trigger on loads (rule R248)
and a data match on loads (rule R250), on `CBO.ZERO` and on hints, but for hints that are NOPs (rules R210, R251; I23).
-/
theorem test_hyp_Triggers_drawn :
    let old : Trigger := { tdata1 := 0x2000000000000041#64, tdata2 := 0x80001008#64 }
    let data : Trigger := { tdata1 := 0x6000000000200041#64, tdata2 := 0x0#64 }
    let s := { base 0x80001008#64 with cfg := { Config.refOp with mcontrolFires := .yes, dataMatchFires := .yes } }
    triggerInMode .rv64 old .m = true ∧ triggerType .rv64 old = 2 ∧ triggerOnData .rv64 old = false ∧
    old.tdata1.getLsbD 0 = true ∧ triggerInMode .rv64 data .m = true ∧ triggerOnData .rv64 data = true ∧
    causeOf (exec (.cboZero 10 .default) { s with triggers := [old] }) = some 3#64 ∧
    s.cfg.hintTrigger = .neither ∧ s.cfg.hintAction = .no ∧
    causeOf (exec (.demote 10 .default) { s with cfg := { s.cfg with hintAction := .yes }, triggers := [data] }) =
      some 3#64 ∧
    pcOf (exec (.demote 10 .default) { s with triggers := [old, data] }) = some 0x80000004#64 := by decide

/-- A state out of reset other than `State.reset`: any legal `xcmocontrol` values (rule R46). -/
theorem test_hyp_AfterReset :
    let s := { base 0x80001008#64 with csr := { Csrs.reset with mcmocontrol := 0x703#64, scmocontrol := 0x1#64 } }
    State.AfterReset s ∧ (after (exec (.cboInval 10 .memory) s)).isSome = true :=
  ⟨⟨by decide, by decide, by decide, by decide, by decide, by decide, by decide⟩, by decide⟩

/-- Obligations `StepKeepsTheInvariant`, `StepKeepsTheConfiguration`. -/
theorem test_hyp_Step : (after (step (placed 0x0025000B))).isSome = true ∧ (after (step State.reset)).isSome = true := by
  decide

end Sys2Proof.Tests
end

section
/-!
PROOFS. The obligations of spec/10_state.md: what a step is and what its parts keep, the configuration, the `xcmocontrol`
registers, the integer registers, cache blocks, and the state after reset.
-/

namespace Sys2Proof.Machine

/-! ### What a step is (rules R22, R127, R245) -/

/-- Where the hart moves, a step is the instruction at `pc`, its move taken off the list. -/
theorem step_eq_hartStep {s : State} (h : s.moves = [] ∨ s.moves.head? = some .hart) :
    step s = hartStep { s with moves := s.moves.tail } := by
  unfold step
  cases hm : s.moves with
  | nil =>
    show hartStep s = hartStep { s with moves := [] }
    rw [← hm]
  | cons m rest =>
    have hart : m = .hart := by simpa [hm] using h
    simp [hart]

/-- Every other step is the move that stands first on the list. -/
theorem step_eq_otherMove {s : State} {m : Move} {rest : List Move} (hm : s.moves = m :: rest) (h : m ≠ .hart) :
    step s = otherMove { s with moves := rest } m := by
  simp [step, hm, h]

/-- The hart runs the CMO instruction its fetched bytes decode to. -/
theorem hartStep_decoded {s : State} {bytes : List Byte} {i : Instr} (ht : triggerHit s TriggerClass.fetch s.pc = none)
    (hf : fetchInstruction s = .ok bytes) (hd : s.cfg.enc.decode bytes.length (ofBytesLE bytes) = some i) :
    hartStep s = exec i (withWord s bytes) := by
  simp [hartStep, beforeInstruction, ht, hf, hd]

/-- What stands in the way of an instruction is an exception of the hart, or a refusal. -/
theorem beforeInstruction_error {s t : State} {r : Result} (h : beforeInstruction s = .error r) (ht : r = .next t) :
    ∃ e, Takes s e (.next t) := by
  subst ht
  unfold beforeInstruction at h
  split at h
  · cases h
  · injection h with h
    exact ⟨.breakpoint, _, _, _, h.symm⟩
  · split at h
    · next e _ _ _ =>
      injection h with h
      exact ⟨e, _, _, _, h.symm⟩
    · cases h
    · cases h

/-- A word that is no CMO instruction is illegal, or a base instruction. -/
theorem execOther_next {len w : Nat} {s t : State} (h : execOther len w s = .next t) :
    Takes s .illegalInstruction (.next t) ∨ execBase (BitVec.ofNat 32 w) s = .next t := by
  have hillegal : Takes s .illegalInstruction (.next (raiseIllegal s)) := ⟨_, _, _, rfl⟩
  unfold execOther at h
  split at h
  · exact .inl (h ▸ hillegal)
  · split at h
    · split at h
      · exact .inl (h ▸ hillegal)
      · exact .inr h
    · cases h

/-- A property of states that every part of a step keeps: the two records a step makes before its part begins, taking an
exception, an instruction of the extension, a base instruction, and a move that is not the hart's. -/
structure KeptByParts (P : State → Prop) : Prop where
  moves : ∀ s rest, P s → P { s with moves := rest }
  word : ∀ s bytes, P s → P (withWord s bytes)
  takes : ∀ s t e, P s → Takes s e (.next t) → P t
  exec : ∀ s i, P s → Always P (exec i s)
  base : ∀ s w, P s → Always P (execBase w s)
  other : ∀ s m, P s → Always P (otherMove s m)

theorem KeptByParts.hartStep {P : State → Prop} (hP : KeptByParts P) {s : State} (h : P s) :
    Always P (hartStep s) := by
  intro t ht
  unfold Machine.hartStep at ht
  split at ht
  · next r hr =>
    obtain ⟨e, htakes⟩ := beforeInstruction_error hr ht
    exact hP.takes s t e h htakes
  · next bytes _ =>
    have hw := hP.word s bytes h
    split at ht
    · next i _ => exact hP.exec _ i hw t ht
    · rcases execOther_next ht with htakes | hbase
      · exact hP.takes _ t _ hw htakes
      · exact hP.base _ _ hw t hbase

/-- What every part of a step keeps, a step keeps. -/
theorem KeptByParts.step {P : State → Prop} (hP : KeptByParts P) {s : State} (h : P s) : Always P (step s) := by
  have hmoves := hP.moves s
  cases hm : s.moves with
  | nil =>
    rw [step_eq_hartStep (.inl hm)]
    exact hP.hartStep (hmoves _ h)
  | cons m rest =>
    by_cases hart : m = .hart
    · rw [step_eq_hartStep (.inr (by simp [hm, hart]))]
      exact hP.hartStep (hmoves _ h)
    · rw [step_eq_otherMove hm hart]
      exact hP.other _ m (hmoves _ h)

/-! ### The invariant -/

theorem keptByParts_inv : KeptByParts State.Inv where
  moves _ _ h := h.of_same rfl rfl rfl h.sound h.unspecified h.latest
  word _ _ h := h.of_same rfl rfl rfl h.sound h.unspecified h.latest
  takes _ _ _ h ht := ht.inv h
  exec _ i h := exec_inv i h
  base _ w h := execBase_inv w h
  other _ m h := otherMove_inv m h

/-- Settles O59: the parts of a step keep the invariant, so a step does. -/
theorem stepKeepsTheInvariant : Obligations.StepKeepsTheInvariant :=
  fun _ t h ht => keptByParts_inv.step h t ht

/-- Settles O9: nothing stands in the way of the instruction that the bytes decode to. -/
theorem stepRunsTheDecodedInstruction : Obligations.StepRunsTheDecodedInstruction := by
  rintro s s' bytes i hm rfl ht hf hd
  rw [step_eq_hartStep hm]
  exact hartStep_decoded ht hf hd

/-! ### The configuration (log entry 15) -/

theorem Takes.cfg {s t : State} {e : Exception} (h : Takes s e (.next t)) : t.cfg = s.cfg := by
  obtain ⟨tval, gpa, gva, h⟩ := h
  injection h with h
  rw [h, takeTrap_cfg]

/-- Every next state has the configuration `c`. -/
abbrev HasCfg (c : Config) : Result → Prop := Always fun t => t.cfg = c

theorem execManagement_cfg {kind : ManagementKind} {rs1 : RegIdx} {poc : Poc} {s : State} :
    HasCfg s.cfg (execManagement kind rs1 poc s) := by
  intro t ht
  rcases execManagement_next ht with ⟨-, htk⟩ | ⟨-, e, -, htk⟩ | ⟨tr, -, -, -, -, -, rfl⟩
  · exact htk.cfg
  · exact htk.cfg
  · simp

theorem execCboZero_cfg {rs1 : RegIdx} {level : Level} {s : State} : HasCfg s.cfg (execCboZero rs1 level s) := by
  intro t ht
  rcases execCboZero_next ht with ⟨-, htk⟩ | ⟨-, e, -, htk⟩ | ⟨tr, -, -, -, -, -, rfl⟩
  · exact htk.cfg
  · exact htk.cfg
  · simp

theorem execHint_cfg {kind : HintKind} {rs1 : RegIdx} {level : Level} {s : State} :
    HasCfg s.cfg (execHint kind rs1 level s) := by
  intro t ht
  rcases execHint_next ht with htk | rfl
  · exact htk.cfg
  · rcases hintAccess_cases s kind level (effectiveAddress s rs1) with hr | ⟨tr, -, hr⟩ <;> simp [hr]

theorem exec_cfg (i : Instr) (s : State) : HasCfg s.cfg (exec i s) := by
  cases i with
  | cboInval rs1 poc => exact execManagement_cfg
  | cboClean rs1 poc => exact execManagement_cfg
  | cboFlush rs1 poc => exact execManagement_cfg
  | cboZero rs1 level => exact execCboZero_cfg
  | prefetchR rs1 level => exact execHint_cfg
  | prefetchW rs1 level => exact execHint_cfg
  | prefetchI rs1 level => exact execHint_cfg
  | demote rs1 level => exact execHint_cfg
  | cboSize => exact .refused _

@[simp] theorem csrWrite_cfg (s : State) (v : Word) (id : CsrId) : (csrWrite s v id).cfg = s.cfg := by
  cases id with
  | tselect => simp only [csrWrite]; split <;> rfl
  | pmpaddr i => simp only [csrWrite]; split <;> rfl
  | _ => rfl

@[simp] theorem storeRegister_cfg (s : State) (r : RegIdx) (memType pa size : Nat) :
    (storeRegister s r memType pa size).cfg = s.cfg := by simp [storeRegister]

theorem retireWith_cfg {s : State} {c : Config} (rd : RegIdx) (v : Word) (h : s.cfg = c) :
    HasCfg c (retireWith s rd v) := .next (by simpa using h)

theorem baseTrap_cfg {s : State} {e : Exception} {tval : Word} {eff : Mode} {gpa : Nat} :
    HasCfg s.cfg (baseTrap s e tval eff gpa) := .next (takeTrap_cfg ..)

theorem baseIllegal_cfg {s : State} {w : InstrWord} {e : Exception} : HasCfg s.cfg (baseIllegal s w e) :=
  .next (takeTrap_cfg ..)

theorem jumpTo_cfg {s : State} {c : Config} (target : Word) (h : s.cfg = c) : HasCfg c (jumpTo s target) := by
  subst h
  unfold jumpTo
  split
  · exact .next rfl
  · exact .next (takeTrap_cfg ..)

/-- A base access traps, is refused, or does what its action does. -/
theorem baseAccess_cases (s : State) (kind : AccessKind) (ea : Word) (size : Nat) (act : Nat → Nat → Result) :
    (∃ e gpa, baseAccess s kind ea size act = baseTrap s e ea (effMode s) gpa) ∨
    (∃ r, baseAccess s kind ea size act = .refused r) ∨ ∃ m pa, baseAccess s kind ea size act = act m pa := by
  unfold baseAccess
  simp only
  split
  · exact .inr (.inl ⟨_, rfl⟩)
  · exact .inl ⟨_, _, rfl⟩
  · split
    · exact .inl ⟨_, _, rfl⟩
    · split
      · exact .inl ⟨_, _, rfl⟩
      · exact .inl ⟨_, _, rfl⟩
      · exact .inl ⟨_, _, rfl⟩
      · split
        · exact .inl ⟨_, _, rfl⟩
        · split
          · exact .inr (.inl ⟨_, rfl⟩)
          · exact .inr (.inr ⟨_, _, rfl⟩)

theorem baseAccess_cfg {s : State} {kind : AccessKind} {ea : Word} {size : Nat} {act : Nat → Nat → Result}
    (h : ∀ m pa, HasCfg s.cfg (act m pa)) : HasCfg s.cfg (baseAccess s kind ea size act) := by
  rcases baseAccess_cases s kind ea size act with ⟨e, gpa, ha⟩ | ⟨r, ha⟩ | ⟨m, pa, ha⟩ <;> rw [ha]
  · exact baseTrap_cfg
  · exact .refused r
  · exact h m pa

theorem execAlu_cfg {w : InstrWord} {form : Option Bool} {word : Bool} {second : Word} {s : State} :
    HasCfg s.cfg (execAlu w form word second s) := by
  cases form with
  | none => exact .refused _
  | some alt => exact retireWith_cfg _ _ rfl

theorem execJump_cfg {w : InstrWord} {target : Word} {s : State} : HasCfg s.cfg (execJump w target s) := by
  unfold execJump
  split
  · exact jumpTo_cfg _ (writeX_cfg ..)
  · exact jumpTo_cfg _ rfl

theorem execBranch_cfg {w : InstrWord} {s : State} : HasCfg s.cfg (execBranch w s) := by
  unfold execBranch
  split
  · exact .refused _
  · exact .next rfl
  · exact jumpTo_cfg _ rfl

theorem execLoad_cfg {w : InstrWord} {s : State} : HasCfg s.cfg (execLoad w s) := by
  unfold execLoad
  split
  · exact .refused _
  · exact baseAccess_cfg fun m pa => retireWith_cfg _ _ (allocateForLoad_cfg ..)

theorem execStore_cfg {w : InstrWord} {s : State} : HasCfg s.cfg (execStore w s) := by
  unfold execStore
  split
  · exact .refused _
  · next size _ => exact baseAccess_cfg fun m pa => .next (storeRegister_cfg s (rs2Of w) m pa size)

theorem execLoadReserved_cfg {w : InstrWord} {size : Nat} {s : State} : HasCfg s.cfg (execLoadReserved w size s) :=
  baseAccess_cfg fun m pa => retireWith_cfg _ _ (allocateForLoad_cfg s m pa)

theorem execStoreConditional_cfg {w : InstrWord} {size : Nat} {s : State} :
    HasCfg s.cfg (execStoreConditional w size s) := by
  refine baseAccess_cfg fun m pa => ?_
  split
  · exact retireWith_cfg _ _ (storeRegister_cfg s (rs2Of w) m pa size)
  · exact retireWith_cfg _ _ rfl

theorem execAtomic_cfg {w : InstrWord} {s : State} : HasCfg s.cfg (execAtomic w s) := by
  unfold execAtomic
  split
  · exact .refused _
  · split
    · exact execLoadReserved_cfg
    · split
      · exact execStoreConditional_cfg
      · exact .refused _

theorem execMiscMem_cfg {w : InstrWord} {s : State} : HasCfg s.cfg (execMiscMem w s) := by
  unfold execMiscMem
  split
  · exact .next rfl
  · split
    · exact .next (fenceInstructions_cfg s)
    · exact .refused _

theorem csrInstruction_cfg {w : InstrWord} {id : CsrId} {s : State} : HasCfg s.cfg (csrInstruction w id s) := by
  have hwrite : ∀ v, (if rs1Of w = 0 then s else csrWrite s v id).cfg = s.cfg := fun v => by split <;> simp
  unfold csrInstruction
  simp only
  split
  · exact retireWith_cfg _ _ (csrWrite_cfg ..)
  · exact retireWith_cfg _ _ (hwrite _)
  · exact retireWith_cfg _ _ (hwrite _)

theorem execCsr_cfg {w : InstrWord} {s : State} : HasCfg s.cfg (execCsr w s) := by
  unfold execCsr
  split
  · exact .refused _
  · exact baseIllegal_cfg
  · exact baseIllegal_cfg
  · exact csrInstruction_cfg

theorem execMret_cfg {w : InstrWord} {s : State} : HasCfg s.cfg (execMret w s) := by
  unfold execMret
  split
  · exact .next (returnFromM_cfg s)
  · exact baseIllegal_cfg

theorem execSret_cfg {w : InstrWord} {s : State} : HasCfg s.cfg (execSret w s) := by
  unfold execSret
  split
  · exact .next (returnFromS_cfg s)
  · exact .next (returnFromS_cfg s)
  · exact baseIllegal_cfg
  · exact .next (returnFromVS_cfg s)
  · exact baseIllegal_cfg

theorem execSystem_cfg {w : InstrWord} {s : State} : HasCfg s.cfg (execSystem w s) := by
  unfold execSystem
  split
  · split
    · exact baseTrap_cfg
    · split
      · exact baseTrap_cfg
      · split
        · exact execMret_cfg
        · split
          · exact execSret_cfg
          · exact .refused _
  · split
    · exact .refused _
    · exact execCsr_cfg

theorem execBase_cfg (w : InstrWord) (s : State) : HasCfg s.cfg (execBase w s) := by
  unfold execBase
  split
  · exact baseIllegal_cfg
  · split
    · exact retireWith_cfg _ _ rfl
    · exact retireWith_cfg _ _ rfl
    · exact execJump_cfg
    · split
      · exact execJump_cfg
      · exact .refused _
    · exact execBranch_cfg
    · exact execLoad_cfg
    · exact execStore_cfg
    · exact execAlu_cfg
    · exact execAlu_cfg
    · exact execAlu_cfg
    · exact execAlu_cfg
    · exact execMiscMem_cfg
    · exact execAtomic_cfg
    · exact execSystem_cfg
    · exact .refused _

theorem cacheMove_cfg {s : State} {b : Nat} {source target : Option Nat} {ms : MemSys} :
    HasCfg s.cfg (cacheMove s b source target ms) := by
  unfold cacheMove
  simp only
  split
  · exact .next rfl
  · exact .fault _

theorem otherMove_cfg (s : State) (m : Move) : HasCfg s.cfg (otherMove s m) := by
  unfold otherMove
  split
  · exact .next rfl
  · split
    · exact cacheMove_cfg
    · exact .fault _
  · split
    · exact cacheMove_cfg
    · exact .fault _
  · split
    · exact .fault _
    · split
      · exact .fault _
      · exact .next rfl
  · split
    · exact .fault _
    · exact .next (by simp)
  · split
    · exact .fault _
    · split
      · exact .fault _
      · exact .next rfl
  · split
    · exact .fault _
    · exact .next (by simp)

theorem keptByParts_cfg (c : Config) : KeptByParts (fun s => s.cfg = c) where
  moves _ _ h := h
  word _ _ h := h
  takes _ _ _ h ht := ht.cfg.trans h
  exec s i h := h ▸ exec_cfg i s
  base s w h := h ▸ execBase_cfg w s
  other s m h := h ▸ otherMove_cfg s m

/-- Settles O60: no part of a step writes the configuration. -/
theorem stepKeepsTheConfiguration : Obligations.StepKeepsTheConfiguration :=
  fun s t ht => (keptByParts_cfg s.cfg).step rfl t ht

/-! ### The `xcmocontrol` registers (rules R28 to R36, R39) -/

theorem CsrId.isCmo_iff {id : CsrId} : id.isCmo = true ↔
    id = .mcmocontrol ∨ id = .scmocontrol ∨ id = .hcmocontrol ∨ id = .vscmocontrol := by
  simp [CsrId.isCmo]

/-- The parameters of an `xcmocontrol` register. -/
def cmoParam (cfg : Config) : CsrId → CmoCsrParam
  | .scmocontrol => cfg.scmo
  | .hcmocontrol => cfg.hcmo
  | .vscmocontrol => cfg.vscmo
  | _ => cfg.mcmo

theorem cmoParam_wf {cfg : Config} (h : cfg.wf = true) (id : CsrId) : (cmoParam cfg id).wf = true := by
  obtain ⟨hm, hs, hh, hv⟩ := Config.wf_cmo h
  cases id with
  | scmocontrol => exact hs
  | hcmocontrol => exact hh
  | vscmocontrol => exact hv
  | _ => exact hm

/-- A register holds the legal value for the one written (rule R36). -/
theorem csrRead_csrWrite_cmo {id : CsrId} (h : id.isCmo = true) (s : State) (v : Word) :
    csrRead (csrWrite s v id) id = legalizeCmo (cmoParam s.cfg id) v := by
  rcases CsrId.isCmo_iff.mp h with rfl | rfl | rfl | rfl <;> rfl

/-- A second write of a value with the same legal value changes nothing. -/
theorem csrWrite_csrWrite_cmo {id : CsrId} (h : id.isCmo = true) {s : State} {v v' : Word}
    (hv : legalizeCmo (cmoParam s.cfg id) v' = legalizeCmo (cmoParam s.cfg id) v) :
    csrWrite (csrWrite s v id) v' id = csrWrite s v id := by
  rcases CsrId.isCmo_iff.mp h with rfl | rfl | rfl | rfl <;> simpa [csrWrite, withCsr, cmoParam] using hv

/-- A legal value is held as it is written. -/
theorem legalizeCmo_idem {p : CmoCsrParam} (h : p.wf = true) (v : Word) :
    legalizeCmo p (legalizeCmo p v) = legalizeCmo p v := by
  simpa [cmoLegal] using cmoLegal_legalizeCmo h v

/-- A write of an `xcmocontrol` register is seen in no other register. -/
theorem csrRead_csrWrite_other {id id' : CsrId} (h : id.isCmo = true) (hne : id' ≠ id) (s : State) (v : Word) :
    csrRead (csrWrite s v id) id' = csrRead s id' := by
  rcases CsrId.isCmo_iff.mp h with rfl | rfl | rfl | rfl
  · cases id' with
    | mcmocontrol => exact absurd rfl hne
    | _ => rfl
  · cases id' with
    | scmocontrol => exact absurd rfl hne
    | _ => rfl
  · cases id' with
    | hcmocontrol => exact absurd rfl hne
    | _ => rfl
  · cases id' with
    | vscmocontrol => exact absurd rfl hne
    | _ => rfl

/-- A write of an `xcmocontrol` register changes the register file of `Csrs` alone. -/
theorem csrWrite_cmo_frame {id : CsrId} (h : id.isCmo = true) (s : State) (v : Word) :
    ∃ c, csrWrite s v id = withCsr s c := by
  rcases CsrId.isCmo_iff.mp h with rfl | rfl | rfl | rfl <;> exact ⟨_, rfl⟩

/-- Settles O13: what is read back is the legal value for the one written, and legalizing it again changes nothing. -/
theorem xcmocontrolHoldsLegalValues : Obligations.XcmocontrolHoldsLegalValues := by
  intro s v id hs hid
  refine ⟨?_, ?_, fun id' hne => csrRead_csrWrite_other hid hne s v, ?_⟩
  · rw [csrRead_csrWrite_cmo hid]
    exact legalizeCmo_reserved _ v
  · rw [csrRead_csrWrite_cmo hid]
    exact csrWrite_csrWrite_cmo hid (legalizeCmo_idem (cmoParam_wf hs.cfg id) v)
  · obtain ⟨c, hc⟩ := csrWrite_cmo_frame hid s v
    simp [hc]

/-- The numbers of the four registers are distinct (D4). -/
theorem Config.wf_cmoNumbers {cfg : Config} (h : cfg.wf = true) :
    ([cfg.mcmo, cfg.scmo, cfg.hcmo, cfg.vscmo].map (·.number)).Nodup := by
  simp only [Config.wf, csrNumbersDistinct, Bool.and_eq_true] at h
  obtain ⟨⟨⟨⟨⟨-, hdistinct, -⟩, -⟩, -⟩, -⟩, -⟩ := h
  exact .of_map BitVec.toNat (by simpa using distinct_nodup hdistinct)

/-- Each of the four numbers names its own register. -/
theorem csrNamed_cmo {cfg : Config} (h : cfg.wf = true) :
    csrNamed cfg cfg.mcmo.number = some .mcmocontrol ∧ csrNamed cfg cfg.scmo.number = some .scmocontrol ∧
    csrNamed cfg cfg.hcmo.number = some .hcmocontrol ∧ csrNamed cfg cfg.vscmo.number = some .vscmocontrol := by
  have hd := Config.wf_cmoNumbers h
  simp only [List.map_cons, List.map_nil, List.nodup_cons, List.mem_cons, List.not_mem_nil, or_false, not_or] at hd
  obtain ⟨⟨hms, hmh, hmv⟩, ⟨hsh, hsv⟩, hhv, -⟩ := hd
  refine ⟨?_, ?_, ?_, ?_⟩
  · simp [csrNamed]
  · simp [csrNamed, Ne.symm hms]
  · simp [csrNamed, Ne.symm hmh, Ne.symm hsh]
  · simp [csrNamed, Ne.symm hmv, Ne.symm hsv, Ne.symm hhv]

theorem csrAccess_mcmocontrol {s : State} {number : BitVec 12} (h : csrNamed s.cfg number = some .mcmocontrol) :
    csrAccess s number = if s.mode = .m then .register .mcmocontrol else .illegal := by
  cases hmode : s.mode <;> simp [csrAccess, h, hmode, CsrId.needsH, CsrId.lowestMode, hypervisorCsrs]

/-- `scmocontrol` is reached from M and S, and from VS as `vscmocontrol` where accesses are redirected. -/
theorem csrAccess_scmocontrol {s : State} {number : BitVec 12} (h : csrNamed s.cfg number = some .scmocontrol) :
    csrAccess s number = match s.mode with
      | .m => .register .scmocontrol
      | .s => .register .scmocontrol
      | .u => .illegal
      | .vs => if s.cfg.vsRedirect then .register .vscmocontrol else .illegal
      | .vu => .illegal := by
  have hH : CsrId.needsH .scmocontrol = false := rfl
  have hcmo : CsrId.isCmo .scmocontrol = true := rfl
  cases hmode : s.mode with
  | vs => cases hr : s.cfg.vsRedirect <;> simp [csrAccess, h, hmode, hH, hcmo, CsrId.lowestMode, redirect, hr]
  | _ => simp [csrAccess, h, hmode, hH, hcmo, CsrId.lowestMode]

/-- The two registers of the H-extension are reached from M- and HS-mode alone, and where it is absent from no mode. -/
theorem csrAccess_hypervisor {s : State} {number : BitVec 12} {id : CsrId} (h : csrNamed s.cfg number = some id)
    (hid : id = .hcmocontrol ∨ id = .vscmocontrol) :
    csrAccess s number = if s.cfg.hasH ∧ (s.mode = .m ∨ s.mode = .s) then .register id else .illegal := by
  have hH : id.needsH = true := by rcases hid with rfl | rfl <;> rfl
  have hcmo : id.isCmo = true := by rcases hid with rfl | rfl <;> rfl
  have hlow : id.lowestMode number = 2 := by rcases hid with rfl | rfl <;> rfl
  cases hext : s.cfg.hasH with
  | false => simp [csrAccess, h, hH, hext]
  | true => cases hmode : s.mode <;> simp [csrAccess, h, hH, hext, hmode, hcmo, hlow]

/-- Settles O15: each number names its own register, and the register decides from which modes it is reached. -/
theorem xcmocontrolAccessByMode : Obligations.XcmocontrolAccessByMode := by
  intro s hs
  obtain ⟨hm, hsc, hh, hv⟩ := csrNamed_cmo hs.cfg
  exact ⟨csrAccess_mcmocontrol hm, csrAccess_scmocontrol hsc, csrAccess_hypervisor hh (.inl rfl),
    csrAccess_hypervisor hv (.inr rfl)⟩

/-- Where every field is writable the written fields are held. -/
theorem legalizeCmo_writable {p : CmoCsrParam} (h : p.legalize = []) (v : Word) :
    legalizeCmo p v = cmoOfFields (cmoFields v) := by
  simp [legalizeCmo, legalizeFields, h]

/-- The fields of a value stand at bits 0, 1 and 8 to 11 (rule R28). -/
theorem getLsbD_cmoOfFields_cmoFields (v : Word) (j : Nat) :
    (cmoOfFields (cmoFields v)).getLsbD j = (decide (j ∈ [0, 1, 8, 9, 10, 11]) && v.getLsbD j) := by
  simp only [cmoOfFields, cmoFields, BitVec.getLsbD_or, BitVec.getLsbD_shiftLeft, BitVec.getLsbD_setWidth,
    BitVec.getLsbD_extractLsb', BitVec.getLsbD_append]
  by_cases h : j < 12
  · interval_cases j <;> simp
  · have hfield : ¬ j - 8 < 4 := by omega
    have hlow : ¬ j < 2 := by omega
    have hplace : j ∉ [0, 1, 8, 9, 10, 11] := by simp; omega
    simp only [hfield, hlow, hplace, decide_false, Bool.false_and, Bool.and_false, Bool.or_false]

/-- Settles O14, bit by bit. -/
theorem xcmocontrolFieldsStandAtTheirBits : Obligations.XcmocontrolFieldsStandAtTheirBits := by
  intro p v hp
  simp only [cbme, cbwe, invw0i, invw0e, invw1i, invw1e, legalizeCmo_writable hp, getLsbD_cmoOfFields_cmoFields]
  exact ⟨by simp, by simp, by simp, by simp, by simp, by simp, fun j hj => by rw [decide_eq_false hj, Bool.false_and]⟩

/-! ### The integer registers (rules R20, R21) -/

@[simp] theorem truncX_truncX (cfg : Config) (v : Word) : truncX cfg (truncX cfg v) = truncX cfg v := by
  unfold truncX
  split
  · rfl
  · rw [BitVec.and_assoc, BitVec.and_self]

@[simp] theorem readX_zero (s : State) : readX s 0 = 0#64 := rfl

@[simp] theorem writeX_zero (s : State) (v : Word) : writeX s 0 v = s := rfl

theorem readX_writeX_same {r : RegIdx} (h : r ≠ 0) (s : State) (v : Word) : readX (writeX s r v) r = truncX s.cfg v := by
  simp [readX, writeX, h, Vector.get_eq_getElem]

theorem readX_writeX_other {r r' : RegIdx} (h : r' ≠ r) (s : State) (v : Word) :
    readX (writeX s r v) r' = readX s r' := by
  by_cases hr : r = 0
  · rw [hr, writeX_zero]
  · have hne : (r : Nat) ≠ r' := fun h' => h (Fin.ext h'.symm)
    simp [readX, writeX, hr, Vector.get_eq_getElem, Vector.getElem_set_ne _ _ hne]

/-- Settles O12, from the laws of reads after writes. -/
theorem integerRegisters : Obligations.IntegerRegisters := fun s _ _ v =>
  ⟨readX_zero s, writeX_zero s v, rfl, fun h => readX_writeX_same h s v, fun h => readX_writeX_other h s v,
    writeX_csr .., writeX_ms .., writeX_pc .., writeX_mode ..⟩

/-! ### Cache blocks (rule R90) -/

/-- Settles O36, from the laws of block arithmetic. -/
theorem blockArithmetic : Obligations.BlockArithmetic := fun cfg a _ =>
  ⟨blockBase_mod cfg a, mem_blockAddresses, mem_blockAddresses_iff_base, mem_blockAddresses_self cfg a⟩

/-! ### Reset (rules R46, R47, R261) -/

/-- Settles O56, by evaluation of the state after reset. -/
theorem resetState : Obligations.ResetState := ⟨rfl, rfl, by decide, by decide, by decide, rfl, rfl, rfl, rfl⟩

theorem reset_cfg_wf : State.reset.cfg.wf = true := by decide

/-- Settles O57, by evaluation of each part on the state after reset. -/
theorem resetMeetsTheInvariant : Obligations.ResetMeetsTheInvariant where
  left := { cfg := reset_cfg_wf, ms := by decide, domains := by decide, unspecified := rfl, latest := rfl,
            csrs := by decide, mode := rfl }
  right := { cfg := reset_cfg_wf, ms := by decide, csrs := by decide, mode := rfl, pc := rfl, mie := by decide,
             mprv := by decide }

end Sys2Proof.Machine
end

section
/-!
PROOFS. The obligations of spec/20_memory.md: moves that are not the hart's, hints, management operations, deallocation
and allocation, data writes, and the latest stores with `FENCE.I`.
-/

namespace Sys2Proof.Machine

/-! ### Moves that are not the hart's (rules R61, R65, R66, R257) -/

/-- A move of a cache that is made takes no Modified block off the path of the hart's loads, and every latest store stands
after it, with what the move brings where that is needed. -/
theorem cacheMove_next {s t : State} {b : Nat} {source target : Option Nat} {ms : MemSys}
    (h : cacheMove s b source target ms = .next t) :
    s.ms.takesOut s.cfg b source target = false ∧
      (bringAll (whereNeeded s.cfg ms (moveBrings s b source)) s.latest).all (·.held s.cfg ms) = true ∧
      t = moved (bringMs s (whereNeeded s.cfg ms (moveBrings s b source)) ms) := by
  simp only [cacheMove] at h
  split at h
  · next hok =>
    simp only [Bool.and_eq_true, Bool.not_eq_true'] at hok
    obtain ⟨⟨-, htakes⟩, hheld⟩ := hok
    injection h with h
    exact ⟨htakes, hheld, h.symm⟩
  · cases h

theorem bringMs_sameHart (s : State) (brought : LatestByte → Option Byte) (ms : MemSys) :
    SameHart s (bringMs s brought ms) := ⟨rfl, rfl, rfl, rfl, rfl, rfl, rfl, rfl⟩

theorem cacheMove_sameHart {s : State} {b : Nat} {source target : Option Nat} {ms : MemSys} :
    Always (fun t => SameHart s t ∧ t.pc = s.pc) (cacheMove s b source target ms) := by
  intro t ht
  obtain ⟨-, -, rfl⟩ := cacheMove_next ht
  exact ⟨⟨rfl, rfl, rfl, rfl, rfl, rfl, rfl, rfl⟩, rfl⟩

theorem agentStore_sameHart (s : State) (acc : Access) (pa : Nat) (bs : List Byte) :
    SameHart s (agentStore s acc pa bs) := ⟨rfl, rfl, rfl, rfl, rfl, rfl, rfl, rfl⟩

theorem disturbed_sameHart {s t : State} (pa : Nat) (h : SameHart s t) (hpc : t.pc = s.pc) :
    SameHart s (moved (disturbReservation t pa)) ∧ (moved (disturbReservation t pa)).pc = s.pc := by
  have hd : SameHart t (moved (disturbReservation t pa)) := by constructor <;> simp
  exact ⟨h.trans hd, by simp [hpc]⟩

/-- A move of a cache or of another agent leaves the hart as it is. -/
theorem otherMove_sameHart (s : State) (m : Move) : Always (fun t => SameHart s t ∧ t.pc = s.pc) (otherMove s m) := by
  have hself : SameHart s s := ⟨rfl, rfl, rfl, rfl, rfl, rfl, rfl, rfl⟩
  cases m with
  | hart => exact .next ⟨hself, rfl⟩
  | allocate cache b source asModified =>
    simp only [otherMove]
    split
    · exact cacheMove_sameHart
    · exact .fault _
  | deallocate cache b destination =>
    simp only [otherMove]
    split
    · exact cacheMove_sameHart
    · exact .fault _
  | agentWrite agent pa v =>
    simp only [otherMove]
    split
    · exact .fault _
    · split
      · exact .fault _
      · exact .next ⟨agentStore_sameHart .., rfl⟩
  | agentManage agent op pa =>
    simp only [otherMove]
    split
    · exact .fault _
    · exact .next (disturbed_sameHart pa (bringMs_sameHart ..) rfl)
  | agentZero agent pa =>
    simp only [otherMove]
    split
    · exact .fault _
    · split
      · exact .fault _
      · exact .next ⟨agentStore_sameHart .., rfl⟩
  | agentHint agent pa =>
    simp only [otherMove]
    split
    · exact .fault _
    · exact .next (disturbed_sameHart pa hself rfl)

/-- Settles O11: such a move writes nothing of the hart, and comes off the list. -/
theorem otherMovesKeepTheHart : Obligations.OtherMovesKeepTheHart := by
  intro s t m rest hm hart ht
  rw [step_eq_otherMove hm hart] at ht
  obtain ⟨hsame, hpc⟩ := otherMove_sameHart { s with moves := rest } m t ht
  exact ⟨hsame.cfg, hsame.x, hpc, hsame.mode, hsame.csr, hsame.pmp, hsame.triggers, hsame.word, hsame.moves⟩

/-! ### Hints (rules R65, R75, R94, R183 to R187) -/

theorem setMs_latest_of_kept {s : State} {ms : MemSys} (h : latestKept s ms = true) : (setMs s ms).latest = s.latest :=
  List.filter_eq_self.mpr (List.all_eq_true.mp h)

/-- A hint hides no latest store. -/
theorem performHint_latest (s : State) (kind : HintKind) (level : Level) (memType pa : Nat) :
    (performHint s kind level memType pa).latest = s.latest := by
  simp only [performHint, disturbReservation_latest]
  split
  · rfl
  · split
    · next h =>
      simp only [hintAllowed, Bool.and_eq_true] at h
      obtain ⟨-, ⟨⟨-, hkept⟩, -⟩, -⟩ := h
      exact setMs_latest_of_kept hkept
    · rfl

/-- What a hint that retires or traps leaves: every latest store, and memory and caches as they were or after one allowed
move of its block. -/
theorem execHint_effect {kind : HintKind} {rs1 : RegIdx} {level : Level} {s t : State}
    (h : execHint kind rs1 level s = .next t) :
    t.latest = s.latest ∧ (t.ms = s.ms ∨
      ∃ tr cache, translate s .hint false (effMode s) (effectiveAddress s rs1) = .ok tr ∧
        hintAllowed s kind cache tr.pa (hintMove s kind cache tr.memType tr.pa) = true ∧
        t.ms = hintMove s kind cache tr.memType tr.pa) := by
  rcases execHint_next h with ⟨_, _, _, htrap⟩ | rfl
  · injection htrap with htrap
    subst htrap
    exact ⟨takeTrap_latest .., .inl (takeTrap_ms ..)⟩
  · rcases hintAccess_cases s kind level (effectiveAddress s rs1) with hr | ⟨tr, htr, hr⟩ <;> rw [hr]
    · exact ⟨rfl, .inl rfl⟩
    · refine ⟨performHint_latest .., ?_⟩
      rcases performHint_ms s kind level tr.memType tr.pa with hms | ⟨cache, -, hok, hms⟩
      · exact .inl hms
      · exact .inr ⟨tr, cache, htr, hok, hms⟩

/-- Where no load of a block changes, and nothing else does, no load changes. -/
theorem loadsKept_readByte {cfg : Config} {ms ms' : MemSys} {pa memType : Nat}
    (hk : loadsKept cfg ms ms' (blockBase cfg pa) = true) (hrest : MemSys.AgreeBut cfg (blockAddresses cfg pa) ms ms')
    (hm : memType ∈ memTypesOf cfg) (a : Nat) :
    MemSys.readByte cfg ms' (hartAccess .load memType) a = MemSys.readByte cfg ms (hartAccess .load memType) a := by
  by_cases hb : blockBase cfg a = blockBase cfg pa
  · simp only [loadsKept, List.all_eq_true, beq_iff_eq, ← hb, MemSys.view] at hk
    have hread : ∀ ms'' : MemSys, (ms''.blockData cfg (pathCaches cfg (hartAccess .load memType) (blockBase cfg a))
        (blockBase cfg a)).getD (a % blockSize cfg) Memory.unwritten =
          MemSys.readByte cfg ms'' (hartAccess .load memType) a := fun ms'' => MemSys.blockData_getD a
    rw [← hread, ← hread, hk memType hm]
  · refine hrest.reads _ a fun a' ha' h => hb ?_
    rw [← h, mem_blockAddresses_iff_base.mp ha']

/-- A hint that may act keeps every load of the hart, but where `DEMOTE` drops an unmodified copy. -/
theorem hintMove_loads {s : State} {kind : HintKind} {cache memType pa : Nat} (hw : s.ms.wf s.cfg = true)
    (h : hintAllowed s kind cache pa (hintMove s kind cache memType pa) = true)
    (hk : kind ≠ .demote ∨ s.ms.isModified cache (blockBase s.cfg pa) = true) {memType' : Nat}
    (hm : memType' ∈ memTypesOf s.cfg) (a : Nat) :
    MemSys.readByte s.cfg (hintMove s kind cache memType pa) (hartAccess .load memType') a =
      MemSys.readByte s.cfg s.ms (hartAccess .load memType') a := by
  simp only [hintAllowed, Bool.and_eq_true, Bool.or_eq_true, beq_iff_eq, Bool.not_eq_true'] at h
  obtain ⟨-, ⟨hd, hu⟩ | hkept⟩ := h
  · rcases hk with hk | hk
    · exact absurd hd hk
    · rw [hk] at hu; cases hu
  · exact loadsKept_readByte hkept (hintMove_agree kind cache memType pa hw) hm a

/-- A prefetch moves its block from beyond the cache on the path of the accesses it speaks of. -/
theorem hintMove_prefetch (s : State) {kind : HintKind} (hk : kind ≠ .demote) (cache memType pa : Nat) :
    hintMove s kind cache memType pa =
      MemSys.allocateOnPath s.cfg (hintAccessOf s.cfg kind memType) cache (blockBase s.cfg pa) s.ms := by
  cases kind with
  | demote => exact absurd rfl hk
  | prefetchR => rfl
  | prefetchW => rfl
  | prefetchI => rfl

theorem prefetch_keeps_reads {kind : HintKind} (hk : kind ≠ .demote) {rs1 : RegIdx} {level : Level} {s t : State}
    (hi : s.Inv) (h : execHint kind rs1 level s = .next t) (a : Nat) :
    (∀ memType ∈ memTypesOf s.cfg, MemSys.readByte s.cfg t.ms (hartAccess .load memType) a =
      MemSys.readByte s.cfg s.ms (hartAccess .load memType) a) ∧
    ∀ tr, translate s .hint false (effMode s) (effectiveAddress s rs1) = .ok tr →
      MemSys.readByte s.cfg t.ms (hartAccess (hintPath s.cfg kind) tr.memType) a =
        MemSys.readByte s.cfg s.ms (hartAccess (hintPath s.cfg kind) tr.memType) a := by
  obtain ⟨-, hms | ⟨tr, cache, htr, hok, hms⟩⟩ := execHint_effect h <;> rw [hms]
  · exact ⟨fun _ _ => rfl, fun _ _ => rfl⟩
  · refine ⟨fun memType hm => hintMove_loads hi.ms hok (.inl hk) hm a, fun tr' htr' => ?_⟩
    obtain rfl : tr = tr' := by
      rw [htr] at htr'
      injection htr'
    rw [hintMove_prefetch s hk]
    exact MemSys.readByte_allocateOnPath hi.cfg hi.ms

/-- Settles O33: a prefetch is one allocation on the path of its accesses, which they do not see, or none, and it is not
made where some load would change. -/
theorem prefetchKeepsReads : Obligations.PrefetchKeepsReads := by
  intro s t rs1 level kind i a hi hkind _ h
  rcases hkind with ⟨rfl, rfl⟩ | ⟨rfl, rfl⟩ | ⟨rfl, rfl⟩
  · exact prefetch_keeps_reads (kind := .prefetchR) (by decide) hi h a
  · exact prefetch_keeps_reads (kind := .prefetchW) (by decide) hi h a
  · exact prefetch_keeps_reads (kind := .prefetchI) (by decide) hi h a

/-! ### Deallocation (rules R66, R67) -/

theorem MemSys.isModified_of_copyAt {ms : MemSys} {cache b : Nat} {c : Copy} (h : ms.copyAt cache b = some c) :
    ms.isModified cache b = c.modified := by simp [MemSys.isModified, h]

theorem MemSys.wf_caches {cfg : Config} {ms : MemSys} (hw : ms.wf cfg = true) :
    ms.caches.length = cfg.caches.length := by
  simp only [MemSys.wf, Bool.and_eq_true] at hw
  exact cachesWf_length hw.2

/-- What rule R66 has of an unmodified block: it may be dropped, or given to a cache that does not hold it. -/
theorem MemSys.mayDeallocate_unmodified {cfg : Config} {ms : MemSys} {cache b : Nat} {c : Copy}
    {destination : Destination} (hc : ms.copyAt cache b = some c) (hu : c.modified = false)
    (h : ms.mayDeallocate cfg cache b destination = true) :
    destination = .dropped ∨ ∃ d, destination = .cache d ∧ d ≠ cache ∧ ms.copyAt d b = none := by
  cases destination with
  | dropped => exact .inl rfl
  | memory => simp [MemSys.mayDeallocate, hc, hu] at h
  | outward => simp [MemSys.mayDeallocate, hc, hu] at h
  | cache d =>
    simp only [MemSys.mayDeallocate, hc, hu, Bool.false_or, Bool.and_eq_true, bne_iff_ne, Option.isNone_iff_eq_none] at h
    obtain ⟨⟨⟨hne, -⟩, -⟩, hnone⟩ := h
    exact .inr ⟨d, rfl, hne, hnone⟩

/-- What rule R66 has of a modified block: it goes to memory, outward, or to another cache there is. -/
theorem MemSys.mayDeallocate_modified {cfg : Config} {ms : MemSys} {cache b : Nat} {c : Copy}
    {destination : Destination} (hc : ms.copyAt cache b = some c) (hm : c.modified = true)
    (h : ms.mayDeallocate cfg cache b destination = true) :
    destination = .memory ∨ destination = .outward ∨
      ∃ d, destination = .cache d ∧ d ≠ cache ∧ d < cfg.caches.length := by
  cases destination with
  | dropped => simp [MemSys.mayDeallocate, hc, hm] at h
  | memory => exact .inl rfl
  | outward => exact .inr (.inl rfl)
  | cache d =>
    simp only [MemSys.mayDeallocate, hc, Bool.and_eq_true, bne_iff_ne, decide_eq_true_eq] at h
    obtain ⟨⟨⟨hne, hlt⟩, -⟩, -⟩ := h
    exact .inr (.inr ⟨d, rfl, hne, hlt⟩)

/-- An unmodified block that leaves its cache changes no byte of memory, and no copy of it elsewhere but the one made of
it. -/
theorem MemSys.deallocate_unmodified {cfg : Config} {ms : MemSys} {cache b : Nat} {c : Copy}
    {destination : Destination} (hc : ms.copyAt cache b = some c) (hu : c.modified = false)
    (h : ms.mayDeallocate cfg cache b destination = true) :
    (MemSys.deallocate cfg cache b destination ms).mem = ms.mem ∧
      ∀ x c', x ≠ cache → ms.copyAt x b = some c' →
        (MemSys.deallocate cfg cache b destination ms).copyAt x b = some c' := by
  rcases MemSys.mayDeallocate_unmodified hc hu h with rfl | ⟨d, rfl, hne, hnone⟩
  · have heq : MemSys.deallocate cfg cache b .dropped ms = ms.dropCopy cache b := by simp [MemSys.deallocate, hc, h]
    rw [heq]
    exact ⟨rfl, fun x c' hx hx' => by rw [MemSys.copyAt_dropCopy_other ms (.inl hx), hx']⟩
  · have heq : MemSys.deallocate cfg cache b (.cache d) ms =
        (ms.dropCopy cache b).putCopy d { c with modified := false } := by simp [MemSys.deallocate, hc, h, hu]
    rw [heq]
    refine ⟨rfl, fun x c' hx hx' => ?_⟩
    have hxd : x ≠ d := by
      rintro rfl
      simp [hnone] at hx'
    rw [MemSys.copyAt_putCopy_other _ _ (.inl hxd), MemSys.copyAt_dropCopy_other ms (.inl hx), hx']

/-- A modified block that leaves its cache is in memory, or in another cache as Modified. -/
theorem MemSys.deallocate_modified {cfg : Config} {ms : MemSys} {cache b : Nat} {c : Copy} {destination : Destination}
    (hw : ms.wf cfg = true) (hc : ms.copyAt cache b = some c) (hm : c.modified = true)
    (h : ms.mayDeallocate cfg cache b destination = true) :
    Memory.readBytes (MemSys.deallocate cfg cache b destination ms).mem b (blockSize cfg) = c.data ∨
      ∃ x, (MemSys.deallocate cfg cache b destination ms).copyAt x b =
        some { block := b, modified := true, data := c.data } := by
  have hlen := MemSys.copyAt_length hw hc
  have hmem := MemSys.wf_mem hw
  obtain ⟨hblock, -⟩ := MemSys.copyAt_block hc
  rcases MemSys.mayDeallocate_modified hc hm h with rfl | rfl | ⟨d, rfl, -, hlt⟩
  · left
    simp only [MemSys.deallocate, hc, h, if_true]
    exact hlen ▸ Memory.readBytes_writeBytes c.data hmem
  · simp only [MemSys.deallocate, hc, h, if_true]
    rw [← hlen]
    exact MemSys.transfer_arrives _ (by simpa using hmem)
  · simp only [MemSys.deallocate, hc, h, if_true, hm, Bool.true_and]
    cases ht : tracks cfg d with
    | false =>
      left
      exact hlen ▸ Memory.readBytes_writeBytes c.data hmem
    | true =>
      refine .inr ⟨d, ?_⟩
      have hd : d < (ms.dropCopy cache b).caches.length := MemSys.wf_caches (MemSys.dropCopy_wf hw) ▸ hlt
      have hput := MemSys.copyAt_putCopy_same (ms.dropCopy cache b) { c with modified := true } hd
      simpa [hblock] using hput

/-- A block that may leave its cache so is Invalid there after. -/
theorem MemSys.copyAt_deallocate_same {cfg : Config} {ms : MemSys} {cache b : Nat} {destination : Destination}
    (hw : ms.wf cfg = true) (h : ms.mayDeallocate cfg cache b destination = true) :
    (MemSys.deallocate cfg cache b destination ms).copyAt cache b = none := by
  have hdrop : (ms.dropCopy cache b).copyAt cache b = none := MemSys.copyAt_dropCopy_same hw
  cases hc : ms.copyAt cache b with
  | none => simp [MemSys.mayDeallocate, hc] at h
  | some c =>
    have hblock := (MemSys.copyAt_block hc).1
    simp only [MemSys.deallocate, hc, h, if_true]
    cases destination with
    | dropped => exact hdrop
    | memory => exact hdrop
    | outward => exact (MemSys.copyAt_transfer_isNone _ _).mpr hdrop
    | cache d =>
      simp only [MemSys.mayDeallocate, hc, Bool.and_eq_true, bne_iff_ne] at h
      obtain ⟨⟨⟨hne, -⟩, -⟩, -⟩ := h
      simp only
      split
      · exact (MemSys.copyAt_putCopy_other _ _ (.inl hne.symm)).trans hdrop
      · exact (MemSys.copyAt_putCopy_other _ _ (.inl hne.symm)).trans hdrop

theorem MemSys.deallocate_refused {cfg : Config} {ms : MemSys} {cache b : Nat} {destination : Destination}
    (h : ms.mayDeallocate cfg cache b destination = false) : MemSys.deallocate cfg cache b destination ms = ms := by
  unfold MemSys.deallocate
  split
  · rfl
  · simp [h]

/-- Settles O34: `DEMOTE` moves a block out of one cache as rule R66 allows. Where that is the Modified copy, its bytes
arrive somewhere and no load changes; where it is another, the Modified copy stays. -/
theorem demoteLosesNoData : Obligations.DemoteLosesNoData := by
  intro s t rs1 level tr cache c hi _ htr b hc hm honly h
  obtain ⟨-, hms | ⟨tr', cache', htr', hok, hms⟩⟩ := execHint_effect (kind := .demote) h
  · exact .inl (by rw [hms, hc])
  · obtain rfl : tr' = tr := by
      rw [htr'] at htr
      injection htr
    have hmove : hintMove s .demote cache' tr'.memType tr'.pa =
        MemSys.deallocate s.cfg cache' b (demoteDestination s cache' tr'.pa) s.ms := rfl
    cases hmay : s.ms.mayDeallocate s.cfg cache' b (demoteDestination s cache' tr'.pa) with
    | false => exact .inl (by rw [hms, hmove, MemSys.deallocate_refused hmay, hc])
    | true =>
      by_cases hcache : cache' = cache
      · subst hcache
        have hmod : s.ms.isModified cache' b = true := by rw [MemSys.isModified_of_copyAt hc, hm]
        refine .inr ⟨?_, fun memType hmt a => hms ▸ hintMove_loads hi.ms hok (.inr hmod) hmt a⟩
        rw [hms, hmove]
        exact MemSys.deallocate_modified hi.ms hc hm hmay
      · cases hc' : s.ms.copyAt cache' b with
        | none => simp [MemSys.mayDeallocate, hc'] at hmay
        | some c' =>
          have hu : c'.modified = false := by
            rw [← MemSys.isModified_of_copyAt hc', ← Bool.not_eq_true]
            exact fun hmod => hcache (honly cache' hmod)
          left
          rw [hms, hmove]
          exact (MemSys.deallocate_unmodified hc' hu hmay).2 cache c (Ne.symm hcache) hc

/-! ### Management operations (rules R71 to R73, R152) -/

section
variable {cfg : Config} {tick : Nat} {op : CacheOp} {set : List Nat} {beyond : List Hop} {b : Nat}
  {bound : List LatestByte} {ms : MemSys}

theorem foldl_eq_self {α β : Type} {f : β → α → β} {l : List α} {x : β} (h : ∀ a ∈ l, f x a = x) :
    l.foldl f x = x := by
  induction l with
  | nil => rfl
  | cons a l ih => rw [List.foldl_cons, h a (by simp), ih fun a' ha' => h a' (by simp [ha'])]

/-- An operation on a set with no Modified copy writes nothing toward memory. -/
theorem MemSys.visible_of_unmodified (h : ∀ c ∈ set, ms.isModified c b = false) :
    ms.visible cfg tick op set beyond b bound = ms.gives cfg tick op set b none bound set := by
  simp [MemSys.visible, MemSys.transferred_none h]

theorem MemSys.manage_mem_of_none (h : ms.transferred cfg tick op set b bound = none) :
    (MemSys.manage cfg tick op set beyond b bound ms).mem = ms.mem := by
  rw [MemSys.manage_mem]
  simp [MemSys.visible, h]

/-- An operation changes nothing where the block is Invalid in the whole set. -/
theorem MemSys.manage_of_invalid (h : ∀ c ∈ set, ms.copyAt c b = none) :
    MemSys.manage cfg tick op set beyond b bound ms = ms := by
  have hu : ∀ c ∈ set, ms.isModified c b = false := fun c hc => by simp [MemSys.isModified, h c hc]
  have hgives : ms.gives cfg tick op set b none bound set = ms :=
    foldl_eq_self fun c hc => by simp [MemSys.give, h c hc]
  rw [MemSys.manage_eq, MemSys.transferred_none hu, MemSys.visible_of_unmodified hu, hgives]
  exact foldl_eq_self fun c hc => by simp [MemSys.settle, h c hc]

/-- Where nothing lies beyond PoC-memory, the bytes made visible there are in memory and in no cache besides. -/
theorem MemSys.copyAt_visible_nil (cache : Nat) :
    (ms.visible cfg tick op set [] b bound).copyAt cache b =
      (ms.gives cfg tick op set b (ms.transferred cfg tick op set b bound) bound set).copyAt cache b := by
  unfold MemSys.visible
  split <;> rfl

theorem MemSys.manage_nil_mem_some {d : List Byte} (hw : ms.wf cfg = true)
    (h : ms.transferred cfg tick op set b bound = some d) :
    Memory.readBytes (MemSys.manage cfg tick op set [] b bound ms).mem b (blockSize cfg) = d := by
  rw [MemSys.manage_mem, ← MemSys.transferred_length hw h]
  simp only [MemSys.visible, h, MemSys.transfer, MemSys.gives_mem]
  exact Memory.readBytes_writeBytes d (MemSys.wf_mem hw)

/-- Memory holds the bytes of a Modified copy of the set. -/
def MemSys.HoldsModified (cfg : Config) (set : List Nat) (b : Nat) (ms : MemSys) (mem : List Host.Cell) : Prop :=
  ∃ c ∈ set, ∃ copy, ms.copyAt c b = some copy ∧ copy.modified = true ∧
    Memory.readBytes mem b (blockSize cfg) = copy.data

theorem MemSys.manage_nil_mem_cases (hw : ms.wf cfg = true) :
    (MemSys.manage cfg tick op set [] b bound ms).mem = ms.mem ∨
      ms.HoldsModified cfg set b (MemSys.manage cfg tick op set [] b bound ms).mem := by
  cases ht : ms.transferred cfg tick op set b bound with
  | none => exact .inl (MemSys.manage_mem_of_none ht)
  | some d =>
    obtain ⟨c, hc, copy, hcopy, hm, rfl⟩ := MemSys.transferred_mem ht
    exact .inr ⟨c, hc, copy, hcopy, hm, MemSys.manage_nil_mem_some hw ht⟩

/-- An operation that transfers a modified block brings one to memory, where nothing lies beyond PoC-memory. -/
theorem MemSys.manage_nil_transfers (hw : ms.wf cfg = true) (hop : op = .invalidate → cfg.invalTransfers = .yes)
    (hm : ∃ c ∈ set, ms.isModified c b = true) :
    ms.HoldsModified cfg set b (MemSys.manage cfg tick op set [] b bound ms).mem := by
  obtain ⟨d, hd⟩ := MemSys.transferred_some (bound := bound) (tick := tick) hop hm
  obtain ⟨c, hc, copy, hcopy, hmod, rfl⟩ := MemSys.transferred_mem hd
  exact ⟨c, hc, copy, hcopy, hmod, MemSys.manage_nil_mem_some hw hd⟩

/-- What an operation leaves outside its set, where nothing lies beyond PoC-memory: what was there, or a copy one of the
set gave, after a clean or a flush an Unmodified one. -/
theorem MemSys.copyAt_manage_nil_outside (hw : ms.wf cfg = true) {cache : Nat} (hc : cache ∉ set) :
    (MemSys.manage cfg tick op set [] b bound ms).copyAt cache b = ms.copyAt cache b ∨
      (cfg.cacheTransfers ≠ .no ∧ ms.copyAt cache b = none ∧
        ∃ new, (MemSys.manage cfg tick op set [] b bound ms).copyAt cache b = some new ∧
          (op ≠ .invalidate → new.modified = false) ∧
          ∃ c' ∈ set, ∃ copy, ms.copyAt c' b = some copy ∧ new.data = copy.data) := by
  rw [MemSys.copyAt_manage hw, if_neg hc, MemSys.copyAt_visible_nil]
  refine (MemSys.copyAt_gives_outside hw set (fun _ h => h) cache).imp_right ?_
  rintro ⟨hno, hnone, new, hnew, c', hc', copy, hcopy, hmay, hdata, hmod⟩
  refine ⟨hno, hnone, new, hnew, fun hop => ?_, c', hc', copy, hcopy, hdata⟩
  have hu : copy.modified = false := by
    simp only [mayGive, beq_iff_eq, hop, Bool.and_eq_true, Bool.or_eq_true, false_or, Bool.not_eq_true'] at hmay
    exact hmay.1
  rw [← Bool.not_eq_true] at hu ⊢
  exact fun h => hu (hmod h)

/-- An invalidate or a flush leaves the block Invalid in its whole set. -/
theorem MemSys.copyAt_manage_emptied (hw : ms.wf cfg = true) (hop : op ≠ .clean) {cache : Nat} (hc : cache ∈ set) :
    (MemSys.manage cfg tick op set beyond b bound ms).copyAt cache b = none := by
  rw [MemSys.copyAt_manage hw, if_pos hc]
  cases op with
  | clean => exact absurd rfl hop
  | invalidate => exact Option.bind_eq_none_iff.mpr fun _ _ => rfl
  | flush => exact Option.bind_eq_none_iff.mpr fun _ _ => rfl

/-- An operation leaves the block Modified in no cache of its set. -/
theorem MemSys.isModified_manage (hw : ms.wf cfg = true) {cache : Nat} (hc : cache ∈ set) :
    (MemSys.manage cfg tick op set beyond b bound ms).isModified cache b = false := by
  rw [← Bool.not_eq_true, MemSys.isModified_iff]
  rintro ⟨c, hcopy, hm⟩
  rw [MemSys.copyAt_manage hw, if_pos hc] at hcopy
  obtain ⟨seen, -, hseen⟩ := Option.bind_eq_some_iff.mp hcopy
  rw [settledCopy_modified hseen] at hm
  cases hm

/-- An invalidate that is to transfer nothing transfers nothing. -/
theorem MemSys.transferred_invalidate_none (h : cfg.invalTransfers = .no) :
    ms.transferred cfg tick .invalidate set b bound = none := by
  have hnil : ms.transferring cfg tick .invalidate set b = [] := by simp [MemSys.transferring, h, resolve]
  cases hp : pickCache tick (ms.newest cfg b set bound (ms.transferring cfg tick .invalidate set b)) with
  | none => simp [MemSys.transferred, hp]
  | some c =>
    have hmem := MemSys.newest_subset (pickCache_mem hp)
    simp [hnil] at hmem

/-- A clean leaves a valid copy of its set Unmodified, with the bytes made visible at the PoC where there are any, or
Invalid. -/
theorem MemSys.copyAt_manage_clean (hw : ms.wf cfg = true) {cache : Nat} (hc : cache ∈ set) :
    (MemSys.manage cfg tick .clean set beyond b bound ms).copyAt cache b =
      if resolve cfg.cleanInvalidates tick (.cleanInvalidates cache) then none
      else ((ms.visible cfg tick .clean set beyond b bound).copyAt cache b).map fun c =>
        { c with modified := false, data := (ms.transferred cfg tick .clean set b bound).getD c.data } := by
  rw [MemSys.copyAt_manage hw, if_pos hc]
  cases (ms.visible cfg tick .clean set beyond b bound).copyAt cache b with
  | none => simp
  | some c => simp only [Option.bind_some, settledCopy, Option.map_some]

/-- A copy a clean leaves valid was valid; it holds its old bytes where none was Modified, and memory's where one was and
nothing lies beyond PoC-memory. -/
theorem MemSys.manage_clean_kept (hw : ms.wf cfg = true) {cache : Nat} (hc : cache ∈ set) {kept : Copy}
    (h : (MemSys.manage cfg tick .clean set beyond b bound ms).copyAt cache b = some kept) :
    ∃ old, ms.copyAt cache b = some old ∧
      ((∀ c' ∈ set, ms.isModified c' b = false) → kept.data = old.data) ∧
      (beyond = [] → (∃ c' ∈ set, ms.isModified c' b = true) →
        kept.data = Memory.readBytes (MemSys.manage cfg tick .clean set beyond b bound ms).mem b (blockSize cfg)) := by
  rw [MemSys.copyAt_manage_clean hw hc] at h
  split at h
  · cases h
  · obtain ⟨seen, hseen, rfl⟩ := Option.map_eq_some_iff.mp h
    obtain ⟨old, hold⟩ := Option.ne_none_iff_exists'.mp
      ((MemSys.copyAt_visible_isNone hc).not.mp (Option.ne_none_iff_exists'.mpr ⟨seen, hseen⟩))
    refine ⟨old, hold, fun hu => ?_, fun hnil hm => ?_⟩
    · rw [MemSys.visible_of_unmodified hu, MemSys.copyAt_gives _ (.inl hc), hold] at hseen
      injection hseen with hseen
      simp [MemSys.transferred_none hu, hseen]
    · obtain ⟨d, hd⟩ := MemSys.transferred_some (cfg := cfg) (bound := bound) (tick := tick) (op := .clean)
        (fun h => nomatch h) hm
      subst hnil
      rw [MemSys.manage_nil_mem_some hw hd, hd, Option.getD_some]

end

/-- Settles O38: what an operation leaves in its set, outside it and in memory, for an invalidate. -/
theorem invalidateOperation : Obligations.InvalidateOperation := by
  intro cfg ms tick acc pa poc bound hw b set ms'
  refine ⟨fun c hc => MemSys.copyAt_manage_emptied hw (by decide) hc, MemSys.manage_of_invalid,
    fun hno => MemSys.manage_mem_of_none (MemSys.transferred_invalidate_none hno), fun hnil => ?_⟩
  have hms' : ms' = MemSys.manage cfg tick .invalidate set [] b bound ms := by rw [← hnil]; rfl
  rw [hms']
  refine ⟨fun c hc => (MemSys.copyAt_manage_nil_outside hw hc).imp_right ?_, MemSys.manage_nil_mem_cases hw,
    fun hyes hm => MemSys.manage_nil_transfers hw (fun _ => hyes) hm⟩
  rintro ⟨hno, hnone, new, hnew, -, hgiver⟩
  exact ⟨hno, hnone, new, hnew, hgiver⟩

/-- A clean or a flush outside its set and in memory, where nothing lies beyond PoC-memory. -/
theorem MemSys.manage_nil_cleans {cfg : Config} {tick : Nat} {op : CacheOp} {set : List Nat} {b : Nat}
    {bound : List LatestByte} {ms : MemSys} (hw : ms.wf cfg = true) (hop : op ≠ .invalidate) :
    (∀ c ∉ set, (MemSys.manage cfg tick op set [] b bound ms).copyAt c b = ms.copyAt c b ∨
      (cfg.cacheTransfers ≠ .no ∧ ms.copyAt c b = none ∧
        ∃ new, (MemSys.manage cfg tick op set [] b bound ms).copyAt c b = some new ∧ new.modified = false ∧
          ∃ c' ∈ set, ∃ copy, ms.copyAt c' b = some copy ∧ new.data = copy.data)) ∧
    ((∃ c ∈ set, ms.isModified c b = true) →
      ms.HoldsModified cfg set b (MemSys.manage cfg tick op set [] b bound ms).mem) := by
  refine ⟨fun c hc => (MemSys.copyAt_manage_nil_outside hw hc).imp_right ?_,
    fun hm => MemSys.manage_nil_transfers hw (fun h => absurd h hop) hm⟩
  rintro ⟨hno, hnone, new, hnew, hu, hgiver⟩
  exact ⟨hno, hnone, new, hnew, hu hop, hgiver⟩

/-- Settles O39: what an operation leaves in its set, outside it and in memory, for a clean. -/
theorem cleanOperation : Obligations.CleanOperation := by
  intro cfg ms tick acc pa poc bound hw b set ms'
  have hms' : ms' = MemSys.manage cfg tick .clean set (pathOf cfg acc b).beyondPoc b bound ms := rfl
  rw [hms']
  refine ⟨fun c hc => MemSys.isModified_manage hw hc, fun c hc hnone => ?_, fun c hc hsome hno => ?_,
    fun c hc hyes => ?_, MemSys.manage_of_invalid, fun c hc kept h => MemSys.manage_clean_kept hw hc h, fun hnil => ?_⟩
  · rw [MemSys.copyAt_manage_clean hw hc, (MemSys.copyAt_visible_isNone hc).mpr hnone]
    simp
  · rw [MemSys.copyAt_manage_clean hw hc]
    simpa [resolve, hno, MemSys.copyAt_visible_isNone hc] using hsome
  · rw [MemSys.copyAt_manage_clean hw hc]
    simp [resolve, hyes]
  · rw [hnil]
    exact MemSys.manage_nil_cleans hw (by decide)

/-- Settles O40: what an operation leaves in its set, outside it and in memory, for a flush. -/
theorem flushOperation : Obligations.FlushOperation := by
  intro cfg ms tick acc pa poc bound hw b set ms'
  refine ⟨fun c hc => MemSys.copyAt_manage_emptied hw (by decide) hc, MemSys.manage_of_invalid, fun hnil => ?_⟩
  have hms' : ms' = MemSys.manage cfg tick .flush set [] b bound ms := by rw [← hnil]; rfl
  rw [hms']
  exact MemSys.manage_nil_cleans hw (by decide)

/-- Settles O41: an operation transfers Modified copies alone, and a block leaves its cache as rule R66 allows. -/
theorem onlyModifiedBlocksReachMemory : Obligations.OnlyModifiedBlocksReachMemory := by
  intro cfg ms tick acc pa cache op poc bound destination c hw b after
  refine ⟨fun h => MemSys.manage_mem_of_none (MemSys.transferred_none h),
    fun hc => ⟨fun hu => ?_, fun hm => ?_, fun h => ?_⟩⟩
  · simp [MemSys.mayDeallocate, hc, hu]
  · refine ⟨by simp [MemSys.mayDeallocate, hc, hm], by simp [MemSys.mayDeallocate, hc, hm],
      by simp [MemSys.mayDeallocate, hc, hm], fun d hd hne hcached => ?_⟩
    simp [MemSys.mayDeallocate, hc, hm, hd, hne, hcached]
  · exact ⟨MemSys.copyAt_deallocate_same hw h, fun hu => (MemSys.deallocate_unmodified hc hu h).1,
      fun hm => MemSys.deallocate_modified hw hc hm h⟩

/-! ### Allocation (rule R65) -/

/-- Settles O42: the conditions of rule R65, and the copy it makes. -/
theorem allocationBringsTheSource : Obligations.AllocationBringsTheSource := by
  intro cfg ms cache b source asModified hw after
  refine ⟨fun hlt hnone hcached hb => ⟨by simp [MemSys.mayAllocate, hlt, hnone, hcached, hb],
    fun c copy hcopy => by simp [MemSys.mayAllocate, hlt, hnone, hcached, hb, hcopy]⟩, fun h => ?_⟩
  have hafter : after = ms.putCopy cache (ms.allocated cfg cache b source asModified) := by
    simp [after, MemSys.allocate, h]
  simp only [MemSys.mayAllocate, Bool.and_eq_true, Option.isNone_iff_eq_none, decide_eq_true_eq] at h
  obtain ⟨⟨⟨⟨hlt, hnone⟩, -⟩, -⟩, hsource⟩ := h
  have hnew := MemSys.copyAt_putCopy_same ms (ms.allocated cfg cache b source asModified) (MemSys.wf_caches hw ▸ hlt)
  rw [MemSys.allocated_block] at hnew
  refine ⟨hnone, MemSys.allocate_mem .., fun c b' hne => MemSys.copyAt_allocate_other hne,
    _, hafter ▸ hnew, ?_, ?_⟩
  · rintro rfl
    exact ⟨rfl, rfl⟩
  · rintro c rfl
    obtain ⟨copy, hcopy⟩ := Option.isSome_iff_exists.mp hsource
    exact ⟨copy, hcopy, by simp [MemSys.allocated, hcopy], by simp [MemSys.allocated, hcopy]⟩

/-! ### Data writes (rules R68 to R70, R81, R95) -/

theorem MemSys.copyAt_writeByte_reached {cfg : Config} {ms : MemSys} {tick : Nat} {acc : Access} {pa : Nat} {v : Byte}
    {before after : List Hop} {h : Hop} {cache : Nat} {c : Copy} (hw : ms.wf cfg = true)
    (hpath : hopsOf cfg acc (blockBase cfg pa) = before ++ h :: after)
    (hb : ∀ h' ∈ before,
      ms.absorbs cfg (hopCaches (hardwareCoherent cfg (blockBase cfg pa)) h') (blockBase cfg pa) = false)
    (hcache : cache ∈ hopCaches (hardwareCoherent cfg (blockBase cfg pa)) h)
    (hc : ms.copyAt cache (blockBase cfg pa) = some c) :
    (MemSys.writeByte cfg tick acc pa v ms).copyAt cache (blockBase cfg pa) = writtenCopy cfg tick pa v cache c := by
  rw [MemSys.writeByte, hpath, MemSys.copyAt_writeAlong_reached hw hb hcache, hc, Option.bind_some]

/-- Settles O43: a cache that is reached, holds the block and tracks the modified state holds it as written. -/
theorem dataWriteMakesModified : Obligations.DataWriteMakesModified := by
  intro cfg ms tick acc pa v before after h cache c hw b coherent hpath hb hcache ht hc
  rw [MemSys.copyAt_writeByte_reached hw hpath hb hcache hc, writtenCopy_tracks ht]
  simp [b, (MemSys.copyAt_block hc).1]

/-- A data write along some domains ends in a cache that tracks the modified state and holds the block, or in memory. -/
theorem MemSys.writeAlong_arrives {cfg : Config} {tick pa : Nat} {v : Byte} (hops : List Hop) {ms : MemSys}
    (hw : ms.wf cfg = true) :
    Memory.read (MemSys.writeAlong cfg tick pa v hops ms).mem pa = v ∨
      ∃ cache copy, tracks cfg cache = true ∧
        (MemSys.writeAlong cfg tick pa v hops ms).copyAt cache (blockBase cfg pa) = some copy ∧
        copy.modified = true ∧ copy.data.getD (pa % blockSize cfg) 0#8 = v := by
  induction hops generalizing ms with
  | nil => exact .inl (Memory.read_write_same v (MemSys.wf_mem hw))
  | cons h hs ih =>
    simp only [MemSys.writeAlong]
    split
    · next habsorbs =>
      obtain ⟨cache, hcache, ht, c, hc⟩ := MemSys.absorbs_iff.mp habsorbs
      refine .inr ⟨cache, { c with modified := true, data := c.data.set (pa % blockSize cfg) v }, ht, ?_, rfl,
        getD_set_same v ?_⟩
      · rw [MemSys.copyAt_writeCopies _ hw, if_pos hcache, hc, Option.bind_some, writtenCopy_tracks ht]
      · rw [MemSys.copyAt_length hw hc]
        exact Nat.mod_lt pa (blockSize_pos cfg)
    · exact ih (MemSys.writeCopies_wf _ hw)

/-- Settles O44: what such a cache holds after a write, and where the write ends. -/
theorem untrackedWriteGoesOn : Obligations.UntrackedWriteGoesOn := by
  intro cfg ms tick acc pa v hw b coherent ms'
  refine ⟨fun before after h cache c hpath hb hcache ht hc => ?_, MemSys.writeAlong_arrives _ hw⟩
  rw [MemSys.copyAt_writeByte_reached hw hpath hb hcache hc]
  simp only [writtenCopy, ht, Bool.false_eq_true, if_false]
  split
  · exact .inr rfl
  · exact .inl rfl

/-- Settles O45: a write stands along its own path, and loads, stores and `CBO.ZERO` of an agent have one path. -/
theorem readAfterWrite : Obligations.ReadAfterWrite := by
  intro cfg ms tick acc acc' pa v hw hpath
  have hhops : hopsOf cfg acc' (blockBase cfg pa) = hopsOf cfg acc (blockBase cfg pa) := by
    rcases hpath with hpath | ⟨hcfg, hagent, htype, hkind, hkind'⟩
    · exact hpath
    · exact hopsOf_kinds hcfg _ hagent htype hkind hkind'
  have hholds : Holds cfg (MemSys.writeByte cfg tick acc pa v ms) pa [v] (hopsOf cfg acc' (blockBase cfg pa)) :=
    hhops ▸ Holds.writeAlong_same _ hw
  exact List.mem_singleton.mp hholds.readByte

theorem mem_hartWrite_unspecified {s : State} (h : Addresses.wfFrom 0 s.unspecified = true) (kind : AccessKind)
    (memType pa : Nat) (bs : List Byte) (a : Nat) :
    a ∈ (hartWrite s kind memType pa bs).unspecified ↔ a ∈ s.unspecified ∧ ¬ (pa ≤ a ∧ a < pa + bs.length) := by
  have hrange : a ∈ (List.range bs.length).map (pa + ·) ↔ pa ≤ a ∧ a < pa + bs.length := by
    simp only [List.mem_map, List.mem_range]
    exact ⟨fun ⟨i, hi, ha⟩ => by omega, fun ⟨h1, h2⟩ => ⟨a - pa, by omega, by omega⟩⟩
  rw [← hrange, and_comm]
  exact mem_foldl_erase _ h

theorem hartLoadByte_of_specified {s : State} {memType a : Nat} (h : a ∉ s.unspecified) :
    hartLoadByte s memType a = MemSys.readByte s.cfg s.ms (hartAccess .load memType) a := by
  simp [hartLoadByte, h]

/-- Settles O46: a load draws a byte exactly where it stands in the set of unspecified bytes, and a store takes its own
bytes out of that set. -/
theorem loadAfterInvalidateIsFree : Obligations.LoadAfterInvalidateIsFree := fun s memType hi =>
  ⟨fun a ha hdrawn => by simp [hartLoadByte, ha, hdrawn], fun _ => hartLoadByte_of_specified,
    fun kind pa bs a => mem_hartWrite_unspecified hi.unspecified kind memType pa bs a⟩

/-! ### Latest stores (rules R66, R80, R95, R99, R100, R152) -/

theorem State.Inv.held {s : State} (hi : s.Inv) {e : LatestByte} (he : e ∈ s.latest) : e.held s.cfg s.ms = true :=
  (State.latestWf_iff.mp hi.latest e he).2.2

/-- An access reads what the latest store it must return has for it. -/
theorem State.Inv.reads_latest {s : State} (hi : s.Inv) {e : LatestByte} (he : e ∈ s.latest) :
    MemSys.readByte s.cfg s.ms e.access e.address ∈ e.values :=
  (LatestByte.held_iff.mp (hi.held he)).readByte

/-- A store or `CBO.ZERO` of the hart has its place in the order of its loads through pages of the same memory type. -/
theorem ordered_hartAccess {s : State} (hc : s.cfg.wf = true) {kind : AccessKind} (hk : kind = .store ∨ kind = .zero)
    (pa memType : Nat) : ordered s (hartAccess kind memType) pa memType = true := by
  have hkind : kind ∈ [AccessKind.load, .store, .zero] := by rcases hk with rfl | rfl <;> simp
  have hhops : hopsOf s.cfg (hartAccess .load memType) (blockBase s.cfg pa) =
      hopsOf s.cfg (hartAccess kind memType) (blockBase s.cfg pa) := hopsOf_kinds hc _ rfl rfl hkind (by simp [hartAccess])
  unfold ordered
  rw [hhops]
  exact MemSys.arrives_refl ..

theorem hartWrite_latest_mem {s : State} (hi : s.Inv) {kind : AccessKind} (hk : kind = .store ∨ kind = .zero)
    {memType pa i : Nat} (hm : memType ∈ memTypesOf s.cfg) {bs : List Byte} (h : i < bs.length) :
    { address := pa + i, kind := .load, memType := memType, values := [bs[i]] } ∈
      (hartWrite s kind memType pa bs).latest :=
  latestAfterWrite_ordered hi.cfg hi.ms hm h (ordered_hartAccess hi.cfg hk _ _)

/-- The hart's loads return what it stored. -/
theorem hartLoadByte_hartWrite {s : State} (hi : s.Inv) {kind : AccessKind} (hk : kind = .store ∨ kind = .zero)
    {memType pa i : Nat} (hm : memType ∈ memTypesOf s.cfg) {bs : List Byte} (h : i < bs.length) :
    hartLoadByte (hartWrite s kind memType pa bs) memType (pa + i) = bs[i] := by
  have hspec : pa + i ∉ (hartWrite s kind memType pa bs).unspecified := fun hmem =>
    ((mem_hartWrite_unspecified hi.unspecified ..).mp hmem).2 ⟨by omega, by omega⟩
  have hread := (hartWrite_inv kind memType pa bs hi).reads_latest (hartWrite_latest_mem hi hk hm h)
  rw [hartLoadByte_of_specified hspec]
  exact List.mem_singleton.mp hread

theorem allocateForLoad_held {s : State} (hi : s.Inv) {e : LatestByte} (he : e ∈ s.latest) (memType pa : Nat) :
    e.held s.cfg (allocateForLoad s memType pa).ms = true := by
  simpa using (allocateForLoad_inv memType pa hi).held (e := e) (by simpa using he)

theorem allocateForWrite_held {s : State} (hi : s.Inv) {e : LatestByte} (he : e ∈ s.latest) (kind : AccessKind)
    (memType pa : Nat) (cache : Option Nat) : e.held s.cfg (allocateForWrite s kind memType pa cache).ms = true := by
  simpa using (allocateForWrite_inv kind memType pa cache hi).held (e := e) (by simpa using he)

/-- What a hint instruction does is what `execHint` says of its kind. -/
theorem exec_hint {i : Instr} {rs1 : RegIdx} {level : Level}
    (hh : i = .prefetchR rs1 level ∨ i = .prefetchW rs1 level ∨ i = .prefetchI rs1 level ∨ i = .demote rs1 level)
    (s : State) : ∃ kind, exec i s = execHint kind rs1 level s := by
  rcases hh with rfl | rfl | rfl | rfl
  · exact ⟨.prefetchR, rfl⟩
  · exact ⟨.prefetchW, rfl⟩
  · exact ⟨.prefetchI, rfl⟩
  · exact ⟨.demote, rfl⟩

/-- A move of a cache keeps every latest store, or leaves it where its access may return what the move brings. -/
theorem cacheMove_keeps {s t : State} {b : Nat} {source target : Option Nat} {ms : MemSys}
    (h : cacheMove s b source target ms = .next t) {e : LatestByte} (he : e ∈ s.latest) :
    e.bring (whereNeeded s.cfg t.ms (moveBrings s b source) e) ∈ t.latest := by
  obtain ⟨-, hheld, rfl⟩ := cacheMove_next h
  have hmem : e.bring (whereNeeded s.cfg ms (moveBrings s b source) e) ∈
      bringAll (whereNeeded s.cfg ms (moveBrings s b source)) s.latest := mem_bringAll.mpr ⟨e, he, rfl⟩
  exact List.mem_filter.mpr ⟨hmem, List.all_eq_true.mp hheld _ hmem⟩

/-- A move of a cache is made where the copies of the block's domains agree after it, no Modified block leaves the path of
the hart's loads, and each latest store stands with what the move brings. -/
theorem cacheMove_of {s : State} {b : Nat} {source target : Option Nat} {ms : MemSys} (ha : ms.agrees s.cfg b = true)
    (ht : s.ms.takesOut s.cfg b source target = false)
    (hh : ∀ e ∈ s.latest, (e.bring (moveBrings s b source e)).held s.cfg ms = true) :
    ∃ t, cacheMove s b source target ms = .next t ∧ t.ms = ms := by
  have hall : (bringAll (whereNeeded s.cfg ms (moveBrings s b source)) s.latest).all (·.held s.cfg ms) = true := by
    refine List.all_eq_true.mpr fun f hf => ?_
    obtain ⟨e, he, rfl⟩ := mem_bringAll.mp hf
    exact LatestByte.held_whereNeeded (hh e he)
  exact ⟨moved (bringMs s (whereNeeded s.cfg ms (moveBrings s b source)) ms), by simp [cacheMove, ha, ht, hall], rfl⟩

theorem otherMove_allocate_next {s t : State} {cache b : Nat} {source : Option Nat} {asModified : Bool}
    (h : otherMove s (.allocate cache b source asModified) = .next t) :
    cacheMove s b source (if asModified then some cache else none)
      (MemSys.allocate s.cfg cache b source asModified s.ms) = .next t := by
  simp only [otherMove] at h
  split at h
  · exact h
  · cases h

theorem otherMove_deallocate_next {s t : State} {cache b : Nat} {destination : Destination}
    (h : otherMove s (.deallocate cache b destination) = .next t) :
    cacheMove s b (some cache) destination.cache? (MemSys.deallocate s.cfg cache b destination s.ms) = .next t := by
  simp only [otherMove] at h
  split at h
  · exact h
  · cases h

/-- A step that is a move of a cache, from the state in which its move is off the list. -/
theorem step_cacheMove {s t : State} {m : Move} {rest : List Move} {b : Nat} {source : Option Nat}
    (hmoves : s.moves = m :: rest)
    (hm : (∃ cache asModified, m = .allocate cache b source asModified) ∨
      (∃ cache destination, m = .deallocate cache b destination ∧ source = some cache))
    (h : step s = .next t) :
    ∃ target ms, cacheMove { s with moves := rest } b source target ms = .next t := by
  rcases hm with ⟨cache, asModified, rfl⟩ | ⟨cache, destination, rfl, rfl⟩ <;>
    rw [step_eq_otherMove hmoves (by simp)] at h
  · exact ⟨_, _, otherMove_allocate_next h⟩
  · exact ⟨_, _, otherMove_deallocate_next h⟩

theorem MemSys.agrees_dropCopy {cfg : Config} {ms : MemSys} {cache b : Nat} (hw : ms.wf cfg = true)
    (ha : ms.agrees cfg b = true) : (ms.dropCopy cache b).agrees cfg b = true := by
  refine MemSys.agrees_of_subset ha fun x => ?_
  by_cases hx : x = cache
  · exact .inl (hx ▸ MemSys.copyAt_dropCopy_same hw)
  · exact .inr (MemSys.copyAt_dropCopy_other ms (.inl hx))

/-- A modified block that goes outward from its cache keeps a latest store where the cache is on the path of its access,
and brings its bytes where it is off that path. -/
theorem LatestByte.held_outward {s : State} (hi : s.Inv) {cache b : Nat} {c : Copy}
    (hc : s.ms.copyAt cache b = some c) (hm : c.modified = true) {e : LatestByte} (he : e ∈ s.latest) :
    (e.bring (moveBrings s b (some cache) e)).held s.cfg
      (MemSys.transfer s.cfg b c.data (outwardHops s.cfg cache b) (s.ms.dropCopy cache b)) = true := by
  have hheld := LatestByte.held_iff.mp (hi.held he)
  have hlen := MemSys.copyAt_length hi.ms hc
  rw [LatestByte.held_iff]
  simp only [LatestByte.bring_address, LatestByte.bring_access]
  by_cases hb : blockBase s.cfg e.address = b
  · subst hb
    by_cases hpath : cache ∈ pathCaches s.cfg e.access (blockBase s.cfg e.address)
    · exact (hheld.outward hi.cfg hi.ms hc hpath).subset fun v hv => LatestByte.mem_bring.mpr (.inl hv)
    · refine ((hheld.dropCopy_off hpath).transfer_any (MemSys.dropCopy_wf hi.ms) hlen).subset fun v hv => ?_
      rw [LatestByte.mem_bring]
      rcases List.mem_cons.mp hv with rfl | hv
      · right
        simp [moveBrings, offPath, MemSys.isModified_of_copyAt hc, hm, hpath, blockBrings, hc, Memory.unwritten]
      · exact .inl hv
  · refine Holds.subset (fun v hv => LatestByte.mem_bring.mpr (.inl hv)) (hheld.congr ?_ fun x => ?_)
    · rcases MemSys.transfer_mem_cases (outwardHops s.cfg cache b) (s.ms.dropCopy cache b) (cfg := s.cfg) (b := b)
        (data := c.data) with h | h <;> rw [h]
      · rfl
      · exact Memory.read_writeBlock_other (MemSys.copyAt_aligned hi.ms hc) hlen hb
    · rw [MemSys.copyAt_transfer_block _ hb, MemSys.copyAt_dropCopy_other _ (.inr hb)]

/-- A deallocation that rule R66 allows is made where the copies of the block's domains agree after it, no Modified block
leaves the path of the hart's loads, and each latest store stands with what the move brings. -/
theorem otherMove_deallocate_of {s : State} (hi : s.Inv) {cache b : Nat} {destination : Destination}
    (hmay : s.ms.mayDeallocate s.cfg cache b destination = true)
    (ha : (MemSys.deallocate s.cfg cache b destination s.ms).agrees s.cfg b = true)
    (ht : s.ms.takesOut s.cfg b (some cache) destination.cache? = false)
    (hh : ∀ e ∈ s.latest, (e.bring (moveBrings s b (some cache) e)).held s.cfg
      (MemSys.deallocate s.cfg cache b destination s.ms) = true) :
    ∃ t, otherMove s (.deallocate cache b destination) = .next t ∧ t.ms.copyAt cache b = none := by
  obtain ⟨t, hmove, hms⟩ := cacheMove_of ha ht hh
  exact ⟨t, by simp [otherMove, hmay, hmove], by rw [hms, MemSys.copyAt_deallocate_same hi.ms hmay]⟩

/-- A cache may always give up a block (rule R66): drop it unmodified, send it outward modified. -/
theorem deallocate_allowed {s : State} (hi : s.Inv) {cache b : Nat} {c : Copy} (hc : s.ms.copyAt cache b = some c) :
    ∃ t, otherMove s (.deallocate cache b (if c.modified then .outward else .dropped)) = .next t ∧
      t.ms.copyAt cache b = none := by
  have hagrees : (s.ms.dropCopy cache b).agrees s.cfg b = true := MemSys.agrees_dropCopy hi.ms (hi.sound.agrees b)
  cases hm : c.modified with
  | false =>
    have hmay : s.ms.mayDeallocate s.cfg cache b .dropped = true := by simp [MemSys.mayDeallocate, hc, hm]
    have hdrop : MemSys.deallocate s.cfg cache b .dropped s.ms = s.ms.dropCopy cache b := by
      simp [MemSys.deallocate, hc, hmay]
    simp only [Bool.false_eq_true, if_false]
    refine otherMove_deallocate_of hi hmay (hdrop ▸ hagrees) rfl fun e he => ?_
    rw [hdrop, LatestByte.held_iff]
    simp only [LatestByte.bring_address, LatestByte.bring_access]
    refine Holds.subset (fun v hv => LatestByte.mem_bring.mpr (.inl hv)) ?_
    exact (LatestByte.held_iff.mp (hi.held he)).dropCopy hi.ms fun _ => by rw [MemSys.isModified_of_copyAt hc, hm]
  | true =>
    have hmay : s.ms.mayDeallocate s.cfg cache b .outward = true := by simp [MemSys.mayDeallocate, hc, hm]
    have hout : MemSys.deallocate s.cfg cache b .outward s.ms =
        MemSys.transfer s.cfg b c.data (outwardHops s.cfg cache b) (s.ms.dropCopy cache b) := by
      simp [MemSys.deallocate, hc, hmay]
    simp only [if_true]
    refine otherMove_deallocate_of hi hmay
      (hout ▸ MemSys.agrees_transfer _ hi.cfg (fun _ => outwardHops_subset) hagrees) rfl fun e he => ?_
    rw [hout]
    exact LatestByte.held_outward hi hc hm he

theorem execBase_fenceInstructions (s : State) : execBase 0x0000100F#32 s = .next (retireBase (fenceInstructions s)) := by
  rfl

/-- A move of a cache makes no block Modified off the path of the hart's loads. -/
theorem cacheMove_modifiedOffLoads {s t : State} (hi : s.Inv) {m : Move}
    (hm : (∃ cache b source asModified, m = .allocate cache b source asModified) ∨
      (∃ cache b destination, m = .deallocate cache b destination))
    (h : otherMove s m = .next t) {memType b : Nat} (hmem : memType ∈ memTypesOf s.cfg)
    (hoff : t.ms.ModifiedOffLoads s.cfg memType b) : s.ms.ModifiedOffLoads s.cfg memType b := by
  rcases hm with ⟨cache, b', source, asModified, rfl⟩ | ⟨cache, b', destination, rfl⟩
  · obtain ⟨htakes, -, rfl⟩ := cacheMove_next (otherMove_allocate_next h)
    exact MemSys.ModifiedOffLoads.allocate hi.ms hmem htakes hoff
  · obtain ⟨htakes, -, rfl⟩ := cacheMove_next (otherMove_deallocate_next h)
    exact MemSys.ModifiedOffLoads.deallocate hi.cfg hi.ms hmem htakes hoff

/-- Settles O47: each clause is what the operation it speaks of keeps of `State.latest`, or of the Modified blocks off the
path of the loads. -/
theorem latestStoresAreRead : Obligations.LatestStoresAreRead := by
  refine ⟨fun s hi e he => hi.reads_latest he, ?_, ?_, ?_, ?_, ?_, ?_, ?_, ?_⟩
  · intro s kind memType pa bs hi
    exact ⟨fun hk hm i h => ⟨hartLoadByte_hartWrite hi hk hm h, hartWrite_latest_mem hi hk hm h⟩,
      fun e he hs => latestAfterWrite_keeps hi.ms hi.latest he hs⟩
  · intro s acc pa bs hi
    exact ⟨fun memType hm i h ho => latestAfterWrite_ordered hi.cfg hi.ms hm h ho,
      fun e he hs => latestAfterWrite_keeps hi.ms hi.latest he hs⟩
  · intro s op acc pa poc hi hop e he
    exact ⟨manageBlock_keeps hi.cfg hi.ms hi.latest hop he,
      fun h => manageBlock_brings_nothing hi.cfg hi.ms hi.latest hop h he⟩
  · intro s kind memType pa cache hi e he
    exact ⟨by simpa using he, by simpa using he, allocateForLoad_held hi he .., allocateForWrite_held hi he ..⟩
  · intro s t i rs1 level hh h e he
    obtain ⟨kind, hexec⟩ := exec_hint hh s
    rw [(execHint_effect (hexec ▸ h)).1]
    exact he
  · intro s t m rest b source hmoves hm h e he
    obtain ⟨target, ms, hmove⟩ := step_cacheMove hmoves hm h
    exact cacheMove_keeps hmove he
  · intro s rest cache b c hi hc hmoves
    rw [step_eq_otherMove hmoves (by simp)]
    exact deallocate_allowed (keptByParts_inv.moves s rest hi) hc
  · intro s ms memType b hi hm hms hoff
    rcases hms with ⟨op, acc, pa, poc, rfl⟩ | ⟨kind, pa, bs, hk, rfl⟩ | ⟨t, ht, rfl⟩ |
      ⟨t, i, rs1, level, hh, h, rfl⟩ | ⟨t, m, rest, hmoves, hcache, h, rfl⟩
    · exact MemSys.ModifiedOffLoads.manageAt hi.cfg hi.ms hm hoff
    · exact MemSys.ModifiedOffLoads.writeBytes bs hi.cfg hk hi.ms hoff
    · rw [execBase_fenceInstructions] at ht
      injection ht with ht
      subst ht
      obtain ⟨x, hx, hmod⟩ := hoff
      exact ⟨x, hx, fenceInstructions_isModified hi.cfg hi.sound hmod⟩
    · obtain ⟨kind, hexec⟩ := exec_hint hh s
      rcases (execHint_effect (hexec ▸ h)).2 with heq | ⟨tr, cache, -, hok, heq⟩
      · exact heq ▸ hoff
      · exact hintMove_modifiedOffLoads hi.cfg hi.ms hm hok (heq ▸ hoff)
    · have hart : m ≠ .hart := by
        rintro rfl
        rcases hcache with ⟨_, _, _, _, hcache⟩ | ⟨_, _, _, hcache⟩ <;> cases hcache
      rw [step_eq_otherMove hmoves hart] at h
      exact cacheMove_modifiedOffLoads (keptByParts_inv.moves s rest hi) hcache h hm hoff

/-! ### `FENCE.I`: what becomes of a latest store (rule R103; log entry 22) -/

/-- Pages of every memory type have the same paths to a block, for the hart's loads and for its fetches. -/
def SamePaths (cfg : Config) (b : Nat) : Prop :=
  ∀ memType ∈ memTypesOf cfg, ∀ kind ∈ [AccessKind.load, .fetch],
    hopsOf cfg (hartAccess kind memType) b = hopsOf cfg (hartAccess kind 0) b

theorem SamePaths.hopsOf_eq {cfg : Config} {b : Nat} (h : SamePaths cfg b) {kind : AccessKind}
    (hk : kind ∈ [AccessKind.load, .fetch]) {m m' : Nat} (hm : m ∈ memTypesOf cfg) (hm' : m' ∈ memTypesOf cfg) :
    hopsOf cfg (hartAccess kind m) b = hopsOf cfg (hartAccess kind m') b :=
  (h m hm kind hk).trans (h m' hm' kind hk).symm

/-- What a latest store becomes by parts of `FENCE.I`: it is of the same accesses, which may return the same bytes and
perhaps others, none where pages of every memory type have the same paths to its block. -/
structure LatestByte.Grows (cfg : Config) (e e' : LatestByte) : Prop where
  address : e'.address = e.address
  kind : e'.kind = e.kind
  memType : e'.memType = e.memType
  values : ∀ v ∈ e.values, v ∈ e'.values
  same : SamePaths cfg (blockBase cfg e.address) → e' = e

theorem LatestByte.Grows.refl (cfg : Config) (e : LatestByte) : e.Grows cfg e :=
  ⟨rfl, rfl, rfl, fun _ h => h, fun _ => rfl⟩

theorem LatestByte.Grows.bring {cfg : Config} {e e' : LatestByte} (h : e.Grows cfg e') {w : Option Byte}
    (hw : SamePaths cfg (blockBase cfg e'.address) → ∀ v, w = some v → v ∈ e'.values) : e.Grows cfg (e'.bring w) where
  address := by simp [h.address]
  kind := by simp [h.kind]
  memType := by simp [h.memType]
  values v hv := LatestByte.mem_bring.mpr (.inl (h.values v hv))
  same hp := (LatestByte.bring_of_mem (hw (h.address ▸ hp))).trans (h.same hp)

/-- A latest store of the loads as one of the fetches of the same memory type. -/
def LatestByte.forFetches (e : LatestByte) : LatestByte := { e with kind := .fetch }

theorem LatestByte.forFetches_bring (e : LatestByte) (w : Option Byte) :
    (e.bring w).forFetches = e.forFetches.bring w := (LatestByte.bring_fetch e w).symm

/-- A latest store of the loads is kept. -/
def KeptStore (e : LatestByte) (t : State) : Prop := ∃ e' ∈ t.latest, e.Grows t.cfg e'

/-- A latest store of the loads is kept, and stands for the fetches too. -/
def ShownStore (e : LatestByte) (t : State) : Prop :=
  ∃ e' ∈ t.latest, e.Grows t.cfg e' ∧ e'.forFetches.held t.cfg t.ms = true

/-! ### `FENCE.I`: what its parts bring, the paths being the same -/

/-- The first Modified copy of its block on the path of a latest store's access has one of the store's bytes. -/
theorem LatestByte.firstModified_mem {cfg : Config} {ms : MemSys} {e : LatestByte} {acc : Access} {d : List Byte}
    (h : e.held cfg ms = true)
    (hp : hopsOf cfg acc (blockBase cfg e.address) = hopsOf cfg e.access (blockBase cfg e.address))
    (hd : ms.firstModified (pathCaches cfg acc (blockBase cfg e.address)) (blockBase cfg e.address) = some d) :
    d.getD (e.address % blockSize cfg) Memory.unwritten ∈ e.values := by
  unfold pathCaches at hd
  rw [hp] at hd
  exact (LatestByte.held_iff.mp h).firstModified hd

theorem blockBrings_eq_some {cfg : Config} {b : Nat} {data : Option (List Byte)} {e : LatestByte} {v : Byte}
    (h : blockBrings cfg b data e = some v) :
    blockBase cfg e.address = b ∧ ∃ d, data = some d ∧ d.getD (e.address % blockSize cfg) Memory.unwritten = v := by
  unfold blockBrings at h
  split at h
  · next hb => exact ⟨hb, Option.map_eq_some_iff.mp h⟩
  · cases h

theorem bytesBring_singleton {pa : Nat} {r v : Byte} {e : LatestByte} (h : bytesBring pa [r] e = some v) :
    e.address = pa ∧ v = r := by
  unfold bytesBring at h
  split at h
  · obtain ⟨hlt, hv⟩ := List.getElem?_eq_some_iff.mp h
    simp only [List.length_singleton, Nat.lt_one_iff] at hlt
    exact ⟨by omega, by simpa [hlt] using hv.symm⟩
  · cases h

theorem showBrings_mem {t : State} {x e : LatestByte} (hk : e.kind = .load) (he : e.memType ∈ memTypesOf t.cfg)
    (hx : x.memType ∈ memTypesOf t.cfg) (h : e.held t.cfg t.ms = true)
    (hp : SamePaths t.cfg (blockBase t.cfg e.address)) {v : Byte} (hv : showBrings t x e = some v) : v ∈ e.values := by
  have hpath : hopsOf t.cfg (hartAccess .load x.memType) (blockBase t.cfg e.address) =
      hopsOf t.cfg e.access (blockBase t.cfg e.address) := by
    rw [LatestByte.access, hk]
    exact hp.hopsOf_eq (by simp) hx he
  unfold showBrings at hv
  simp only at hv
  split at hv
  · next d hd =>
    obtain ⟨hb, d', hd', rfl⟩ := blockBrings_eq_some hv
    injection hd' with hd'
    subst hd'
    rw [← hb] at hd
    exact LatestByte.firstModified_mem h hpath hd
  · obtain ⟨ha, rfl⟩ := bytesBring_singleton hv
    rw [← ha]
    exact Holds.readByte (hpath ▸ LatestByte.held_iff.mp h)

theorem cleanBrings_mem {t : State} {x e : LatestByte} (he : e.memType ∈ memTypesOf t.cfg)
    (hx : x.memType ∈ memTypesOf t.cfg) (h : e.forFetches.held t.cfg t.ms = true)
    (hp : SamePaths t.cfg (blockBase t.cfg e.address)) {v : Byte}
    (hv : blockBrings t.cfg (blockBase t.cfg x.address) (modifiedFor t .fetch x) e = some v) : v ∈ e.values := by
  obtain ⟨hb, d, hd, rfl⟩ := blockBrings_eq_some hv
  rw [modifiedFor, ← hb] at hd
  have hpath : hopsOf t.cfg (hartAccess .fetch x.memType) (blockBase t.cfg e.address) =
      hopsOf t.cfg (hartAccess .fetch e.memType) (blockBase t.cfg e.address) := hp.hopsOf_eq (by simp) hx he
  exact LatestByte.firstModified_mem (e := e.forFetches) h hpath hd

theorem findSome?_filter_ne {α β : Type} [DecidableEq α] {f : α → Option β} {a : α} (h : f a = none) (l : List α) :
    (l.filter fun x => !x == a).findSome? f = l.findSome? f := by
  induction l with
  | nil => rfl
  | cons x l ih =>
    by_cases hx : x = a
    · subst hx
      simp [h, ih]
    · simp [hx, List.findSome?_cons, ih]

theorem findSome?_eraseDups {α β : Type} [DecidableEq α] (f : α → Option β) (l : List α) :
    l.eraseDups.findSome? f = l.findSome? f := by
  match l with
  | [] => simp
  | a :: l =>
    rw [List.eraseDups_cons, List.findSome?_cons, List.findSome?_cons]
    cases h : f a with
    | some y => rfl
    | none =>
      have := findSome?_eraseDups f (l.filter fun x => !x == a)
      simp only [this, findSome?_filter_ne h]
termination_by l.length
decreasing_by exact Nat.lt_succ_of_le (List.length_filter_le _ _)

theorem MemSys.firstModified_flatMap_of_same {ms : MemSys} {b x : Nat} {l : List Nat} {f : Nat → List Nat}
    {r : Option (List Byte)} (h : ∀ y ∈ x :: l, ms.firstModified (f y) b = r) :
    ms.firstModified ((x :: l).flatMap f) b = r := by
  induction l generalizing x with
  | nil => simpa using h x (by simp)
  | cons y l ih =>
    rw [List.flatMap_cons, MemSys.firstModified_append, h x (by simp), ih fun z hz => h z (by simp [hz]), Option.or_self]

/-- The first Modified copy among the caches of the hart, the paths being the same: the first on the path of the loads,
else the first on the path of the fetches. -/
theorem firstModified_hartCaches {cfg : Config} {ms : MemSys} {b m : Nat} (hm : m ∈ memTypesOf cfg)
    (hp : SamePaths cfg b) :
    ms.firstModified (hartCaches cfg b) b =
      (ms.firstModified (pathCaches cfg (hartAccess .load m) b) b).or
        (ms.firstModified (pathCaches cfg (hartAccess .fetch m) b) b) := by
  have hpath : ∀ kind ∈ [AccessKind.load, .fetch], ∀ m' ∈ memTypesOf cfg,
      pathCaches cfg (hartAccess kind m') b = pathCaches cfg (hartAccess kind m) b := fun kind hk m' hm' => by
    unfold pathCaches
    rw [hp.hopsOf_eq hk hm' hm]
  have herase : ms.firstModified (hartCaches cfg b) b = ms.firstModified ((memTypesOf cfg).flatMap fun t =>
      pathCaches cfg (hartAccess .load t) b ++ pathCaches cfg (hartAccess .fetch t) b) b := findSome?_eraseDups _ _
  rw [herase]
  refine MemSys.firstModified_flatMap_of_same fun m' hm' => ?_
  rw [MemSys.firstModified_append, hpath _ (by simp) m' hm', hpath _ (by simp) m' hm']

theorem syncBrings_mem {t : State} {b : Nat} {e : LatestByte} (hk : e.kind = .load) (he : e.memType ∈ memTypesOf t.cfg)
    (h : e.held t.cfg t.ms = true) (hf : e.forFetches.held t.cfg t.ms = true)
    (hp : SamePaths t.cfg (blockBase t.cfg e.address)) {v : Byte}
    (hv : blockBrings t.cfg b (t.ms.firstModified (hartCaches t.cfg b) b) e = some v) : v ∈ e.values := by
  obtain ⟨rfl, d, hd, rfl⟩ := blockBrings_eq_some hv
  have hacc : e.access = hartAccess .load e.memType := by rw [LatestByte.access, hk]
  rw [firstModified_hartCaches he hp] at hd
  rcases Option.or_eq_some_iff.mp hd with hd | ⟨-, hd⟩
  · exact LatestByte.firstModified_mem h (by rw [hacc]) hd
  · exact LatestByte.firstModified_mem (e := e.forFetches) hf rfl hd

/-! ### `FENCE.I`: its parts keep the latest stores, and show them -/

theorem bringMs_latest_mem {t : State} {brought : LatestByte → Option Byte} {ms : MemSys} {e : LatestByte}
    (he : e ∈ t.latest) (hh : (e.bring (brought e)).held t.cfg ms = true) :
    e.bring (brought e) ∈ (bringMs t brought ms).latest :=
  List.mem_filter.mpr ⟨mem_bringAll.mpr ⟨e, he, rfl⟩, hh⟩

/-- A latest store that stands for the fetches stands for them in another memory system, where each access may return what
comes and what comes to the loads and to the fetches of a byte is the same. -/
theorem ShownStore.bringMs {t : State} {e : LatestByte} {brought : LatestByte → Option Byte} {ms : MemSys} (hi : t.Inv)
    (hk : e.kind = .load) (h : ShownStore e t) (hb : ∀ f : LatestByte, brought f.forFetches = brought f)
    (hheld : ∀ f : LatestByte, (f.kind = .load ∨ f.kind = .fetch) → f.memType ∈ memTypesOf t.cfg →
      f.held t.cfg t.ms = true → (f.bring (brought f)).held t.cfg ms = true)
    (hsame : ∀ f : LatestByte, f.kind = .load → f.memType ∈ memTypesOf t.cfg → f.held t.cfg t.ms = true →
      f.forFetches.held t.cfg t.ms = true → SamePaths t.cfg (blockBase t.cfg f.address) →
        ∀ v, brought f = some v → v ∈ f.values) :
    ShownStore e (bringMs t brought ms) := by
  obtain ⟨e', he', hg, hfetch⟩ := h
  obtain ⟨hkind, hm, hload⟩ := State.latestWf_iff.mp hi.latest e' he'
  refine ⟨e'.bring (brought e'), bringMs_latest_mem he' (hheld e' hkind hm hload),
    hg.bring (hsame e' (hg.kind.trans hk) hm hload hfetch), ?_⟩
  rw [LatestByte.forFetches_bring, ← hb]
  exact hheld e'.forFetches (.inr rfl) hm hfetch

theorem showBrings_forFetches (t : State) (x f : LatestByte) : showBrings t x f.forFetches = showBrings t x f := rfl

theorem ShownStore.showToFetches {t : State} {e x : LatestByte} (hi : t.Inv) (hk : e.kind = .load)
    (hx : x.memType ∈ memTypesOf t.cfg) (h : ShownStore e t) : ShownStore e (showToFetches t x) := by
  unfold Machine.showToFetches
  split
  · exact h
  · exact h.bringMs hi hk (showBrings_forFetches t x) (fun _ _ _ hf => LatestByte.held_showToFetches hi.cfg hi.ms hf)
      fun _ hfk hfm hf _ hp _ hv => showBrings_mem hfk hfm hx hf hp hv

theorem ShownStore.cleanFetches {t : State} {e x : LatestByte} (hi : t.Inv) (hk : e.kind = .load)
    (hx : x.memType ∈ memTypesOf t.cfg) (h : ShownStore e t) : ShownStore e (cleanFetches t x) :=
  h.bringMs hi hk (fun _ => rfl) (fun _ _ _ hf => LatestByte.held_writeBack hi.cfg hi.ms (blockBase_mod ..) hf)
    fun _ _ hfm _ hf hp _ hv => cleanBrings_mem hfm hx hf hp hv

theorem ShownStore.syncFetches {t : State} {e : LatestByte} {b : Nat} (hi : t.Inv) (hk : e.kind = .load)
    (hb : b % blockSize t.cfg = 0) (h : ShownStore e t) : ShownStore e (syncFetches t b) := by
  unfold Machine.syncFetches
  split
  · exact h
  · exact h.bringMs hi hk (fun _ => rfl) (fun _ hfk hfm hf => LatestByte.held_emptyBlock hi.ms hb hfk hfm hf)
      fun _ hfk hfm hl hf hp _ hv => syncBrings_mem hfk hfm hl hf hp hv

theorem KeptStore.showToFetches {t : State} {e x : LatestByte} (hi : t.Inv) (hk : e.kind = .load)
    (hx : x.memType ∈ memTypesOf t.cfg) (h : KeptStore e t) : KeptStore e (showToFetches t x) := by
  obtain ⟨e', he', hg⟩ := h
  obtain ⟨-, hm, hload⟩ := State.latestWf_iff.mp hi.latest e' he'
  rw [KeptStore, showToFetches_cfg]
  rcases showToFetches_keeps (x := x) hi.cfg hi.ms hi.latest he' with h | h
  · exact ⟨e', h, hg⟩
  · exact ⟨_, h, hg.bring fun hp _ hv => showBrings_mem (hg.kind.trans hk) hm hx hload hp hv⟩

/-- A latest store is shown to the fetches by its address and its memory type. -/
theorem showToFetches_congr {x y : LatestByte} (ha : y.address = x.address) (hm : y.memType = x.memType) (t : State) :
    Machine.showToFetches t y = Machine.showToFetches t x := by
  cases x
  cases y
  cases ha
  cases hm
  rfl

/-- A latest store of the loads that is shown to the fetches stands for them. -/
theorem KeptStore.shown {t : State} {e : LatestByte} (hi : t.Inv) (hk : e.kind = .load) (h : KeptStore e t) :
    ShownStore e (Machine.showToFetches t e) := by
  obtain ⟨e', he', hg⟩ := h
  have hk' : e'.kind = .load := hg.kind.trans hk
  obtain ⟨-, hm, hload⟩ := State.latestWf_iff.mp hi.latest e' he'
  rw [← showToFetches_congr hg.address hg.memType]
  unfold Machine.showToFetches
  split
  · next hshown =>
    simp only [Bool.and_eq_true] at hshown
    exact ⟨e', he', hg, LatestByte.held_of_fetchesHold hk' hload hshown.2⟩
  · refine ⟨_, bringMs_latest_mem he' (LatestByte.held_showToFetches hi.cfg hi.ms hload),
      hg.bring fun hp _ hv => showBrings_mem hk' hm hm hload hp hv, ?_⟩
    exact LatestByte.held_showToFetches_fetch hi.ms hk' hload

/-! ### `FENCE.I`: what the fetches read -/

/-- The hart's fetches read a byte as its loads do. -/
def FetchesRead (cfg : Config) (a : Nat) (ms : MemSys) : Prop :=
  ∀ memType ∈ memTypesOf cfg, MemSys.readByte cfg ms (hartAccess .fetch memType) a =
    MemSys.readByte cfg ms (hartAccess .load memType) a

/-- A block that no cache of the hart holds is read in memory by both. -/
theorem FetchesRead.of_invalid {cfg : Config} {ms : MemSys} {a : Nat}
    (h : ∀ c ∈ hartCaches cfg (blockBase cfg a), ms.copyAt c (blockBase cfg a) = none) : FetchesRead cfg a ms :=
  fun _ hm => by rw [MemSys.readByte_of_invalid (.inr rfl) hm h, MemSys.readByte_of_invalid (.inl rfl) hm h]

theorem MemSys.readByte_emptyBlock {cfg : Config} {ms : MemSys} {b a : Nat} (hw : ms.wf cfg = true)
    (ha : b % blockSize cfg = 0) (hb : blockBase cfg a ≠ b) (acc : Access) :
    MemSys.readByte cfg (ms.emptyBlock cfg b) acc a = MemSys.readByte cfg ms acc a := by
  have hmem : Memory.read (ms.emptyBlock cfg b).mem a = Memory.read ms.mem a := by
    unfold MemSys.emptyBlock
    simp only
    split
    · rw [MemSys.dropCopies_mem]
    · next d hd => exact Memory.read_writeBlock_other ha (MemSys.firstModified_length hw hd) hb
  have hfirst : (ms.emptyBlock cfg b).firstCopy (pathCaches cfg acc (blockBase cfg a)) (blockBase cfg a) =
      ms.firstCopy (pathCaches cfg acc (blockBase cfg a)) (blockBase cfg a) :=
    MemSys.firstCopy_congr fun c _ => by rw [MemSys.copyAt_emptyBlock hw, if_neg fun h => hb h.2]
  unfold MemSys.readByte
  rw [hmem, hfirst]

theorem syncFetches_ms (t : State) (b : Nat) :
    (t.ms.fetchesAgree t.cfg b = true ∧ (syncFetches t b).ms = t.ms) ∨
      (syncFetches t b).ms = t.ms.emptyBlock t.cfg b := by
  unfold syncFetches
  split
  · next h => exact .inl ⟨h, rfl⟩
  · exact .inr rfl

/-- A block that leaves the hart's caches, or that fetches read as loads do, is read as loads do; and so is every block
that was. -/
theorem FetchesRead.syncFetches {t : State} (hi : t.Inv) {b a : Nat} (hb : b % blockSize t.cfg = 0)
    (h : blockBase t.cfg a = b ∨ FetchesRead t.cfg a t.ms) : FetchesRead t.cfg a (syncFetches t b).ms := by
  by_cases hab : blockBase t.cfg a = b
  · subst hab
    rcases syncFetches_ms t (blockBase t.cfg a) with ⟨hagree, hms⟩ | hms <;> rw [hms]
    · exact fun memType hm => MemSys.readByte_of_fetchesAgree hm hagree
    · exact .of_invalid fun c hc => by rw [MemSys.copyAt_emptyBlock hi.ms, if_pos ⟨hc, rfl⟩]
  · have hreads := h.resolve_left hab
    rcases syncFetches_ms t b with ⟨-, hms⟩ | hms <;> rw [hms]
    · exact hreads
    · intro memType hm
      rw [MemSys.readByte_emptyBlock hi.ms hb hab, MemSys.readByte_emptyBlock hi.ms hb hab, hreads memType hm]

/-! ### `FENCE.I`: the whole -/

/-- The state in which every latest store of the loads is shown to the fetches and its block written back. -/
def fenceShown (s : State) : State :=
  (s.latest.filter (·.kind == .load)).foldl cleanFetches ((s.latest.filter (·.kind == .load)).foldl showToFetches s)

/-- The state in which the fetches read every block as the loads do. -/
def fenceSynced (s : State) : State := (fenceShown s).ms.blocksHeld.foldl syncFetches (fenceShown s)

theorem fenceInstructions_eq (s : State) : fenceInstructions s =
    { fenceSynced s with
      latest := fetchEntries (fenceSynced s) ++
        (fenceSynced s).latest.filter fun e => !aboutSame (fetchEntries (fenceSynced s)) e } := rfl

theorem fenceInstructions_ms (s : State) : (fenceInstructions s).ms = (fenceSynced s).ms := rfl

/-- The states the parts of `FENCE.I` go through. -/
structure Fencing (s t : State) : Prop where
  inv : t.Inv
  cfg : t.cfg = s.cfg

theorem Fencing.showToFetches {s t : State} (h : Fencing s t) (x : LatestByte) : Fencing s (showToFetches t x) :=
  ⟨showToFetches_inv x h.inv, by rw [showToFetches_cfg, h.cfg]⟩

theorem Fencing.cleanFetches {s t : State} (h : Fencing s t) (x : LatestByte) : Fencing s (cleanFetches t x) :=
  ⟨cleanFetches_inv x h.inv, h.cfg⟩

theorem Fencing.syncFetches {s t : State} (h : Fencing s t) (b : Nat) : Fencing s (syncFetches t b) :=
  ⟨syncFetches_inv b h.inv, by rw [syncFetches_cfg, h.cfg]⟩

theorem fenceShown_fencing {s : State} (hi : s.Inv) : Fencing s (fenceShown s) :=
  foldl_keeps (Fencing s) _ (fun _ x h => h.cleanFetches x) _ _
    (foldl_keeps (Fencing s) _ (fun _ x h => h.showToFetches x) _ _ ⟨hi, rfl⟩)

theorem fenceShown_aligned {s : State} (hi : s.Inv) {b : Nat} (hb : b ∈ (fenceShown s).ms.blocksHeld) :
    b % blockSize s.cfg = 0 := by
  have hf := fenceShown_fencing hi
  rw [← hf.cfg]
  exact MemSys.blocksHeld_aligned hf.inv.ms hb

/-- A property that the parts of `FENCE.I` on latest stores keep, in the states it goes through. -/
theorem Fencing.foldl {α : Type} {s t : State} {f : State → α → State} {P : State → Prop} (l : List α)
    (hf : ∀ t, Fencing s t → ∀ x, Fencing s (f t x)) (hP : ∀ t, Fencing s t → ∀ x ∈ l, P t → P (f t x))
    (h : Fencing s t) (hp : P t) : Fencing s (l.foldl f t) ∧ P (l.foldl f t) :=
  List.foldlRecOn (motive := fun t => Fencing s t ∧ P t) l f ⟨h, hp⟩
    fun t ht x hx => ⟨hf t ht.1 x, hP t ht.1 x hx ht.2⟩

/-- Every latest store of the loads is kept, and stands for the fetches, once all are shown and written back. -/
theorem fenceShown_shown {s : State} (hi : s.Inv) {e : LatestByte} (he : e ∈ s.latest) (hk : e.kind = .load) :
    ShownStore e (fenceShown s) := by
  have hmem : e ∈ s.latest.filter (·.kind == .load) := List.mem_filter.mpr ⟨he, by simp [hk]⟩
  have htype : ∀ x ∈ s.latest.filter (·.kind == .load), ∀ t, Fencing s t → x.memType ∈ memTypesOf t.cfg :=
    fun x hx t ht => ht.cfg ▸ (State.latestWf_iff.mp hi.latest x (List.mem_filter.mp hx).1).2.1
  have hshow : ∀ t, Fencing s t → ∀ x, Fencing s (showToFetches t x) := fun _ ht x => ht.showToFetches x
  obtain ⟨before, after, hsplit⟩ := List.append_of_mem hmem
  have hkept := Fencing.foldl (P := KeptStore e) before hshow (fun t ht x hx h => h.showToFetches ht.inv hk
    (htype x (by simp [hsplit, hx]) t ht)) ⟨hi, rfl⟩ ⟨e, he, .refl _ e⟩
  have hshown := Fencing.foldl (P := ShownStore e) after hshow (fun t ht x hx h => h.showToFetches ht.inv hk
    (htype x (by simp [hsplit, hx]) t ht)) (hkept.1.showToFetches e) (hkept.2.shown hkept.1.inv hk)
  rw [← List.foldl_cons, ← List.foldl_append, ← hsplit] at hshown
  exact (Fencing.foldl (P := ShownStore e) _ (fun _ ht x => ht.cleanFetches x) (fun t ht x hx h =>
    h.cleanFetches ht.inv hk (htype x hx t ht)) hshown.1 hshown.2).2

/-- They are kept, and stand for the fetches, once the fetches read every block as the loads do. -/
theorem fenceSynced_shown {s : State} (hi : s.Inv) {e : LatestByte} (he : e ∈ s.latest) (hk : e.kind = .load) :
    Fencing s (fenceSynced s) ∧ ShownStore e (fenceSynced s) :=
  Fencing.foldl (P := ShownStore e) _ (fun _ ht b => ht.syncFetches b) (fun t ht b hb h =>
    h.syncFetches ht.inv hk (by rw [ht.cfg]; exact fenceShown_aligned hi hb)) (fenceShown_fencing hi)
    (fenceShown_shown hi he hk)

/-- The fetches read every byte as the loads do in the end: its block leaves the caches of the hart, or none held it. -/
theorem fenceSynced_fetchesRead {s : State} (hi : s.Inv) (a : Nat) : FetchesRead s.cfg a (fenceSynced s).ms := by
  have hstart := fenceShown_fencing hi
  have hsync : ∀ t b, Fencing s t → b % blockSize s.cfg = 0 →
      blockBase s.cfg a = b ∨ FetchesRead s.cfg a t.ms → FetchesRead s.cfg a (syncFetches t b).ms := fun t b ht => by
    rw [← ht.cfg]
    exact FetchesRead.syncFetches ht.inv
  have hkeeps : ∀ (l : List Nat) t, (∀ b ∈ l, b ∈ (fenceShown s).ms.blocksHeld) → Fencing s t →
      FetchesRead s.cfg a t.ms → FetchesRead s.cfg a (l.foldl syncFetches t).ms := fun l t hl ht h =>
    (Fencing.foldl (P := fun t => FetchesRead s.cfg a t.ms) l (fun _ ht b => ht.syncFetches b)
      (fun t ht b hb h => hsync t b ht (fenceShown_aligned hi (hl b hb)) (.inr h)) ht h).2
  by_cases hheld : blockBase s.cfg a ∈ (fenceShown s).ms.blocksHeld
  · obtain ⟨before, after, hsplit⟩ := List.append_of_mem hheld
    have ht : Fencing s (before.foldl syncFetches (fenceShown s)) :=
      foldl_keeps (Fencing s) _ (fun _ b h => h.syncFetches b) _ _ hstart
    rw [fenceSynced, hsplit, List.foldl_append, List.foldl_cons]
    exact hkeeps after _ (fun b hb => by simp [hsplit, hb]) (ht.syncFetches _)
      (hsync _ _ ht (blockBase_mod ..) (.inl rfl))
  · refine hkeeps _ _ (fun _ h => h) hstart (.of_invalid fun c _ => ?_)
    cases hc : (fenceShown s).ms.copyAt c (blockBase s.cfg a) with
    | none => rfl
    | some copy => exact absurd (MemSys.mem_blocksHeld hc) hheld

/-- The latest stores after `FENCE.I`: those of the loads that were there, and each that stands for the fetches for them
too. -/
theorem mem_fenceInstructions_latest {s : State} {e : LatestByte} (hk : e.kind = .load)
    (he : e ∈ (fenceSynced s).latest) :
    e ∈ (fenceInstructions s).latest ∧
      (e.forFetches.held (fenceSynced s).cfg (fenceSynced s).ms = true → e.forFetches ∈ (fenceInstructions s).latest) := by
  have hsame : aboutSame (fetchEntries (fenceSynced s)) e = false := by
    refine List.any_eq_false.mpr fun f hf => ?_
    obtain ⟨-, g, -, -, rfl⟩ := mem_fetchEntries.mp hf
    simp [hk]
  rw [fenceInstructions_eq]
  exact ⟨List.mem_append_right _ (List.mem_filter.mpr ⟨he, by simp [hsame]⟩),
    fun h => List.mem_append_left _ (mem_fetchEntries.mpr ⟨h, e, he, hk, rfl⟩)⟩

theorem fenceInstructions_sameHart (s : State) : SameHart s (retireBase (fenceInstructions s)) := by
  constructor <;> simp

/-- Settles O48: every latest store of the loads stands for the fetches once it is shown to them, what follows keeps it so,
and in the end the fetches read every block as the loads do. -/
theorem fenceMakesFetchesSeeStores : Obligations.FenceMakesFetchesSeeStores := by
  intro s hi
  refine ⟨retireBase (fenceInstructions s), execBase_fenceInstructions s, fenceInstructions_sameHart s, ?_, ?_⟩ <;>
    rw [retireBase_ms, fenceInstructions_ms]
  · exact fun memType hm a => fenceSynced_fetchesRead hi a memType hm
  · intro e he hk
    obtain ⟨ht, e', he', hg, hfetch⟩ := fenceSynced_shown hi he hk
    obtain ⟨hload, hfetches⟩ := mem_fenceInstructions_latest (hg.kind.trans hk) he'
    have hread := (LatestByte.held_iff.mp hfetch).readByte
    rw [ht.cfg] at hg hread
    refine ⟨e', hload, hg.address, hg.kind.trans hk, hg.memType, hg.values, hfetches hfetch, ?_, hg.same⟩
    rw [← hg.address, ← hg.memType]
    exact hread

end Sys2Proof.Machine
end

section
/-!
PROOFS. The obligations of spec/30_encoding.md: the words of `ENC_REF`, those of any encoding the machine can have, the base
instructions they are apart from, and the step on a reserved word.
-/

namespace Sys2Proof

/-! ### The words of `ENC_REF` (rules R123 to R127) -/

theorem decodeLevel_encodeLevel (level : Level) : decodeLevel (encodeLevel level) = level := by
  cases level <;> rfl

theorem encodeLevel_decodeLevel (sel : BitVec 2) : encodeLevel (decodeLevel sel) = sel := by
  revert sel
  decide

theorem decodePoc_encodePoc (poc : Poc) : decodePoc (encodePoc poc) = .ok poc := by
  cases poc
  rfl

theorem encodePoc_of_map_decodePoc {sel : BitVec 2} {c : Poc → Instr} {i : Instr} (h : (decodePoc sel).map c = .ok i) :
    ∃ poc, i = c poc ∧ encodePoc poc = sel := by
  unfold decodePoc at h
  split at h
  · next hsel =>
    injection h with h
    exact ⟨.memory, h.symm, hsel.symm⟩
  · cases h

/-- The word of an instruction decodes to it (rule R122 (b)). -/
theorem decodeWord_encodeWord {i : Instr} {w : InstrWord} (h : encodeWord i = some w) : decodeWord w = .ok i := by
  cases i <;> simp only [encodeWord, Option.some.injEq, reduceCtorEq] at h <;> subst h <;>
    simp [decodeWord_assemble, decodeOp, decodePoc_encodePoc, decodeLevel_encodeLevel, Except.map]

/-- The instruction that fields select has the word with those fields. -/
theorem encodeWord_of_decodeOp {op : BitVec 5} {rs1 : RegIdx} {sel : BitVec 2} {i : Instr}
    (h : decodeOp op rs1 sel = .ok i) : encodeWord i = some (assemble sel op rs1) := by
  have level : ∀ {c : Level → Instr}, Except.ok (c (decodeLevel sel)) = (.ok i : Except DecodeError Instr) →
      ∃ l, i = c l ∧ encodeLevel l = sel :=
    fun h => ⟨decodeLevel sel, (Except.ok.inj h).symm, encodeLevel_decodeLevel sel⟩
  unfold decodeOp at h
  split_ifs at h
  iterate 3
    next hop =>
      obtain ⟨poc, rfl, rfl⟩ := encodePoc_of_map_decodePoc h
      rw [hop, encodeWord]
  iterate 5
    next hop =>
      obtain ⟨l, rfl, rfl⟩ := level h
      rw [hop, encodeWord]

/-- A word that decodes has the fields the decoder asks for (rules R123, R127). -/
theorem decodeWord_ok {w : InstrWord} {i : Instr} (h : decodeWord w = .ok i) :
    field w 0 7 = 0b0001011#7 ∧ field w 27 5 = 0#5 ∧ field w 12 3 = 0#3 ∧ field w 7 5 = 0#5 ∧
      decodeOp (field w 20 5) (field w 15 5).toFin (field w 25 2) = .ok i := by
  unfold decodeWord at h
  split_ifs at h with hopcode hhigh hfunct hrd
  exact ⟨not_not.mp hopcode, not_not.mp hhigh, not_not.mp hfunct, not_not.mp hrd, h⟩

/-- Every instruction's word matches its row of the table (rule R124). -/
theorem tableMatch (i : Instr) : Laws.TableMatch.Statement i := by
  cases i with
  | cboInval rs1 poc => exact Laws.TableMatch.cboInval rs1 poc
  | cboClean rs1 poc => exact Laws.TableMatch.cboClean rs1 poc
  | cboFlush rs1 poc => exact Laws.TableMatch.cboFlush rs1 poc
  | cboZero rs1 level => exact Laws.TableMatch.cboZero rs1 level
  | prefetchR rs1 level => exact Laws.TableMatch.prefetchR rs1 level
  | prefetchW rs1 level => exact Laws.TableMatch.prefetchW rs1 level
  | prefetchI rs1 level => exact Laws.TableMatch.prefetchI rs1 level
  | demote rs1 level => exact Laws.TableMatch.demote rs1 level
  | cboSize => exact Laws.TableMatch.cboSize

theorem wf_iff_exists_encodeWord {i : Instr} : i.wf = true ↔ ∃ w, encodeWord i = some w := by
  obtain ⟨-, hsome, -⟩ := tableMatch i
  rw [← hsome, Option.isSome_iff_exists]

/-- Settles O3: the word has the fields of its instruction's, and is their assembly. -/
theorem encodeDecodeAgree : Obligations.EncodeDecodeAgree := by
  intro w i h
  obtain ⟨hopcode, hhigh, hfunct, hrd, hop⟩ := decodeWord_ok h
  rw [encodeWord_of_decodeOp hop, assemble_fields hopcode hhigh hfunct hrd]

/-- Settles O2: the four bytes give the word back, and the word its instruction. -/
theorem decodeEncodeAgree : Obligations.DecodeEncodeAgree := by
  intro i rest hwf
  obtain ⟨w, hw⟩ := wf_iff_exists_encodeWord.mp hwf
  refine ⟨toBytesLE w.toNat 4, by rw [encode, hw]; rfl, toBytesLE_length .., ?_⟩
  rw [decode_toBytesLE, decodeWord_encodeWord hw]
  rfl

/-- Settles O5: `CBO.SIZE` has no word in `ENC_REF`, and a word that decodes is its instruction's. -/
theorem cboSizeIsRefused : Obligations.CboSizeIsRefused := by
  refine ⟨fun s => rfl, fun w h => ?_⟩
  have hword : encodeWord .cboSize = some w := encodeDecodeAgree w _ h
  cases hword

/-- A field that a mask covers is read off the masked word. -/
theorem field_of_masked {w m v : InstrWord} {lo n : Nat} (h : w &&& m = v) (hm : field m lo n = BitVec.allOnes n) :
    field w lo n = field v lo n := by
  have hand : field (w &&& m) lo n = field w lo n &&& field m lo n := BitVec.extractLsb'_and
  rw [← h, hand, hm, BitVec.and_allOnes]

/-- A word with the fixed fields of an `op` decodes as that `op` does, with the operands that stand in it. -/
theorem decodeWord_of_masked {w : InstrWord} {op : BitVec 5} (h : w &&& 0xF9F07FFF#32 = assemble 0#2 op 0) :
    decodeWord w = decodeOp op (field w 15 5).toFin (field w 25 2) := by
  obtain ⟨h0, h1, h2, h3, h4, -, -⟩ := field_assemble 0#2 op 0
  have hopcode := (field_of_masked h (lo := 0) (n := 7) (by decide)).trans h0
  have hhigh := (field_of_masked h (lo := 27) (n := 5) (by decide)).trans h1
  have hfunct := (field_of_masked h (lo := 12) (n := 3) (by decide)).trans h2
  have hrd := (field_of_masked h (lo := 7) (n := 5) (by decide)).trans h3
  have hop := (field_of_masked h (lo := 20) (n := 5) (by decide)).trans h4
  simp [decodeWord, hopcode, hhigh, hfunct, hrd, hop]

/-- A word with the fixed fields of an `op`, `sel` zero among them. -/
theorem decodeWord_of_masked_poc {w : InstrWord} {op : BitVec 5} (h : w &&& 0xFFF07FFF#32 = assemble 0#2 op 0) :
    decodeWord w = decodeOp op (field w 15 5).toFin 0#2 := by
  obtain ⟨-, -, -, -, -, -, h6⟩ := field_assemble 0#2 op 0
  have hsel : field w 25 2 = 0#2 := (field_of_masked h (by decide)).trans h6
  have hmask : ∀ op, assemble 0#2 op 0 &&& 0xF9F07FFF#32 = assemble 0#2 op 0 := by decide
  have hlevel : w &&& 0xF9F07FFF#32 = assemble 0#2 op 0 := by
    rw [← hmask, ← h, BitVec.and_assoc]
    rfl
  rw [decodeWord_of_masked hlevel, hsel]

/-- Settles O4: a word that decodes is its instruction's and matches its row; one that matches has the row's fields. -/
theorem onlyTableWordsDecode : Obligations.OnlyTableWordsDecode := by
  intro w
  constructor
  · rintro ⟨i, h⟩
    have hw := encodeDecodeAgree w i h
    obtain ⟨hmatch, -, -⟩ := tableMatch i
    cases i with
    | cboSize => cases hw
    | _ => simp [hmatch w _ _ hw rfl]
  · rintro (h | h | h | h | h | h | h | h)
    · exact ⟨_, decodeWord_of_masked_poc (op := 0b00000#5) h⟩
    · exact ⟨_, decodeWord_of_masked_poc (op := 0b00001#5) h⟩
    · exact ⟨_, decodeWord_of_masked_poc (op := 0b00010#5) h⟩
    · exact ⟨_, decodeWord_of_masked (op := 0b00100#5) h⟩
    · exact ⟨_, decodeWord_of_masked (op := 0b01000#5) h⟩
    · exact ⟨_, decodeWord_of_masked (op := 0b01001#5) h⟩
    · exact ⟨_, decodeWord_of_masked (op := 0b01010#5) h⟩
    · exact ⟨_, decodeWord_of_masked (op := 0b01011#5) h⟩

/-- Settles O1: the words are fixed, and the decoder runs on each. -/
theorem decodesTheSpecsWords : Obligations.DecodesTheSpecsWords := by
  refine ⟨rfl, rfl, rfl, rfl, rfl, rfl, rfl, rfl, rfl, rfl, rfl, rfl, ?_, rfl, ?_⟩
  · simp only [List.forall_mem_cons]
    exact ⟨rfl, rfl, rfl, rfl, rfl, rfl, List.forall_mem_nil _⟩
  · rfl

/-! ### Bits of an operand (rule R122) -/

/-- `width` bits of a word from `lo` on are zero where each of them is. -/
theorem shiftRight_mod_eq_zero_iff {w lo width : Nat} :
    (w >>> lo) % 2 ^ width = 0 ↔ ∀ j, lo ≤ j → j < lo + width → w.testBit j = false := by
  constructor
  · intro h j hlo hj
    have hbit := congrArg (Nat.testBit · (j - lo)) h
    simpa [Nat.testBit_mod_two_pow, show j - lo < width by omega, show lo + (j - lo) = j by omega] using hbit
  · intro h
    refine Nat.eq_of_testBit_eq fun j => ?_
    by_cases hj : j < width
    · simp [Nat.testBit_mod_two_pow, h (lo + j) (by omega) (by omega)]
    · simp [Nat.testBit_mod_two_pow, hj]

/-- A number below `2 ^ width` put at `lo` has no bit outside the places from `lo` to `lo + width`. -/
theorem testBit_shiftLeft_outside {n width lo j : Nat} (hn : n < 2 ^ width) (hj : j < lo ∨ lo + width ≤ j) :
    (n <<< lo).testBit j = false := by
  rw [Nat.testBit_shiftLeft]
  rcases hj with hj | hj
  · simp [show ¬ lo ≤ j by omega]
  · have hlt : n < 2 ^ (j - lo) := hn.trans_le (Nat.pow_le_pow_right (by decide) (by omega))
    simp [Nat.testBit_lt_two_pow hlt]

/-- No bit of a word stands where the operand does. -/
def EncField.Clear (f : EncField) (width w : Nat) : Prop :=
  ∀ lo, f = .bits lo → (w >>> lo) % 2 ^ width = 0

theorem EncField.Clear.or {f : EncField} {width v w : Nat} (hv : f.Clear width v) (hw : f.Clear width w) :
    f.Clear width (v ||| w) := by
  intro lo h
  rw [Nat.shiftRight_or_distrib, Nat.or_mod_two_pow, hv lo h, hw lo h]
  rfl

/-- A value that lies under a mask leaves free what the mask does. -/
theorem EncField.Clear.of_masked {f : EncField} {width mask v : Nat} (h : f.Clear width mask) (hv : v &&& mask = v) :
    f.Clear width v := by
  intro lo hlo
  rw [← hv, Nat.shiftRight_and_distrib, Nat.and_mod_two_pow, h lo hlo, Nat.and_zero]

theorem EncField.clear_of_wf {f : EncField} {width ilen mask : Nat} (h : f.wf width ilen mask = true) :
    f.Clear width mask := by
  rintro lo rfl
  simp only [EncField.wf, Bool.and_eq_true, beq_iff_eq] at h
  exact h.2

theorem EncField.lt_of_admits {f : EncField} {width n : Nat} (h : f.admits width n = true) : n < 2 ^ width := by
  cases f <;> simp_all [EncField.admits]

/-- An operand put into a word that has none there is read again. -/
theorem EncField.read_or_put {f : EncField} {width n w : Nat} (hn : f.admits width n = true) (hw : f.Clear width w) :
    f.read width (w ||| f.put n) = n := by
  cases f with
  | bits lo =>
    have hlt := Nat.mod_eq_of_lt (EncField.lt_of_admits hn)
    simp [EncField.read, EncField.put, Nat.shiftRight_or_distrib, Nat.or_mod_two_pow, hw lo rfl,
      Nat.shiftLeft_shiftRight, hlt]
  | const m =>
    simp only [EncField.admits, Bool.and_eq_true, beq_iff_eq] at hn
    exact hn.2

/-- What an operand puts into a word the row's mask does not cover. -/
theorem EncField.put_and_mask {f : EncField} {width n mask : Nat} (hn : f.admits width n = true)
    (hmask : f.Clear width mask) : f.put n &&& mask = 0 := by
  cases f with
  | const m => exact Nat.zero_and mask
  | bits lo =>
    refine Nat.eq_of_testBit_eq fun j => ?_
    rw [EncField.put, Nat.testBit_and, Nat.zero_testBit]
    by_cases hj : lo ≤ j ∧ j < lo + width
    · rw [shiftRight_mod_eq_zero_iff.mp (hmask lo rfl) j hj.1 hj.2, Bool.and_false]
    · rw [testBit_shiftLeft_outside (EncField.lt_of_admits hn) (by omega), Bool.false_and]

/-- What an operand puts into a word lies in the word. -/
theorem EncField.put_lt {f : EncField} {width ilen n mask : Nat} (hwf : f.wf width ilen mask = true)
    (hn : f.admits width n = true) : f.put n < 2 ^ (8 * ilen) := by
  cases f with
  | const m => exact Nat.two_pow_pos _
  | bits lo =>
    simp only [EncField.wf, Bool.and_eq_true, decide_eq_true_eq] at hwf
    refine Nat.lt_pow_two_of_testBit _ fun j hj => ?_
    exact testBit_shiftLeft_outside (EncField.lt_of_admits hn) (by omega)

/-- What one operand puts into a word leaves the place of another free that lies apart from it. -/
theorem EncField.clear_put {f g : EncField} {width width' n : Nat} (hn : g.admits width' n = true)
    (happart : ∀ a b, f = .bits a → g = .bits b → a + width ≤ b ∨ b + width' ≤ a) : f.Clear width (g.put n) := by
  rintro a rfl
  cases g with
  | const m => simp [EncField.put]
  | bits b =>
    have := happart a b rfl rfl
    exact shiftRight_mod_eq_zero_iff.mpr fun j _ _ =>
      testBit_shiftLeft_outside (EncField.lt_of_admits hn) (by omega)

/-! ### The rows of an encoding (rule R122) -/

/-- What a well-formed row is, clause by clause. -/
structure EncRow.Valid (xlen : XLen) (hasH : Bool) (ilen : Nat) (r : EncRow) : Prop where
  maskFits : r.mask < 2 ^ (8 * ilen)
  valueMasked : r.value &&& r.mask = r.value
  rs1Wf : r.rs1.wf 5 ilen r.mask = true
  selWf : r.sel.wf 2 ilen r.mask = true
  apart : r.rs1.apart r.sel = true
  lengthMasked : r.mask % 2 ^ lengthBits ilen = 2 ^ lengthBits ilen - 1
  length : instrLength (BitVec.ofNat 8 r.value) = ilen
  avoids : ilen = 4 → ∀ p ∈ baseWords xlen hasH, r.avoids p = true

theorem EncRow.valid_of_wf {xlen : XLen} {hasH : Bool} {ilen : Nat} {r : EncRow}
    (h : r.wf xlen hasH ilen = true) : r.Valid xlen hasH ilen := by
  simp only [EncRow.wf, Bool.and_eq_true, Bool.or_eq_true, decide_eq_true_eq, beq_iff_eq, bne_iff_ne,
    List.all_eq_true] at h
  obtain ⟨⟨⟨⟨⟨⟨⟨hmask, hvalue⟩, hrs1⟩, hsel⟩, hap⟩, hlen⟩, hlength⟩, havoids⟩ := h
  exact ⟨hmask, hvalue, hrs1, hsel, hap, hlen, hlength, fun h4 => havoids.resolve_left (not_not.mpr h4)⟩

/-- The word of a row with the numbers of the operands. -/
def EncRow.word (r : EncRow) (rs1 sel : Nat) : Nat := r.value ||| r.rs1.put rs1 ||| r.sel.put sel

theorem EncRow.matches_iff {r : EncRow} {w : Nat} : r.matches w = true ↔ w &&& r.mask = r.value := beq_iff_eq

section
variable {xlen : XLen} {hasH : Bool} {ilen rs1 sel : Nat} {r : EncRow} (hr : r.Valid xlen hasH ilen)
  (hrs1 : r.rs1.admits 5 rs1 = true) (hsel : r.sel.admits 2 sel = true)
include hr hrs1 hsel

theorem EncRow.matches_word : r.matches (r.word rs1 sel) = true := by
  rw [EncRow.matches_iff, EncRow.word, Nat.and_or_distrib_right, Nat.and_or_distrib_right, hr.valueMasked,
    EncField.put_and_mask hrs1 (EncField.clear_of_wf hr.rs1Wf),
    EncField.put_and_mask hsel (EncField.clear_of_wf hr.selWf), Nat.or_zero, Nat.or_zero]

theorem EncRow.word_lt : r.word rs1 sel < 2 ^ (8 * ilen) :=
  Nat.or_lt_two_pow
    (Nat.or_lt_two_pow (hr.valueMasked ▸ Nat.and_le_right.trans_lt hr.maskFits) (EncField.put_lt hr.rs1Wf hrs1))
    (EncField.put_lt hr.selWf hsel)

theorem EncRow.read_rs1_word : r.rs1.read 5 (r.word rs1 sel) = rs1 := by
  have happart : ∀ a b, r.rs1 = .bits a → r.sel = .bits b → a + 5 ≤ b ∨ b + 2 ≤ a := fun a b ha hb => by
    simpa [EncField.apart, ha, hb] using hr.apart
  have hvalue : r.rs1.Clear 5 r.value := (EncField.clear_of_wf hr.rs1Wf).of_masked hr.valueMasked
  rw [EncRow.word, Nat.or_right_comm]
  exact EncField.read_or_put hrs1 (hvalue.or (EncField.clear_put hsel happart))

theorem EncRow.read_sel_word : r.sel.read 2 (r.word rs1 sel) = sel := by
  have happart : ∀ b a, r.sel = .bits b → r.rs1 = .bits a → b + 2 ≤ a ∨ a + 5 ≤ b := fun b a hb ha => by
    have h : a + 5 ≤ b ∨ b + 2 ≤ a := by simpa [EncField.apart, ha, hb] using hr.apart
    exact h.symm
  have hvalue : r.sel.Clear 2 r.value := (EncField.clear_of_wf hr.selWf).of_masked hr.valueMasked
  exact EncField.read_or_put hsel (hvalue.or (EncField.clear_put hrs1 happart))

end

/-- The length of an instruction, by the value of its first byte. -/
theorem instrLength_eq (b : Byte) : instrLength b =
    if b.toNat % 4 ≠ 3 then 2 else if b.toNat % 32 ≠ 31 then 4 else if b.toNat % 64 = 31 then 6 else 8 := by
  revert b
  decide

/-- The length of an instruction, by the low bits of its word. -/
theorem instrLength_ofNat (w : Nat) : instrLength (BitVec.ofNat 8 w) =
    if w % 4 ≠ 3 then 2 else if w % 32 ≠ 31 then 4 else if w % 64 = 31 then 6 else 8 := by
  rw [instrLength_eq, BitVec.toNat_ofNat, Nat.mod_mod_of_dvd _ (by decide), Nat.mod_mod_of_dvd _ (by decide),
    Nat.mod_mod_of_dvd _ (by decide)]

/-- The low bits of a row's words are fixed: they say how long the word is. -/
theorem EncRow.mod_of_matches {xlen : XLen} {hasH : Bool} {ilen w : Nat} {r : EncRow} (hr : r.Valid xlen hasH ilen)
    (hw : r.matches w = true) : w % 2 ^ lengthBits ilen = r.value % 2 ^ lengthBits ilen := by
  rw [← EncRow.matches_iff.mp hw, Nat.and_mod_two_pow, hr.lengthMasked, Nat.and_two_pow_sub_one_eq_mod, Nat.mod_mod]

/-- The first byte of a row's word gives the row's length. -/
theorem EncRow.instrLength_of_matches {xlen : XLen} {hasH : Bool} {ilen w : Nat} {r : EncRow}
    (hr : r.Valid xlen hasH ilen) (hlen : ilen ∈ [2, 4, 6, 8]) (hw : r.matches w = true) :
    instrLength (BitVec.ofNat 8 w) = ilen := by
  have hlow := EncRow.mod_of_matches hr hw
  have hvalue := hr.length
  simp only [List.mem_cons, List.not_mem_nil, or_false] at hlen
  rw [instrLength_ofNat] at hvalue ⊢
  rcases hlen with rfl | rfl | rfl | rfl <;> simp only [lengthBits] at hlow <;> split_ifs at hvalue ⊢ <;> omega

/-! ### A word has one row (rule R122 (a)) -/

/-- A row's word is of no set of words the row avoids. -/
theorem EncRow.and_ne_of_avoids {r : EncRow} {p : Nat × Nat} {w : Nat} (h : r.avoids p = true)
    (hw : r.matches w = true) : w &&& p.1 ≠ p.2 := by
  intro hp
  rw [EncRow.avoids, bne_iff_ne, ← hp, ← EncRow.matches_iff.mp hw] at h
  refine h (Nat.eq_of_testBit_eq fun j => ?_)
  simp only [Nat.testBit_and, Nat.testBit_xor, Nat.zero_testBit]
  cases r.mask.testBit j <;> cases p.1.testBit j <;> simp

theorem find?_matches_of_rowsDisjoint {rows : List EncRow} {r : EncRow} {w : Nat} (hrows : rowsDisjoint rows = true)
    (hr : r ∈ rows) (hw : r.matches w = true) : rows.find? (·.matches w) = some r := by
  induction rows with
  | nil => cases hr
  | cons r' rest ih =>
    simp only [rowsDisjoint, Bool.and_eq_true, List.all_eq_true] at hrows
    obtain ⟨havoids, hrest⟩ := hrows
    rcases List.mem_cons.mp hr with rfl | hmem
    · exact List.find?_cons_of_pos hw
    · have hother : ¬ r'.matches w = true := fun h =>
        EncRow.and_ne_of_avoids (havoids r hmem) h (EncRow.matches_iff.mp hw)
      rw [List.find?_cons_of_neg (p := fun r : EncRow => r.matches w) hother, ih hrest hmem]

/-! ### Every instruction has a word (rule R122 (b)) -/

/-- An instruction that has a word is an abstract one with the numbers of its operands. -/
theorem Instr.parts_of_wf {i : Instr} (h : i.wf = true) :
    ∃ op rs1 sel, i.parts = some (op, rs1, sel) ∧ op.instr rs1 sel = some i ∧
      ∃ sels, (op, sels) ∈ cmoOps ∧ sel ∈ sels := by
  have hlevel : ∀ l : Level, levelOfNumber l.number = l ∧ l.number ∈ [0, 1, 2, 3] := by
    intro l
    cases l <;> decide
  cases i with
  | cboSize => cases h
  | cboInval rs1 poc => exact ⟨_, _, _, rfl, rfl, [0], by decide, by decide⟩
  | cboClean rs1 poc => exact ⟨_, _, _, rfl, rfl, [0], by decide, by decide⟩
  | cboFlush rs1 poc => exact ⟨_, _, _, rfl, rfl, [0], by decide, by decide⟩
  | _ rs1 level =>
    exact ⟨_, _, _, rfl, by rw [CmoOp.instr, (hlevel level).1], [0, 1, 2, 3], by decide, (hlevel level).2⟩

/-- What an encoding the spec allows is. -/
structure Encoding.Valid (xlen : XLen) (hasH : Bool) (e : Encoding) : Prop where
  ilen : e.ilen ∈ [2, 4, 6, 8]
  rows : ∀ r ∈ e.rows, r.Valid xlen hasH e.ilen
  disjoint : rowsDisjoint e.rows = true
  complete : e.complete = true

theorem Encoding.valid_of_wf {xlen : XLen} {hasH : Bool} {e : Encoding} (h : e.wf xlen hasH = true) :
    e.Valid xlen hasH := by
  simp only [Encoding.wf, Bool.and_eq_true, List.all_eq_true, List.contains_iff_mem] at h
  obtain ⟨⟨⟨hilen, hrows⟩, hdisjoint⟩, hcomplete⟩ := h
  exact ⟨hilen, fun r hr => EncRow.valid_of_wf (hrows r hr), hdisjoint, hcomplete⟩

/-- A complete encoding has a row for every abstract instruction and every value of its operands. -/
theorem Encoding.exists_row {e : Encoding} (h : e.complete = true) {op : CmoOp} {sels : List Nat} {sel : Nat}
    (hop : (op, sels) ∈ cmoOps) (hsel : sel ∈ sels) (rs1 : RegIdx) :
    ∃ r ∈ e.rows, r.op = op ∧ r.rs1.admits 5 rs1.val = true ∧ r.sel.admits 2 sel = true := by
  simp only [Encoding.complete, List.all_eq_true, List.any_eq_true, List.mem_filter, beq_iff_eq, Bool.and_eq_true] at h
  obtain ⟨r, ⟨hmem, hrop⟩, hrs1, hrsel⟩ := h _ hop rs1.val (List.mem_range.mpr rs1.isLt) sel hsel
  exact ⟨r, hmem, hrop, hrs1, hrsel⟩

/-- The word an encoding gives an instruction is one of a row of its own. -/
theorem Encoding.encode_eq {e : Encoding} (h : e.complete = true) {i : Instr} (hi : i.wf = true) :
    ∃ r ∈ e.rows, ∃ (rs1 : RegIdx) (sel : Nat), r.rs1.admits 5 rs1.val = true ∧ r.sel.admits 2 sel = true ∧
      r.op.instr rs1 sel = some i ∧ e.encode i = some (r.word rs1.val sel) := by
  obtain ⟨op, rs1, sel, hparts, hinstr, sels, hop, hsel⟩ := Instr.parts_of_wf hi
  obtain ⟨r', hmem', hr'⟩ := Encoding.exists_row h hop hsel rs1
  have hsome : (e.rows.find? fun r => r.op == op && r.rs1.admits 5 rs1.val && r.sel.admits 2 sel).isSome := by
    simp only [List.find?_isSome, Bool.and_eq_true, beq_iff_eq]
    exact ⟨r', hmem', ⟨hr'.1, hr'.2.1⟩, hr'.2.2⟩
  obtain ⟨r, hr⟩ := Option.isSome_iff_exists.mp hsome
  have hfound := List.find?_some hr
  simp only [Bool.and_eq_true, beq_iff_eq] at hfound
  obtain ⟨⟨rfl, hrs1⟩, hrsel⟩ := hfound
  refine ⟨r, List.mem_of_find?_eq_some hr, rs1, sel, hrs1, hrsel, hinstr, ?_⟩
  simp [Encoding.encode, hparts, hr, EncRow.word]

theorem headD_toBytesLE {w n : Nat} (h : n ≠ 0) : (toBytesLE w n).headD 0#8 = BitVec.ofNat 8 w := by
  cases n with
  | zero => exact absurd rfl h
  | succ n => rfl

/-- Settles O7: a row with the instruction's operands has a word, and no other row has it. -/
theorem everyEncodingHasEveryInstruction : Obligations.EveryEncodingHasEveryInstruction := by
  intro xlen hasH e i he hi
  obtain ⟨hilen, hrows, hdisjoint, hcomplete⟩ := Encoding.valid_of_wf he
  obtain ⟨r, hmem, rs1, sel, hrs1, hsel, hinstr, hencode⟩ := Encoding.encode_eq hcomplete hi
  have hr := hrows r hmem
  have hmatches := EncRow.matches_word hr hrs1 hsel
  have hlt := EncRow.word_lt hr hrs1 hsel
  refine ⟨_, hencode, hlt, ?_, fun len hlen => if_neg hlen, ?_, ?_⟩
  · rw [Encoding.decode, if_pos rfl, find?_matches_of_rowsDisjoint hdisjoint hmem hmatches, Option.bind_some,
      EncRow.instr, EncRow.read_rs1_word hr hrs1 hsel, EncRow.read_sel_word hr hrs1 hsel, Fin.ofNat_val_eq_self]
    exact hinstr
  · rw [ofBytesLE_toBytesLE, show 256 = 2 ^ 8 from rfl, ← Nat.pow_mul, Nat.mod_eq_of_lt hlt]
  · have hpos : e.ilen ≠ 0 := fun h => by simp [h] at hilen
    rw [headD_toBytesLE hpos, EncRow.instrLength_of_matches hr hilen hmatches]

/-! ### `ENC_REF` among the encodings (rules R122, R124) -/

theorem Encoding.ref_wf (xlen : XLen) (hasH : Bool) : Encoding.ref.wf xlen hasH = true := by
  cases xlen <;> cases hasH <;> decide

/-- The default rows give an instruction the word of `ENC_REF`. -/
theorem Encoding.ref_encode (i : Instr) : Encoding.ref.encode i = (encodeWord i).map BitVec.toNat := by
  cases i with
  | cboSize => rfl
  | cboInval rs1 poc | cboClean rs1 poc | cboFlush rs1 poc =>
    cases poc
    revert rs1
    decide
  | cboZero rs1 level | prefetchR rs1 level | prefetchW rs1 level | prefetchI rs1 level | demote rs1 level =>
    cases level <;> revert rs1 <;> decide

/-- A word that matches a default row matches a row of rule R124. -/
theorem decodeWord_of_ref_matches {r : EncRow} {w : InstrWord} (hr : r ∈ Encoding.ref.rows)
    (hw : r.matches w.toNat = true) : ∃ i, decodeWord w = .ok i := by
  have hword : w &&& BitVec.ofNat 32 r.mask = BitVec.ofNat 32 r.value := by
    rw [← EncRow.matches_iff.mp hw, BitVec.ofNat_and, BitVec.ofNat_toNat, BitVec.setWidth_eq]
  rw [onlyTableWordsDecode w]
  simp only [Encoding.ref, List.mem_cons, List.not_mem_nil, or_false] at hr
  rcases hr with rfl | rfl | rfl | rfl | rfl | rfl | rfl | rfl <;>
    simp [EncRow.refPoc, EncRow.refLevel] at hword <;> simp [hword]

/-- Settles O6: a word that decodes is its instruction's in both, and the rows of the two match the same words. -/
theorem referenceEncodingIsEncRef : Obligations.ReferenceEncodingIsEncRef := by
  refine ⟨Encoding.ref_wf, fun w => ?_⟩
  cases h : decodeWord w with
  | ok i =>
    have hword := encodeDecodeAgree w i h
    obtain ⟨w', hencode, -, hdecode, -⟩ := everyEncodingHasEveryInstruction .rv64 false _ i (Encoding.ref_wf _ _)
      (wf_iff_exists_encodeWord.mpr ⟨w, hword⟩)
    rw [Encoding.ref_encode, hword] at hencode
    rw [Option.some.inj hencode]
    exact hdecode
  | error e =>
    have hnone : Encoding.ref.rows.find? (·.matches w.toNat) = none := List.find?_eq_none.mpr fun r hr hw => by
      obtain ⟨i, hi⟩ := decodeWord_of_ref_matches hr hw
      rw [h] at hi
      cases hi
    rw [Encoding.decode, if_pos (show 4 = Encoding.ref.ilen from rfl), hnone]
    rfl

end Sys2Proof

namespace Sys2Proof.Machine

/-! ### Base instructions by the fields of their words (rule R122 (c), log entry 12) -/

/-- The set of words with given values in given fields, each as its lowest bit, its width and its value. -/
def wordsWith : List (Nat × Nat × Nat) → Nat × Nat
  | [] => (0, 0)
  | (lo, n, v) :: fs => ((2 ^ n - 1) <<< lo ||| (wordsWith fs).1, v <<< lo ||| (wordsWith fs).2)

/-- The word has the values in the fields. -/
def HasFields (w : InstrWord) (fs : List (Nat × Nat × Nat)) : Prop := ∀ f ∈ fs, (field w f.1 f.2.1).toNat = f.2.2

/-- The word is of no set of words that rule R122 (c) bars, the H-extension's apart: the model has none of those. -/
def NoBaseWord (xlen : XLen) (w : InstrWord) : Prop := ∀ p ∈ baseWords xlen false, w.toNat &&& p.1 ≠ p.2

theorem and_shifted_ones (w lo n : Nat) : w &&& (2 ^ n - 1) <<< lo = ((w >>> lo) % 2 ^ n) <<< lo := by
  refine Nat.eq_of_testBit_eq fun j => ?_
  by_cases hj : lo ≤ j <;> simp [Nat.testBit_mod_two_pow, hj, Bool.and_comm]

theorem HasFields.mem_wordsWith {w : InstrWord} {fs : List (Nat × Nat × Nat)} (h : HasFields w fs) :
    w.toNat &&& (wordsWith fs).1 = (wordsWith fs).2 := by
  induction fs with
  | nil => exact Nat.and_zero _
  | cons f fs ih =>
    obtain ⟨hf, hfs⟩ := List.forall_mem_cons.mp h
    rw [field, BitVec.extractLsb'_toNat] at hf
    rw [wordsWith, Nat.and_or_distrib_left, ih hfs, and_shifted_ones, hf]

theorem NoBaseWord.not_hasFields {xlen : XLen} {w : InstrWord} (h : NoBaseWord xlen w) {fs : List (Nat × Nat × Nat)}
    (hfs : wordsWith fs ∈ baseWords xlen false) : ¬ HasFields w fs :=
  fun hw => h _ hfs hw.mem_wordsWith

/-- `funct3` is none of those the opcode's base instructions have. -/
theorem NoBaseWord.funct3_notMem {xlen : XLen} {w : InstrWord} (h : NoBaseWord xlen w) {op : Nat} {functs : List Nat}
    (hop : (field w 0 7).toNat = op)
    (hfuncts : ∀ f ∈ functs, wordsWith [(0, 7, op), (12, 3, f)] ∈ baseWords xlen false) : funct3Of w ∉ functs := fun hf =>
  h.not_hasFields (hfuncts _ hf) (by simp [HasFields, hop, funct3Of])

/-- `funct3` and another field are no pair of values a base instruction of the opcode has. -/
theorem NoBaseWord.pair_notMem {xlen : XLen} {w : InstrWord} (h : NoBaseWord xlen w) {op lo n : Nat}
    {pairs : List (Nat × Nat)} (hop : (field w 0 7).toNat = op)
    (hpairs : ∀ p ∈ pairs, wordsWith [(0, 7, op), (12, 3, p.1), (lo, n, p.2)] ∈ baseWords xlen false) :
    (funct3Of w, (field w lo n).toNat) ∉ pairs := fun hp =>
  h.not_hasFields (hpairs _ hp) (by simp [HasFields, hop, funct3Of])

theorem funct3Of_lt (w : InstrWord) : funct3Of w < 8 := (field w 12 3).isLt

/-! ### Forms the base instructions do not have -/

theorem branchTaken_eq_none {cfg : Config} {f : Nat} {a b : Word} (hf : f ∉ [0, 1, 4, 5, 6, 7]) :
    branchTaken cfg f a b = none := by
  unfold branchTaken
  split <;> simp_all

theorem loadForm_eq_none {cfg : Config} {f : Nat} (hf : f ∉ [0, 1, 2, 4, 5]) (hwide : cfg.xlen = .rv64 → f ∉ [3, 6]) :
    loadForm cfg f = none := by
  unfold loadForm
  split <;> simp_all

theorem storeForm_eq_none {cfg : Config} {f : Nat} (hf : f ∉ [0, 1, 2]) (hwide : cfg.xlen = .rv64 → f ∉ [3]) :
    storeForm cfg f = none := by
  unfold storeForm
  split <;> simp_all

theorem reservedForm_eq_some {cfg : Config} {f size : Nat} (h : reservedForm cfg f = some size) :
    f = 2 ∨ (f = 3 ∧ cfg.xlen = .rv64) := by
  unfold reservedForm at h
  split at h
  · exact .inl rfl
  · split at h
    · next hx => exact .inr ⟨rfl, hx⟩
    · cases h
  · cases h

theorem registerForm_eq_none {w : InstrWord} (hzero : funct7Of w ≠ 0)
    (halt : funct7Of w = 0x20 → funct3Of w ≠ 0 ∧ funct3Of w ≠ 5) : registerForm w = none := by
  unfold registerForm
  rw [if_neg hzero, if_neg]
  rintro ⟨h7, h3⟩
  exact h3.elim (halt h7).1 (halt h7).2

/-- The bits of the immediate above those of a shift are a field of the word. -/
theorem immediate_high (w : InstrWord) {k : Nat} (hk : k ≤ 12) :
    (field w 20 12).toNat >>> k = (field w (20 + k) (12 - k)).toNat := by
  simp only [field, BitVec.extractLsb'_toNat, Nat.shiftRight_add, Nat.shiftRight_eq_div_pow _ k]
  rw [← Nat.mod_mul_right_div_self, ← Nat.pow_add, show k + (12 - k) = 12 by omega]

theorem immediateForm_eq_none {w : InstrWord} {k : Nat} (hk : k ≤ 12) (hf : funct3Of w = 1 ∨ funct3Of w = 5)
    (hpairs : (funct3Of w, (field w (20 + k) (12 - k)).toNat) ∉ [(1, 0), (5, 0), (5, 0x400 >>> k)]) :
    immediateForm w k = none := by
  unfold immediateForm
  rw [immediate_high w hk]
  rcases hf with hf | hf
  · have hzero : (field w (20 + k) (12 - k)).toNat ≠ 0 := fun h => hpairs (by simp [hf, h])
    simp [hf, hzero]
  · have hzero : (field w (20 + k) (12 - k)).toNat ≠ 0 := fun h => hpairs (by simp [hf, h])
    have halt : (field w (20 + k) (12 - k)).toNat ≠ 0x400 >>> k := fun h => hpairs (by simp [hf, h])
    simp [hf, hzero, halt]

/-! ### A word the base ISA does not have is refused (rule R122 (c), log entry 12) -/

section
variable {s : State} {w : InstrWord} (h : NoBaseWord s.cfg.xlen w)
include h

theorem execBranch_refused (hop : (field w 0 7).toNat = 0x63) : execBranch w s = .refused .baseInstruction := by
  have hf : funct3Of w ∉ [0, 1, 4, 5, 6, 7] := h.funct3_notMem hop (by cases s.cfg.xlen <;> decide)
  rw [execBranch, branchTaken_eq_none hf]

theorem execLoad_refused (hop : (field w 0 7).toNat = 0x03) : execLoad w s = .refused .baseInstruction := by
  have hf : funct3Of w ∉ [0, 1, 2, 4, 5] := h.funct3_notMem hop (by cases s.cfg.xlen <;> decide)
  have hwide : s.cfg.xlen = .rv64 → funct3Of w ∉ [3, 6] := fun hx => h.funct3_notMem hop (by rw [hx]; decide)
  rw [execLoad, loadForm_eq_none hf hwide]

theorem execStore_refused (hop : (field w 0 7).toNat = 0x23) : execStore w s = .refused .baseInstruction := by
  have hf : funct3Of w ∉ [0, 1, 2] := h.funct3_notMem hop (by cases s.cfg.xlen <;> decide)
  have hwide : s.cfg.xlen = .rv64 → funct3Of w ∉ [3] := fun hx => h.funct3_notMem hop (by rw [hx]; decide)
  rw [execStore, storeForm_eq_none hf hwide]

theorem execMiscMem_refused (hop : (field w 0 7).toNat = 0x0F) : execMiscMem w s = .refused .baseInstruction := by
  have hf : funct3Of w ∉ [0, 1] := h.funct3_notMem hop (by cases s.cfg.xlen <;> decide)
  simp only [List.mem_cons, List.not_mem_nil, or_false, not_or] at hf
  rw [execMiscMem, if_neg hf.1, if_neg hf.2]

theorem jalr_funct3_ne_zero (hop : (field w 0 7).toNat = 0x67) : funct3Of w ≠ 0 := by
  have hf : funct3Of w ∉ [0] := h.funct3_notMem hop (by cases s.cfg.xlen <;> decide)
  simpa using hf

theorem immediateForm_none (hop : (field w 0 7).toNat = 0x13) : immediateForm w (shiftBits s.cfg) = none := by
  have hf : funct3Of w ∉ [0, 2, 3, 4, 6, 7] := h.funct3_notMem hop (by cases s.cfg.xlen <;> decide)
  have hlt := funct3Of_lt w
  have hshift : funct3Of w = 1 ∨ funct3Of w = 5 := by
    simp only [List.mem_cons, List.not_mem_nil, or_false, not_or] at hf
    omega
  cases hx : s.cfg.xlen with
  | rv32 =>
    have hk : shiftBits s.cfg = 5 := by rw [shiftBits, hx]
    rw [hk]
    exact immediateForm_eq_none (by decide) hshift (h.pair_notMem hop (by rw [hx]; decide))
  | rv64 =>
    have hk : shiftBits s.cfg = 6 := by rw [shiftBits, hx]
    rw [hk]
    exact immediateForm_eq_none (by decide) hshift (h.pair_notMem hop (by rw [hx]; decide))

theorem registerForm_none (hop : (field w 0 7).toNat = 0x33) : registerForm w = none := by
  have hzero : funct7Of w ≠ 0 := fun h7 =>
    h.not_hasFields (fs := [(0, 7, 0x33), (25, 7, 0)]) (by cases s.cfg.xlen <;> decide)
      (by simpa [HasFields, hop, funct7Of] using h7)
  have halt : (funct3Of w, funct7Of w) ∉ [(0, 0x20), (5, 0x20)] :=
    h.pair_notMem hop (by cases s.cfg.xlen <;> decide)
  refine registerForm_eq_none hzero fun h7 => ?_
  simpa [h7] using halt

theorem wordImmediateForm_none (hop : (field w 0 7).toNat = 0x1B) (hx : s.cfg.xlen = .rv64)
    (hform : wordForm w = true) : immediateForm w 5 = none := by
  have hf : funct3Of w ∉ [0] := h.funct3_notMem hop (by rw [hx]; decide)
  have hshift : funct3Of w = 1 ∨ funct3Of w = 5 := by
    simp only [wordForm, List.contains_iff_mem, List.mem_cons, List.not_mem_nil, or_false] at hform hf
    exact hform.resolve_left hf
  exact immediateForm_eq_none (by decide) hshift (h.pair_notMem hop (by rw [hx]; decide))

theorem wordRegisterForm_none (hop : (field w 0 7).toNat = 0x3B) (hx : s.cfg.xlen = .rv64)
    (hform : wordForm w = true) : registerForm w = none := by
  have hpairs : (funct3Of w, funct7Of w) ∉ [(0, 0), (1, 0), (5, 0), (0, 0x20), (5, 0x20)] :=
    h.pair_notMem hop (by rw [hx]; decide)
  simp only [wordForm, List.contains_iff_mem, List.mem_cons, List.not_mem_nil, or_false] at hform
  refine registerForm_eq_none (fun h7 => ?_) fun h7 => ?_
  · rcases hform with h3 | h3 | h3 <;> simp [h3, h7] at hpairs
  · constructor <;> intro h3 <;> simp [h3, h7] at hpairs

theorem execAtomic_refused (hop : (field w 0 7).toNat = 0x2F) : execAtomic w s = .refused .baseInstruction := by
  unfold execAtomic
  split
  · rfl
  · next size hsize =>
    have hsets : wordsWith [(0, 7, 0x2F), (12, 3, funct3Of w), (20, 5, 0), (27, 5, 2)] ∈ baseWords s.cfg.xlen false ∧
        wordsWith [(0, 7, 0x2F), (12, 3, funct3Of w), (27, 5, 3)] ∈ baseWords s.cfg.xlen false := by
      rcases reservedForm_eq_some hsize with hf | ⟨hf, hx⟩
      · rw [hf]
        cases s.cfg.xlen <;> decide
      · rw [hf, hx]
        decide
    have hload : ¬ ((field w 27 5).toNat = 2 ∧ rs2Of w = 0) := fun ⟨h5, hrs2⟩ => by
      have h20 : (field w 20 5).toNat = 0 := congrArg Fin.val hrs2
      exact h.not_hasFields hsets.1 (by simp [HasFields, hop, h5, h20, funct3Of])
    have hstore : (field w 27 5).toNat ≠ 3 := fun h5 =>
      h.not_hasFields hsets.2 (by simp [HasFields, hop, h5, funct3Of])
    rw [if_neg hload, if_neg hstore]

theorem execSystem_refused (hop : (field w 0 7).toNat = 0x73) : execSystem w s = .refused .baseInstruction := by
  have hf : funct3Of w ∉ [1, 2, 3, 5, 6, 7] := h.funct3_notMem hop (by cases s.cfg.xlen <;> decide)
  have hlt := funct3Of_lt w
  have hsets : ∀ v ∈ [0x73, 0x100073, 0x30200073, 0x10200073], (2 ^ 32 - 1, v) ∈ baseWords s.cfg.xlen false := by
    cases s.cfg.xlen <;> decide
  have hword : w.toNat ∉ [0x73, 0x100073, 0x30200073, 0x10200073] := fun hv =>
    h _ (hsets _ hv) (Nat.and_two_pow_sub_one_of_lt_two_pow w.isLt)
  simp only [List.mem_cons, List.not_mem_nil, or_false, not_or] at hf
  have hcases : funct3Of w = 0 ∨ funct3Of w = 4 := by omega
  rcases hcases with h3 | h3
  · simp only [List.mem_cons, List.not_mem_nil, or_false, not_or] at hword
    simp [execSystem, h3, BitVec.toNat_eq, hword]
  · simp [execSystem, h3]

theorem NoBaseWord.execBase_refused (hlow : field w 0 2 = 3#2) : execBase w s = .refused .baseInstruction := by
  have hsets : ∀ op ∈ [0x37, 0x17, 0x6F], wordsWith [(0, 7, op)] ∈ baseWords s.cfg.xlen false := by
    cases s.cfg.xlen <;> decide
  have hopcode : (field w 0 7).toNat ∉ [0x37, 0x17, 0x6F] := fun hmem =>
    h.not_hasFields (hsets _ hmem) (by simp [HasFields])
  rw [execBase, if_neg (not_not.mpr hlow)]
  split
  case h_1 hop => simp [hop] at hopcode
  case h_2 hop => simp [hop] at hopcode
  case h_3 hop => simp [hop] at hopcode
  case h_4 hop => exact if_neg (jalr_funct3_ne_zero h hop)
  case h_5 hop => exact execBranch_refused h hop
  case h_6 hop => exact execLoad_refused h hop
  case h_7 hop => exact execStore_refused h hop
  case h_8 hop => rw [immediateForm_none h hop, execAlu]
  case h_9 hop => rw [registerForm_none h hop, execAlu]
  case h_10 hop =>
    split_ifs with hform
    · rw [wordImmediateForm_none h hop hform.1 hform.2, execAlu]
    · rfl
  case h_11 hop =>
    split_ifs with hform
    · rw [wordRegisterForm_none h hop hform.1 hform.2, execAlu]
    · rfl
  case h_12 hop => exact execMiscMem_refused h hop
  case h_13 hop => exact execAtomic_refused h hop
  case h_14 hop => exact execSystem_refused h hop
  case h_15 => rfl

end

/-- A word the encoding decodes is one of a row's. -/
theorem exists_row_of_decode {e : Encoding} {len w : Nat} {i : Instr} (h : e.decode len w = some i) :
    len = e.ilen ∧ ∃ r ∈ e.rows, r.matches w = true := by
  unfold Encoding.decode at h
  split at h
  · next hlen =>
    obtain ⟨r, hr, -⟩ := Option.bind_eq_some_iff.mp h
    exact ⟨hlen, r, List.mem_of_find?_eq_some hr, List.find?_some (p := fun r : EncRow => r.matches w) hr⟩
  · cases h

theorem mem_baseWords_of_noH {xlen : XLen} {hasH : Bool} {p : Nat × Nat} (h : p ∈ baseWords xlen false) :
    p ∈ baseWords xlen hasH :=
  List.mem_append_left _ (by simpa [baseWords] using h)

/-- The low bits of a word four bytes long are both set. -/
theorem field_low_of_instrLength {w : InstrWord} (h : instrLength (BitVec.ofNat 8 w.toNat) = 4) :
    field w 0 2 = 3#2 := by
  refine BitVec.eq_of_toNat_eq ?_
  rw [instrLength_ofNat] at h
  simp only [field, BitVec.extractLsb'_toNat, Nat.shiftRight_zero, BitVec.toNat_ofNat]
  split at h <;> omega

/-- Settles O8: a CMO word of four bytes is one of a row's, which has no word of a base instruction. -/
theorem cmoWordsAreNoBaseInstructions : Obligations.CmoWordsAreNoBaseInstructions := by
  intro s w i hwf hdecode
  obtain ⟨hilen, hrows, -, -⟩ := Encoding.valid_of_wf hwf
  obtain ⟨hlen, r, hmem, hmatches⟩ := exists_row_of_decode hdecode
  have hr := hrows r hmem
  have hno : NoBaseWord s.cfg.xlen w := fun p hp =>
    EncRow.and_ne_of_avoids (hr.avoids hlen.symm p (mem_baseWords_of_noH hp)) hmatches
  exact hno.execBase_refused
    (field_low_of_instrLength (hlen ▸ EncRow.instrLength_of_matches hr hilen hmatches))

/-! ### The step on a reserved word (rule R127) -/

/-- Fetched bytes that are no CMO instruction are executed as a word that is none. -/
theorem hartStep_undecoded {s : State} {bytes : List Byte} (ht : triggerHit s TriggerClass.fetch s.pc = none)
    (hf : fetchInstruction s = .ok bytes) (hd : s.cfg.enc.decode bytes.length (ofBytesLE bytes) = none) :
    hartStep s = execOther bytes.length (ofBytesLE bytes) (withWord s bytes) := by
  simp [hartStep, beforeInstruction, ht, hf, hd]

theorem execOther_custom {s : State} {w : Nat} (h : customOpcode w = true) :
    execOther 4 w s = .next (raiseIllegal s) := by
  simp [execOther, h]

/-- Settles O10: the CMO opcode is a custom one, on which the base ISA has no instruction. -/
theorem reservedWordIsIllegal : Obligations.ReservedWordIsIllegal := by
  rintro s s' bytes hm rfl ht hf hlen hopcode hd
  have hcustom : customOpcode (ofBytesLE bytes) = true := by simp [customOpcode, hopcode]
  rw [← hlen] at hd
  rw [step_eq_hartStep hm, hartStep_undecoded ht hf hd, hlen, execOther_custom hcustom]
  exact ⟨_, _, _, rfl⟩

end Sys2Proof.Machine
end

section
/-!
PROOFS. The obligations of spec/40_cbo_management.md: the cache set of a management instruction, the operation a `CBO.INVAL`
performs, and what the three instructions leave where they complete.
-/

namespace Sys2Proof.Machine

/-! ### The cache set (rule R151) -/

/-- The caches reached in one domain: those accessed directly and, where hardware enforces coherence, the others. -/
theorem mem_hopCaches {coherent : Bool} {h : Hop} {c : Nat} :
    c ∈ hopCaches coherent h ↔ c ∈ h.direct ∨ (coherent = true ∧ c ∈ h.indirect) := by
  cases coherent <;> simp [hopCaches]

/-- Settles O37: the cache set collects the caches reached in each domain up to PoC-memory. -/
theorem cacheSetOfAnAgent : Obligations.CacheSetOfAnAgent := fun _ _ _ _ => by
  simp only [mem_cacheSet, List.mem_flatMap, mem_hopCaches]

/-! ### What `CBO.INVAL` performs (rules R153 to R155, R243) -/

/-- `mcmocontrol` lets a `CBO.INVAL` on in effective M-mode, and elsewhere where its `INVWxE` bit is set. -/
theorem invalDenied_inval_iff {s : State} {eff : Mode} {pa : Nat} :
    invalDenied s .inval eff pa = false ↔
      eff = .m ∨ invalPass s.csr.mcmocontrol (some (someJointW s eff pa)) = true := by
  simp [invalDenied, machineW, or_iff_not_imp_left]

theorem managementOp_inval_of_keeps {s : State} {eff : Mode} {tr : Xlate}
    (h : invalIsInvalidate s.csr (machineW s eff tr.pa) tr.wS tr.wG tr.wVS eff = true) :
    managementOp s .inval eff tr = .invalidate := if_pos h

theorem managementOp_inval_of_not_keeps {s : State} {eff : Mode} {tr : Xlate}
    (h : invalIsInvalidate s.csr (machineW s eff tr.pa) tr.wS tr.wG tr.wVS eff = false) :
    managementOp s .inval eff tr = .flush := if_neg (ne_true_of_eq_false h)

/-- A `CBO.INVAL` that meets its checks and performs a flush does what `CBO.FLUSH` does: the flush asks for no check that
the invalidate does not (rule R153). -/
theorem execManagement_inval_eq_flush {rs1 : RegIdx} {poc : Poc} {s : State} {tr : Xlate}
    (hl : illegalCbme s.csr s.mode = false)
    (ht : triggerHit s TriggerClass.management (effectiveAddress s rs1) = none)
    (htr : translate s .management true (effMode s) (effectiveAddress s rs1) = .ok tr)
    (hp : pmaConstraint s.cfg tr.pa = true) (hj : allJointRorX s (effMode s) tr.pa = true)
    (hd : invalDenied s .inval (effMode s) tr.pa = false)
    (hop : managementOp s .inval (effMode s) tr = .flush) :
    execManagement .inval rs1 poc s = execManagement .flush rs1 poc s := by
  rw [execManagement_completes (kind := .inval) hl ht htr hp hj hd,
    execManagement_completes (kind := .flush) hl ht (translate_of_inval htr) hp hj rfl, hop, managementOp]

/-- Settles O27: `keep` is rule R154's `I(c)`, and by rule R155 it selects between an invalidate and a flush. -/
theorem invalOperationByInvwi : Obligations.InvalOperationByInvwi := by
  intro s rs1 poc tr hl ht htr hp hj hpass keep m invalidates
  have hd := invalDenied_inval_iff.mpr hpass
  have hkeep : keep = invalKeeps := by
    funext r w
    rcases w with _ | _ | _ <;> rfl
  have hinv : invalidates = invalIsInvalidate s.csr (machineW s (effMode s) tr.pa) tr.wS tr.wG tr.wVS (effMode s) := by
    simp only [invalidates, m, hkeep]
    cases effMode s <;> rfl
  constructor
  · intro h
    rw [← managementOp_inval_of_keeps (hinv ▸ h)]
    exact execManagement_completes hl ht htr hp hj hd
  · intro h
    exact execManagement_inval_eq_flush hl ht htr hp hj hd (managementOp_inval_of_not_keeps (hinv ▸ h))

/-! ### Completion and frame (rules R157 to R159, R21, R23, R95) -/

/-- Step 8 of rule R159 changes memory and caches at its block alone. -/
theorem performManagement_agree {s : State} (op : CacheOp) (memType pa : Nat) (poc : Poc) (hw : s.ms.wf s.cfg = true) :
    MemSys.AgreeBut s.cfg (blockAddresses s.cfg pa) s.ms (performManagement s op memType pa poc).ms := by
  rw [performManagement_ms, manageBlock_ms]
  exact MemSys.manageAt_agree hw

/-- The page-table writes and step 8 of rule R159 change memory and caches at those entries and at the block alone. -/
theorem performManagement_writePtes_agree {s : State} (op : CacheOp) (poc : Poc) (tr : Xlate) (h : s.Inv) :
    MemSys.AgreeBut s.cfg (pteWriteAddresses tr.pteWrites ++ blockAddresses s.cfg tr.pa) s.ms
      (performManagement (writePtes s tr.pteWrites) op tr.memType tr.pa poc).ms := by
  have hblock := performManagement_agree op tr.memType tr.pa poc (writePtes_inv tr.pteWrites h).ms
  rw [writePtes_cfg] at hblock
  exact (writePtes_agree s tr.pteWrites).trans hblock

theorem performManagement_writePtes_reservation (s : State) (op : CacheOp) (poc : Poc) (tr : Xlate) :
    ReservationKept s (performManagement (writePtes s tr.pteWrites) op tr.memType tr.pa poc) tr.pa := by
  simpa only [ReservationKept, writePtes_reservation, writePtes_cfg] using
    performManagement_reservation (writePtes s tr.pteWrites) op tr.memType tr.pa poc

/-- An invalidate adds the bytes of its block to those whose loads are UNSPECIFIED, no other operation adds any (rule
R95). -/
theorem mem_unspecifiedAfter {s : State} {op : CacheOp} {pa a : Nat} :
    a ∈ unspecifiedAfter s op pa ↔ (op = .invalidate ∧ a ∈ blockAddresses s.cfg pa) ∨ a ∈ s.unspecified := by
  cases op with
  | invalidate => simp [unspecifiedAfter, mem_foldl_insert]
  | clean => simp [unspecifiedAfter]
  | flush => simp [unspecifiedAfter]

/-- What a management instruction that meets every check leaves, its operation `op` one of the three. -/
theorem execManagement_effect {kind : ManagementKind} {rs1 : RegIdx} {poc : Poc} {s : State} {tr : Xlate} {op : CacheOp}
    (hop : managementOp s kind (effMode s) tr = op) (h : s.Inv) (hl : illegalCbme s.csr s.mode = false)
    (ht : triggerHit s TriggerClass.management (effectiveAddress s rs1) = none)
    (htr : translate s .management (kind == .inval) (effMode s) (effectiveAddress s rs1) = .ok tr)
    (hp : pmaConstraint s.cfg tr.pa = true) (hj : allJointRorX s (effMode s) tr.pa = true)
    (hd : invalDenied s kind (effMode s) tr.pa = false) :
    ∃ t, execManagement kind rs1 poc s = .next t ∧ t.pc = nextPc s ∧ SameHart s t ∧ ReservationKept s t tr.pa ∧
      t.ms = MemSys.manageAt s.cfg s.tick op (hartAccess .management tr.memType) tr.pa poc
        (writePtes s tr.pteWrites).latest (writePtes s tr.pteWrites).ms ∧
      t.unspecified = unspecifiedAfter (writePtes s tr.pteWrites) op tr.pa ∧
      MemSys.AgreeBut s.cfg (pteWriteAddresses tr.pteWrites ++ blockAddresses s.cfg tr.pa) s.ms t.ms := by
  subst hop
  refine ⟨_, execManagement_completes hl ht htr hp hj hd, ?_, ?_, ?_, ?_, ?_, ?_⟩
  · simp [nextPc, pcAfter]
  · exact retire_sameHart ((writePtes_sameHart s _).trans (performManagement_sameHart _ _ _ _ _))
  · exact performManagement_writePtes_reservation s _ poc tr
  · simp
  · simp
  · exact performManagement_writePtes_agree _ poc tr h

/-- Settles O28: neither instruction is subject to the `INVWxE` bits, and neither adds an UNSPECIFIED byte. -/
theorem cleanAndFlushComplete : Obligations.CleanAndFlushComplete := by
  rintro s rs1 poc i op tr h (⟨rfl, rfl⟩ | ⟨rfl, rfl⟩) hl ht htr hp hj
  · exact execManagement_effect (kind := .clean) rfl h hl ht htr hp hj rfl
  · exact execManagement_effect (kind := .flush) rfl h hl ht htr hp hj rfl

/-- Settles O29: the `INVWxE` bits let it on, and an invalidate adds the bytes of its block to the UNSPECIFIED ones. -/
theorem invalCompletes : Obligations.InvalCompletes := by
  intro s rs1 poc tr h hl ht htr hp hj hpass op
  obtain ⟨t, hnext, hpc, hhart, hres, hms, hun, hagree⟩ := execManagement_effect (kind := .inval) (poc := poc) rfl h hl ht
    htr hp hj (invalDenied_inval_iff.mpr hpass)
  refine ⟨t, hnext, hpc, hhart, hres, hms, fun a => ?_, hagree⟩
  rw [hun, mem_unspecifiedAfter, writePtes_cfg]

end Sys2Proof.Machine
end

section
/-!
PROOFS. The obligations of spec/41_cbo_write.md: what `CBO.ZERO` leaves where it completes, and that the level
operand, its own and that of the hints, changes nothing where it is not honoured.
-/

namespace Sys2Proof.Machine

/-! ### The level operand (rules R171, R172, R181, R182) -/

/-- Where the level is not honoured every level designates the cache that `default` does. -/
theorem levelIndex_of_not_honoured {cfg : Config} (h : cfg.levelHonoured = false) (level : Level) :
    levelIndex cfg level = cfg.defaultLevel := by
  cases level <;> simp [levelIndex, h]

theorem levelCache_ignores_level {cfg : Config} (h : cfg.levelHonoured = false) (hops : List Hop) (l l' : Level) :
    levelCache cfg hops l = levelCache cfg hops l' := by
  simp only [levelCache, levelIndex_of_not_honoured h]

theorem hintAccess_ignores_level {s : State} (h : s.cfg.levelHonoured = false) (kind : HintKind) (l l' : Level)
    (ea : Word) : hintAccess s kind l ea = hintAccess s kind l' ea := by
  simp only [hintAccess, performHint, hintCache, levelCache_ignores_level h _ l l']

theorem execHint_ignores_level {s : State} (h : s.cfg.levelHonoured = false) (kind : HintKind) (rs1 : RegIdx)
    (l l' : Level) : execHint kind rs1 l s = execHint kind rs1 l' s := by
  simp only [execHint, hintAccess_ignores_level h kind l l']

theorem zeroBlock_ignores_level {s : State} (h : s.cfg.levelHonoured = false) (l l' : Level) (memType pa : Nat) :
    zeroBlock s l memType pa = zeroBlock s l' memType pa := by
  simp only [zeroBlock, zeroCache, levelCache_ignores_level h _ l l']

theorem zeroAccess_ignores_level {s : State} (h : s.cfg.levelHonoured = false) (eff : Mode) (ea : Word) (l l' : Level)
    (tr : Xlate) : zeroAccess s eff ea l tr = zeroAccess s eff ea l' tr := by
  have hw : (writePtes s tr.pteWrites).cfg.levelHonoured = false := by rwa [writePtes_cfg]
  simp only [zeroAccess, zeroBlock_ignores_level hw l l']

theorem execCboZero_ignores_level {s : State} (h : s.cfg.levelHonoured = false) (rs1 : RegIdx) (l l' : Level) :
    execCboZero rs1 l s = execCboZero rs1 l' s := by
  simp only [execCboZero, zeroChecks, zeroAccess_ignores_level h _ _ l l']

/-- Settles O35: the level of an instruction is read by `levelIndex` alone. -/
theorem levelIsIgnored : Obligations.LevelIsIgnored := fun _ rs1 l l' h =>
  ⟨execHint_ignores_level h .prefetchR rs1 l l', execHint_ignores_level h .prefetchW rs1 l l',
    execHint_ignores_level h .prefetchI rs1 l l', execHint_ignores_level h .demote rs1 l l',
    fun _ => execCboZero_ignores_level h rs1 l l'⟩

/-! ### The zeros of `CBO.ZERO` (rules R173, R174, R95) -/

/-- An access along the path of a write of several bytes reads each of them. -/
theorem MemSys.readByte_writeBytes {cfg : Config} {tick pa i : Nat} {acc acc' : Access} {bs : List Byte} {ms : MemSys}
    (hw : ms.wf cfg = true) (hi : i < bs.length)
    (hhops : hopsOf cfg acc' (blockBase cfg (pa + i)) = hopsOf cfg acc (blockBase cfg (pa + i))) :
    MemSys.readByte cfg (MemSys.writeBytes cfg tick acc pa bs ms) acc' (pa + i) = bs[i] := by
  have hholds := Holds.writeBytes (tick := tick) (pa := pa) (acc := acc) bs hw i hi
  rw [← hhops] at hholds
  exact List.mem_singleton.mp hholds.readByte

/-- Every access along the path of a `CBO.ZERO` then reads its block as zeros. -/
theorem zeroBlock_readByte {s : State} (h : s.Inv) (level : Level) {memType pa a : Nat} {acc : Access}
    (ha : a ∈ blockAddresses s.cfg pa)
    (hhops : hopsOf s.cfg acc (blockBase s.cfg pa) = hopsOf s.cfg (hartAccess .zero memType) (blockBase s.cfg pa)) :
    MemSys.readByte s.cfg (zeroBlock s level memType pa).ms acc a = 0#8 := by
  obtain ⟨i, hi, rfl⟩ := List.mem_map.mp ha
  have hw := (allocateForWrite_inv .zero memType pa (zeroCache s level memType pa) h).ms
  rw [allocateForWrite_cfg] at hw
  rw [zeroBlock_ms, MemSys.readByte_writeBytes hw (by simpa using hi), List.getElem_replicate]
  rwa [mem_blockAddresses_iff_base.mp ha]

theorem zeroBlock_specified {s : State} (h : s.Inv) (level : Level) (memType : Nat) {pa a : Nat}
    (ha : a ∈ blockAddresses s.cfg pa) : a ∉ (zeroBlock s level memType pa).unspecified := by
  rw [zeroBlock_unspecified, mem_foldl_erase _ h.unspecified]
  exact fun hmem => hmem.1 ha

/-- The hart's loads of the block return zero once `CBO.ZERO` has retired: they take the path of its writes (rule R99). -/
theorem hartLoadByte_retire_zeroBlock {s : State} (h : s.Inv) (level : Level) (memType : Nat) {pa a : Nat}
    (ha : a ∈ blockAddresses s.cfg pa) : hartLoadByte (retire (zeroBlock s level memType pa)) memType a = 0#8 := by
  rw [hartLoadByte_of_specified (s := retire _) (zeroBlock_specified h level memType ha), retire_cfg, zeroBlock_cfg]
  exact zeroBlock_readByte h level ha (hopsOf_kinds h.cfg _ rfl rfl (by simp [hartAccess]) (by simp [hartAccess]))

/-- The page-table writes and the zeros change memory and caches at those entries and at the block alone. -/
theorem zeroBlock_writePtes_agree (s : State) (level : Level) (tr : Xlate) :
    MemSys.AgreeBut s.cfg (pteWriteAddresses tr.pteWrites ++ blockAddresses s.cfg tr.pa) s.ms
      (zeroBlock (writePtes s tr.pteWrites) level tr.memType tr.pa).ms := by
  have hblock := zeroBlock_agree (writePtes s tr.pteWrites) level tr.memType tr.pa
  rw [writePtes_cfg] at hblock
  exact (writePtes_agree s tr.pteWrites).trans hblock

theorem zeroBlock_writePtes_reservation (s : State) (level : Level) (tr : Xlate) :
    ReservationKept s (zeroBlock (writePtes s tr.pteWrites) level tr.memType tr.pa) tr.pa := by
  simpa only [ReservationKept, writePtes_reservation, writePtes_cfg] using
    zeroBlock_reservation (writePtes s tr.pteWrites) level tr.memType tr.pa

/-- Outside cacheable main memory `CBO.ZERO` is refused (rule R175). -/
theorem execCboZero_refused {rs1 : RegIdx} {level : Level} {s : State} {tr : Xlate}
    (hl : illegalCbwe s.csr s.mode = false) (ht : triggerHit s TriggerClass.zero (effectiveAddress s rs1) = none)
    (htr : translate s .zero false (effMode s) (effectiveAddress s rs1) = .ok tr)
    (hp : pmaConstraint s.cfg tr.pa = true) (hj : fullJointW s (effMode s) tr.pa = true)
    (hz : zeroable s.cfg tr.memType tr.pa = false) :
    execCboZero rs1 level s = .refused .zeroOnDeviceOrUncacheable := by
  simp [execCboZero, hl, zeroChecks, ht, htr, zeroAccess, hp, hj, hz]

/-- Settles O30: the state left by the page-table writes meets the invariant, and on it the whole block is written. -/
theorem zeroCompletes : Obligations.ZeroCompletes := by
  intro s rs1 level tr h hl ht htr hp hj
  refine ⟨fun hz => ⟨_, execCboZero_completes hl ht htr hp hj hz, ?_, ?_, ?_, ?_, ?_⟩,
    execCboZero_refused hl ht htr hp hj⟩
  · simp [nextPc, pcAfter]
  · exact retire_sameHart ((writePtes_sameHart s _).trans (zeroBlock_sameHart _ _ _ _))
  · exact zeroBlock_writePtes_reservation s level tr
  · have hw := writePtes_inv tr.pteWrites h
    rw [← writePtes_cfg s tr.pteWrites]
    exact fun a ha => ⟨zeroBlock_specified hw level tr.memType ha, hartLoadByte_retire_zeroBlock hw level tr.memType ha,
      fun acc hhops => zeroBlock_readByte hw level ha hhops⟩
  · exact zeroBlock_writePtes_agree s level tr

end Sys2Proof.Machine
end

section
/-!
PROOFS. The completion of the hints of spec/42_cbo_hint.md: which triggers let them on, what they leave, and that
nothing they do reads an `xcmocontrol` register.
-/

namespace Sys2Proof.Machine

/-! ### Hints that no trigger fires on (rules R210, R248 to R250, R251; I23) -/

/-- Where hints are neither loads nor stores, a trigger fires on one only by a draw, where what it does is
UNSPECIFIED. -/
theorem triggerFires_hint_of_specified {s : State} {t : Trigger} (hn : s.cfg.hintTrigger = .neither)
    (hu : triggerUnspecified s.cfg.xlen t (TriggerClass.hint s.cfg) = false) (index : Nat) (ea : Word) :
    triggerFires s index t (TriggerClass.hint s.cfg) ea = false := by
  have hsel : triggerSelects t (TriggerClass.hint s.cfg) = false := by simp [triggerSelects, TriggerClass.hint, hn]
  simp [triggerFires, hu, hsel]

theorem firstTrigger_eq_none {s : State} {c : TriggerClass} {ea : Word} {index : Nat} {l : List Trigger}
    (h : ∀ t ∈ l, ∀ index, triggerFires s index t c ea = false) : firstTrigger s c ea index l = none := by
  induction l generalizing index with
  | nil => rfl
  | cons t rest ih =>
    rw [List.forall_mem_cons] at h
    simp [firstTrigger, h.1, ih h.2]

/-- On hints that are converted to NOPs nothing is UNSPECIFIED (rule R210). -/
theorem triggerUnspecified_hint_of_nop {cfg : Config} (hn : cfg.hintTrigger = .neither) (ha : cfg.hintAction = .no)
    (xlen : XLen) (t : Trigger) : triggerUnspecified xlen t (TriggerClass.hint cfg) = false := by
  simp [triggerUnspecified, TriggerClass.hint, hn, ha]

theorem triggerHit_hint_eq_none {s : State} {ea : Word} (hn : s.cfg.hintTrigger = .neither)
    (h : s.cfg.hintAction = .no ∨
      ∀ t ∈ s.triggers, triggerUnspecified s.cfg.xlen t (TriggerClass.hint s.cfg) = false) :
    triggerHit s (TriggerClass.hint s.cfg) ea = none := by
  have hu : ∀ t ∈ s.triggers, triggerUnspecified s.cfg.xlen t (TriggerClass.hint s.cfg) = false :=
    h.elim (fun ha t _ => triggerUnspecified_hint_of_nop hn ha _ t) id
  exact firstTrigger_eq_none fun t ht index => triggerFires_hint_of_specified hn (hu t ht) index ea

/-! ### What a hint leaves (rules R183 to R187, R21, R23) -/

/-- A prefetch writes no byte of memory: its action is an allocation. -/
theorem performHint_mem_of_prefetch (s : State) {kind : HintKind} (hk : kind ≠ .demote) (level : Level)
    (memType pa : Nat) : (performHint s kind level memType pa).ms.mem = s.ms.mem := by
  rcases performHint_ms s kind level memType pa with hms | ⟨cache, -, -, hms⟩ <;> rw [hms]
  rw [hintMove_prefetch s hk, MemSys.allocateOnPath_mem]

/-- Whatever its translation and permissions, a hint goes on to the next instruction and writes no register. -/
theorem hintAccess_hart (s : State) (kind : HintKind) (level : Level) (ea : Word) :
    (hintAccess s kind level ea).pc = nextPc s ∧ SameHart s (hintAccess s kind level ea) ∧
      (hintAccess s kind level ea).unspecified = s.unspecified := by
  rcases hintAccess_cases s kind level ea with hr | ⟨tr, -, hr⟩ <;> rw [hr]
  · exact ⟨rfl, ⟨rfl, rfl, rfl, rfl, rfl, rfl, rfl, rfl⟩, rfl⟩
  · exact ⟨by simp [nextPc, pcAfter], retire_sameHart (performHint_sameHart ..), by simp⟩

/-- A hint leaves memory, caches and reservation as they were, or acts on the block of its translated address. -/
theorem hintAccess_block {s : State} (h : s.Inv) (kind : HintKind) (level : Level) (ea : Word) :
    ((hintAccess s kind level ea).ms = s.ms ∧ (hintAccess s kind level ea).reservation = s.reservation) ∨
      ∃ tr, translate s .hint false (effMode s) ea = .ok tr ∧
        ReservationKept s (hintAccess s kind level ea) tr.pa ∧
        MemSys.AgreeBut s.cfg (blockAddresses s.cfg tr.pa) s.ms (hintAccess s kind level ea).ms ∧
        (kind ≠ .demote → (hintAccess s kind level ea).ms.mem = s.ms.mem) := by
  rcases hintAccess_cases s kind level ea with hr | ⟨tr, htr, hr⟩ <;> rw [hr]
  · exact .inl ⟨rfl, rfl⟩
  · exact .inr ⟨tr, htr, performHint_reservation s kind level tr.memType tr.pa,
      performHint_agree kind level tr.memType tr.pa h.ms, fun hk => performHint_mem_of_prefetch s hk level _ _⟩

/-! ### No hint reads an `xcmocontrol` register (rule R219) -/

/-- The state with other values in the four `xcmocontrol` registers. -/
def State.withCmoCsrs (s : State) (m sc h vs : Word) : State :=
  { s with csr := { s.csr with mcmocontrol := m, scmocontrol := sc, hcmocontrol := h, vscmocontrol := vs } }

section
variable (s : State) (m sc h vs : Word)

theorem withCmoCsrs_ite (p : Prop) [Decidable p] (t : State) :
    (if p then s else t).withCmoCsrs m sc h vs = if p then s.withCmoCsrs m sc h vs else t.withCmoCsrs m sc h vs :=
  apply_ite (State.withCmoCsrs · m sc h vs) p s t

theorem firstTrigger_withCmoCsrs (c : TriggerClass) (ea : Word) (index : Nat) (l : List Trigger) :
    firstTrigger (s.withCmoCsrs m sc h vs) c ea index l = firstTrigger s c ea index l := by
  induction l generalizing index with
  | nil => rfl
  | cons t rest ih =>
    have hf : triggerFires (s.withCmoCsrs m sc h vs) index t c ea = triggerFires s index t c ea := rfl
    simp only [firstTrigger, hf, ih]

/-- The registers enter a translation by the checks of `CBO.INVAL` alone. -/
theorem translate_withCmoCsrs (kind : AccessKind) (eff : Mode) (ea : Word) :
    translate (s.withCmoCsrs m sc h vs) kind false eff ea = translate s kind false eff ea := by
  cases eff <;> rfl

theorem disturbReservation_withCmoCsrs (pa : Nat) :
    disturbReservation (s.withCmoCsrs m sc h vs) pa = (disturbReservation s pa).withCmoCsrs m sc h vs := by
  simp only [disturbReservation, withCmoCsrs_ite]
  rfl

/-- What a hint does to its block is chosen, allowed and done without the registers. -/
theorem performHint_withCmoCsrs (kind : HintKind) (level : Level) (memType pa : Nat) :
    performHint (s.withCmoCsrs m sc h vs) kind level memType pa =
      (performHint s kind level memType pa).withCmoCsrs m sc h vs := by
  have hcache : hintCache (s.withCmoCsrs m sc h vs) kind level memType pa = hintCache s kind level memType pa := rfl
  simp only [performHint, hcache, ← disturbReservation_withCmoCsrs]
  cases hintCache s kind level memType pa with
  | none => rfl
  | some cache =>
    simp only [withCmoCsrs_ite]
    rfl

theorem hintAccess_withCmoCsrs (kind : HintKind) (level : Level) (ea : Word) :
    hintAccess (s.withCmoCsrs m sc h vs) kind level ea = (hintAccess s kind level ea).withCmoCsrs m sc h vs := by
  have heff : effMode (s.withCmoCsrs m sc h vs) = effMode s := rfl
  have hjoint : allJointRorX (s.withCmoCsrs m sc h vs) = allJointRorX s := rfl
  simp only [hintAccess, heff, hjoint, translate_withCmoCsrs, performHint_withCmoCsrs]
  cases translate s .hint false (effMode s) ea with
  | error e => rfl
  | ok tr =>
    simp only [withCmoCsrs_ite]
    rfl

end

/-- With no trigger a hint completes the same whatever the registers hold. -/
theorem execHint_withCmoCsrs {s : State} {kind : HintKind} {rs1 : RegIdx} {level : Level}
    (ht : triggerHit s (TriggerClass.hint s.cfg) (effectiveAddress s rs1) = none) (m sc h vs : Word) :
    execHint kind rs1 level (s.withCmoCsrs m sc h vs) =
      .next ((hintAccess s kind level (effectiveAddress s rs1)).withCmoCsrs m sc h vs) := by
  rw [execHint_completes ((firstTrigger_withCmoCsrs s m sc h vs ..).trans ht), hintAccess_withCmoCsrs]
  rfl

/-- Each hint instruction has its kind, and only `DEMOTE` that of `DEMOTE`. -/
theorem exec_hint_kind {i : Instr} {rs1 : RegIdx} {level : Level}
    (hh : i = .prefetchR rs1 level ∨ i = .prefetchW rs1 level ∨ i = .prefetchI rs1 level ∨ i = .demote rs1 level) :
    ∃ kind : HintKind, (i ≠ .demote rs1 level → kind ≠ .demote) ∧ ∀ s, exec i s = execHint kind rs1 level s := by
  rcases hh with rfl | rfl | rfl | rfl
  · exact ⟨.prefetchR, fun _ => by decide, fun _ => rfl⟩
  · exact ⟨.prefetchW, fun _ => by decide, fun _ => rfl⟩
  · exact ⟨.prefetchI, fun _ => by decide, fun _ => rfl⟩
  · exact ⟨.demote, fun hne => absurd rfl hne, fun _ => rfl⟩

/-- Settles O31: with no trigger a hint ends in its access, which acts on one block or not at all, and reads none of the
`xcmocontrol` registers. -/
theorem hintsComplete : Obligations.HintsComplete := by
  intro s rs1 level i hi hh htrigger
  have ht : triggerHit s (TriggerClass.hint s.cfg) (effectiveAddress s rs1) = none :=
    htrigger.elim (fun hn => triggerHit_hint_eq_none hn.1 hn.2) id
  obtain ⟨kind, hkind, hexec⟩ := exec_hint_kind hh
  obtain ⟨hpc, hhart, hun⟩ := hintAccess_hart s kind level (effectiveAddress s rs1)
  refine ⟨_, (hexec s).trans (execHint_completes ht), hpc, hhart, hun, ?_, fun m sc h vs =>
    (hexec _).trans (execHint_withCmoCsrs ht m sc h vs)⟩
  rcases hintAccess_block hi kind level (effectiveAddress s rs1) with hsame | ⟨tr, htr, hres, hagree, hmem⟩
  · exact .inl hsame
  · exact .inr ⟨tr, htr, hres, hagree, fun hne => hmem (hkind hne)⟩

end Sys2Proof.Machine
end

section
/-!
PROOFS. The exceptions of spec/60_exceptions.md: which instruction takes which, in the order of the checks of rules
R159, R174 and R183; what a hint without permission does; the registers that govern a mode; and what `Translate` asks of
a leaf PTE.
-/

namespace Sys2Proof.Machine

/-! ### The effective mode (rule R214) -/

/-- Settles O20: by the four values of `MPP`. -/
theorem effectiveModeByMprv : Obligations.EffectiveModeByMprv := by
  refine fun s => ⟨fun hm => ?_, fun _ hp => ?_, fun hm hp hl => ?_, fun hm hp hl => ?_, fun hm hp hl => ?_⟩
  · simp [effMode, hm]
  · simp_all [effMode, mprvBit]
  all_goals simp [effMode, hm, hp, mprvBit, modeOf, hl, mpvBit]


/-! ### The three classes of instructions -/

/-- Each management instruction has its kind, and only `CBO.INVAL` that of `CBO.INVAL`. -/
theorem exec_management_kind {i : Instr} {rs1 : RegIdx} {poc : Poc}
    (hi : i = .cboInval rs1 poc ∨ i = .cboClean rs1 poc ∨ i = .cboFlush rs1 poc) :
    ∃ kind : ManagementKind, decide (i = .cboInval rs1 poc) = (kind == .inval) ∧
      ∀ s, exec i s = execManagement kind rs1 poc s := by
  rcases hi with rfl | rfl | rfl
  · exact ⟨.inval, by simp, fun _ => rfl⟩
  · exact ⟨.clean, by simp, fun _ => rfl⟩
  · exact ⟨.flush, by simp, fun _ => rfl⟩

/-! ### Each check of a management instruction in its turn (rule R159) -/

section
variable {kind : ManagementKind} {rs1 : RegIdx} {poc : Poc} {s : State}

theorem execManagement_illegal (hl : illegalCbme s.csr s.mode = true) :
    Takes s .illegalInstruction (execManagement kind rs1 poc s) := ⟨_, _, _, if_pos hl⟩

theorem execManagement_breakpoint (hl : illegalCbme s.csr s.mode = false)
    (ht : triggerHit s TriggerClass.management (effectiveAddress s rs1) = some .breakpoint) :
    execManagement kind rs1 poc s =
      .next (raiseAddress s .breakpoint (effMode s) (effectiveAddress s rs1) 0) := by
  simp [execManagement, hl, managementChecks, ht]

section
variable (hl : illegalCbme s.csr s.mode = false)
  (ht : triggerHit s TriggerClass.management (effectiveAddress s rs1) = none)
include hl ht

theorem execManagement_untranslated {e : XlateError}
    (htr : translate s .management (kind == .inval) (effMode s) (effectiveAddress s rs1) = .error e) :
    execManagement kind rs1 poc s = .next (raiseXlate s (effMode s) (effectiveAddress s rs1) e) := by
  simp [execManagement, hl, managementChecks, ht, htr]

/-- Without permission the instruction takes an access fault (rules R239, R240). -/
theorem execManagement_denied {tr : Xlate}
    (htr : translate s .management (kind == .inval) (effMode s) (effectiveAddress s rs1) = .ok tr)
    (hp : pmaConstraint s.cfg tr.pa = true)
    (hd : allJointRorX s (effMode s) tr.pa = false ∨ invalDenied s kind (effMode s) tr.pa = true) :
    execManagement kind rs1 poc s =
      .next (raiseAddress s .storeAccess (effMode s) (effectiveAddress s rs1) 0) := by
  rcases hd with hd | hd <;> simp [execManagement, hl, managementChecks, ht, htr, managementAccess, hp, hd]

end
end

/-! ### Each check of `CBO.ZERO` in its turn (rule R174) -/

section
variable {rs1 : RegIdx} {level : Level} {s : State}

theorem execCboZero_illegal (hl : illegalCbwe s.csr s.mode = true) :
    Takes s .illegalInstruction (execCboZero rs1 level s) := ⟨_, _, _, if_pos hl⟩

theorem execCboZero_breakpoint (hl : illegalCbwe s.csr s.mode = false)
    (ht : triggerHit s TriggerClass.zero (effectiveAddress s rs1) = some .breakpoint) :
    execCboZero rs1 level s = .next (raiseAddress s .breakpoint (effMode s) (effectiveAddress s rs1) 0) := by
  simp [execCboZero, hl, zeroChecks, ht]

theorem execCboZero_untranslated {e : XlateError} (hl : illegalCbwe s.csr s.mode = false)
    (ht : triggerHit s TriggerClass.zero (effectiveAddress s rs1) = none)
    (htr : translate s .zero false (effMode s) (effectiveAddress s rs1) = .error e) :
    execCboZero rs1 level s = .next (raiseXlate s (effMode s) (effectiveAddress s rs1) e) := by
  simp [execCboZero, hl, zeroChecks, ht, htr]

theorem execCboZero_denied {tr : Xlate} (hl : illegalCbwe s.csr s.mode = false)
    (ht : triggerHit s TriggerClass.zero (effectiveAddress s rs1) = none)
    (htr : translate s .zero false (effMode s) (effectiveAddress s rs1) = .ok tr)
    (hp : pmaConstraint s.cfg tr.pa = true) (hd : fullJointW s (effMode s) tr.pa = false) :
    execCboZero rs1 level s = .next (raiseAddress s .storeAccess (effMode s) (effectiveAddress s rs1) 0) := by
  simp [execCboZero, hl, zeroChecks, ht, htr, zeroAccess, hp, hd]

end

theorem execHint_breakpoint {kind : HintKind} {rs1 : RegIdx} {level : Level} {s : State}
    (ht : triggerHit s (TriggerClass.hint s.cfg) (effectiveAddress s rs1) = some .breakpoint) :
    execHint kind rs1 level s = .next (raiseAddress s .breakpoint (effMode s) (effectiveAddress s rs1) 0) := by
  simp [execHint, ht]

/-! ### Taking an exception of a CMO instruction (rules R210, R211) -/

theorem raiseAddress_takes (s : State) (e : Exception) (eff : Mode) (ea : Word) (gpa : Nat) :
    Takes s e (.next (raiseAddress s e eff ea gpa)) := ⟨_, _, _, rfl⟩

@[simp] theorem raiseAddress_ms (s : State) (e : Exception) (eff : Mode) (ea : Word) (gpa : Nat) :
    (raiseAddress s e eff ea gpa).ms = s.ms := takeTrap_ms ..

/-- What an instruction that raises an exception on its address leaves. -/
theorem exists_next_raiseAddress {s : State} {e : Exception} {eff : Mode} {ea : Word} {gpa : Nat} {r : Result}
    (h : r = .next (raiseAddress s e eff ea gpa)) : ∃ t, r = .next t ∧ Takes s e (.next t) ∧ t.ms = s.ms :=
  ⟨_, h, raiseAddress_takes .., raiseAddress_ms ..⟩

/-! ### Illegal instruction exceptions (rules R216, R217) -/

/-- A legal management instruction completes, or takes one of four exceptions. -/
theorem execManagement_legal {kind : ManagementKind} {rs1 : RegIdx} {poc : Poc} {s t : State}
    (hl : illegalCbme s.csr s.mode = false) (h : execManagement kind rs1 poc s = .next t) :
    (∃ s', SameHart s s' ∧ t = retire s') ∨
      ∃ e ∈ [Exception.breakpoint, .storePage, .storeGuestPage, .storeAccess], Takes s e (.next t) := by
  rcases execManagement_next h with ⟨hl', -⟩ | ⟨-, htk⟩ | ⟨tr, -, -, -, -, -, rfl⟩
  · simp [hl] at hl'
  · exact .inr htk
  · exact .inl ⟨_, (writePtes_sameHart ..).trans (performManagement_sameHart ..), rfl⟩

/-- A legal `CBO.ZERO` completes, or takes one of four exceptions. -/
theorem execCboZero_legal {rs1 : RegIdx} {level : Level} {s t : State} (hl : illegalCbwe s.csr s.mode = false)
    (h : execCboZero rs1 level s = .next t) :
    (∃ s', SameHart s s' ∧ t = retire s') ∨
      ∃ e ∈ [Exception.breakpoint, .storePage, .storeGuestPage, .storeAccess], Takes s e (.next t) := by
  rcases execCboZero_next h with ⟨hl', -⟩ | ⟨-, htk⟩ | ⟨tr, -, -, -, -, -, rfl⟩
  · simp [hl] at hl'
  · exact .inr htk
  · exact .inl ⟨_, (writePtes_sameHart ..).trans (zeroBlock_sameHart ..), rfl⟩

/-- Whatever its translation and permissions, a hint retires. -/
theorem hintAccess_retires (s : State) (kind : HintKind) (level : Level) (ea : Word) :
    ∃ s', SameHart s s' ∧ hintAccess s kind level ea = retire s' := by
  rcases hintAccess_cases s kind level ea with hr | ⟨tr, -, hr⟩
  · exact ⟨s, ⟨rfl, rfl, rfl, rfl, rfl, rfl, rfl, rfl⟩, hr⟩
  · exact ⟨_, performHint_sameHart .., hr⟩

/-- A hint completes, or takes a breakpoint exception (rule R219). -/
theorem execHint_class {kind : HintKind} {rs1 : RegIdx} {level : Level} {s t : State}
    (h : execHint kind rs1 level s = .next t) :
    (∃ s', SameHart s s' ∧ t = retire s') ∨ Takes s .breakpoint (.next t) := by
  rcases execHint_next h with htk | rfl
  · exact .inr htk
  · exact .inl (hintAccess_retires ..)

/-- Settles O16: the formulas of rule R216 are `illegalCbme`, the first check of the instruction. -/
theorem managementIllegalByCbme : Obligations.ManagementIllegalByCbme := by
  intro s rs1 poc i hi m sc h vs illegal
  obtain ⟨kind, -, hexec⟩ := exec_management_kind hi
  have hillegal : illegal = illegalCbme s.csr s.mode := by
    cases hm : s.mode <;> simp [illegal, hm, illegalCbme, enabledIn, cbme, m, sc, h, vs, Bool.or_assoc]
  rw [hillegal, hexec]
  exact ⟨execManagement_illegal, fun hl _ ht => execManagement_legal hl ht⟩

/-- Settles O17: the formulas of rule R217 are `illegalCbwe`, the first check of the instruction. -/
theorem zeroIllegalByCbwe : Obligations.ZeroIllegalByCbwe := by
  intro s rs1 level m sc h vs illegal
  have hillegal : illegal = illegalCbwe s.csr s.mode := by
    cases hm : s.mode <;> simp [illegal, hm, illegalCbwe, enabledIn, cbwe, m, sc, h, vs, Bool.or_assoc]
  rw [hillegal]
  exact ⟨execCboZero_illegal, fun hl _ ht => execCboZero_legal hl ht⟩

theorem execManagement_class {kind : ManagementKind} {rs1 : RegIdx} {poc : Poc} {s t : State}
    (h : execManagement kind rs1 poc s = .next t) :
    (∃ s', SameHart s s' ∧ t = retire s') ∨
      ∃ e ∈ [Exception.illegalInstruction, .breakpoint, .storePage, .storeGuestPage, .storeAccess],
        Takes s e (.next t) := by
  cases hl : illegalCbme s.csr s.mode with
  | true => exact .inr ⟨.illegalInstruction, by simp, h ▸ execManagement_illegal hl⟩
  | false => exact (execManagement_legal hl h).imp_right fun ⟨e, he, htk⟩ => ⟨e, List.mem_cons_of_mem _ he, htk⟩

theorem execCboZero_class {rs1 : RegIdx} {level : Level} {s t : State} (h : execCboZero rs1 level s = .next t) :
    (∃ s', SameHart s s' ∧ t = retire s') ∨
      ∃ e ∈ [Exception.illegalInstruction, .breakpoint, .storePage, .storeGuestPage, .storeAccess],
        Takes s e (.next t) := by
  cases hl : illegalCbwe s.csr s.mode with
  | true => exact .inr ⟨.illegalInstruction, by simp, h ▸ execCboZero_illegal hl⟩
  | false => exact (execCboZero_legal hl h).imp_right fun ⟨e, he, htk⟩ => ⟨e, List.mem_cons_of_mem _ he, htk⟩

/-- Settles O18: by the class of the instruction; `CBO.SIZE` has no next state. -/
theorem onlyTheExceptionsOfItsClass : Obligations.OnlyTheExceptionsOfItsClass := by
  intro s t i h
  cases i with
  | cboInval rs1 poc => exact execManagement_class h
  | cboClean rs1 poc => exact execManagement_class h
  | cboFlush rs1 poc => exact execManagement_class h
  | cboZero rs1 level => exact execCboZero_class h
  | prefetchR rs1 level => exact execHint_class h
  | prefetchW rs1 level => exact execHint_class h
  | prefetchI rs1 level => exact execHint_class h
  | demote rs1 level => exact execHint_class h
  | cboSize => cases h

/-- Settles O22: a failed translation is the next check after the trigger module, for both classes. -/
theorem failedTranslationFaults : Obligations.FailedTranslationFaults := by
  intro s rs1 i kind inval e hclass htr
  have hraise : exec i s = .next (raiseXlate s (effMode s) (effectiveAddress s rs1) e) := by
    rcases hclass with ⟨poc, hl, rfl, ht, hi⟩ | ⟨level, hl, rfl, ht, rfl, rfl⟩
    · rcases hi with ⟨rfl, rfl⟩ | ⟨rfl, rfl⟩ | ⟨rfl, rfl⟩
      · exact execManagement_untranslated (kind := .inval) hl ht htr
      · exact execManagement_untranslated (kind := .clean) hl ht htr
      · exact execManagement_untranslated (kind := .flush) hl ht htr
    · exact execCboZero_untranslated hl ht htr
  rw [hraise]
  cases e with
  | page => exact raiseAddress_takes ..
  | guest gpa => exact ⟨_, _, rfl⟩
  | access => exact raiseAddress_takes ..

/-! ### Joint permission (rules R233 to R242) -/

theorem allJointRorX_eq_false {s : State} {eff : Mode} {pa a : Nat} (ha : a ∈ blockAddresses s.cfg pa)
    (hr : JointDenied s eff .read a) (hx : JointDenied s eff .execute a) : allJointRorX s eff pa = false :=
  List.all_eq_false.mpr ⟨a, ha, by simp [jointDenied_iff.mp hr, jointDenied_iff.mp hx]⟩

theorem fullJointW_eq_false {s : State} {eff : Mode} {pa a : Nat} (ha : a ∈ blockAddresses s.cfg pa)
    (hw : JointDenied s eff .write a) : fullJointW s eff pa = false :=
  List.all_eq_false.mpr ⟨a, ha, by simp [jointDenied_iff.mp hw]⟩

/-- Settles O23: one address without joint read or execute permission denies the block (rule R239). -/
theorem managementNeedsJointReadOrExecute : Obligations.ManagementNeedsJointReadOrExecute := by
  intro s rs1 poc i tr a hi hl ht htr hp ha hr hx
  obtain ⟨kind, hkind, hexec⟩ := exec_management_kind hi
  rw [hkind] at htr
  rw [hexec]
  exact exists_next_raiseAddress (execManagement_denied hl ht htr hp (.inl (allJointRorX_eq_false ha hr hx)))

/-- Settles O24: one address without joint write permission denies the block (rule R241). -/
theorem zeroNeedsFullJointWrite : Obligations.ZeroNeedsFullJointWrite := fun _ _ _ _ _ hl ht htr hp ha hw =>
  exists_next_raiseAddress (execCboZero_denied hl ht htr hp (fullJointW_eq_false ha hw))

/-- Settles O55: the trigger module comes right after the check of legality, and first for a hint. -/
theorem triggerBreaksBeforeTheOperation : Obligations.TriggerBreaksBeforeTheOperation := by
  rintro s rs1 poc level i (⟨hl, ht, hi⟩ | ⟨hl, ht, rfl⟩ | ⟨ht, hi⟩)
  · obtain ⟨kind, -, hexec⟩ := exec_management_kind hi
    exact exists_next_raiseAddress ((hexec s).trans (execManagement_breakpoint hl ht))
  · exact exists_next_raiseAddress (execCboZero_breakpoint hl ht)
  · obtain ⟨kind, -, hexec⟩ := exec_hint_kind hi
    exact exists_next_raiseAddress ((hexec s).trans (execHint_breakpoint ht))

/-! ### Hints without permission (rules R227, R242) -/

theorem hintAccess_untranslated {s : State} {kind : HintKind} {level : Level} {ea : Word} {e : XlateError}
    (h : translate s .hint false (effMode s) ea = .error e) : hintAccess s kind level ea = retire s := by
  simp [hintAccess, h]

theorem hintAccess_denied {s : State} {kind : HintKind} {level : Level} {ea : Word} {tr : Xlate}
    (h : translate s .hint false (effMode s) ea = .ok tr) (hj : allJointRorX s (effMode s) tr.pa = false) :
    hintAccess s kind level ea = retire s := by
  simp [hintAccess, h, hj]

/-- Settles O32: each of the two failures makes the hint retire without its action. -/
theorem hintWithoutPermissionDoesNothing : Obligations.HintWithoutPermissionDoesNothing := by
  intro s rs1 level i hi ht hfail
  obtain ⟨kind, -, hexec⟩ := exec_hint_kind hi
  have hretire : hintAccess s kind level (effectiveAddress s rs1) = retire s := by
    rcases hfail with ⟨e, htr⟩ | ⟨tr, a, htr, ha, hr, hx⟩
    · exact hintAccess_untranslated htr
    · exact hintAccess_denied htr (allJointRorX_eq_false ha hr hx)
  rw [hexec, execHint_completes ht, hretire]
  rfl

/-! ### The registers that govern a mode (rules R37, R38, R215) -/

/-- The registers that govern a mode, the highest first, each with its `Wx`, none where its mechanism is disabled. -/
def governing (s : State) (tr : Xlate) (mode : Mode) : List (Word × Option Bool) :=
  let m := (s.csr.mcmocontrol, some (someJointW s mode tr.pa))
  match mode with
  | .m => []
  | .s => [m]
  | .u => [m, (s.csr.scmocontrol, tr.wS)]
  | .vs => [m, (s.csr.hcmocontrol, tr.wG)]
  | .vu => [m, (s.csr.hcmocontrol, tr.wG), (s.csr.vscmocontrol, tr.wVS)]

/-- A bit clear in a register that governs the mode disables what the bit enables. -/
theorem enabledIn_of_governing {s : State} {tr : Xlate} {mode : Mode} {g : Word × Option Bool} {bit : Word → Bool}
    (hg : g ∈ governing s tr mode) (h : bit g.1 = false) : enabledIn s.csr bit mode = false := by
  have hall : enabledIn s.csr bit mode = (governing s tr mode).all (bit ·.1) := by
    cases mode <;> simp [enabledIn, governing, Bool.and_assoc]
  rw [hall, List.all_eq_false]
  exact ⟨g, hg, by simp [h]⟩

/-- A register that governs the effective mode and does not keep an invalidate makes it a flush (rule R155). -/
theorem managementOp_of_governing {s : State} {tr : Xlate} {eff : Mode} {g : Word × Option Bool}
    (hg : g ∈ governing s tr eff) (h : invalKeeps g.1 g.2 = false) : managementOp s .inval eff tr = .flush := by
  have hall : invalIsInvalidate s.csr (machineW s eff tr.pa) tr.wS tr.wG tr.wVS eff =
      (governing s tr eff).all fun g => invalKeeps g.1 g.2 := by
    cases eff <;> simp [invalIsInvalidate, governing, machineW, Bool.and_assoc, Bool.and_comm]
  refine managementOp_inval_of_not_keeps ?_
  rw [hall, List.all_eq_false]
  exact ⟨g, hg, by simp [h]⟩

/-- A check that stands before a success was met. -/
theorem eq_true_of_ok {tr : Xlate} {e : XlateError} {b : Bool}
    (h : (.ok tr : Except XlateError Xlate) = if b then .ok tr else .error e) : b = true := by
  cases b
  · cases h
  · rfl

/-- Every register that governs the effective mode lets a `CBO.INVAL` pass that meets its checks (rules R243, R244). -/
theorem invalPass_of_governing {s : State} {tr : Xlate} {kind : AccessKind} {eff : Mode} {ea : Word}
    {g : Word × Option Bool} (htr : translate s kind true eff ea = .ok tr) (hd : invalDenied s .inval eff tr.pa = false)
    (hg : g ∈ governing s tr eff) : invalPass g.1 g.2 = true := by
  have hm : eff ≠ .m → invalPass s.csr.mcmocontrol (some (someJointW s eff tr.pa)) = true :=
    (invalDenied_inval_iff.mp hd).resolve_left
  have hstages := translate_inval (translate_of_inval htr)
  cases eff with
  | m => cases hg
  | s => simpa [List.mem_singleton.mp hg] using hm
  | u =>
    have hs := eq_true_of_ok (htr.symm.trans hstages)
    rcases List.mem_pair.mp hg with rfl | rfl
    · exact hm (by decide)
    · exact hs
  | vs =>
    obtain ⟨gpa, hstages⟩ := hstages
    have hh := eq_true_of_ok (htr.symm.trans hstages)
    rcases List.mem_pair.mp hg with rfl | rfl
    · exact hm (by decide)
    · exact hh
  | vu =>
    obtain ⟨gpa, hstages⟩ := hstages
    cases hvs : invalPass s.csr.vscmocontrol tr.wVS with
    | false => simp [htr, hvs] at hstages
    | true =>
      simp only [hvs, Bool.not_true, Bool.false_eq_true, if_false] at hstages
      have hh := eq_true_of_ok (htr.symm.trans hstages)
      simp only [governing, List.mem_cons, List.not_mem_nil, or_false] at hg
      rcases hg with rfl | rfl | rfl
      · exact hm (by decide)
      · exact hh
      · exact hvs

/-! ### `CBO.INVAL` and the registers that govern the effective mode (rules R215, R243, R244, R265) -/

theorem invalPass_of_clear {g : Word × Option Bool}
    (h : (g.2 = some true ∧ g.1.getLsbD 11 = false) ∨ (g.2 = some false ∧ g.1.getLsbD 9 = false)) :
    invalPass g.1 g.2 = false := by
  rcases h with ⟨hw, hbit⟩ | ⟨hw, hbit⟩ <;> rw [hw] <;> exact hbit

theorem invalKeeps_of_clear {g : Word × Option Bool}
    (h : (g.2 = some true ∧ g.1.getLsbD 10 = false) ∨ (g.2 = some false ∧ g.1.getLsbD 8 = false) ∨
      (g.2 = none ∧ (g.1.getLsbD 8 = false ∨ g.1.getLsbD 10 = false))) : invalKeeps g.1 g.2 = false := by
  rcases h with ⟨hw, hbit⟩ | ⟨hw, hbit⟩ | ⟨hw, hbits⟩ <;> rw [hw]
  · exact hbit
  · exact hbit
  · exact Bool.and_eq_false_iff.mpr hbits

/-- A `CBO.INVAL` that a register governing the effective mode does not let pass takes an exception. -/
theorem execManagement_inval_takes {rs1 : RegIdx} {poc : Poc} {s t : State} {tr : Xlate} {g : Word × Option Bool}
    (htr : translate s .management false (effMode s) (effectiveAddress s rs1) = .ok tr)
    (hg : g ∈ governing s tr (effMode s)) (hpass : invalPass g.1 g.2 = false)
    (h : execManagement .inval rs1 poc s = .next t) : ∃ e, Takes s e (.next t) := by
  rcases execManagement_next h with ⟨-, htk⟩ | ⟨-, e, -, htk⟩ | ⟨tr', htr', -, -, -, hd, -⟩
  · exact ⟨_, htk⟩
  · exact ⟨e, htk⟩
  · obtain rfl : tr = tr' := Except.ok.inj (htr.symm.trans (translate_of_inval htr'))
    simp [invalPass_of_governing htr' hd hg] at hpass

/-- Settles O19: what a mode is allowed is a conjunction over the registers that govern it. -/
theorem higherRegistersOnlyRestrict : Obligations.HigherRegistersOnlyRestrict := by
  intro s rs1 poc tr regs
  have hregs : regs = governing s tr := rfl
  clear_value regs
  subst hregs
  refine ⟨fun mode g hg => ⟨fun hbit => ?_, fun hbit => ?_⟩, fun htr g hg => ⟨fun hclear t ht => ?_, fun hclear => ?_⟩⟩
  · simp [illegalCbme, enabledIn_of_governing (bit := cbme) hg hbit]
  · simp [illegalCbwe, enabledIn_of_governing (bit := cbwe) hg hbit]
  · exact execManagement_inval_takes htr hg (invalPass_of_clear hclear) ht
  · exact managementOp_of_governing hg (invalKeeps_of_clear hclear)

/-- The last check of a `CBO.INVAL`, that of `mcmocontrol`: it takes an access fault or completes (rules R240, R244). -/
theorem execManagement_inval_of_translated {rs1 : RegIdx} {poc : Poc} {s : State} {tr : Xlate}
    (hl : illegalCbme s.csr s.mode = false)
    (ht : triggerHit s TriggerClass.management (effectiveAddress s rs1) = none)
    (hp : pmaConstraint s.cfg tr.pa = true) (hj : allJointRorX s (effMode s) tr.pa = true)
    (htr : translate s .management true (effMode s) (effectiveAddress s rs1) = .ok tr) :
    (invalDenied s .inval (effMode s) tr.pa = true → Takes s .storeAccess (execManagement .inval rs1 poc s)) ∧
    (invalDenied s .inval (effMode s) tr.pa = false →
      ∃ t, execManagement .inval rs1 poc s = .next t ∧ t.pc = nextPc s ∧ SameHart s t) := by
  refine ⟨fun hd => ⟨_, _, _, execManagement_denied (kind := .inval) hl ht htr hp (.inr hd)⟩,
    fun hd => ⟨_, execManagement_completes (kind := .inval) hl ht htr hp hj hd, ?_, ?_⟩⟩
  · simp [nextPc, pcAfter]
  · exact retire_sameHart ((writePtes_sameHart ..).trans (performManagement_sameHart ..))

/-- Settles O26: the stages of the translation deny first, in their order, and `mcmocontrol` after them. -/
theorem invalDeniedByInvwe : Obligations.InvalDeniedByInvwe := by
  intro s rs1 poc tr hl ht htr hp hj pass m sc h vs r completes
  have hpass : pass = invalPass := by
    funext r w
    rcases w with _ | _ | _ <;> rfl
  have hmachine : invalDenied s .inval (effMode s) tr.pa = (effMode s != .m && !m) := by
    simp [invalDenied, m, hpass, machineW]
  have hlast := execManagement_inval_of_translated (poc := poc) hl ht hp hj
  have hpage : translate s .management true (effMode s) (effectiveAddress s rs1) = .error .page →
      Takes s .storePage r := fun htr' =>
    ⟨_, _, _, execManagement_untranslated (kind := .inval) hl ht htr'⟩
  have hguest : ∀ gpa, translate s .management true (effMode s) (effectiveAddress s rs1) = .error (.guest gpa) →
      Takes s .storeGuestPage r := fun gpa htr' =>
    ⟨_, _, _, execManagement_untranslated (kind := .inval) hl ht htr'⟩
  have hsc : sc = invalPass s.csr.scmocontrol tr.wS := by rw [← hpass]
  have hh : h = invalPass s.csr.hcmocontrol tr.wG := by rw [← hpass]
  have hvs : vs = invalPass s.csr.vscmocontrol tr.wVS := by rw [← hpass]
  have hstages := translate_inval htr
  rw [hmachine] at hlast
  clear_value m sc h vs
  rw [← hsc, ← hh, ← hvs] at hstages
  generalize effMode s = eff at *
  have hfault : translate s .management true eff (effectiveAddress s rs1) = .ok tr → eff ≠ .m → m = false →
      Takes s .storeAccess r := fun htr' heff hm => (hlast htr').1 (by simp [heff, hm])
  have hdone : translate s .management true eff (effectiveAddress s rs1) = .ok tr → m = true → completes :=
    fun htr' hm => (hlast htr').2 (by simp [hm])
  cases eff with
  | m => exact (hlast hstages).2 rfl
  | s => exact ⟨hfault hstages (by decide), hdone hstages⟩
  | u =>
    refine ⟨fun hs => hpage (by simpa [hs] using hstages), fun hs => ?_, fun hs => ?_⟩
    · exact hfault (by simpa [hs] using hstages) (by decide)
    · exact hdone (by simpa [hs] using hstages)
  | vs =>
    obtain ⟨gpa, hstages⟩ := hstages
    refine ⟨fun hg => hguest gpa (by simpa [hg] using hstages), fun hg => ?_, fun hg => ?_⟩
    · exact hfault (by simpa [hg] using hstages) (by decide)
    · exact hdone (by simpa [hg] using hstages)
  | vu =>
    obtain ⟨gpa, hstages⟩ := hstages
    refine ⟨fun hv => hpage (by simpa [hv] using hstages), fun hv hg => hguest gpa (by simpa [hv, hg] using hstages),
      fun hv hg => ?_, fun hv hg => ?_⟩
    · exact hfault (by simpa [hv, hg] using hstages) (by decide)
    · exact hdone (by simpa [hv, hg] using hstages)

/-! ### What a leaf PTE must grant (rules R222, R223, R225, R227, R229, R231) -/

section
variable {cfg : Config} {kind : AccessKind} {user sum mxr : Bool} {pte : Nat}

/-- The leaf has what the access of a CMO instruction asks of its `R`, `W` and `X` bits. -/
theorem leafPermits_of_grants (hk : kind ∈ [AccessKind.management, .zero, .hint])
    (hrx : kind = .management ∨ kind = .hint → pteBit pte 1 = true ∨ pteBit pte 3 = true)
    (hw : kind = .zero → pteBit pte 2 = true) : leafPermits kind mxr pte = true := by
  have hk : kind = .management ∨ kind = .zero ∨ kind = .hint := by simpa using hk
  rcases hk with rfl | rfl | rfl
  · simpa [leafPermits] using hrx (.inl rfl)
  · exact hw rfl
  · simpa [leafPermits] using hrx (.inr rfl)

/-- The U-rule is met. -/
theorem userRule_of_userGrants (hk : kind ≠ .fetch) (hu : user = true → pteBit pte 4 = true)
    (hs : user = false → pteBit pte 4 = true → sum = true) : userRule kind user sum pte = true := by
  cases user with
  | true => exact hu rfl
  | false => cases hpte : pteBit pte 4 <;> simp_all [userRule]

/-- The `A` and `D` bits of the leaf are ignored, updated, or as `CMO_AD` requires. -/
theorem adPermits_of_ready (hk : kind ∈ [AccessKind.management, .zero, .hint])
    (h : cfg.cmoAd = .required → pteBit pte 6 = true ∧
      (kind = .zero ∨ (kind = .management ∧ cfg.managementDirties = true) → pteBit pte 7 = true)) :
    adPermits cfg kind pte = true := by
  have hk : kind = .management ∨ kind = .zero ∨ kind = .hint := by simpa using hk
  have hcmo : isCmoAccess kind = true := by rcases hk with rfl | rfl | rfl <;> rfl
  have hdirty : needsDirty cfg kind = true → kind = .zero ∨ (kind = .management ∧ cfg.managementDirties = true) := by
    rcases hk with rfl | rfl | rfl <;> simp [needsDirty]
  cases had : cfg.cmoAd with
  | ignored => simp [adPermits, hcmo, had]
  | updated => simp [adPermits, hcmo, had]
  | required =>
    obtain ⟨ha, hd⟩ := h had
    have : needsDirty cfg kind = true → pteBit pte 7 = true := fun hn => hd (hdirty hn)
    cases hn : needsDirty cfg kind <;> simp_all [adPermits, adReady]

end

/-! ### The stages of a translation without the checks of `CBO.INVAL` (rules R222, R226) -/

theorem except_map_ok {ε α β : Type} {f : α → β} {r : Except ε α} {b : β} (h : r.map f = .ok b) :
    ∃ a, r = .ok a ∧ f a = b := by
  cases r with
  | error e => cases h
  | ok a => exact ⟨a, rfl, Except.ok.inj h⟩

theorem except_bind_ok {ε α β : Type} {f : α → Except ε β} {r : Except ε α} {b : β} (h : r.bind f = .ok b) :
    ∃ a, r = .ok a ∧ f a = .ok b := by
  cases r with
  | error e => cases h
  | ok a => exact ⟨a, rfl, h⟩

/-- A leaf that does not permit the access is a page fault (rules R223, R225). -/
theorem firstStage_denied {s : State} {atp : Word} {fetchPte : PageFormat → Nat → Except XlateError (Nat × Nat)}
    {kind : AccessKind} {user sum mxr : Bool} {ea : Word} {leaf : Leaf} (hb : atpBare s.cfg.xlen atp = false)
    (hmeets : WalkMeets s atp false fetchPte ea.toNat leaf)
    (hperm : firstPermits s.cfg kind user sum mxr leaf.pte = false) :
    firstStage s atp fetchPte kind user sum mxr ea = .error .page := by
  simpa [hperm] using firstStage_meets (kind := kind) (user := user) (sum := sum) (mxr := mxr) hb hmeets

/-- On the G-stage it is a guest-page fault with the guest physical address (rule R226). -/
theorem guestStage_denied {s : State} {kind : AccessKind} {mxr : Bool} {gpa : Nat} {leaf : Leaf}
    (hb : atpBare s.cfg.xlen s.csr.hgatp = false) (hmeets : WalkMeets s s.csr.hgatp true (readPte s) gpa leaf)
    (hperm : guestPermits s.cfg kind mxr leaf.pte = false) : guestStage s kind mxr gpa = .error (.guest gpa) := by
  simpa [hperm] using guestStage_meets (kind := kind) (mxr := mxr) hb hmeets

/-- What the `satp` stage makes of the leaf it finds. -/
def Xlate.ofHost (m : Mapped) : Xlate :=
  { pa := m.address, wVS := none, wS := m.w, wG := none, memType := m.memType, pteWrites := m.writes }

/-- What the two stages of a guest make of the leaves they find. -/
def Xlate.ofGuest (m g : Mapped) : Xlate :=
  { pa := g.address, wVS := m.w, wS := none, wG := g.w, memType := if m.memType = 0 then g.memType else m.memType,
    pteWrites := m.writes ++ g.writes }

section
variable {s : State} {kind : AccessKind} {eff : Mode} {user : Bool} {ea : Word}

/-- S- and U-mode translate by the `satp` stage alone. -/
theorem translate_host (h : (eff = .s ∧ user = false) ∨ (eff = .u ∧ user = true)) :
    translate s kind false eff ea =
      (firstStage s s.csr.satp (readPte s) kind user (s.csr.mstatus.getLsbD sumBit) (s.csr.mstatus.getLsbD mxrBit)
        ea).map Xlate.ofHost := by
  rcases h with ⟨rfl, rfl⟩ | ⟨rfl, rfl⟩ <;> simp only [translate, hostTranslate] <;>
    cases firstStage s s.csr.satp (readPte s) kind _ _ _ ea <;> rfl

/-- VS- and VU-mode translate by the `vsatp` stage and then the G-stage. -/
theorem translate_guest (h : (eff = .vs ∧ user = false) ∨ (eff = .vu ∧ user = true)) :
    translate s kind false eff ea =
      (firstStage s s.csr.vsatp (readGuestPte s) kind user (s.csr.vsstatus.getLsbD sumBit)
        (s.csr.vsstatus.getLsbD mxrBit || s.csr.mstatus.getLsbD mxrBit) ea).bind fun m =>
          (guestStage s kind (s.csr.mstatus.getLsbD mxrBit) m.address).map (Xlate.ofGuest m) := by
  rcases h with ⟨rfl, rfl⟩ | ⟨rfl, rfl⟩ <;> simp only [translate, guestTranslate] <;>
    cases firstStage s s.csr.vsatp (readGuestPte s) kind _ _ _ ea with
    | error e => rfl
    | ok m =>
      simp only [Except.bind]
      cases guestStage s kind _ m.address <;> rfl

theorem host_ok_iff {r : Except XlateError Mapped} {pa : Nat} {w : Option Bool} :
    (∃ tr, r.map Xlate.ofHost = .ok tr ∧ tr.pa = pa ∧ tr.wS = w ∧ tr.wVS = none ∧ tr.wG = none) ↔
      ∃ m, r = .ok m ∧ m.address = pa ∧ m.w = w := by
  cases r <;> simp [Except.map, Xlate.ofHost]

theorem guest_ok_iff {r : Except XlateError Mapped} {f : Nat → Except XlateError Mapped} {pa : Nat}
    {wVS wG : Option Bool} :
    (∃ tr, (r.bind fun m => (f m.address).map (Xlate.ofGuest m)) = .ok tr ∧ tr.pa = pa ∧ tr.wVS = wVS ∧ tr.wG = wG ∧
        tr.wS = none) ↔
      ∃ gpa, (∃ m, r = .ok m ∧ m.address = gpa ∧ m.w = wVS) ∧ ∃ g, f gpa = .ok g ∧ g.address = pa ∧ g.w = wG := by
  cases r with
  | error e => simp [Except.bind]
  | ok m =>
    constructor
    · rintro ⟨tr, htr, rfl, rfl, rfl, -⟩
      obtain ⟨g, hg, rfl⟩ := except_map_ok htr
      exact ⟨m.address, ⟨m, rfl, rfl, rfl⟩, g, hg, rfl, rfl⟩
    · rintro ⟨gpa, ⟨m', hm, rfl, rfl⟩, g, hg, rfl, rfl⟩
      cases hm
      exact ⟨Xlate.ofGuest m g, by simp [Except.bind, Except.map, hg], rfl, rfl, rfl, rfl⟩

end

/-- Settles O21: a translation is its stages, each of which is by the leaf its walk meets. -/
theorem leafGrantsTheAccess : Obligations.LeafGrantsTheAccess := by
  intro s kind ea sum mxr grants userGrants ready
  refine ⟨fun user sum mxr pte => ⟨fun h => ?_, fun h => ?_, fun hk hgrants hready => ⟨fun huser => ?_, fun hu => ?_⟩⟩,
    fun _ _ _ _ _ => WalkMeets.leaf, rfl, fun eff user heff => ?_, fun eff user heff => ?_,
    fun _ _ => translate_of_inval⟩
  · obtain ⟨hrx, hw, hu, hs⟩ := firstPermits_grants h
    exact ⟨⟨hrx, hw⟩, hu, hs⟩
  · obtain ⟨hrx, hw, hu, -⟩ := guestPermits_grants h
    exact ⟨⟨hrx, hw⟩, hu rfl⟩
  · have hfetch : kind ≠ .fetch := by
      rintro rfl
      simp at hk
    simp [firstPermits, userRule_of_userGrants hfetch huser.1 huser.2, leafPermits_of_grants hk hgrants.1 hgrants.2,
      adPermits_of_ready hk hready]
  · simp [guestPermits, hu, leafPermits_of_grants hk hgrants.1 hgrants.2, adPermits_of_ready hk hready]
  · rw [translate_host heff]
    refine ⟨fun pa w => host_ok_iff.trans firstStage_iff, fun tr htr => ?_, fun leaf hb hmeets hperm => ?_⟩
    · obtain ⟨m, -, rfl⟩ := except_map_ok htr
      exact ⟨rfl, rfl⟩
    · exact congrArg (Except.map Xlate.ofHost) (firstStage_denied hb hmeets hperm)
  · intro vsSum vsMxr
    rw [translate_guest heff]
    refine ⟨fun pa wVS wG => guest_ok_iff.trans ?_, fun tr htr => ?_, fun leaf hb hmeets hperm => ?_,
      fun gpa wVS leaf hmaps hb hmeets hperm => ?_⟩
    · exact exists_congr fun gpa => and_congr firstStage_iff guestStage_iff
    · obtain ⟨m, -, htr⟩ := except_bind_ok htr
      obtain ⟨g, -, rfl⟩ := except_map_ok htr
      rfl
    · exact congrArg (Except.bind · _) (firstStage_denied hb hmeets hperm)
    · obtain ⟨m, hm, rfl, -⟩ := firstStage_iff.mpr hmaps
      exact (congrArg (Except.bind · _) hm).trans
        (congrArg (Except.map (Xlate.ofGuest m)) (guestStage_denied hb hmeets hperm))

end Sys2Proof.Machine
end

section
/-!
PROOFS. The traps and triggers of spec/60_exceptions.md: taking an exception and returning from it, what a trap records,
and which triggers fire on a CMO instruction (rules R247 to R256).
-/

namespace Sys2Proof.Machine

/-! ### Taking an exception (rules R211, R253, R256) -/

section
variable {s : State} {t : Trap}

theorem takeTrap_of_m (h : trapTarget s t.cause = .m) :
    takeTrap s t = { s with
      csr := s.csr.trapToM s.cfg.hasH s.pc s.mode t, mode := .m, pc := truncX s.cfg (vectorBase s.csr.mtvec),
      tick := s.tick + 1 } := by
  simp [takeTrap, h]

theorem takeTrap_of_s (h : trapTarget s t.cause = .s) :
    takeTrap s t = { s with
      csr := s.csr.trapToS s.cfg.hasH s.pc s.mode t, mode := .s, pc := truncX s.cfg (vectorBase s.csr.stvec),
      tick := s.tick + 1 } := by
  simp [takeTrap, h]

theorem takeTrap_of_vs (h : trapTarget s t.cause = .vs) :
    takeTrap s t = { s with
      csr := s.csr.trapToVS s.pc s.mode t, mode := .vs, pc := truncX s.cfg (vectorBase s.csr.vstvec),
      tick := s.tick + 1 } := by
  simp [takeTrap, h]

end

section
variable (c : Csrs) (hasH : Bool) (pc : Word) (mode : Mode) (t : Trap)

@[simp] theorem mpp_trapToM : mpp (c.trapToM hasH pc mode t).mstatus = mode.level := by
  cases hasH <;> simp [Csrs.trapToM, mpp_setBit, mpp_setMpp, mpieBit, mieBit, mpvBit, gvaBit]

theorem mpie_trapToM : (c.trapToM hasH pc mode t).mstatus.getLsbD mpieBit = c.mstatus.getLsbD mieBit := by
  cases hasH <;> simp [Csrs.trapToM, getElem_setBit, mpieBit, mieBit, mpvBit, gvaBit]

theorem mie_trapToM : (c.trapToM hasH pc mode t).mstatus.getLsbD mieBit = false := by
  cases hasH <;> simp [Csrs.trapToM, getElem_setBit, mieBit, mpvBit, gvaBit]

theorem mpv_trapToM : (c.trapToM true pc mode t).mstatus.getLsbD mpvBit = mode.isVirtual := by
  simp [Csrs.trapToM, getElem_setBit, mpvBit, gvaBit]

end

/-- Settles O49: by the handler, whose registers are written one after the other. -/
theorem trapEntryWritesTheTrapRegisters : Obligations.TrapEntryWritesTheTrapRegisters := by
  refine fun s t => ⟨fun h => ?_, fun h => ?_, fun h => ?_⟩
  · rw [takeTrap_of_m h]
    refine ⟨rfl, rfl, rfl, rfl, rfl, mpp_trapToM .., mpie_trapToM .., mie_trapToM .., fun hasH => ?_⟩
    rw [hasH]
    exact mpv_trapToM ..
  · rw [takeTrap_of_s h]
    refine ⟨rfl, rfl, rfl, rfl, rfl, ?_, ?_, ?_, fun hasH => ?_⟩
    · simp [Csrs.trapToS, getElem_setBit, spieBit, sppBit, sieBit]
    · simp [Csrs.trapToS, getElem_setBit, spieBit, sppBit, sieBit]
    · simp [Csrs.trapToS, getElem_setBit, spieBit, sppBit, sieBit]
    · cases hv : s.mode.isVirtual <;> simp [Csrs.trapToS, hasH, hv, getElem_setBit, spvBit, hgvaBit, spvpBit]
  · rw [takeTrap_of_vs h]
    refine ⟨rfl, rfl, rfl, rfl, rfl, ?_, ?_, ?_⟩
    all_goals simp [Csrs.trapToVS, getElem_setBit, spieBit, sppBit, sieBit]

/-- Settles O50: the guest-page fault is the one cause of CMO instructions that `hedeleg` never passes on. -/
theorem delegationByCause : Obligations.DelegationByCause := by
  intro s e he
  have hguest : guestDelegable e = decide (e ≠ .storeGuestPage) := by
    simp only [List.mem_cons, List.not_mem_nil, or_false] at he
    rcases he with rfl | rfl | rfl | rfl | rfl <;> rfl
  by_cases hm : s.mode = .m
  · simp [trapTarget, hm]
  · cases hd : s.csr.medeleg.getLsbD e.code <;> simp [trapTarget, hm, hd, hguest, and_assoc]

/-- Settles O51: each handler has registers of its own, which are all a trap writes. -/
theorem exceptionsArePrecise : Obligations.ExceptionsArePrecise := by
  rintro s t e ⟨tval, gpa, gva, h⟩
  obtain rfl := Host.Outcome.next.inj h
  refine ⟨takeTrap_ms .., takeTrap_x .., takeTrap_pmp .., takeTrap_triggers .., takeTrap_reservation ..,
    takeTrap_unspecified .., takeTrap_latest .., takeTrap_cfg .., takeTrap_moves .., ?_⟩
  cases hh : trapTarget s e with
  | m => simp [takeTrap_of_m (t := ⟨e, tval, gpa, gva⟩) hh, Csrs.trapToM]
  | s => simp [takeTrap_of_s (t := ⟨e, tval, gpa, gva⟩) hh, Csrs.trapToS]
  | vs => simp [takeTrap_of_vs (t := ⟨e, tval, gpa, gva⟩) hh, Csrs.trapToVS]

/-! ### Returning from a trap to M-mode (rules R253, R254) -/

@[simp] theorem returnFromM_mode (s : State) : (returnFromM s).mode = mretMode s := rfl

@[simp] theorem returnFromM_pc (s : State) : (returnFromM s).pc = truncX s.cfg (alignPc s.cfg s.csr.mepc) := rfl

theorem mie_returnFromM (s : State) :
    (returnFromM s).csr.mstatus.getLsbD mieBit = s.csr.mstatus.getLsbD mpieBit := by
  cases hh : s.cfg.hasH <;> by_cases hm : mretMode s = .m <;>
    simp [returnFromM, hh, hm, getElem_setBit, mieBit, mpieBit, mpvBit, mprvBit]

theorem mprv_returnFromM {s : State} (h : mretMode s ≠ .m) : (returnFromM s).csr.mstatus.getLsbD mprvBit = false := by
  simp [returnFromM, h, getElem_setBit, mprvBit]

/-- The fields `MPP` and `MPV` give back the mode they were written for. -/
theorem modeOf_level_isVirtual (mode : Mode) : modeOf mode.level mode.isVirtual = mode := by cases mode <;> rfl

theorem mretMode_takeTrap {s : State} {t : Trap} (hs : s.modeLegal = true) (h : trapTarget s t.cause = .m) :
    mretMode (takeTrap s t) = s.mode := by
  have hv : (s.cfg.hasH && (s.csr.trapToM s.cfg.hasH s.pc s.mode t).mstatus.getLsbD mpvBit) = s.mode.isVirtual := by
    cases hasH : s.cfg.hasH with
    | true => rw [mpv_trapToM, Bool.true_and]
    | false =>
      have hv : s.mode.isVirtual = false := by simpa [State.modeLegal, hasH] using hs
      rw [Bool.false_and, hv]
  rw [takeTrap_of_m h, mretMode, mpp_trapToM, hv, modeOf_level_isVirtual]

/-- To clear low bits that are zero leaves a word as it is. -/
theorem and_not_lowBits {v : Word} {k : Nat} (h : v.toNat % 2 ^ k = 0) :
    v &&& ~~~(BitVec.ofNat 64 (2 ^ k - 1)) = v := by
  refine BitVec.eq_of_getLsbD_eq fun j hj => ?_
  have hlow : j < k → v.getLsbD j = false := fun hlt => by
    simpa [Nat.testBit_mod_two_pow, hlt, BitVec.testBit_toNat] using congrArg (·.testBit j) h
  rw [BitVec.getLsbD_and, BitVec.getLsbD_not, BitVec.getLsbD_ofNat, Nat.testBit_two_pow_sub_one]
  by_cases hlt : j < k
  · simp [hlow hlt]
  · simp [hj, hlt]

/-- An address that is a multiple of the alignment is saved as it is (rule R128). -/
theorem alignPc_of_aligned {cfg : Config} {v : Word} (h : instrAligned cfg v = true) : alignPc cfg v = v := by
  simp only [instrAligned, beq_iff_eq] at h
  by_cases hlen : cfg.enc.ilen % 4 = 0
  · simp only [instrAlign, hlen, if_true] at h
    simpa [alignPc, instrAlign, hlen] using and_not_lowBits (k := 2) h
  · simp only [instrAlign, hlen, if_false] at h
    simpa [alignPc, instrAlign, hlen] using and_not_lowBits (k := 1) h

/-- Settles O53: `MPP` and `MPV`, `mepc` and `MPIE` hold what `MRET` gives back. -/
theorem returnAfterTrap : Obligations.ReturnAfterTrap := by
  intro s t hs haligned htrunc h r
  have hmode : r.mode = s.mode := mretMode_takeTrap hs h
  have hmstatus : (takeTrap s t).csr = s.csr.trapToM s.cfg.hasH s.pc s.mode t := by rw [takeTrap_of_m h]
  refine ⟨hmode, ?_, ?_, fun hm => mprv_returnFromM (fun hm' => hm (hmode.symm.trans hm')), ?_, ?_⟩
  · have hmepc : (takeTrap s t).csr.mepc = s.pc := by rw [hmstatus]; rfl
    rw [returnFromM_pc, takeTrap_cfg, hmepc, alignPc_of_aligned haligned, htrunc]
  · exact (mie_returnFromM _).trans (by rw [hmstatus, mpie_trapToM]; rfl)
  · exact (returnFromM_ms _).trans (takeTrap_ms ..)
  · exact (returnFromM_x _).trans (takeTrap_x ..)

/-! ### What a trap records (rule R252, D15) -/

/-- A block lies in the address space whole. -/
theorem blockBase_add_blockSize_le {cfg : Config} (hb : cfg.logB ≤ 12) {a : Nat} (ha : a < 2 ^ 64) :
    blockBase cfg a + blockSize cfg ≤ 2 ^ 64 := by
  obtain ⟨q, hq⟩ := Nat.dvd_of_mod_eq_zero (blockBase_mod cfg a)
  obtain ⟨r, hr⟩ : blockSize cfg ∣ 2 ^ 64 := Nat.pow_dvd_pow 2 (by omega)
  have hlt : blockSize cfg * q < blockSize cfg * r := hq ▸ hr ▸ (blockBase_le cfg a).trans_lt ha
  calc blockBase cfg a + blockSize cfg = blockSize cfg * (q + 1) := by rw [hq, Nat.mul_succ]
    _ ≤ blockSize cfg * r := Nat.mul_le_mul_left _ (Nat.lt_of_mul_lt_mul_left hlt)
    _ = 2 ^ 64 := hr.symm

/-- The word of an address of the block of `ea` lies in that block. -/
theorem blockBase_ofNat_add {cfg : Config} (hb : cfg.logB ≤ 12) (ea : Word) {i : Nat} (hi : i < blockSize cfg) :
    blockBase cfg (BitVec.ofNat 64 (blockBase cfg ea.toNat + i)).toNat = blockBase cfg ea.toNat := by
  have hle := blockBase_add_blockSize_le hb ea.isLt
  rw [BitVec.toNat_ofNat, Nat.mod_eq_of_lt (by omega), blockBase_add cfg (blockBase_mod cfg ea.toNat) hi]

/-- The effective address, an address of its block, or zero. -/
theorem addressTval_cases {s : State} (hb : s.cfg.logB ≤ 12) (ea : Word) :
    addressTval s ea = ea ∨ addressTval s ea = 0#64 ∨
      blockBase s.cfg (addressTval s ea).toNat = blockBase s.cfg ea.toNat := by
  have hin := blockBase_ofNat_add hb ea
    (Nat.mod_lt (Config.freeNat s.tick .tvalOffset) (blockSize_pos s.cfg))
  cases hr : s.cfg.tval with
  | info => simp [addressTval, hr]
  | inBlock => exact .inr (.inr (by simpa [addressTval, hr] using hin))
  | zero => simp [addressTval, hr]
  | drawn =>
    cases hrule : Config.freeBool s.tick .tvalRule with
    | true => simp [addressTval, hr, hrule]
    | false =>
      cases hoffset : Config.freeBool s.tick .tvalOffset with
      | true => exact .inr (.inr (by simpa [addressTval, hr, hrule, hoffset] using hin))
      | false => simp [addressTval, hr, hrule, hoffset]

theorem illegalTval_cases (s : State) : illegalTval s = wordTval s ∨ illegalTval s = 0#64 := by
  unfold illegalTval
  split
  · exact .inl rfl
  · exact .inl rfl
  · exact .inr rfl
  · split
    · exact .inl rfl
    · exact .inr rfl

/-- The exceptions a CMO instruction raises: on its word, or on its effective address. -/
def Raises (s : State) (ea : Word) (t : State) : Prop :=
  t = raiseIllegal s ∨ ∃ e gpa, e ≠ .illegalInstruction ∧ t = raiseAddress s e (effMode s) ea gpa

theorem raiseXlate_raises (s : State) (ea : Word) (e : XlateError) : Raises s ea (raiseXlate s (effMode s) ea e) := by
  cases e with
  | page => exact .inr ⟨.storePage, 0, by decide, rfl⟩
  | guest gpa => exact .inr ⟨.storeGuestPage, gpa, by decide, rfl⟩
  | access => exact .inr ⟨.storeAccess, 0, by decide, rfl⟩

theorem execManagement_raises {kind : ManagementKind} {rs1 : RegIdx} {poc : Poc} {s t : State}
    (h : execManagement kind rs1 poc s = .next t) :
    (∃ s', SameHart s s' ∧ t = retire s') ∨ Raises s (effectiveAddress s rs1) t := by
  unfold execManagement managementChecks managementAccess at h
  split at h
  · exact .inr (.inl (Host.Outcome.next.inj h).symm)
  · split at h
    · cases h
    · exact .inr (.inr ⟨.breakpoint, 0, by decide, (Host.Outcome.next.inj h).symm⟩)
    · split at h
      · exact .inr (Host.Outcome.next.inj h ▸ raiseXlate_raises ..)
      · split at h
        · cases h
        · split at h
          · exact .inr (.inr ⟨.storeAccess, 0, by decide, (Host.Outcome.next.inj h).symm⟩)
          · exact .inl ⟨_, (writePtes_sameHart ..).trans (performManagement_sameHart ..),
              (Host.Outcome.next.inj h).symm⟩

theorem execCboZero_raises {rs1 : RegIdx} {level : Level} {s t : State} (h : execCboZero rs1 level s = .next t) :
    (∃ s', SameHart s s' ∧ t = retire s') ∨ Raises s (effectiveAddress s rs1) t := by
  unfold execCboZero zeroChecks zeroAccess at h
  split at h
  · exact .inr (.inl (Host.Outcome.next.inj h).symm)
  · split at h
    · cases h
    · exact .inr (.inr ⟨.breakpoint, 0, by decide, (Host.Outcome.next.inj h).symm⟩)
    · split at h
      · exact .inr (Host.Outcome.next.inj h ▸ raiseXlate_raises ..)
      · split at h
        · cases h
        · split at h
          · exact .inr (.inr ⟨.storeAccess, 0, by decide, (Host.Outcome.next.inj h).symm⟩)
          · split at h
            · cases h
            · exact .inl ⟨_, (writePtes_sameHart ..).trans (zeroBlock_sameHart ..), (Host.Outcome.next.inj h).symm⟩

theorem execHint_raises {kind : HintKind} {rs1 : RegIdx} {level : Level} {s t : State}
    (h : execHint kind rs1 level s = .next t) :
    (∃ s', SameHart s s' ∧ t = retire s') ∨ Raises s (effectiveAddress s rs1) t := by
  unfold execHint at h
  split at h
  · cases h
  · exact .inr (.inr ⟨.breakpoint, 0, by decide, (Host.Outcome.next.inj h).symm⟩)
  · exact .inl (Host.Outcome.next.inj h ▸ hintAccess_retires ..)

theorem exec_raises {i : Instr} {op : CmoOp} {rs1 : RegIdx} {sel : Nat} {s t : State}
    (hi : i.parts = some (op, rs1, sel)) (h : exec i s = .next t) :
    (∃ s', SameHart s s' ∧ t = retire s') ∨ Raises s (effectiveAddress s rs1) t := by
  cases i with
  | cboInval r poc => cases hi; exact execManagement_raises h
  | cboClean r poc => cases hi; exact execManagement_raises h
  | cboFlush r poc => cases hi; exact execManagement_raises h
  | cboZero r level => cases hi; exact execCboZero_raises h
  | prefetchR r level => cases hi; exact execHint_raises h
  | prefetchW r level => cases hi; exact execHint_raises h
  | prefetchI r level => cases hi; exact execHint_raises h
  | demote r level => cases hi; exact execHint_raises h
  | cboSize => cases h

theorem Config.wf_logB {cfg : Config} (h : cfg.wf = true) : cfg.logB ≤ 12 := by
  simp only [Config.wf, Bool.and_eq_true, decide_eq_true_eq] at h
  tauto

/-- Settles O52: an exception records the word or the effective address, by `TVAL_RULE`. -/
theorem trapValueIsInTheBlock : Obligations.TrapValueIsInTheBlock := by
  intro s t i op rs1 sel hwf hi h ea
  refine (exec_raises hi h).imp_right ?_
  rintro (rfl | ⟨e, gpa, he, rfl⟩)
  · refine ⟨_, rfl, ?_, fun hz => by simp [illegalTval, hz]⟩
    rw [if_pos rfl]
    exact ⟨illegalTval_cases s, fun hinfo => by simp [illegalTval, hinfo]⟩
  · refine ⟨_, rfl, ?_, fun hz => by simp [addressTval, hz]⟩
    rw [if_neg he]
    exact ⟨addressTval_cases (Config.wf_logB hwf) ea, fun hinfo => by simp [addressTval, hinfo, ea]⟩

/-! ### Triggers (rules R247 to R251) -/

section
variable {s : State} {index : Nat} {t : Trigger} {c : TriggerClass} {ea : Word}

theorem triggerMatches_equal (h : bitField t.tdata1 7 4 = 0) : triggerMatches t ea = true ↔ ea = t.tdata2 := by
  simp [triggerMatches, h]

theorem triggerFires_not_enabled (h : triggerInMode s.cfg.xlen t s.mode = false) :
    triggerFires s index t c ea = false := by
  simp [triggerFires, h]

/-- A `type=6` trigger on addresses fires by its class and its match alone (rule R249). -/
theorem triggerFires_address (htype : triggerType s.cfg.xlen t = 6) (hdata : triggerOnData s.cfg.xlen t = false) :
    triggerFires s index t c ea =
      (triggerInMode s.cfg.xlen t s.mode && (triggerSelects t c && triggerMatches t ea)) := by
  simp [triggerFires, triggerUnspecified, htype, hdata]

/-- A trigger on loads or stores whose behaviour on a CMO instruction is UNSPECIFIED fires as is drawn (rules R248,
R250). -/
theorem triggerFires_drawn (htype : triggerType s.cfg.xlen t = 2 ∨ triggerType s.cfg.xlen t = 6)
    (hmode : triggerInMode s.cfg.xlen t s.mode = true) (hu : triggerUnspecified s.cfg.xlen t c = true)
    (ha : triggerOnAccess t = true) : triggerFires s index t c ea = triggerDraw s index t c := by
  rcases htype with htype | htype <;> simp [triggerFires, htype, hmode, hu, ha]

end

/-- No class of a CMO instruction is an instruction fetch, and none but that of a NOP keeps the triggers off. -/
theorem execute_and_cmo_of_class {cfg : Config} {c : TriggerClass}
    (hc : c ∈ [TriggerClass.management, TriggerClass.zero, TriggerClass.hint cfg]) :
    c.execute = false ∧ ((c = TriggerClass.hint cfg → cfg.hintAction ≠ .no ∨ cfg.hintTrigger = .loadAndStore) →
      c.cmo = true) := by
  simp only [List.mem_cons, List.not_mem_nil, or_false] at hc
  rcases hc with rfl | rfl | rfl
  · exact ⟨rfl, fun _ => rfl⟩
  · exact ⟨rfl, fun _ => rfl⟩
  · cases hh : cfg.hintTrigger <;> simp [TriggerClass.hint, hh]

/-- Settles O54: an address match is by mode, class and address; what is UNSPECIFIED is drawn, on a NOP nothing. -/
theorem triggerClassOfCmoInstructions : Obligations.TriggerClassOfCmoInstructions := by
  intro s index t ea classes type enabled
  have henabled : enabled = triggerInMode s.cfg.xlen t s.mode := by
    cases hm : s.mode <;> simp [enabled, hm, triggerInMode, type, beq_eq_decide]
  clear_value enabled
  subst henabled
  refine ⟨triggerMatches_equal, fun h c _ => triggerFires_not_enabled h, fun htype hdata hmatch c _ => ?_,
    fun hmode htype hdata hmatch => ?_, fun ha hn => ?_, fun hmode c hc hnop haccess => ?_⟩
  · simp [triggerFires_address htype hdata, hmatch]
  · simp only [triggerFires_address htype hdata, hmode, hmatch]
    refine ⟨?_, ?_, ?_⟩
    · simp [triggerSelects, TriggerClass.management]
    · simp [triggerSelects, TriggerClass.zero]
    · cases hh : s.cfg.hintTrigger <;> simp [triggerSelects, TriggerClass.hint, hh]
  · exact triggerFires_hint_of_specified hn (triggerUnspecified_hint_of_nop hn ha _ t) index ea
  · obtain ⟨hexecute, hcmo⟩ := execute_and_cmo_of_class hc
    have ha : triggerOnAccess t = true := by simpa [triggerOnAccess] using haccess
    refine ⟨fun htype hdata => ?_, fun htype hdata => ?_⟩
    · rw [triggerFires_drawn (.inl htype) hmode _ ha]
      · simp [triggerDraw, hdata, hexecute]
      · simp [triggerUnspecified, hcmo hnop, show triggerType s.cfg.xlen t = 2 from htype]
    · rw [triggerFires_drawn htype hmode _ ha]
      · simp [triggerDraw, hdata, hexecute]
      · simp [triggerUnspecified, hcmo hnop, hdata]

end Sys2Proof.Machine
end

section
/-!
PROOFS. `MXR` changes nothing of a CMO instruction (rule R230): no operation on memory and caches reads a control and
status register, no leaf is checked with `MXR` for the accesses of the extension, and a trap leaves the bit where it
stands.
-/

namespace Sys2Proof.Machine

/-! ### No operation on memory and caches reads a control and status register -/

section
variable (s : State) (c : Csrs)

theorem withCsr_ite (p : Prop) [Decidable p] (t : State) :
    withCsr (if p then s else t) c = if p then withCsr s c else withCsr t c := apply_ite (withCsr · c) p s t

theorem retire_withCsr : retire (withCsr s c) = withCsr (retire s) c := rfl

theorem firstTrigger_withCsr (access : TriggerClass) (ea : Word) (index : Nat) (l : List Trigger) :
    firstTrigger (withCsr s c) access ea index l = firstTrigger s access ea index l := by
  induction l generalizing index with
  | nil => rfl
  | cons t rest ih =>
    have hf : triggerFires (withCsr s c) index t access ea = triggerFires s index t access ea := rfl
    simp only [firstTrigger, hf, ih]

theorem disturbReservation_withCsr (pa : Nat) :
    disturbReservation (withCsr s c) pa = withCsr (disturbReservation s pa) c := by
  simp only [disturbReservation, withCsr_ite]
  rfl

theorem writePtes_withCsr (ws : List (Nat × List Byte)) : writePtes (withCsr s c) ws = withCsr (writePtes s ws) c := by
  induction ws generalizing s with
  | nil => rfl
  | cons w ws ih => exact ih (hartWrite s .store 0 w.1 w.2)

theorem performManagement_withCsr (op : CacheOp) (memType pa : Nat) (poc : Poc) :
    performManagement (withCsr s c) op memType pa poc = withCsr (performManagement s op memType pa poc) c := by
  rw [performManagement, performManagement, ← disturbReservation_withCsr]
  rfl

theorem allocateForWrite_withCsr (kind : AccessKind) (memType pa : Nat) (cache : Option Nat) :
    allocateForWrite (withCsr s c) kind memType pa cache = withCsr (allocateForWrite s kind memType pa cache) c := by
  cases cache with
  | none => rfl
  | some cache =>
    simp only [allocateForWrite, allocateAt, withCsr_ite]
    rfl

theorem zeroBlock_withCsr (level : Level) (memType pa : Nat) :
    zeroBlock (withCsr s c) level memType pa = withCsr (zeroBlock s level memType pa) c := by
  have hcache : zeroCache (withCsr s c) level memType pa = zeroCache s level memType pa := rfl
  rw [zeroBlock, zeroBlock, hcache, allocateForWrite_withCsr, ← disturbReservation_withCsr]
  rfl

theorem performHint_withCsr (kind : HintKind) (level : Level) (memType pa : Nat) :
    performHint (withCsr s c) kind level memType pa = withCsr (performHint s kind level memType pa) c := by
  have hcache : hintCache (withCsr s c) kind level memType pa = hintCache s kind level memType pa := rfl
  simp only [performHint, hcache, ← disturbReservation_withCsr]
  cases hintCache s kind level memType pa with
  | none => rfl
  | some cache =>
    simp only [withCsr_ite]
    rfl

end

/-! ### `MXR` in the registers -/

theorem getLsbD_setBit_mxr (w : Word) (a : Bool) {i : Nat} (h : i ≠ mxrBit) :
    (setBit w mxrBit a).getLsbD i = w.getLsbD i := by
  rw [getLsbD_setBit _ _ _ _ (by decide), if_neg h]

/-- A write of another bit comes before or after one of `MXR`. -/
theorem setBit_setBit_mxr (w : Word) (a x : Bool) {i : Nat} (hi : i < 64) (h : i ≠ mxrBit) :
    setBit (setBit w mxrBit a) i x = setBit (setBit w i x) mxrBit a := by
  refine BitVec.eq_of_getLsbD_eq fun k _ => ?_
  have hmxr : mxrBit < 64 := by decide
  simp only [getLsbD_setBit _ _ _ _ hi, getLsbD_setBit _ _ _ _ hmxr]
  by_cases hk : k = i
  · simp [hk, h]
  · simp [hk]

theorem setMpp_setBit_mxr (w : Word) (a : Bool) (v : BitVec 2) :
    setMpp (setBit w mxrBit a) v = setBit (setMpp w v) mxrBit a := by
  refine BitVec.eq_of_getLsbD_eq fun k _ => ?_
  simp only [setMpp, getLsbD_mergeBits, getLsbD_mppMask, getLsbD_setBit _ mxrBit _ _ (by decide)]
  by_cases hk : k = mxrBit
  · simp [hk, mxrBit]
  · simp [hk]

/-- The registers with other values of the two `MXR` bits. -/
def Csrs.withMxr (c : Csrs) (a b : Bool) : Csrs :=
  { c with mstatus := setBit c.mstatus mxrBit a, vsstatus := setBit c.vsstatus mxrBit b }

section
variable (c : Csrs) (a b : Bool)

theorem trapToM_withMxr (hasH : Bool) (pc : Word) (mode : Mode) (t : Trap) :
    (c.withMxr a b).trapToM hasH pc mode t = (c.trapToM hasH pc mode t).withMxr a b := by
  cases hasH <;> simp (disch := decide) only [Csrs.trapToM, Csrs.withMxr, setMpp_setBit_mxr, setBit_setBit_mxr,
    getLsbD_setBit_mxr, Bool.false_eq_true, if_true, if_false]

theorem trapToS_withMxr (hasH : Bool) (pc : Word) (mode : Mode) (t : Trap) :
    (c.withMxr a b).trapToS hasH pc mode t = (c.trapToS hasH pc mode t).withMxr a b := by
  simp (disch := decide) only [Csrs.trapToS, Csrs.withMxr, setBit_setBit_mxr, getLsbD_setBit_mxr]

theorem trapToVS_withMxr (pc : Word) (mode : Mode) (t : Trap) :
    (c.withMxr a b).trapToVS pc mode t = (c.trapToVS pc mode t).withMxr a b := by
  simp (disch := decide) only [Csrs.trapToVS, Csrs.withMxr, setBit_setBit_mxr, getLsbD_setBit_mxr]

end

/-- The state with other values of the two `MXR` bits. -/
def State.withMxr (s : State) (a b : Bool) : State := withCsr s (s.csr.withMxr a b)

/-- An outcome with other values of the two `MXR` bits. -/
def withMxrResult (a b : Bool) : Result → Result
  | .next t => .next (t.withMxr a b)
  | .fault f => .fault f
  | .refused r => .refused r

section
variable (s : State) (a b : Bool)

theorem takeTrap_withMxr (t : Trap) : takeTrap (s.withMxr a b) t = (takeTrap s t).withMxr a b := by
  have htarget : trapTarget (s.withMxr a b) t.cause = trapTarget s t.cause := rfl
  cases h : trapTarget s t.cause with
  | m =>
    rw [takeTrap_of_m h, takeTrap_of_m (htarget.trans h)]
    exact congrArg (fun c => ({ s with csr := c, mode := _, pc := _, tick := _ } : State)) (trapToM_withMxr ..)
  | s => 
    rw [takeTrap_of_s h, takeTrap_of_s (htarget.trans h)]
    exact congrArg (fun c => ({ s with csr := c, mode := _, pc := _, tick := _ } : State)) (trapToS_withMxr ..)
  | vs =>
    rw [takeTrap_of_vs h, takeTrap_of_vs (htarget.trans h)]
    exact congrArg (fun c => ({ s with csr := c, mode := _, pc := _, tick := _ } : State)) (trapToVS_withMxr ..)

theorem effMode_withMxr : effMode (s.withMxr a b) = effMode s := by
  have hmpp : mpp (s.withMxr a b).csr.mstatus = mpp s.csr.mstatus := mpp_setBit _ _ _ (by decide) (by decide)
  have hmprv : (s.withMxr a b).csr.mstatus.getLsbD mprvBit = s.csr.mstatus.getLsbD mprvBit :=
    getLsbD_setBit_mxr _ _ (by decide)
  have hmpv : (s.withMxr a b).csr.mstatus.getLsbD mpvBit = s.csr.mstatus.getLsbD mpvBit :=
    getLsbD_setBit_mxr _ _ (by decide)
  rw [effMode, hmpp, hmprv, hmpv]
  rfl

theorem triggerHit_withMxr (c : TriggerClass) (ea : Word) : triggerHit (s.withMxr a b) c ea = triggerHit s c ea :=
  firstTrigger_withCsr ..

end

/-! ### `MXR` in a translation (rules R222, R230) -/

/-- The leaf of an access of the extension is checked without `MXR`. -/
theorem leafPermits_mxr {kind : AccessKind} (hk : isCmoAccess kind = true) (mxr mxr' : Bool) :
    leafPermits kind mxr = leafPermits kind mxr' := by
  cases kind with
  | fetch | load | store => cases hk
  | management | zero | hint => rfl

theorem firstStage_mxr {kind : AccessKind} (hk : isCmoAccess kind = true) (s : State) (atp : Word)
    (fetchPte : PageFormat → Nat → Except XlateError (Nat × Nat)) (user sum mxr mxr' : Bool) (ea : Word) :
    firstStage s atp fetchPte kind user sum mxr ea = firstStage s atp fetchPte kind user sum mxr' ea := by
  have hpermits : firstPermits s.cfg kind user sum mxr = firstPermits s.cfg kind user sum mxr' := by
    funext pte
    simp only [firstPermits, leafPermits_mxr hk mxr mxr']
  simp only [firstStage, hpermits]

theorem guestStage_mxr {kind : AccessKind} (hk : isCmoAccess kind = true) (s : State) (mxr mxr' : Bool) (gpa : Nat) :
    guestStage s kind mxr gpa = guestStage s kind mxr' gpa := by
  have hpermits : guestPermits s.cfg kind mxr = guestPermits s.cfg kind mxr' := by
    funext pte
    simp only [guestPermits, leafPermits_mxr hk mxr mxr']
  simp only [guestStage, hpermits]

section
variable (s : State) (a b : Bool)

theorem hostTranslate_withMxr {kind : AccessKind} (hk : isCmoAccess kind = true) (user inval : Bool) (ea : Word) :
    hostTranslate (s.withMxr a b) kind user inval ea = hostTranslate s kind user inval ea := by
  have hsum : (s.withMxr a b).csr.mstatus.getLsbD sumBit = s.csr.mstatus.getLsbD sumBit :=
    getLsbD_setBit_mxr _ _ (by decide)
  rw [hostTranslate, hsum, firstStage_mxr hk _ _ _ _ _ _ (s.csr.mstatus.getLsbD mxrBit)]
  rfl

theorem guestTranslate_withMxr {kind : AccessKind} (hk : isCmoAccess kind = true) (user inval : Bool) (ea : Word) :
    guestTranslate (s.withMxr a b) kind user inval ea = guestTranslate s kind user inval ea := by
  have hsum : (s.withMxr a b).csr.vsstatus.getLsbD sumBit = s.csr.vsstatus.getLsbD sumBit :=
    getLsbD_setBit_mxr _ _ (by decide)
  have hguest : ∀ gpa, guestStage (s.withMxr a b) kind ((s.withMxr a b).csr.mstatus.getLsbD mxrBit) gpa =
      guestStage s kind (s.csr.mstatus.getLsbD mxrBit) gpa := guestStage_mxr hk s _ _
  rw [guestTranslate, hsum,
    firstStage_mxr hk _ _ _ _ _ _ (s.csr.vsstatus.getLsbD mxrBit || s.csr.mstatus.getLsbD mxrBit)]
  simp only [hguest]
  rfl

theorem translate_withMxr {kind : AccessKind} (hk : isCmoAccess kind = true) (inval : Bool) (eff : Mode) (ea : Word) :
    translate (s.withMxr a b) kind inval eff ea = translate s kind inval eff ea := by
  cases eff with
  | m => rfl
  | s | u => exact hostTranslate_withMxr s a b hk ..
  | vs | vu => exact guestTranslate_withMxr s a b hk ..

/-! ### `MXR` in an instruction -/

theorem raiseAddress_withMxr (e : Exception) (eff : Mode) (ea : Word) (gpa : Nat) :
    raiseAddress (s.withMxr a b) e eff ea gpa = (raiseAddress s e eff ea gpa).withMxr a b := takeTrap_withMxr ..

theorem raiseXlate_withMxr (eff : Mode) (ea : Word) (e : XlateError) :
    raiseXlate (s.withMxr a b) eff ea e = (raiseXlate s eff ea e).withMxr a b := by
  cases e <;> exact raiseAddress_withMxr ..

theorem withMxrResult_next : withMxrResult a b (.next s) = .next (s.withMxr a b) := rfl

theorem withMxrResult_refused (r : Refusal) : withMxrResult a b (.refused r) = .refused r := rfl

theorem withMxrResult_ite (p : Prop) [Decidable p] (r r' : Result) :
    withMxrResult a b (if p then r else r') = if p then withMxrResult a b r else withMxrResult a b r' :=
  apply_ite _ p r r'

/-- A management operation done. -/
theorem managementDone_withMxr (op : CacheOp) (poc : Poc) (t : Xlate) :
    retire (performManagement (writePtes (s.withMxr a b) t.pteWrites) op t.memType t.pa poc) =
      (retire (performManagement (writePtes s t.pteWrites) op t.memType t.pa poc)).withMxr a b := by
  simp only [State.withMxr, writePtes_withCsr, performManagement_withCsr, retire_withCsr, retire_csr,
    performManagement_csr, writePtes_csr]

theorem zeroDone_withMxr (level : Level) (t : Xlate) :
    retire (zeroBlock (writePtes (s.withMxr a b) t.pteWrites) level t.memType t.pa) =
      (retire (zeroBlock (writePtes s t.pteWrites) level t.memType t.pa)).withMxr a b := by
  simp only [State.withMxr, writePtes_withCsr, zeroBlock_withCsr, retire_withCsr, retire_csr, zeroBlock_csr,
    writePtes_csr]

theorem managementAccess_withMxr (kind : ManagementKind) (eff : Mode) (ea : Word) (poc : Poc) (t : Xlate) :
    managementAccess (s.withMxr a b) kind eff ea poc t = withMxrResult a b (managementAccess s kind eff ea poc t) := by
  have hop : managementOp (s.withMxr a b) kind eff t = managementOp s kind eff t := by cases kind <;> cases eff <;> rfl
  simp only [managementAccess, withMxrResult_ite, withMxrResult_next, withMxrResult_refused, raiseAddress_withMxr,
    managementDone_withMxr, hop]
  rfl

theorem managementChecks_withMxr (kind : ManagementKind) (ea : Word) (poc : Poc) :
    managementChecks (s.withMxr a b) kind ea poc = withMxrResult a b (managementChecks s kind ea poc) := by
  simp only [managementChecks, triggerHit_withMxr, effMode_withMxr, translate_withMxr s a b (kind := .management) rfl]
  cases triggerHit s TriggerClass.management ea with
  | some action =>
    cases action with
    | breakpoint => exact congrArg Host.Outcome.next (raiseAddress_withMxr ..)
    | debug => rfl
  | none =>
    cases translate s .management (kind == .inval) (effMode s) ea with
    | error e => exact congrArg Host.Outcome.next (raiseXlate_withMxr ..)
    | ok t => exact managementAccess_withMxr ..

theorem raiseIllegal_withMxr : raiseIllegal (s.withMxr a b) = (raiseIllegal s).withMxr a b := takeTrap_withMxr ..

theorem execManagement_withMxr (kind : ManagementKind) (rs1 : RegIdx) (poc : Poc) :
    execManagement kind rs1 poc (s.withMxr a b) = withMxrResult a b (execManagement kind rs1 poc s) := by
  have hlegal : illegalCbme (s.withMxr a b).csr (s.withMxr a b).mode = illegalCbme s.csr s.mode := by
    cases hm : s.mode <;> simp [illegalCbme, State.withMxr, Csrs.withMxr, hm, enabledIn]
  simp only [execManagement, hlegal, withMxrResult_ite, withMxrResult_next, raiseIllegal_withMxr,
    managementChecks_withMxr]
  rfl

theorem zeroAccess_withMxr (eff : Mode) (ea : Word) (level : Level) (t : Xlate) :
    zeroAccess (s.withMxr a b) eff ea level t = withMxrResult a b (zeroAccess s eff ea level t) := by
  simp only [zeroAccess, withMxrResult_ite, withMxrResult_next, withMxrResult_refused, raiseAddress_withMxr,
    zeroDone_withMxr]
  rfl

theorem zeroChecks_withMxr (ea : Word) (level : Level) :
    zeroChecks (s.withMxr a b) ea level = withMxrResult a b (zeroChecks s ea level) := by
  simp only [zeroChecks, triggerHit_withMxr, effMode_withMxr, translate_withMxr s a b (kind := .zero) rfl]
  cases triggerHit s TriggerClass.zero ea with
  | some action =>
    cases action with
    | breakpoint => exact congrArg Host.Outcome.next (raiseAddress_withMxr ..)
    | debug => rfl
  | none =>
    cases translate s .zero false (effMode s) ea with
    | error e => exact congrArg Host.Outcome.next (raiseXlate_withMxr ..)
    | ok t => exact zeroAccess_withMxr ..

theorem execCboZero_withMxr (rs1 : RegIdx) (level : Level) :
    execCboZero rs1 level (s.withMxr a b) = withMxrResult a b (execCboZero rs1 level s) := by
  have hlegal : illegalCbwe (s.withMxr a b).csr (s.withMxr a b).mode = illegalCbwe s.csr s.mode := by
    cases hm : s.mode <;> simp [illegalCbwe, State.withMxr, Csrs.withMxr, hm, enabledIn]
  simp only [execCboZero, hlegal, withMxrResult_ite, withMxrResult_next, raiseIllegal_withMxr, zeroChecks_withMxr]
  rfl

theorem hintDone_withMxr (kind : HintKind) (level : Level) (t : Xlate) :
    retire (performHint (s.withMxr a b) kind level t.memType t.pa) =
      (retire (performHint s kind level t.memType t.pa)).withMxr a b := by
  simp only [State.withMxr, performHint_withCsr, retire_withCsr, retire_csr, performHint_csr]

theorem hintAccess_withMxr (kind : HintKind) (level : Level) (ea : Word) :
    hintAccess (s.withMxr a b) kind level ea = (hintAccess s kind level ea).withMxr a b := by
  have hite : ∀ (p : Prop) [Decidable p] (t t' : State),
      (if p then t else t').withMxr a b = if p then t.withMxr a b else t'.withMxr a b :=
    fun p _ t t' => apply_ite (State.withMxr · a b) p t t'
  simp only [hintAccess, effMode_withMxr, translate_withMxr s a b (kind := .hint) rfl]
  cases translate s .hint false (effMode s) ea with
  | error e => rfl
  | ok t =>
    simp only [hite, hintDone_withMxr]
    rfl

theorem execHint_withMxr (kind : HintKind) (rs1 : RegIdx) (level : Level) :
    execHint kind rs1 level (s.withMxr a b) = withMxrResult a b (execHint kind rs1 level s) := by
  have hea : effectiveAddress (s.withMxr a b) rs1 = effectiveAddress s rs1 := rfl
  have hcfg : (s.withMxr a b).cfg = s.cfg := rfl
  simp only [execHint, hea, hcfg, triggerHit_withMxr, effMode_withMxr, hintAccess_withMxr, raiseAddress_withMxr]
  cases triggerHit s (TriggerClass.hint s.cfg) (effectiveAddress s rs1) with
  | some action => cases action <;> rfl
  | none => rfl

theorem exec_withMxr (i : Instr) : exec i (s.withMxr a b) = withMxrResult a b (exec i s) := by
  cases i with
  | cboInval | cboClean | cboFlush => exact execManagement_withMxr ..
  | cboZero => exact execCboZero_withMxr ..
  | prefetchR | prefetchW | prefetchI | demote => exact execHint_withMxr ..
  | cboSize => rfl

end

/-- Settles O25: an instruction on the other bits has the outcome of the one before, with the other bits. -/
theorem mxrHasNoEffect : Obligations.MxrHasNoEffect := fun s i a b =>
  ⟨fun _ ht => (exec_withMxr s a b i).trans (congrArg (withMxrResult a b) ht),
    fun _ hr => (exec_withMxr s a b i).trans (congrArg (withMxrResult a b) hr)⟩

end Sys2Proof.Machine
end

section
/-!
PROOFS. The obligation of spec/70_reset_and_hazards.md: the CMO instructions right after reset.
-/

namespace Sys2Proof.Machine

/-! ### An instruction whose translation is done: no check after it takes another fault than an access fault -/

section
variable {kind : ManagementKind} {poc : Poc} {level : Level} {eff : Mode} {ea : Word} {tr : Xlate} {rs1 : RegIdx}
  {s t : State}

theorem managementAccess_class (h : managementAccess s kind eff ea poc tr = .next t) :
    (∃ s', SameHart s s' ∧ t = retire s') ∨ Takes s .storeAccess (.next t) := by
  unfold managementAccess at h
  split at h
  · cases h
  · split at h
    · exact .inr (h ▸ raiseAddress_takes ..)
    · cases h
      exact .inl ⟨_, (writePtes_sameHart ..).trans (performManagement_sameHart ..), rfl⟩

theorem zeroAccess_class (h : zeroAccess s eff ea level tr = .next t) :
    (∃ s', SameHart s s' ∧ t = retire s') ∨ Takes s .storeAccess (.next t) := by
  unfold zeroAccess at h
  split at h
  · cases h
  · split at h
    · exact .inr (h ▸ raiseAddress_takes ..)
    · split at h
      · cases h
      · cases h
        exact .inl ⟨_, (writePtes_sameHart ..).trans (zeroBlock_sameHart ..), rfl⟩

/-- A legal management instruction whose address translates completes, or takes one of two exceptions (rule R159). -/
theorem execManagement_translated (hl : illegalCbme s.csr s.mode = false)
    (htr : translate s .management (kind == .inval) (effMode s) (effectiveAddress s rs1) = .ok tr)
    (h : execManagement kind rs1 poc s = .next t) :
    (∃ s', SameHart s s' ∧ t = retire s') ∨ ∃ e ∈ [Exception.breakpoint, .storeAccess], Takes s e (.next t) := by
  cases ht : triggerHit s TriggerClass.management (effectiveAddress s rs1) with
  | some action =>
    cases action with
    | debug => simp [execManagement, hl, managementChecks, ht] at h
    | breakpoint =>
      exact .inr ⟨.breakpoint, by simp, h ▸ execManagement_breakpoint hl ht ▸ raiseAddress_takes ..⟩
  | none =>
    have haccess : managementAccess s kind (effMode s) (effectiveAddress s rs1) poc tr = .next t := by
      simpa [execManagement, hl, managementChecks, ht, htr] using h
    exact (managementAccess_class haccess).imp_right fun htk => ⟨.storeAccess, by simp, htk⟩

/-- A legal `CBO.ZERO` whose address translates completes, or takes one of two exceptions (rule R174). -/
theorem execCboZero_translated (hl : illegalCbwe s.csr s.mode = false)
    (htr : translate s .zero false (effMode s) (effectiveAddress s rs1) = .ok tr)
    (h : execCboZero rs1 level s = .next t) :
    (∃ s', SameHart s s' ∧ t = retire s') ∨ ∃ e ∈ [Exception.breakpoint, .storeAccess], Takes s e (.next t) := by
  cases ht : triggerHit s TriggerClass.zero (effectiveAddress s rs1) with
  | some action =>
    cases action with
    | debug => simp [execCboZero, hl, zeroChecks, ht] at h
    | breakpoint =>
      exact .inr ⟨.breakpoint, by simp, h ▸ execCboZero_breakpoint hl ht ▸ raiseAddress_takes ..⟩
  | none =>
    have haccess : zeroAccess s (effMode s) (effectiveAddress s rs1) level tr = .next t := by
      simpa [execCboZero, hl, zeroChecks, ht, htr] using h
    exact (zeroAccess_class haccess).imp_right fun htk => ⟨.storeAccess, by simp, htk⟩

end

/-! ### M-mode, where no `xcmocontrol` register counts and nothing is translated (rules R216, R217, R222, R244) -/

theorem illegalCbme_m (c : Csrs) : illegalCbme c .m = false := rfl

theorem illegalCbwe_m (c : Csrs) : illegalCbwe c .m = false := rfl

theorem translate_m (s : State) (kind : AccessKind) (inval : Bool) (ea : Word) :
    translate s kind inval .m ea =
      .ok { pa := ea.toNat, wVS := none, wS := none, wG := none, memType := 0, pteWrites := [] } := rfl

/-- An instruction in M-mode whose effective mode is M-mode too completes, or takes one of two exceptions. -/
theorem exec_m_class {i : Instr} {s t : State} (hm : s.mode = .m) (heff : effMode s = .m) (h : exec i s = .next t) :
    (∃ s', SameHart s s' ∧ t = retire s') ∨ ∃ e ∈ [Exception.breakpoint, .storeAccess], Takes s e (.next t) := by
  have hcbme : illegalCbme s.csr s.mode = false := by rw [hm, illegalCbme_m]
  have hcbwe : illegalCbwe s.csr s.mode = false := by rw [hm, illegalCbwe_m]
  have htr (kind inval rs1) := heff ▸ translate_m s kind inval (effectiveAddress s rs1)
  have hhint : ∀ {kind rs1 level}, execHint kind rs1 level s = .next t → (∃ s', SameHart s s' ∧ t = retire s') ∨
      ∃ e ∈ [Exception.breakpoint, .storeAccess], Takes s e (.next t) := fun hx =>
    (execHint_class hx).imp_right fun htk => ⟨.breakpoint, by simp, htk⟩
  cases i with
  | cboInval | cboClean | cboFlush => exact execManagement_translated hcbme (htr ..) h
  | cboZero => exact execCboZero_translated hcbwe (htr ..) h
  | prefetchR | prefetchW | prefetchI | demote => exact hhint h
  | cboSize => cases h

/-- The hart comes out of reset with M-mode as its effective mode (rules R214, R261). -/
theorem State.AfterReset.effMode_eq {s : State} (h : s.AfterReset) : effMode s = .m :=
  (effectiveModeByMprv s).2.1 h.mode h.mprv

/-- Settles O58: mode and effective mode are M-mode, in which no `xcmocontrol` register counts. -/
theorem afterResetEveryCmoIsLegal : Obligations.AfterResetEveryCmoIsLegal := by
  intro s t i rs1 tr h
  have hkeeps : invalIsInvalidate s.csr (machineW s .m tr.pa) tr.wS tr.wG tr.wVS .m = true := rfl
  refine ⟨exec_m_class h.mode h.effMode_eq, ?_⟩
  rw [h.effMode_eq]
  exact ⟨managementOp_inval_of_keeps hkeeps, invalDenied_inval_iff.mpr (.inl rfl), translate_m ..⟩

end Sys2Proof.Machine
end
